-- ==== Sys2Proof/Word.lean ====
section
/-! DEFINITION. The word types of the Ganyx: bytes, 64-bit words, 2048-bit vectors, 512-bit quires (R1, R41, R58). -/

namespace Sys2Proof

/-- A byte of any memory. -/
abbrev Byte := BitVec 8

/-- A 64-bit scalar or system-register word. -/
abbrev Word := BitVec 64

/-- A 256-byte vector register, operand-file entry, latch or FIFO entry (R41). -/
abbrev Vec := BitVec 2048

/-- A 512-bit quire (R58). -/
abbrev Quire := BitVec 512

/-- A lane mask: bit `l` governs lane `l` (R75). -/
abbrev Mask := BitVec 128

/-- The 128 FLG bytes of one vector unit, lane `l` in bits `8l+7 : 8l` (R65, Table 9.6). -/
abbrev FlgVec := BitVec 1024

end Sys2Proof
end

