-- ==== Sys2Proof/Machine/Draw.lean ====
section
/-! DEFINITION. The rounding draws (R321) and the cyclic redundancy checks of the device. -/

namespace Sys2Proof.Machine

def rotl32 (x : BitVec 32) (r : Nat) : BitVec 32 := (x <<< r) ||| (x >>> (32 - r))

/-- draw (R321). -/
def draw (k : BitVec 64) (t : BitVec 16) (s i j : BitVec 32) : BitVec 32 :=
  let klo := k.setWidth 32
  let khi := (k >>> 32).setWidth 32
  let h := klo ^^^ (i * 0x9E3779B1#32) ^^^ rotl32 (j * 0x85EBCA77#32) 13 ^^^ (t.setWidth 32 <<< 16) ^^^ s
  let h := (h ^^^ (h >>> 16)) * 0x7FEB352D#32
  let h := (h ^^^ (h >>> 15)) * 0x846CA68B#32
  let h := h ^^^ (h >>> 16) ^^^ khi
  let h := (h ^^^ (h >>> 15)) * 0x2C1B3C6D#32
  h ^^^ (h >>> 12)

/-- One bit step of a reflected CRC. -/
def crcStepR (poly : BitVec 32) : Nat → BitVec 32 → BitVec 32
  | 0, c => c
  | n + 1, c => crcStepR poly n (if c.getLsbD 0 then (c >>> 1) ^^^ poly else c >>> 1)

/-- CRC-32C: the reflected Castagnoli polynomial, all-ones initial value and final exclusive-or (the manual names the
check and no parameters). -/
def crc32c (bs : List Byte) : BitVec 32 :=
  ~~~ bs.foldl (fun c b => crcStepR 0x82F63B78#32 8 (c ^^^ b.setWidth 32)) 0xFFFFFFFF#32

/-- One bit step of a CRC taken most significant bit first. -/
def crcStep64 : Nat → BitVec 64 → BitVec 64
  | 0, c => c
  | n + 1, c => crcStep64 n (if c.getLsbD 63 then (c <<< 1) ^^^ 0x42F0E1EBA9EA3693#64 else c <<< 1)

/-- Continue a CRC-64 of the ECMA-182 polynomial, non-reflected, without a final exclusive-or (R398). -/
def crc64 (c : BitVec 64) (bs : List Byte) : BitVec 64 :=
  bs.foldl (fun (c : BitVec 64) (b : Byte) => crcStep64 8 (c ^^^ (BitVec.setWidth 64 b <<< 56))) c

end Sys2Proof.Machine
end

