-- ==== Sys2Proof/Syntax.lean ====
section
/-! DEFINITION. The abstract syntax: the operand forms of the eight slots (Tables 4.2-4.4, 9.2, 10.2, 12.1, 12.2, 13.1,
14.3, 17.1) and ONE inductive `Instr`, one constructor per row of the table of operations and events. The first 137
rows are slot operations, which bundles encode; the others are events of the part, which have no encoding and whose
operands are the data the event brings. -/

namespace Sys2Proof

/-- The predicate condition of a slot operation: `p[pr]`, negated when `pn` (R73). -/
structure Pred where
  pn : Bool
  pr : BitVec 3
  deriving DecidableEq, Repr

/-- Format codes of the VA, VB, MX slots and of XQADD and XQRD (Table 3.1). -/
inductive Fmt where
  | i32 | i16 | i8 | f32 | b16 | t4e0 | t4e1 | t8e0 | t8e1 | t8e2 | t8e3 | t16e1 | t16e2 | t16e3 | t32e1 | t32e2
  deriving DecidableEq, Repr

/-- Integer widths of the CTL slot, LDVB, LDS and STS (R40). -/
inductive IW where
  | w64 | w32 | w16 | w8
  deriving DecidableEq, Repr

/-- Rounding modes (R47). -/
inductive RM where
  | rne | sr | rz
  deriving DecidableEq, Repr

/-- The two vector units, slots 1 and 2 (R96). -/
inductive VUnit where
  | va | vb
  deriving DecidableEq, Repr

/-- A 10-bit vector operand (Table 4.6). -/
inductive VOp where
  | main (view : BitVec 2) (idx : BitVec 6)
  | opf (n : BitVec 4)
  | latch (n : BitVec 2)
  | zero
  | ones
  | bc (s : BitVec 5)
  deriving DecidableEq, Repr

/-- An operand field of a VA or VB operation, by the kinds of R261. `nil` is a field that must be zero. -/
inductive VField where
  | nil
  | v (o : VOp)
  | m (r : BitVec 3)
  | s (r : BitVec 5)
  | q (r : BitVec 2)
  deriving DecidableEq, Repr

/-- Operands of a VA or VB operation (Tables 4.4, 13.1). `imm` holds the sub-fields of slot bits [17:8] when they are
not the operand `c`; `m` is the governing mask, `var` the variant. -/
structure VArgs where
  u : VUnit
  p : Pred
  fmt : Fmt
  d : VField
  a : VField
  b : VField
  c : VField
  imm : BitVec 10
  rm : RM
  q : Bool
  m : BitVec 3
  var : BitVec 2
  deriving DecidableEq, Repr

/-- A second scalar source: a register or an extended 36-bit or 32-bit immediate. -/
inductive SrcB where
  | reg (r : BitVec 5)
  | imm (v : BitVec 36)
  deriving DecidableEq, Repr

/-- Opcodes 0x01-0x11 of the CTL slot (R169, R170). -/
structure AluArgs where
  p : Pred
  w : IW
  u : Bool
  sd : BitVec 5
  sa : BitVec 5
  b : SrcB
  deriving DecidableEq, Repr

/-- MOVHI (R173). -/
structure MovhiArgs where
  p : Pred
  sd : BitVec 5
  sa : BitVec 5
  imm : BitVec 28
  deriving DecidableEq, Repr

/-- A second source of SEL and CMP: a register or a 32-bit immediate (R174, R175). -/
inductive SrcB32 where
  | reg (r : BitVec 5)
  | imm (v : BitVec 32)
  deriving DecidableEq, Repr

/-- SEL (R174). -/
structure SelArgs where
  p : Pred
  w : IW
  u : Bool
  sd : BitVec 5
  sa : BitVec 5
  ps : BitVec 3
  psn : Bool
  b : SrcB32
  deriving DecidableEq, Repr

/-- Conditions of CMP and VCMP (Table 9.3). -/
inductive Cond where
  | eq | ne | lt | ge | le | gt | tst | ntst
  deriving DecidableEq, Repr

/-- CMP (R175). -/
structure CmpArgs where
  p : Pred
  w : IW
  u : Bool
  pd : BitVec 3
  sa : BitVec 5
  b : SrcB32
  cond : Cond
  deriving DecidableEq, Repr

/-- PLOG (R176). -/
structure PlogArgs where
  p : Pred
  pd : BitVec 3
  pa : BitVec 3
  pb : BitVec 3
  tt : BitVec 4
  deriving DecidableEq, Repr

/-- Where a CALL takes its target from: the bundle's offset (I = 1) or a register (I = 0). -/
inductive CallBase where
  | rel
  | reg (r : BitVec 5)
  deriving DecidableEq, Repr

/-- The count of a LOOP (R181). -/
inductive LoopCount where
  | reg (r : BitVec 5)
  | imm (n : BitVec 20)
  deriving DecidableEq, Repr

/-- LOOP (R181). -/
structure LoopArgs where
  p : Pred
  rt : Bool
  pe : Bool
  len : BitVec 16
  n : LoopCount
  deriving DecidableEq, Repr

/-- The data operand of a LD or ST operation (Table 10.2). -/
inductive LsData where
  | nil
  | wide (view : BitVec 2) (idx : BitVec 8)
  | sreg (r : BitVec 5)
  | opf (n : BitVec 4)
  | vq (n : BitVec 2)
  | part (n : BitVec 3)
  deriving DecidableEq, Repr

/-- Operands of a LD or ST operation (Tables 4.4, 10.2). -/
structure LsArgs where
  p : Pred
  w : IW
  data : LsData
  sb : BitVec 5
  si : BitVec 5
  sc : BitVec 2
  imm : BitVec 18
  m : BitVec 3
  u : Bool
  deriving DecidableEq, Repr

/-- Operands of a MX operation (Tables 4.4, 14.3). -/
structure MxArgs where
  p : Pred
  fmt : Fmt
  row : BitVec 5
  view : BitVec 2
  idx : BitVec 8
  sr : BitVec 5
  imm : BitVec 16
  z : Bool
  k : Bool
  s : Bool
  c : Bool
  rm : RM
  q : Bool
  m : BitVec 3
  var : BitVec 2
  deriving DecidableEq, Repr

/-- Operands of a XE operation in the default layout (Tables 4.4, 12.1): the queue, the template index, the four
override registers, their enables, and the command field. -/
structure XeArgs where
  p : Pred
  fmt : Fmt
  xq : BitVec 2
  tix : BitVec 15
  r0 : BitVec 5
  r1 : BitVec 5
  r2 : BitVec 5
  r3 : BitVec 5
  en : BitVec 4
  cmd : BitVec 7
  deriving DecidableEq, Repr

/-- XSIG (Table 12.2). -/
structure XsigArgs where
  p : Pred
  xq : BitVec 2
  ctr : BitVec 6
  l : Bool
  h : BitVec 6
  sa : BitVec 5
  imm : BitVec 20
  deriving DecidableEq, Repr

/-- XWORD (Table 12.2). -/
structure XwordArgs where
  p : Pred
  xq : BitVec 2
  l : Bool
  h : BitVec 6
  sa : BitVec 5
  sb : BitVec 5
  imm : BitVec 15
  deriving DecidableEq, Repr

/-- A test or limited form of WAITGE, WAITW, FWAIT and FFREE: the limit, the declared mark and the predicate (R349). -/
structure WaitForm where
  limit : BitVec 20
  dcl : Bool
  pd : BitVec 3
  deriving DecidableEq, Repr

/-- Comparison of a WAITW (R349). -/
inductive WCond where
  | ge | eq | ne
  deriving DecidableEq, Repr

/-- Fence scopes (Table 16.1). -/
inductive Scope where
  | t | f | d | p | s
  deriving DecidableEq, Repr

/-- The two operand FIFOs. -/
inductive FS where
  | fa | fb
  deriving DecidableEq, Repr

/-- FADV, FWAIT and FFREE name a FIFO and a number of entries. -/
structure FifoArgs where
  p : Pred
  fs : FS
  n : BitVec 5
  form : WaitForm
  deriving DecidableEq, Repr

/-- The memories outside the tiles (R422, R332). -/
inductive Space where
  | hbm | lpddr | host
  deriving DecidableEq, Repr

/-- What the host reads through: a memory window or its own memory, the registers of BAR0, the doorbell pages of BAR2, and the
journal window of BAR4 (R24, R106, R126, R347). -/
inductive HostWin where
  | mem (sp : Space)
  | bar0 | bar2 | bar4
  deriving DecidableEq, Repr

/-- What comes from another package: bytes to write, or the addend of a quire cell, as a quire or as an element of a format (R64). -/
inductive PeerOp where
  | write
  | quire
  | elem (f : Fmt)
  deriving DecidableEq, Repr

/-- A function of the readiness map (Table 2.2). -/
inductive Func where
  | tile (t : Nat)
  | hbm (n : Nat)
  | lpddr (n : Nat)
  | die (n : Nat)
  | boundary (n : Nat)
  | dv (n : Nat)
  | mgmt (n : Nat)
  | pf
  deriving DecidableEq, Repr

/-- A unit that counts ECC events (R36). -/
inductive EccUnit where
  | scratch (t : Nat)
  | quire (t : Nat)
  | regs (t : Nat)
  | hbm (n : Nat)
  | lpddr (n : Nat)
  | boundary (n : Nat)
  deriving DecidableEq, Repr

/-- Where an arrival counter stands (R219). -/
inductive ArrLoc where
  | tile (t : Nat)
  | hbm (stack : Nat)
  | lpddr
  deriving DecidableEq, Repr

/-- The causes of a module reset that R21 names; a life-cycle transition performs one too (R28). -/
inductive ResetCause where
  | powerOn | fundamental | hardTrip
  deriving DecidableEq, Repr

/-- The condition behind a stretch, and the limits behind a hard trip (Table 2.5). -/
inductive TripCause where
  | junction | input | flow
  deriving DecidableEq, Repr

/-- The host's words of a queue's configuration and debug blocks (Tables 6.1, 19.4) as the enabling write finds them. -/
structure QueueWords where
  base : BitVec 64
  cfg : BitVec 64
  ptr : BitVec 64
  cq : BitVec 64
  dbgctl : BitVec 64
  slbase : BitVec 64
  trbase : BitVec 64
  hrbase : BitVec 64
  prbase : BitVec 64
  dbgsz : BitVec 64
  bp0 : BitVec 64
  bp1 : BitVec 64
  deriving DecidableEq, Repr

/-- The rows of the table of operations and events. -/
inductive Instr where
  -- CTL slot
  | add (o : AluArgs) | sub (o : AluArgs) | mul (o : AluArgs) | mulh (o : AluArgs) | div (o : AluArgs) | rem (o : AluArgs)
  | and (o : AluArgs) | or (o : AluArgs) | xor (o : AluArgs) | shl (o : AluArgs) | shr (o : AluArgs) | sra (o : AluArgs)
  | min (o : AluArgs) | max (o : AluArgs) | clz (o : AluArgs) | popc (o : AluArgs) | movi (o : AluArgs)
  | movhi (o : MovhiArgs) | sel (o : SelArgs) | cmp (o : CmpArgs) | plog (o : PlogArgs)
  | br (p : Pred) (disp : BitVec 20)
  | bri (p : Pred) (sa : BitVec 5) (disp : BitVec 20)
  | call (p : Pred) (sd : BitVec 5) (base : CallBase) (disp : BitVec 20)
  | ret (p : Pred) (sa : BitVec 5)
  | loop (o : LoopArgs)
  | loopx (p : Pred)
  | lidx (p : Pred) (sd : BitVec 5) (d : BitVec 3)
  | sysr (p : Pred) (sd : BitVec 5) (num : BitVec 12)
  | sysw (p : Pred) (sa : BitVec 5) (num : BitVec 12)
  | keyWrite (p : Pred) (sa : BitVec 5)
  | cmapWrite (p : Pred) (sa : BitVec 5) (n : BitVec 6)
  | cntWrite (p : Pred) (sa : BitVec 5) (n : BitVec 6)
  | preqSave (t : Nat) (k : BitVec 2)
  | preqRestore (t : Nat) (k : BitVec 2)
  | imageOperationEnd (t : Nat) (k : BitVec 2)
  | trap (p : Pred) (imm : BitVec 16)
  | tret (p : Pred)
  | exit (p : Pred)
  -- VA and VB slots
  | vadd (o : VArgs) | vsub (o : VArgs) | vmul (o : VArgs) | vmulh (o : VArgs) | vmin (o : VArgs) | vmax (o : VArgs)
  | vabs (o : VArgs) | vlog (o : VArgs) | vsh (o : VArgs) | vcmp (o : VArgs) | vsel (o : VArgs) | vmov (o : VArgs)
  | vbcast (o : VArgs) | viota (o : VArgs)
  | vfadd (o : VArgs) | vfsub (o : VArgs) | vfmul (o : VArgs) | vfma (o : VArgs) | vfneg (o : VArgs) | vfabs (o : VArgs)
  | vfmin (o : VArgs) | vfmax (o : VArgs) | vfdiv (o : VArgs) | vfsqrt (o : VArgs) | vfspec (o : VArgs)
  | vfcmp (o : VArgs) | vfscalb (o : VArgs) | vcvt (o : VArgs) | vcvti (o : VArgs) | vpack (o : VArgs) | vunpk (o : VArgs)
  | vperm (o : VArgs) | vrot (o : VArgs) | vred (o : VArgs) | vargmax (o : VArgs) | vscan (o : VArgs)
  | vsortk (o : VArgs) | vcomp (o : VArgs)
  | vqclr (o : VArgs) | vqdot (o : VArgs) | vqsum (o : VArgs) | vqrnd (o : VArgs) | vqmov (o : VArgs)
  | vqscale (o : VArgs) | vqraw (o : VArgs)
  | vpushf (o : VArgs) | vrand (o : VArgs) | vflg (o : VArgs) | mlog (o : VArgs) | mcnt (o : VArgs) | mfirst (o : VArgs)
  -- MX slot
  | mpush (o : MxArgs) | mshift (o : MxArgs) | macc (o : MxArgs) | mdrain (o : MxArgs) | mqadd (o : MxArgs)
  | mqscale (o : MxArgs) | mqneg (o : MxArgs) | mqclr (o : MxArgs) | mqcopy (o : MxArgs) | mqspill (o : MxArgs)
  | mqfill (o : MxArgs) | morig (o : MxArgs)
  | mnop (hint : BitVec 4) (val : BitVec 56)
  -- LD and ST slots
  | ldv (o : LsArgs) | ldvb (o : LsArgs) | lds (o : LsArgs) | ldof (o : LsArgs) | ldq (o : LsArgs)
  | ldsclA (o : LsArgs) | ldsclB (o : LsArgs)
  | stv (o : LsArgs) | stvm (o : LsArgs) | sts (o : LsArgs) | stq (o : LsArgs)
  -- XE slot
  | xcopy (o : XeArgs) | xfill (o : XeArgs) | xgath (o : XeArgs) | xscat (o : XeArgs) | xcsr (o : XeArgs) | xdec (o : XeArgs)
  | xatom (o : XeArgs) | xqadd (o : XeArgs) | xqrd (o : XeArgs) | xqclr (o : XeArgs)
  | xsig (o : XsigArgs) | xword (o : XwordArgs)
  | xjoin (p : Pred) (xq : BitVec 2) (jm : BitVec 4)
  | xlrf (p : Pred)
  | xrec (o : XeArgs)
  | xadv (p : Pred) (nm1 : BitVec 4)
  | xarm (o : XeArgs)
  | xstat (p : Pred) (xq : BitVec 2) (sd : BitVec 5) (sel : BitVec 2)
  | xcancel (p : Pred) (cm : BitVec 4) (sd : BitVec 5)
  | xnop (hint : BitVec 4) (val : BitVec 56)
  -- SY slot
  | waitge (p : Pred) (ctr : BitVec 6) (sa : BitVec 5) (imm : BitVec 9) (form : WaitForm)
  | waitw (p : Pred) (sb : BitVec 5) (sa : BitVec 5) (cond : WCond) (off : BitVec 8) (form : WaitForm)
  | sig (p : Pred) (ctr : BitVec 6) (sa : BitVec 5) (imm : BitVec 20)
  | barr (p : Pred) (b : BitVec 3) (dcl : Bool) (limit : BitVec 20)
  | realign (p : Pred) (sa : BitVec 5) (imm : BitVec 32)
  | fence (p : Pred) (sc : Scope)
  | fadv (p : Pred) (fs : FS) (n : BitVec 5)
  | fwait (o : FifoArgs)
  | ffree (o : FifoArgs)
  -- events of the tiles
  | mergeStageChoice (t : Nat)
  | bundleFetch (t : Nat) (k : BitVec 2)
  | resultLand (t : Nat) (k : BitVec 2)
  | waitConditionMet (t : Nat) (k : BitVec 2)
  | wto (t : Nat) (k : BitVec 2)
  | waitProbe (t : Nat) (k : BitVec 2)
  | furrowBundleDelivery (t : Nat) (k : BitVec 2)
  | slip (t : Nat) (k : BitVec 2) (slot : BitVec 3) (cycles : Nat)
  -- power, reset, life cycle
  | stretchCondition
  | stretch (cycles : Nat)
  | clockStep (mhz : Nat)
  | hardTrip (c : TripCause)
  | moduleReset (c : ResetCause)
  | functionReady (f : Func)
  | readyTimeout (f : Func)
  | eccCorrectable (u : EccUnit)
  | dieReset (n : Nat)
  | drainEnd (n : Nat)
  | drainDeadline (n : Nat)
  | attest (rqlen : BitVec 16) (req : List (BitVec 8))
  | lcchal (rqlen : BitVec 16)
  | lctrans (rqlen : BitVec 16) (req : List (BitVec 8))
  | fwload (rqlen : BitVec 16) (req : List (BitVec 8))
  | diereset (rqlen : BitVec 16) (req : List (BitVec 8))
  -- queues, records, launches
  | queueEnable (q : BitVec 6) (w : QueueWords)
  | queueDisable (q : BitVec 6)
  | tailWrite (q : BitVec 6) (t : BitVec 32)
  | wkick
  | launchRecord (q : BitVec 6)
  | killRecord (q : BitVec 6)
  | migrateRecord (q : BitVec 6)
  | migrateComplete (q : BitVec 6) (i : BitVec 32)
  | launchWalk (q : BitVec 6) (i : BitVec 32)
  | walkReread (q : BitVec 6) (i : BitVec 32)
  | pttime (q : BitVec 6) (i : BitVec 32)
  | launchAdmission (q : BitVec 6) (i : BitVec 32)
  | launchPacketPlace (die : Nat) (q : BitVec 6) (i : BitVec 32)
  | loadAck (die : Nat) (q : BitVec 6) (i : BitVec 32)
  | contextStart (q : BitVec 6) (i : BitVec 32)
  | sidingRelease (tenant : BitVec 16) (slot : BitVec 8)
  | contextRetire (t : Nat) (k : BitVec 2)
  | retirementReport (die : Nat) (q : BitVec 6) (i : BitVec 32)
  | launchRetire (q : BitVec 6) (i : BitVec 32)
  | killArrival (t : Nat) (q : BitVec 6) (i : BitVec 32)
  | quiesceAck (die : Nat) (q : BitVec 6) (i : BitVec 32)
  | quiesceTimeout (die : Nat) (q : BitVec 6) (i : BitVec 32)
  -- transfer engine, counters, barriers
  | remoteAddArrival (q : BitVec 6) (i : BitVec 32) (t : Nat) (k : BitVec 2) (ctr : BitVec 6) (amt : BitVec 64)
  | barrierRelease (q : BitVec 6) (i : BitVec 32) (b : BitVec 3)
  | xeCommandStart (t : Nat) (k : BitVec 2) (xq : BitVec 2)
  | xeBeatLand (t : Nat) (k : BitVec 2) (xq : BitVec 2) (n : Nat)
  | xeCommandComplete (t : Nat) (k : BitVec 2) (xq : BitVec 2)
  | arrivalRelease (loc : ArrLoc) (idx : Nat)
  | decompBlockDone (t : Nat)
  | decompRelease (t : Nat)
  -- traps of kind entry, pre-emption, checked mode, debug
  | preemptRequest (t : Nat) (k : BitVec 2) (sslot rslot : BitVec 16)
  | preempt (t : Nat) (k : BitVec 2)
  | space (t : Nat) (k : BitVec 2)
  | qovf (t : Nat) (k : BitVec 2)
  | brk (t : Nat) (k : BitVec 2)
  | furr (t : Nat) (k : BitVec 2)
  | checkedIntervalClose (t : Nat) (k : BitVec 2)
  | digestExchange (t : Nat) (k : BitVec 2)
  | pair (t : Nat) (k : BitVec 2)
  | hashRecord (t : Nat) (k : BitVec 2) (i : BitVec 32)
  -- host and peers
  | hostWrite (sp : Space) (addr : Nat) (bytes : List (BitVec 8))
  | hostRead (win : HostWin) (addr : Nat) (n : Nat)
  | stretchEnd
  | stretchConditionClear
  | clockStepEnd
  | peerWrite (port : Nat) (sp : Space) (addr : Nat) (bytes : List (BitVec 8)) (op : PeerOp)
  | mailboxBadcmd (cmd : BitVec 8) (rqlen : BitVec 16)
  deriving DecidableEq, Repr

end Sys2Proof
end

