-- ==== Sys2Proof/Config.lean ====
section
/-! DEFINITION. What the manual fixes only per device, and the free values. A constant without a body is a free value: no
proof can see it, and a claim is true whatever it is (notes/assumptions). -/

namespace Sys2Proof.Config

/-- Contents of a register that became live and has not been written since, or that a restored image does not store
(R85, R380): a fresh value for each counter reading. -/
opaque freeVec : Nat → BitVec 2048

/-- Choices the manual leaves to the hardware: elastic times, the order of beats, which old or new bytes a command moves
(R159, R334, R337). Zero stands for the earliest time and the first in order. -/
opaque choice : Nat → Nat

/-- The entry of the die-pair latency table between two unlike dies, before it is brought into its range (R142). -/
opaque latEntry : Nat → Nat → Nat

/-- PVn, published by firmware after link training, at most 4095 (Table 11.9). -/
opaque peerLatency : Nat → Nat

/-- The SHA-384 digest of a string of bytes. -/
opaque sha384 : List (BitVec 8) → List (BitVec 8)

/-- Whether a signature (96 bytes) over a digest verifies under the public key of the given bytes (R30, R33). -/
opaque ecdsaVerify : List (BitVec 8) → List (BitVec 8) → List (BitVec 8) → Bool

/-- The signature over a digest under the n-th device attestation key that the module has generated: 96 bytes, r then s (R31). -/
opaque attestSign : Nat → List (BitVec 8) → List (BitVec 8)

/-- Where an image holds its public key, its signature, its signed bytes and its SVN; the manual gives no layout (R30). -/
opaque imageKey : List (BitVec 8) → List (BitVec 8)
opaque imageSig : List (BitVec 8) → List (BitVec 8)
opaque imageBody : List (BitVec 8) → List (BitVec 8)
opaque imageSvn : List (BitVec 8) → BitVec 32

/-- The challenge issued by the n-th LCCHAL (R32). -/
opaque challenge : Nat → List (BitVec 8)

/-- The 16-byte device identifier in the fuses (R31, R33). -/
opaque deviceId : List (BitVec 8)

/-- The bytes of the fuse configuration that Table 2.4 digests. -/
opaque fuseConfig : List (BitVec 8)

/-- The result of a special function when no precision of the ladder decides its rounding. -/
opaque specFallback : Nat → Nat → Nat

/-- Whether fusedMultiplyAdd of zero and an infinity signals invalid when the addend is a quiet NaN, which IEEE 754-2019
leaves to the implementation. -/
opaque fmaZeroInfNaN : Bool

end Sys2Proof.Config
end

