-- ==== Sys2Proof/WellFormed.lean ====
section
/-! DEFINITION. Well-formed instructions: the operand constraints that depend on the encoding alone (R71, R74, R77, R79,
R98 and the tables of each instruction chapter). Constraints that depend on the state (views, counters, quire rows,
modes) are found at issue. -/

namespace Sys2Proof

/-! ### Formats -/

namespace Fmt

/-- Element width in bits (Table 3.1). -/
def width : Fmt → Nat
  | i32 | f32 | t32e1 | t32e2 => 32
  | i16 | b16 | t16e1 | t16e2 | t16e3 => 16
  | i8 | t8e0 | t8e1 | t8e2 | t8e3 => 8
  | t4e0 | t4e1 => 4

/-- Exponent size of a tapered format; 0 for the others (Table 3.1). -/
def es : Fmt → Nat
  | t4e1 | t8e1 | t16e1 | t32e1 => 1
  | t8e2 | t16e2 | t32e2 => 2
  | t8e3 | t16e3 => 3
  | _ => 0

def isInt : Fmt → Bool
  | i32 | i16 | i8 => true
  | _ => false

def isIeee : Fmt → Bool
  | f32 | b16 => true
  | _ => false

def isTapered (f : Fmt) : Bool := !f.isInt && !f.isIeee

/-- Elements of a 256-byte value (R262). -/
def count (f : Fmt) : Nat := 2048 / f.width

/-- The format code (Table 3.1). -/
def code : Fmt → BitVec 4
  | i32 => 0 | i16 => 1 | i8 => 2 | f32 => 3 | b16 => 4 | t4e0 => 5 | t4e1 => 6 | t8e0 => 7
  | t8e1 => 8 | t8e2 => 9 | t8e3 => 10 | t16e1 => 11 | t16e2 => 12 | t16e3 => 13 | t32e1 => 14 | t32e2 => 15

/-- The format of a code; every code names one. -/
def ofCode (c : BitVec 4) : Fmt :=
  match c.toNat with
  | 0 => i32 | 1 => i16 | 2 => i8 | 3 => f32 | 4 => b16 | 5 => t4e0 | 6 => t4e1 | 7 => t8e0
  | 8 => t8e1 | 9 => t8e2 | 10 => t8e3 | 11 => t16e1 | 12 => t16e2 | 13 => t16e3 | 14 => t32e1 | _ => t32e2

end Fmt

namespace IW

/-- Width in bits (R40). -/
def bits : IW → Nat
  | w64 => 64 | w32 => 32 | w16 => 16 | w8 => 8

def code : IW → BitVec 4
  | w64 => 0 | w32 => 1 | w16 => 2 | w8 => 3

def ofCode (c : BitVec 4) : Option IW :=
  match c.toNat with
  | 0 => some w64 | 1 => some w32 | 2 => some w16 | 3 => some w8 | _ => none

end IW

/-- Format sets of Table 5.1. -/
inductive FmtSet where
  | int | fp | tap | mxt | spec | all | none
  /-- ALL restricted to a width of at most 16 (VPACK, VUNPK). -/
  | narrow
  /-- ALL restricted to width 16 (VSORTK). -/
  | w16
  deriving DecidableEq, Repr

/-- The codes of a set; for `none` only 0x0, and any other is ILL, not FMT (R98). -/
def FmtSet.has : FmtSet → Fmt → Bool
  | .int, f => f.isInt
  | .fp, f => !f.isInt
  | .tap, f => f.isTapered
  | .mxt, f => f.isTapered && f.width ≤ 16
  | .spec, f => f.isTapered && f.width ≤ 16
  | .all, _ => true
  | .none, f => f == .i32
  | .narrow, f => f.width ≤ 16
  | .w16, f => f.width == 16

/-! ### VA and VB operations: Table 13.1 -/

/-- What an operand field may hold (R261). `vd` and `vi` are the destinations of R79 and R261. -/
inductive Kind where
  | nil | v | vd | vi | m | s | q
  deriving DecidableEq, Repr

/-- A destination may be the main file, the operand file or special zero (R79). -/
def VOp.isDest : VOp → Bool
  | .main _ _ | .opf _ | .zero => true
  | _ => false

/-- A second destination must name the main file or the operand file (R261). -/
def VOp.isDest2 : VOp → Bool
  | .main _ _ | .opf _ => true
  | _ => false

def Kind.ok : Kind → VField → Bool
  | .nil, .nil => true
  | .v, .v _ => true
  | .vd, .v o => o.isDest
  | .vi, .v o => o.isDest2
  | .m, .m _ => true
  | .s, .s _ => true
  | .q, .q _ => true
  | _, _ => false

/-- One row of Table 13.1. -/
structure VRow where
  fmt : FmtSet
  d : Kind
  a : Kind
  b : Kind
  c : Kind := .nil
  /-- bits of [17:8] that the row uses -/
  imm : BitVec 10 := 0
  /-- variant bits that the row uses -/
  var : BitVec 2 := 0
  rm : Bool := false
  q : Bool := false
  mask : Bool := true
  deriving DecidableEq, Repr

/-- Table 13.1 by opcode. VFLG and VQRAW choose their operand kinds by the variant. -/
def vRow (opc : BitVec 8) (var : BitVec 2) : Option VRow :=
  let bin (s : FmtSet) : VRow := { fmt := s, d := .vd, a := .v, b := .v }
  let un (s : FmtSet) : VRow := { fmt := s, d := .vd, a := .v, b := .nil }
  match opc.toNat with
  | 0x01 | 0x02 | 0x03 => some { bin .int with var := 3 }
  | 0x04 | 0x05 | 0x06 => some { bin .int with var := 1 }
  | 0x07 => some { un .int with var := 2 }
  | 0x08 => some { bin .all with imm := 0x00F }
  | 0x09 => some { bin .int with var := 3 }
  | 0x0A => some { bin .int with d := .m, imm := 0x007, var := 1 }
  | 0x0B => some { bin .all with imm := 0x007 }
  | 0x0C => some (un .all)
  | 0x0D => some { un .all with imm := 0x1FF }
  | 0x0E => some (un .int)
  | 0x20 | 0x21 | 0x22 => some { bin .fp with rm := true, q := true }
  | 0x23 => some { bin .fp with c := .v, var := 3, rm := true, q := true }
  | 0x24 | 0x25 => some { un .fp with q := true }
  | 0x26 | 0x27 => some { bin .fp with q := true }
  | 0x28 => some { bin .fp with rm := true, q := true }
  | 0x29 => some { un .fp with rm := true, q := true }
  | 0x2A => some { un .spec with imm := 0x007, rm := true, q := true }
  | 0x2B => some { bin .fp with d := .m, imm := 0x007, q := true }
  | 0x2C => some { bin .fp with rm := true, q := true }
  | 0x40 => some { un .all with imm := 0x07F, var := 3, rm := true, q := true }
  | 0x41 => some { un .fp with imm := 0x073, var := 1, rm := true, q := true }
  | 0x42 => some (bin .narrow)
  | 0x43 => some { un .narrow with imm := 0x010, var := 1 }
  | 0x50 => some { bin .all with var := 3 }
  | 0x51 => some { un .all with imm := 0x1FF }
  | 0x52 => some { un .all with imm := 0x001, var := 3, rm := true, q := true }
  | 0x53 => some { un .all with imm := 0x001, q := true }
  | 0x54 => some { un .all with var := 3, rm := true, q := true }
  | 0x55 => some { bin .w16 with b := .vi, var := 1 }
  | 0x56 => some (un .all)
  | 0x60 => some { fmt := .none, d := .q, a := .nil, b := .nil, mask := false }
  | 0x61 => some { fmt := .tap, d := .q, a := .v, b := .v, q := true }
  | 0x62 => some { fmt := .tap, d := .q, a := .v, b := .nil, q := true }
  | 0x63 => some { fmt := .fp, d := .vd, a := .q, b := .nil, var := 1, rm := true, q := true }
  | 0x64 => some { fmt := .none, d := .q, a := .q, b := .nil, var := 1, q := true, mask := false }
  | 0x65 => some { fmt := .none, d := .q, a := .q, b := .nil, imm := 0x1FF, q := true, mask := false }
  | 0x66 =>
    if var = 0 then some { fmt := .none, d := .vd, a := .q, b := .nil, imm := 0x003, var := 1, mask := false }
    else some { fmt := .none, d := .q, a := .v, b := .nil, imm := 0x003, var := 1, mask := false }
  | 0x70 => some { fmt := .none, d := .nil, a := .v, b := .nil, var := 1 }
  | 0x71 => some { fmt := .none, d := .vd, a := .nil, b := .nil }
  | 0x72 =>
    if var = 0 then some { fmt := .none, d := .nil, a := .nil, b := .nil, imm := 0x03F, var := 3 }
    else if var = 1 then some { fmt := .none, d := .vd, a := .nil, b := .nil, var := 3 }
    else some { fmt := .none, d := .m, a := .nil, b := .nil, imm := 0x03F, var := 3 }
  | 0x73 => some { fmt := .none, d := .m, a := .m, b := .m, imm := 0x00F, mask := false }
  | 0x74 | 0x75 => some { fmt := .none, d := .s, a := .m, b := .nil }
  | _ => none

/-- The part field is in range for a conversion from width `ws` to width `wd` (R278). -/
def partOk (ws wd part : Nat) : Bool :=
  if ws = wd then part = 0 else if wd < ws then part < ws / wd else part < wd / ws

/-- Destination width of VCVTI for DW (R278). -/
def dwBits (dw : Nat) : Nat := if dw = 0 then 32 else if dw = 1 then 16 else 8

/-- SFMT of a VCVT: slot bits [11:8]. -/
def VArgs.sfmt (o : VArgs) : Fmt := Fmt.ofCode (o.imm.extractLsb' 0 4)

/-- Part of VCVT and VCVTI: slot bits [14:12]. -/
def VArgs.cvtPart (o : VArgs) : Nat := (o.imm.extractLsb' 4 3).toNat

/-- The checks of single entries beyond Table 13.1: R269, R275, R278, R279, R282, R284, R285, R286, R296. -/
def vExtra (opc : BitVec 8) (o : VArgs) : Bool :=
  match opc.toNat with
  | 0x0D => (o.imm.extractLsb' 0 9).toNat < o.fmt.count
  | 0x2A => (o.imm.extractLsb' 0 3).toNat ≤ 5
  | 0x40 =>
    partOk o.sfmt.width o.fmt.width o.cvtPart &&
      (if o.sfmt.isInt then (if o.fmt.isInt then true else o.var.getLsbD 1 == false)
       else !o.fmt.isInt && o.var == 0)
  | 0x41 =>
    (o.imm.extractLsb' 0 2).toNat ≠ 3 && partOk o.fmt.width (dwBits (o.imm.extractLsb' 0 2).toNat) o.cvtPart
  | 0x50 => if o.fmt.width ≥ 16 then o.var == 0 else o.var.toNat < o.fmt.count / 128
  | 0x52 =>
    o.var ≠ 3 && (o.var == 0 || o.rm == .rne) && (o.fmt.isInt || o.imm.getLsbD 0 == false)
  | 0x53 => o.fmt.isInt || o.imm.getLsbD 0 == false
  | 0x54 => o.fmt.isInt || o.var == 0
  | 0x72 => o.var ≠ 3
  | _ => true

/-- Everything of a row but the format. -/
def VArgs.okBut (opc : BitVec 8) (o : VArgs) : Bool :=
  match vRow opc o.var with
  | none => false
  | some r =>
    r.d.ok o.d && r.a.ok o.a && r.b.ok o.b && r.c.ok o.c && (o.imm &&& ~~~r.imm) == 0 &&
      (o.var &&& ~~~r.var) == 0 && (r.rm || o.rm == .rne) && (r.q || !o.q) && (r.mask || o.m == 0) &&
      vExtra opc o && (r.fmt ≠ .none || o.fmt == .i32)

/-- The format is in the row's set. -/
def VArgs.fmtOk (opc : BitVec 8) (o : VArgs) : Bool :=
  match vRow opc o.var with
  | none => false
  | some r => r.fmt.has o.fmt

/-- The opcode and operands of a VA or VB operation (Table 5.3). -/
def Instr.vForm : Instr → Option (BitVec 8 × VArgs)
  | .vadd o => some (0x01, o) | .vsub o => some (0x02, o) | .vmul o => some (0x03, o) | .vmulh o => some (0x04, o)
  | .vmin o => some (0x05, o) | .vmax o => some (0x06, o) | .vabs o => some (0x07, o) | .vlog o => some (0x08, o)
  | .vsh o => some (0x09, o) | .vcmp o => some (0x0A, o) | .vsel o => some (0x0B, o) | .vmov o => some (0x0C, o)
  | .vbcast o => some (0x0D, o) | .viota o => some (0x0E, o)
  | .vfadd o => some (0x20, o) | .vfsub o => some (0x21, o) | .vfmul o => some (0x22, o) | .vfma o => some (0x23, o)
  | .vfneg o => some (0x24, o) | .vfabs o => some (0x25, o) | .vfmin o => some (0x26, o) | .vfmax o => some (0x27, o)
  | .vfdiv o => some (0x28, o) | .vfsqrt o => some (0x29, o) | .vfspec o => some (0x2A, o) | .vfcmp o => some (0x2B, o)
  | .vfscalb o => some (0x2C, o) | .vcvt o => some (0x40, o) | .vcvti o => some (0x41, o) | .vpack o => some (0x42, o)
  | .vunpk o => some (0x43, o) | .vperm o => some (0x50, o) | .vrot o => some (0x51, o) | .vred o => some (0x52, o)
  | .vargmax o => some (0x53, o) | .vscan o => some (0x54, o) | .vsortk o => some (0x55, o) | .vcomp o => some (0x56, o)
  | .vqclr o => some (0x60, o) | .vqdot o => some (0x61, o) | .vqsum o => some (0x62, o) | .vqrnd o => some (0x63, o)
  | .vqmov o => some (0x64, o) | .vqscale o => some (0x65, o) | .vqraw o => some (0x66, o) | .vpushf o => some (0x70, o)
  | .vrand o => some (0x71, o) | .vflg o => some (0x72, o) | .mlog o => some (0x73, o) | .mcnt o => some (0x74, o)
  | .mfirst o => some (0x75, o)
  | _ => none

/-- The instruction of a VA or VB opcode. -/
def vInstr (opc : BitVec 8) (o : VArgs) : Option Instr :=
  match opc.toNat with
  | 0x01 => some (.vadd o) | 0x02 => some (.vsub o) | 0x03 => some (.vmul o) | 0x04 => some (.vmulh o)
  | 0x05 => some (.vmin o) | 0x06 => some (.vmax o) | 0x07 => some (.vabs o) | 0x08 => some (.vlog o)
  | 0x09 => some (.vsh o) | 0x0A => some (.vcmp o) | 0x0B => some (.vsel o) | 0x0C => some (.vmov o)
  | 0x0D => some (.vbcast o) | 0x0E => some (.viota o)
  | 0x20 => some (.vfadd o) | 0x21 => some (.vfsub o) | 0x22 => some (.vfmul o) | 0x23 => some (.vfma o)
  | 0x24 => some (.vfneg o) | 0x25 => some (.vfabs o) | 0x26 => some (.vfmin o) | 0x27 => some (.vfmax o)
  | 0x28 => some (.vfdiv o) | 0x29 => some (.vfsqrt o) | 0x2A => some (.vfspec o) | 0x2B => some (.vfcmp o)
  | 0x2C => some (.vfscalb o) | 0x40 => some (.vcvt o) | 0x41 => some (.vcvti o) | 0x42 => some (.vpack o)
  | 0x43 => some (.vunpk o) | 0x50 => some (.vperm o) | 0x51 => some (.vrot o) | 0x52 => some (.vred o)
  | 0x53 => some (.vargmax o) | 0x54 => some (.vscan o) | 0x55 => some (.vsortk o) | 0x56 => some (.vcomp o)
  | 0x60 => some (.vqclr o) | 0x61 => some (.vqdot o) | 0x62 => some (.vqsum o) | 0x63 => some (.vqrnd o)
  | 0x64 => some (.vqmov o) | 0x65 => some (.vqscale o) | 0x66 => some (.vqraw o) | 0x70 => some (.vpushf o)
  | 0x71 => some (.vrand o) | 0x72 => some (.vflg o) | 0x73 => some (.mlog o) | 0x74 => some (.mcnt o)
  | 0x75 => some (.mfirst o)
  | _ => none

/-! ### MX operations: Table 14.3 -/

/-- One row of Table 14.3: which fields are used. -/
structure MxRow where
  fmt : FmtSet
  row : Bool := false
  wide : Bool := false
  sr : Bool := false
  imm : Bool := false
  z : Bool := false
  k : Bool := false
  s : Bool := false
  c : Bool := false
  rm : Bool := false
  q : Bool := false
  mask : Bool := false
  /-- the variant holds a part -/
  part : Bool := false
  /-- the variant's bit 0 is QX or KT -/
  bit : Bool := false
  deriving DecidableEq, Repr

def mxRow (opc : BitVec 8) : Option MxRow :=
  match opc.toNat with
  | 0x01 => some { fmt := .mxt, k := true }
  | 0x02 => some { fmt := .none, z := true }
  | 0x03 => some { fmt := .mxt, row := true, z := true, k := true, s := true, q := true, mask := true }
  | 0x04 => some { fmt := .mxt, row := true, wide := true, c := true, rm := true, q := true, mask := true, part := true }
  | 0x08 => some { fmt := .mxt, row := true, wide := true, q := true, mask := true, part := true }
  | 0x09 => some { fmt := .none, row := true, imm := true, q := true, mask := true }
  | 0x0A => some { fmt := .none, row := true, q := true, mask := true }
  | 0x0B => some { fmt := .none, row := true, mask := true }
  | 0x0C => some { fmt := .none, row := true, sr := true, mask := true }
  | 0x10 | 0x11 => some { fmt := .none, row := true, sr := true, imm := true, bit := true }
  | 0x18 => some { fmt := .none, sr := true, imm := true, bit := true }
  | _ => none

/-- MQSCALE's n, MQSPILL.QX's row and MORIG.KT's imm16 (R305, R318). -/
def mxExtra (opc : BitVec 8) (o : MxArgs) : Bool :=
  match opc.toNat with
  | 0x09 => -256 ≤ o.imm.toInt && o.imm.toInt ≤ 255
  | 0x10 | 0x11 => o.var == 0 || o.row == 0
  | 0x18 => o.var == 0 || o.imm == 0
  | _ => true

def MxArgs.okBut (opc : BitVec 8) (o : MxArgs) : Bool :=
  match mxRow opc with
  | none => false
  | some r =>
    (r.row || o.row == 0) && (r.wide || (o.view == 0 && o.idx == 0)) && (r.sr || o.sr == 0) &&
      (r.imm || o.imm == 0) && (r.z || !o.z) && (r.k || !o.k) && (r.s || !o.s) && (r.c || !o.c) &&
      (r.rm || o.rm == .rne) && (r.q || !o.q) && (r.mask || o.m == 0) &&
      (if r.part then o.var.toNat < 16 / o.fmt.width || o.fmt.width > 16 else if r.bit then o.var.toNat ≤ 1 else o.var == 0) &&
      mxExtra opc o && (r.fmt ≠ .none || o.fmt == .i32)

def MxArgs.fmtOk (opc : BitVec 8) (o : MxArgs) : Bool :=
  match mxRow opc with
  | none => false
  | some r => r.fmt.has o.fmt

def Instr.mxForm : Instr → Option (BitVec 8 × MxArgs)
  | .mpush o => some (0x01, o) | .mshift o => some (0x02, o) | .macc o => some (0x03, o) | .mdrain o => some (0x04, o)
  | .mqadd o => some (0x08, o) | .mqscale o => some (0x09, o) | .mqneg o => some (0x0A, o) | .mqclr o => some (0x0B, o)
  | .mqcopy o => some (0x0C, o) | .mqspill o => some (0x10, o) | .mqfill o => some (0x11, o) | .morig o => some (0x18, o)
  | _ => none

def mxInstr (opc : BitVec 8) (o : MxArgs) : Option Instr :=
  match opc.toNat with
  | 0x01 => some (.mpush o) | 0x02 => some (.mshift o) | 0x03 => some (.macc o) | 0x04 => some (.mdrain o)
  | 0x08 => some (.mqadd o) | 0x09 => some (.mqscale o) | 0x0A => some (.mqneg o) | 0x0B => some (.mqclr o)
  | 0x0C => some (.mqcopy o) | 0x10 => some (.mqspill o) | 0x11 => some (.mqfill o) | 0x18 => some (.morig o)
  | _ => none

/-! ### LD and ST operations: Table 10.2 -/

/-- The kind of the data operand of a LD or ST row. -/
inductive LsKind where
  | nil | wide | sreg | opf | vq | part
  deriving DecidableEq, Repr

structure LsRow where
  data : LsKind
  /-- FMT gives a width (set W) -/
  w : Bool := false
  mask : Bool := false
  /-- variant bit 0 is U -/
  u : Bool := false
  deriving DecidableEq, Repr

def ldRow (opc : BitVec 8) : Option LsRow :=
  match opc.toNat with
  | 0x01 => some { data := .wide, mask := true }
  | 0x02 => some { data := .wide, w := true, mask := true }
  | 0x03 => some { data := .sreg, w := true, u := true }
  | 0x04 => some { data := .opf, mask := true }
  | 0x05 => some { data := .vq }
  | 0x08 => some { data := .nil }
  | 0x09 => some { data := .part }
  | _ => none

def stRow (opc : BitVec 8) : Option LsRow :=
  match opc.toNat with
  | 0x01 => some { data := .wide }
  | 0x02 => some { data := .wide, mask := true }
  | 0x03 => some { data := .sreg, w := true }
  | 0x04 => some { data := .vq }
  | _ => none

def LsKind.ok : LsKind → LsData → Bool
  | .nil, .nil => true
  | .wide, .wide _ _ => true
  | .sreg, .sreg _ => true
  | .opf, .opf _ => true
  | .vq, .vq _ => true
  | .part, .part _ => true
  | _, _ => false

def LsArgs.ok (r : LsRow) (o : LsArgs) : Bool :=
  r.data.ok o.data && (r.w || o.w == .w64) && (r.mask || o.m == 0) && (r.u || !o.u)

def Instr.ldForm : Instr → Option (BitVec 8 × LsArgs)
  | .ldv o => some (0x01, o) | .ldvb o => some (0x02, o) | .lds o => some (0x03, o) | .ldof o => some (0x04, o)
  | .ldq o => some (0x05, o) | .ldsclA o => some (0x08, o) | .ldsclB o => some (0x09, o)
  | _ => none

def ldInstr (opc : BitVec 8) (o : LsArgs) : Option Instr :=
  match opc.toNat with
  | 0x01 => some (.ldv o) | 0x02 => some (.ldvb o) | 0x03 => some (.lds o) | 0x04 => some (.ldof o)
  | 0x05 => some (.ldq o) | 0x08 => some (.ldsclA o) | 0x09 => some (.ldsclB o)
  | _ => none

def Instr.stForm : Instr → Option (BitVec 8 × LsArgs)
  | .stv o => some (0x01, o) | .stvm o => some (0x02, o) | .sts o => some (0x03, o) | .stq o => some (0x04, o)
  | _ => none

def stInstr (opc : BitVec 8) (o : LsArgs) : Option Instr :=
  match opc.toNat with
  | 0x01 => some (.stv o) | 0x02 => some (.stvm o) | 0x03 => some (.sts o) | 0x04 => some (.stq o)
  | _ => none

/-! ### XE operations: Table 12.1 -/

structure XeRow where
  fp : Bool := false
  /-- overrides allowed -/
  ov : BitVec 4 := 0
  /-- command-field bits used -/
  cmd : BitVec 7 := 0
  deriving DecidableEq, Repr

def xeRow (opc : BitVec 8) : Option XeRow :=
  match opc.toNat with
  | 0x01 => some { ov := 0xF }
  | 0x02 => some { ov := 0xF, cmd := 1 }
  | 0x03 | 0x04 => some { ov := 0xD }
  | 0x05 => some { ov := 0x3 }
  | 0x06 => some { ov := 0x1, cmd := 3 }
  | 0x08 => some { ov := 0xF, cmd := 15 }
  | 0x09 => some { fp := true, ov := 0xF, cmd := 1 }
  | 0x0A => some { fp := true, ov := 0xF, cmd := 7 }
  | 0x0B => some { ov := 0xF }
  | 0x1A => some { ov := 0x1, cmd := 1 }
  | 0x1C => some {}
  | _ => none

/-- An unused FS of XDEC (R241) and rounding mode 0b11 of XQRD (R247). -/
def xeExtra (opc : BitVec 8) (o : XeArgs) : Bool :=
  match opc.toNat with
  | 0x06 => o.cmd.getLsbD 1 || !o.cmd.getLsbD 0
  | 0x0A => o.cmd.extractLsb' 0 2 ≠ 3
  | _ => true

/-- A disabled override's register field is an operand field the operation does not read, so it is zero (R71). -/
def XeArgs.okBut (opc : BitVec 8) (o : XeArgs) : Bool :=
  match xeRow opc with
  | none => false
  | some r =>
    (o.en &&& ~~~r.ov) == 0 && (o.cmd &&& ~~~r.cmd) == 0 && (o.en.getLsbD 0 || o.r0 == 0) &&
      (o.en.getLsbD 1 || o.r1 == 0) && (o.en.getLsbD 2 || o.r2 == 0) && (o.en.getLsbD 3 || o.r3 == 0) &&
      xeExtra opc o && (r.fp || o.fmt == .i32)

def XeArgs.fmtOk (opc : BitVec 8) (o : XeArgs) : Bool :=
  match xeRow opc with
  | none => false
  | some r => !r.fp || FmtSet.fp.has o.fmt

def Instr.xeForm : Instr → Option (BitVec 8 × XeArgs)
  | .xcopy o => some (0x01, o) | .xfill o => some (0x02, o) | .xgath o => some (0x03, o) | .xscat o => some (0x04, o)
  | .xcsr o => some (0x05, o) | .xdec o => some (0x06, o) | .xatom o => some (0x08, o) | .xqadd o => some (0x09, o)
  | .xqrd o => some (0x0A, o) | .xqclr o => some (0x0B, o) | .xrec o => some (0x1A, o) | .xarm o => some (0x1C, o)
  | _ => none

def xeInstr (opc : BitVec 8) (o : XeArgs) : Option Instr :=
  match opc.toNat with
  | 0x01 => some (.xcopy o) | 0x02 => some (.xfill o) | 0x03 => some (.xgath o) | 0x04 => some (.xscat o)
  | 0x05 => some (.xcsr o) | 0x06 => some (.xdec o) | 0x08 => some (.xatom o) | 0x09 => some (.xqadd o)
  | 0x0A => some (.xqrd o) | 0x0B => some (.xqclr o) | 0x1A => some (.xrec o) | 0x1C => some (.xarm o)
  | _ => none

/-! ### CTL operations -/

/-- CLZ and POPC take neither I, U nor sb; MOVI takes sa or sb alone (R170). -/
def aluOk (opc : BitVec 8) (o : AluArgs) : Bool :=
  match opc.toNat with
  | 0x0F | 0x10 => o.b == .reg 0 && !o.u
  | 0x11 => (match o.b with | .reg r => r == 0 | .imm _ => o.sa == 0)
  | n => decide (1 ≤ n ∧ n ≤ 0x0E)

def Instr.aluForm : Instr → Option (BitVec 8 × AluArgs)
  | .add o => some (0x01, o) | .sub o => some (0x02, o) | .mul o => some (0x03, o) | .mulh o => some (0x04, o)
  | .div o => some (0x05, o) | .rem o => some (0x06, o) | .and o => some (0x07, o) | .or o => some (0x08, o)
  | .xor o => some (0x09, o) | .shl o => some (0x0A, o) | .shr o => some (0x0B, o) | .sra o => some (0x0C, o)
  | .min o => some (0x0D, o) | .max o => some (0x0E, o) | .clz o => some (0x0F, o) | .popc o => some (0x10, o)
  | .movi o => some (0x11, o)
  | _ => none

def aluInstr (opc : BitVec 8) (o : AluArgs) : Option Instr :=
  match opc.toNat with
  | 0x01 => some (.add o) | 0x02 => some (.sub o) | 0x03 => some (.mul o) | 0x04 => some (.mulh o)
  | 0x05 => some (.div o) | 0x06 => some (.rem o) | 0x07 => some (.and o) | 0x08 => some (.or o)
  | 0x09 => some (.xor o) | 0x0A => some (.shl o) | 0x0B => some (.shr o) | 0x0C => some (.sra o)
  | 0x0D => some (.min o) | 0x0E => some (.max o) | 0x0F => some (.clz o) | 0x10 => some (.popc o)
  | 0x11 => some (.movi o)
  | _ => none

/-- The numbers of Table 9.6. -/
def sysNumOk (n : Nat) : Bool :=
  n ≤ 0x007 || (0x010 ≤ n && n ≤ 0x013) || (0x020 ≤ n && n ≤ 0x02B) || (0x030 ≤ n && n ≤ 0x04F) ||
    (0x060 ≤ n && n ≤ 0x06B) || (0x080 ≤ n && n ≤ 0x0FF) || (0x100 ≤ n && n ≤ 0x13F)

/-- The registers whose writes are the rows KEY_WRITE, CMAP_WRITE and CNT_WRITE. -/
def sysOwnRow (n : Nat) : Bool := n == 0 || (0x080 ≤ n && n ≤ 0x0FF)

/-- A limit's partner fields: pd only in a test form, DCL only in a limited one (R349). -/
def WaitForm.ok (f : WaitForm) : Bool := (f.limit == 0 || f.pd == 0) && (f.limit ≠ 0 || !f.dcl)

/-- The static constraints of every instruction. Events have the ranges of their units. -/
def Instr.wf (i : Instr) : Bool :=
  match i.vForm with
  | some (opc, o) => o.okBut opc && o.fmtOk opc
  | none =>
  match i.mxForm with
  | some (opc, o) => o.okBut opc && o.fmtOk opc
  | none =>
  match i.ldForm with
  | some (opc, o) => (match ldRow opc with | some r => o.ok r | none => false)
  | none =>
  match i.stForm with
  | some (opc, o) => (match stRow opc with | some r => o.ok r | none => false)
  | none =>
  match i.xeForm with
  | some (opc, o) => o.okBut opc && o.fmtOk opc
  | none =>
  match i.aluForm with
  | some (opc, o) => aluOk opc o
  | none =>
  match i with
  | .loop o => o.len ≠ 0
  | .lidx _ _ d => d.toNat ≤ 5
  | .sysr _ _ n => sysNumOk n.toNat
  | .sysw _ _ n => sysNumOk n.toNat && n.toNat ≠ 4 && n.toNat ≠ 5 && !sysOwnRow n.toNat
  | .xsig o => !o.l || o.h == 0
  | .xword o => !o.l || o.h == 0
  | .xjoin _ _ jm => jm ≠ 0
  | .xcancel _ cm _ => cm ≠ 0
  | .xstat _ xq _ e => e ≠ 3 && (e ≠ 2 || xq == 0)
  | .waitge _ _ _ _ f => f.ok
  | .waitw _ _ _ _ _ f => f.ok
  | .barr _ _ _ limit => limit ≠ 0
  | .fadv _ _ n => 1 ≤ n.toNat && n.toNat ≤ 16
  | .fwait o => 1 ≤ o.n.toNat && o.n.toNat ≤ 16 && o.form.ok
  | .ffree o => 1 ≤ o.n.toNat && o.n.toNat ≤ 16 && o.form.ok
  | .mergeStageChoice t | .bundleFetch t _ | .resultLand t _ | .waitConditionMet t _ | .wto t _ | .waitProbe t _
  | .furrowBundleDelivery t _ | .slip t _ _ _ | .contextRetire t _ | .killArrival t _ _ | .xeCommandStart t _ _
  | .xeBeatLand t _ _ _ | .xeCommandComplete t _ _ | .decompBlockDone t | .decompRelease t | .preemptRequest t _ _ _
  | .preempt t _ | .space t _ | .qovf t _ | .brk t _ | .furr t _ | .checkedIntervalClose t _ | .digestExchange t _
  | .pair t _ | .hashRecord t _ _ | .preqSave t _ | .preqRestore t _ | .imageOperationEnd t _ => t < 2048
  | .remoteAddArrival _ _ t _ _ _ => t < 2048
  | .dieReset n | .drainEnd n | .drainDeadline n => n < 8
  | .launchPacketPlace n _ _ | .loadAck n _ _ | .retirementReport n _ _ | .quiesceAck n _ _ | .quiesceTimeout n _ _ => n < 8
  | .clockStep f => f == 600 || f == 480 || f == 360
  | .stretch s => s == 256 || s == 512 || s == 768
  | .peerWrite p _ _ _ _ => p < 4
  | _ => true

end Sys2Proof
end

