-- ==== Sys2Proof/Decode.lean ====
section
/-! DEFINITION. The decoder of bundles and slots (R67-R72, R77, R80, R96-R104, Tables 9.2, 10.2, 12.1, 12.2, 13.1, 14.3,
17.1), total on any bits, and after it the encoder, written from the same tables. -/

namespace Sys2Proof

/-- What a slot's 64 bits hold. `ill`: an encoding that traps with ILL. `fmt i`: an encoding whose one static fault is its
format code; `i` is the operation with that code (or with the width 64 where the code names none), so that an ILL found
from the state can still take precedence (R74). -/
inductive SlotDec where
  | nop
  | op (i : Instr)
  | ill
  | fmt (i : Instr)
  deriving DecidableEq, Repr

/-- `n` bits of `w` from bit `lo` upward. -/
abbrev fld (w : BitVec 64) (lo n : Nat) : BitVec n := w.extractLsb' lo n

/-- One bit of `w`. -/
abbrev bit (w : BitVec 64) (i : Nat) : Bool := w.getLsbD i

def RM.ofCode (c : BitVec 2) : Option RM :=
  match c.toNat with
  | 0 => some .rne | 1 => some .sr | 2 => some .rz | _ => none

def RM.code : RM → BitVec 2
  | .rne => 0 | .sr => 1 | .rz => 2

/-- Table 4.6. -/
def decVOp (b : BitVec 10) : Option VOp :=
  match (b.extractLsb' 8 2).toNat with
  | 0 => some (.main (b.extractLsb' 6 2) (b.extractLsb' 0 6))
  | 1 => if b.extractLsb' 4 4 = 0 then some (.opf (b.extractLsb' 0 4)) else none
  | 2 => if b.extractLsb' 2 6 = 0 then some (.latch (b.extractLsb' 0 2)) else none
  | _ =>
    match (b.extractLsb' 5 3).toNat with
    | 0 => if b.extractLsb' 0 5 = 0 then some .zero else none
    | 1 => if b.extractLsb' 0 5 = 0 then some .ones else none
    | 2 => some (.bc (b.extractLsb' 0 5))
    | _ => none

def encVOp : VOp → BitVec 10
  | .main v i => 0#2 ++ v ++ i
  | .opf n => 1#2 ++ 0#4 ++ n
  | .latch n => 2#2 ++ 0#6 ++ n
  | .zero => 3#2 ++ 0#3 ++ 0#5
  | .ones => 3#2 ++ 1#3 ++ 0#5
  | .bc s => 3#2 ++ 2#3 ++ s

def decField (k : Kind) (b : BitVec 10) : Option VField :=
  match k with
  | .nil => if b = 0 then some .nil else none
  | .v | .vd | .vi => (decVOp b).map .v
  | .m => if b.extractLsb' 3 7 = 0 then some (.m (b.extractLsb' 0 3)) else none
  | .s => if b.extractLsb' 5 5 = 0 then some (.s (b.extractLsb' 0 5)) else none
  | .q => if b.extractLsb' 2 8 = 0 then some (.q (b.extractLsb' 0 2)) else none

def encField : VField → BitVec 10
  | .nil => 0
  | .v o => encVOp o
  | .m r => 0#7 ++ r
  | .s r => 0#5 ++ r
  | .q r => 0#8 ++ r

/-- The predicate of slots 0 to 6 (Table 4.2). -/
def decPred (w : BitVec 64) : Pred := { pn := bit w 55, pr := fld w 52 3 }

/-- Choose between `ill`, `fmt` and `op` for an operation whose other checks answered `ok` and `fmtOk`. -/
def judge (i : Option Instr) (ok fmtOk : Bool) : SlotDec :=
  match i with
  | none => .ill
  | some i => if !ok then .ill else if fmtOk then .op i else .fmt i

/-- VA and VB slots. -/
def decV (u : VUnit) (w : BitVec 64) : SlotDec :=
  let opc := fld w 56 8
  match vRow opc (fld w 0 2) with
  | none => .ill
  | some r =>
    match decField r.d (fld w 38 10), decField r.a (fld w 28 10), decField r.b (fld w 18 10), RM.ofCode (fld w 6 2) with
    | some d, some a, some b, some rm =>
      match (if r.c = .nil then some .nil else decField r.c (fld w 8 10)) with
      | none => .ill
      | some c =>
        let o : VArgs :=
          { u, p := decPred w, fmt := Fmt.ofCode (fld w 48 4), d, a, b, c,
            imm := if r.c = .nil then fld w 8 10 else 0, rm, q := bit w 5, m := fld w 2 3, var := fld w 0 2 }
        judge (vInstr opc o) (o.okBut opc) (o.fmtOk opc)
    | _, _, _, _ => .ill

/-- MX slot. -/
def decMx (w : BitVec 64) : SlotDec :=
  let opc := fld w 56 8
  if fld w 60 4 = 15 then .op (.mnop (fld w 56 4) (fld w 0 56)) else
  match RM.ofCode (fld w 6 2) with
  | none => .ill
  | some rm =>
    let o : MxArgs :=
      { p := decPred w, fmt := Fmt.ofCode (fld w 48 4), row := fld w 43 5, view := fld w 41 2, idx := fld w 33 8,
        sr := fld w 28 5, imm := fld w 12 16, z := bit w 11, k := bit w 10, s := bit w 9, c := bit w 8, rm,
        q := bit w 5, m := fld w 2 3, var := fld w 0 2 }
    judge (mxInstr opc o) (o.okBut opc) (o.fmtOk opc)

def decLsData (k : LsKind) (b : BitVec 10) : Option LsData :=
  match k with
  | .nil => if b = 0 then some .nil else none
  | .wide => some (.wide (b.extractLsb' 8 2) (b.extractLsb' 0 8))
  | .sreg => if b.extractLsb' 5 5 = 0 then some (.sreg (b.extractLsb' 0 5)) else none
  | .opf => if b.extractLsb' 4 6 = 0 then some (.opf (b.extractLsb' 0 4)) else none
  | .vq => if b.extractLsb' 2 8 = 0 then some (.vq (b.extractLsb' 0 2)) else none
  | .part => if b.extractLsb' 3 7 = 0 then some (.part (b.extractLsb' 0 3)) else none

def encLsData : LsData → BitVec 10
  | .nil => 0
  | .wide v i => v ++ i
  | .sreg r => 0#5 ++ r
  | .opf n => 0#6 ++ n
  | .vq n => 0#8 ++ n
  | .part n => 0#7 ++ n

/-- LD and ST slots. -/
def decLs (row : BitVec 8 → Option LsRow) (mk : BitVec 8 → LsArgs → Option Instr) (w : BitVec 64) : SlotDec :=
  let opc := fld w 56 8
  match row opc with
  | none => .ill
  | some r =>
    match decLsData r.data (fld w 38 10) with
    | none => .ill
    | some data =>
      let width := IW.ofCode (fld w 48 4)
      let o : LsArgs :=
        { p := decPred w, w := width.getD .w64, data, sb := fld w 33 5, si := fld w 28 5, sc := fld w 26 2,
          imm := fld w 8 18, m := fld w 2 3, u := bit w 0 }
      judge (mk opc o) (o.ok r && fld w 5 3 == 0 && !bit w 1 && (r.w || fld w 48 4 == 0)) width.isSome

/-- XE slot. -/
def decXe (w : BitVec 64) : SlotDec :=
  let opc := fld w 56 8
  let p := decPred w
  if fld w 60 4 = 15 then .op (.xnop (fld w 56 4) (fld w 0 56)) else
  match opc.toNat with
  | 0x10 =>
    let o : XsigArgs := { p, xq := fld w 46 2, ctr := fld w 40 6, l := bit w 39, h := fld w 33 6, sa := fld w 28 5, imm := fld w 8 20 }
    judge (some (.xsig o)) (fld w 48 4 == 0 && fld w 0 8 == 0 && (!o.l || o.h == 0)) true
  | 0x11 =>
    let o : XwordArgs :=
      { p, xq := fld w 46 2, l := bit w 39, h := fld w 33 6, sa := fld w 28 5, sb := fld w 23 5, imm := fld w 8 15 }
    judge (some (.xword o)) (fld w 48 4 == 0 && fld w 0 8 == 0 && fld w 40 6 == 0 && (!o.l || o.h == 0)) true
  | 0x18 => judge (some (.xjoin p (fld w 46 2) (fld w 42 4))) (fld w 48 4 == 0 && fld w 0 42 == 0 && fld w 42 4 ≠ 0) true
  | 0x19 => judge (some (.xlrf p)) (fld w 48 4 == 0 && fld w 0 48 == 0) true
  | 0x1B => judge (some (.xadv p (fld w 0 4))) (fld w 48 4 == 0 && fld w 4 44 == 0) true
  | 0x1D =>
    judge (some (.xstat p (fld w 46 2) (fld w 41 5) (fld w 39 2)))
      (fld w 48 4 == 0 && fld w 0 39 == 0 && fld w 39 2 ≠ 3 && (fld w 39 2 ≠ 2 || fld w 46 2 == 0)) true
  | 0x1E =>
    judge (some (.xcancel p (fld w 42 4) (fld w 37 5)))
      (fld w 48 4 == 0 && fld w 0 37 == 0 && fld w 46 2 == 0 && fld w 42 4 ≠ 0) true
  | _ =>
    let o : XeArgs :=
      { p, fmt := Fmt.ofCode (fld w 48 4), xq := fld w 46 2, tix := fld w 31 15, r0 := fld w 26 5, r1 := fld w 21 5,
        r2 := fld w 16 5, r3 := fld w 11 5, en := fld w 7 4, cmd := fld w 0 7 }
    judge (xeInstr opc o) (o.okBut opc) (o.fmtOk opc)

def Cond.ofCode (c : BitVec 4) : Option Cond :=
  match c.toNat with
  | 0 => some .eq | 1 => some .ne | 2 => some .lt | 3 => some .ge | 4 => some .le | 5 => some .gt | 6 => some .tst
  | 7 => some .ntst | _ => none

def Cond.code : Cond → BitVec 4
  | .eq => 0 | .ne => 1 | .lt => 2 | .ge => 3 | .le => 4 | .gt => 5 | .tst => 6 | .ntst => 7

/-- The rows SYSW is split into: KEY, CMAP:n and CNT:n have rows of their own. -/
def syswInstr (p : Pred) (sa : BitVec 5) (num : BitVec 12) : Instr :=
  let n := num.toNat
  if n = 0 then .keyWrite p sa
  else if 0x080 ≤ n ∧ n ≤ 0x0BF then .cmapWrite p sa (num.extractLsb' 0 6)
  else if 0x0C0 ≤ n ∧ n ≤ 0x0FF then .cntWrite p sa (num.extractLsb' 0 6)
  else .sysw p sa num

/-- CTL slot: Tables 4.4 and 9.2. -/
def decCtl (w : BitVec 64) : SlotDec :=
  let opc := fld w 56 8
  let p := decPred w
  let width := IW.ofCode (fld w 48 4)
  let iw := width.getD .w64
  let f0 := fld w 48 4 == 0
  match opc.toNat with
  | 0x12 =>
    judge (some (.movhi { p, sd := fld w 41 5, sa := fld w 36 5, imm := fld w 0 28 }))
      (f0 && bit w 47 && !bit w 46 && fld w 28 8 == 0) true
  | 0x13 =>
    let b : SrcB32 := if bit w 47 then .imm (fld w 0 32) else .reg (fld w 27 5)
    judge (some (.sel { p, w := iw, u := bit w 46, sd := fld w 41 5, sa := fld w 36 5, ps := fld w 33 3, psn := bit w 32, b }))
      (bit w 47 || fld w 0 27 == 0) width.isSome
  | 0x18 =>
    let b : SrcB32 := if bit w 47 then .imm (fld w 4 32) else .reg (fld w 31 5)
    match Cond.ofCode (fld w 0 4) with
    | none => .ill
    | some cond =>
      judge (some (.cmp { p, w := iw, u := bit w 46, pd := fld w 43 3, sa := fld w 36 5, b, cond }))
        (fld w 41 2 == 0 && (bit w 47 || fld w 4 27 == 0)) width.isSome
  | 0x19 =>
    judge (some (.plog { p, pd := fld w 43 3, pa := fld w 40 3, pb := fld w 37 3, tt := fld w 33 4 }))
      (f0 && fld w 46 2 == 0 && fld w 0 33 == 0) true
  | 0x20 => judge (some (.br p (fld w 0 20))) (f0 && fld w 20 28 == 0) true
  | 0x21 => judge (some (.bri p (fld w 36 5) (fld w 0 20))) (f0 && fld w 41 7 == 0 && fld w 20 16 == 0) true
  | 0x22 =>
    let base : CallBase := if bit w 47 then .rel else .reg (fld w 36 5)
    judge (some (.call p (fld w 41 5) base (fld w 0 20)))
      (f0 && !bit w 46 && fld w 20 16 == 0 && (!bit w 47 || fld w 36 5 == 0)) true
  | 0x23 => judge (some (.ret p (fld w 36 5))) (f0 && fld w 41 7 == 0 && fld w 0 36 == 0) true
  | 0x24 =>
    let n : LoopCount := if bit w 47 then .imm (fld w 0 20) else .reg (fld w 36 5)
    judge (some (.loop { p, rt := bit w 45, pe := bit w 44, len := fld w 20 16, n }))
      (f0 && !bit w 46 && fld w 41 3 == 0 && (if bit w 47 then fld w 36 5 == 0 else fld w 0 20 == 0) && fld w 20 16 ≠ 0) true
  | 0x25 => judge (some (.loopx p)) (f0 && fld w 0 48 == 0) true
  | 0x26 =>
    judge (some (.lidx p (fld w 41 5) (fld w 0 3)))
      (f0 && fld w 46 2 == 0 && fld w 3 38 == 0 && (fld w 0 3).toNat ≤ 5) true
  | 0x30 =>
    judge (some (.sysr p (fld w 41 5) (fld w 0 12)))
      (f0 && fld w 46 2 == 0 && fld w 12 29 == 0 && sysNumOk (fld w 0 12).toNat) true
  | 0x31 =>
    let n := (fld w 0 12).toNat
    judge (some (syswInstr p (fld w 36 5) (fld w 0 12)))
      (f0 && fld w 41 7 == 0 && fld w 12 24 == 0 && sysNumOk n && n ≠ 4 && n ≠ 5) true
  | 0x38 => judge (some (.trap p (fld w 0 16))) (f0 && fld w 16 32 == 0) true
  | 0x39 => judge (some (.tret p)) (f0 && fld w 0 48 == 0) true
  | 0x3A => judge (some (.exit p)) (f0 && fld w 0 48 == 0) true
  | _ =>
    let b : SrcB := if bit w 47 then .imm (fld w 0 36) else .reg (fld w 31 5)
    let o : AluArgs := { p, w := iw, u := bit w 46, sd := fld w 41 5, sa := fld w 36 5, b }
    judge (aluInstr opc o) (aluOk opc o && (bit w 47 || fld w 0 31 == 0)) width.isSome

def Scope.ofCode (c : BitVec 3) : Option Scope :=
  match c.toNat with
  | 0 => some .t | 1 => some .f | 2 => some .d | 3 => some .p | 4 => some .s | _ => none

def Scope.code : Scope → BitVec 3
  | .t => 0 | .f => 1 | .d => 2 | .p => 3 | .s => 4

def WCond.ofCode (c : BitVec 2) : Option WCond :=
  match c.toNat with
  | 0 => some .ge | 1 => some .eq | 2 => some .ne | _ => none

def WCond.code : WCond → BitVec 2
  | .ge => 0 | .eq => 1 | .ne => 2

def FS.ofBit (b : Bool) : FS := if b then .fb else .fa

def FS.toBit : FS → Bool
  | .fa => false | .fb => true

/-- SY slot: Tables 4.3 and 17.1. `w` is the whole of slot 7; its header is not read. -/
def decSy (w : BitVec 64) : SlotDec :=
  let p : Pred := { pn := bit w 47, pr := fld w 44 3 }
  match (fld w 48 8).toNat with
  | 0x01 =>
    let f : WaitForm := { limit := fld w 13 20, dcl := bit w 12, pd := fld w 9 3 }
    judge (some (.waitge p (fld w 38 6) (fld w 33 5) (fld w 0 9) f)) f.ok true
  | 0x02 =>
    let f : WaitForm := { limit := fld w 14 20, dcl := bit w 13, pd := fld w 10 3 }
    match WCond.ofCode (fld w 8 2) with
    | none => .ill
    | some c => judge (some (.waitw p (fld w 39 5) (fld w 34 5) c (fld w 0 8) f)) f.ok true
  | 0x03 => judge (some (.sig p (fld w 38 6) (fld w 33 5) (fld w 13 20))) (fld w 0 13 == 0) true
  | 0x08 => judge (some (.barr p (fld w 41 3) (bit w 40) (fld w 20 20))) (fld w 0 20 == 0 && fld w 20 20 ≠ 0) true
  | 0x09 => judge (some (.realign p (fld w 39 5) (fld w 0 32))) (fld w 32 7 == 0) true
  | 0x0A =>
    match Scope.ofCode (fld w 41 3) with
    | none => .ill
    | some sc => judge (some (.fence p sc)) (fld w 0 41 == 0) true
  | 0x10 =>
    judge (some (.fadv p (FS.ofBit (bit w 43)) (fld w 38 5)))
      (fld w 0 38 == 0 && (fld w 38 5) ≠ 0 && (fld w 38 5).toNat ≤ 16) true
  | 0x11 =>
    let o : FifoArgs :=
      { p, fs := FS.ofBit (bit w 43), n := fld w 38 5, form := { limit := fld w 17 20, dcl := bit w 37, pd := fld w 14 3 } }
    judge (some (.fwait o)) (fld w 0 14 == 0 && o.n ≠ 0 && o.n.toNat ≤ 16 && o.form.ok) true
  | 0x12 =>
    let o : FifoArgs :=
      { p, fs := FS.ofBit (bit w 43), n := fld w 38 5, form := { limit := fld w 17 20, dcl := bit w 37, pd := fld w 14 3 } }
    judge (some (.ffree o)) (fld w 0 14 == 0 && o.n ≠ 0 && o.n.toNat ≤ 16 && o.form.ok) true
  | _ => .ill

/-- Slot `s` of a bundle. All-zero slots are NOPs; for slot 7 the header is left out of that test, and a nonzero reserved
header field makes the slot ILL (R68, R69). -/
def decSlot (s : Nat) (w : BitVec 64) : SlotDec :=
  match s with
  | 7 => if fld w 56 4 ≠ 0 then .ill else if fld w 0 56 = 0 then .nop else decSy w
  | _ =>
    if w = 0 then .nop else
    match s with
    | 0 => decCtl w
    | 1 => decV .va w
    | 2 => decV .vb w
    | 3 => decMx w
    | 4 => decLs ldRow ldInstr w
    | 5 => decLs stRow stInstr w
    | _ => decXe w

/-- The slots of a bundle, as 64-bit words. -/
abbrev Bundle := BitVec 512

def Bundle.slot (b : Bundle) (s : Nat) : BitVec 64 := b.extractLsb' (64 * s) 64

/-- The header bits of Table 4.1. -/
structure Header where
  y : Bool
  m : Bool
  p : Bool
  b : Bool
  deriving DecidableEq, Repr

def Bundle.header (b : Bundle) : Header :=
  { y := b.getLsbD 511, m := b.getLsbD 510, p := b.getLsbD 509, b := b.getLsbD 508 }

/-- The eight slots decoded, slot 0 first. -/
def decodeBundle (b : Bundle) : List SlotDec := (List.range 8).map fun s => decSlot s (b.slot s)

/-- The number with the given little-endian bytes (R1). -/
def leNat : List Byte → Nat
  | [] => 0
  | b :: bs => b.toNat + 256 * leNat bs

/-- The bundle of 64 bytes, lowest address first (R67). -/
def bundleOfBytes (bs : List Byte) : Bundle := BitVec.ofNat 512 (leNat bs)

/-- The first operation of a list of decoded slots. -/
def firstOp : List SlotDec → Option Instr
  | [] => none
  | .nop :: ds => firstOp ds
  | .op i :: _ => some i
  | _ :: _ => none

/-- The operation of a bundle whose bits are `w`: the table gives its rows no bits, so the unit read is the whole bundle,
and the answer is its lowest-numbered occupied slot. -/
def decodeTableWord (nbits w : Nat) : Option Instr := firstOp (decodeBundle (BitVec.ofNat 512 (w % 2 ^ nbits)))

/-! ### The encoder -/

def encPred (p : Pred) : BitVec 4 := BitVec.ofBool p.pn ++ p.pr

def encV (opc : BitVec 8) (o : VArgs) : BitVec 64 :=
  opc ++ encPred o.p ++ o.fmt.code ++ encField o.d ++ encField o.a ++ encField o.b ++
    (match o.c with | .nil => o.imm | c => encField c) ++ o.rm.code ++ BitVec.ofBool o.q ++ o.m ++ o.var

def encMx (opc : BitVec 8) (o : MxArgs) : BitVec 64 :=
  opc ++ encPred o.p ++ o.fmt.code ++ o.row ++ o.view ++ o.idx ++ o.sr ++ o.imm ++ BitVec.ofBool o.z ++ BitVec.ofBool o.k ++
    BitVec.ofBool o.s ++ BitVec.ofBool o.c ++ o.rm.code ++ BitVec.ofBool o.q ++ o.m ++ o.var

def encLs (opc : BitVec 8) (o : LsArgs) : BitVec 64 :=
  opc ++ encPred o.p ++ o.w.code ++ encLsData o.data ++ o.sb ++ o.si ++ o.sc ++ o.imm ++ 0#3 ++ o.m ++ 0#1 ++ BitVec.ofBool o.u

def encXe (opc : BitVec 8) (o : XeArgs) : BitVec 64 :=
  opc ++ encPred o.p ++ o.fmt.code ++ o.xq ++ o.tix ++ o.r0 ++ o.r1 ++ o.r2 ++ o.r3 ++ o.en ++ o.cmd

/-- Bits [47:36] and [35:0] of an ALU form. -/
def encAlu (opc : BitVec 8) (o : AluArgs) : BitVec 64 :=
  match o.b with
  | .imm v => opc ++ encPred o.p ++ o.w.code ++ 1#1 ++ BitVec.ofBool o.u ++ o.sd ++ o.sa ++ v
  | .reg r => opc ++ encPred o.p ++ o.w.code ++ 0#1 ++ BitVec.ofBool o.u ++ o.sd ++ o.sa ++ r ++ 0#31

def encSel (o : SelArgs) : BitVec 64 :=
  match o.b with
  | .imm v => 0x13#8 ++ encPred o.p ++ o.w.code ++ 1#1 ++ BitVec.ofBool o.u ++ o.sd ++ o.sa ++ o.ps ++ BitVec.ofBool o.psn ++ v
  | .reg r =>
    0x13#8 ++ encPred o.p ++ o.w.code ++ 0#1 ++ BitVec.ofBool o.u ++ o.sd ++ o.sa ++ o.ps ++ BitVec.ofBool o.psn ++ r ++ 0#27

def encCmp (o : CmpArgs) : BitVec 64 :=
  match o.b with
  | .imm v => 0x18#8 ++ encPred o.p ++ o.w.code ++ 1#1 ++ BitVec.ofBool o.u ++ o.pd ++ 0#2 ++ o.sa ++ v ++ o.cond.code
  | .reg r => 0x18#8 ++ encPred o.p ++ o.w.code ++ 0#1 ++ BitVec.ofBool o.u ++ o.pd ++ 0#2 ++ o.sa ++ r ++ 0#27 ++ o.cond.code

/-- The head of a CTL form without a format: opcode, predicate, FMT 0. -/
def ctlHead (opc : BitVec 8) (p : Pred) : BitVec 16 := opc ++ encPred p ++ 0#4

/-- The head of a SY form: a zero header, the opcode and the predicate. -/
def syHead (opc : BitVec 8) (p : Pred) : BitVec 20 := 0#8 ++ opc ++ encPred p

/-- The number and the 64 bits of an operation's slot; `none` for events, which no bundle encodes. -/
def encode (i : Instr) : Option (Nat × BitVec 64) :=
  match i.vForm with
  | some (opc, o) => some (match o.u with | .va => 1 | .vb => 2, encV opc o)
  | none =>
  match i.mxForm with
  | some (opc, o) => some (3, encMx opc o)
  | none =>
  match i.ldForm with
  | some (opc, o) => some (4, encLs opc o)
  | none =>
  match i.stForm with
  | some (opc, o) => some (5, encLs opc o)
  | none =>
  match i.xeForm with
  | some (opc, o) => some (6, encXe opc o)
  | none =>
  match i.aluForm with
  | some (opc, o) => some (0, encAlu opc o)
  | none =>
  match i with
  | .movhi o => some (0, ctlHead 0x12 o.p ++ 1#1 ++ 0#1 ++ o.sd ++ o.sa ++ 0#8 ++ o.imm)
  | .sel o => some (0, encSel o)
  | .cmp o => some (0, encCmp o)
  | .plog o => some (0, ctlHead 0x19 o.p ++ 0#2 ++ o.pd ++ o.pa ++ o.pb ++ o.tt ++ 0#33)
  | .br p d => some (0, ctlHead 0x20 p ++ 0#28 ++ d)
  | .bri p sa d => some (0, ctlHead 0x21 p ++ 0#7 ++ sa ++ 0#16 ++ d)
  | .call p sd .rel d => some (0, ctlHead 0x22 p ++ 1#1 ++ 0#1 ++ sd ++ 0#5 ++ 0#16 ++ d)
  | .call p sd (.reg r) d => some (0, ctlHead 0x22 p ++ 0#1 ++ 0#1 ++ sd ++ r ++ 0#16 ++ d)
  | .ret p sa => some (0, ctlHead 0x23 p ++ 0#7 ++ sa ++ 0#36)
  | .loop o =>
    match o.n with
    | .imm n =>
      some (0, ctlHead 0x24 o.p ++ 1#1 ++ 0#1 ++ BitVec.ofBool o.rt ++ BitVec.ofBool o.pe ++ 0#3 ++ 0#5 ++ o.len ++ n)
    | .reg r =>
      some (0, ctlHead 0x24 o.p ++ 0#1 ++ 0#1 ++ BitVec.ofBool o.rt ++ BitVec.ofBool o.pe ++ 0#3 ++ r ++ o.len ++ 0#20)
  | .loopx p => some (0, ctlHead 0x25 p ++ 0#48)
  | .lidx p sd d => some (0, ctlHead 0x26 p ++ 0#2 ++ sd ++ 0#38 ++ d)
  | .sysr p sd n => some (0, ctlHead 0x30 p ++ 0#2 ++ sd ++ 0#29 ++ n)
  | .sysw p sa n => some (0, ctlHead 0x31 p ++ 0#7 ++ sa ++ 0#24 ++ n)
  | .keyWrite p sa => some (0, ctlHead 0x31 p ++ 0#7 ++ sa ++ 0#36)
  | .cmapWrite p sa n => some (0, ctlHead 0x31 p ++ 0#7 ++ sa ++ 0#24 ++ 0x080#12 ||| n.setWidth 64)
  | .cntWrite p sa n => some (0, ctlHead 0x31 p ++ 0#7 ++ sa ++ 0#24 ++ 0x0C0#12 ||| n.setWidth 64)
  | .trap p imm => some (0, ctlHead 0x38 p ++ 0#32 ++ imm)
  | .tret p => some (0, ctlHead 0x39 p ++ 0#48)
  | .exit p => some (0, ctlHead 0x3A p ++ 0#48)
  | .mnop h v => some (3, 0xF#4 ++ h ++ v)
  | .xsig o =>
    some (6, ctlHead 0x10 o.p ++ o.xq ++ o.ctr ++ BitVec.ofBool o.l ++ o.h ++ o.sa ++ o.imm ++ 0#8)
  | .xword o =>
    some (6, ctlHead 0x11 o.p ++ o.xq ++ 0#6 ++ BitVec.ofBool o.l ++ o.h ++ o.sa ++ o.sb ++ o.imm ++ 0#8)
  | .xjoin p xq jm => some (6, ctlHead 0x18 p ++ xq ++ jm ++ 0#42)
  | .xlrf p => some (6, ctlHead 0x19 p ++ 0#48)
  | .xadv p n => some (6, ctlHead 0x1B p ++ 0#44 ++ n)
  | .xstat p xq sd e => some (6, ctlHead 0x1D p ++ xq ++ sd ++ e ++ 0#39)
  | .xcancel p cm sd => some (6, ctlHead 0x1E p ++ 0#2 ++ cm ++ sd ++ 0#37)
  | .xnop h v => some (6, 0xF#4 ++ h ++ v)
  | .waitge p ctr sa imm f =>
    some (7, syHead 0x01 p ++ ctr ++ sa ++ f.limit ++ BitVec.ofBool f.dcl ++ f.pd ++ imm)
  | .waitw p sb sa c off f =>
    some (7, syHead 0x02 p ++ sb ++ sa ++ f.limit ++ BitVec.ofBool f.dcl ++ f.pd ++ c.code ++ off)
  | .sig p ctr sa imm => some (7, syHead 0x03 p ++ ctr ++ sa ++ imm ++ 0#13)
  | .barr p b dcl limit => some (7, syHead 0x08 p ++ b ++ BitVec.ofBool dcl ++ limit ++ 0#20)
  | .realign p sa imm => some (7, syHead 0x09 p ++ sa ++ 0#7 ++ imm)
  | .fence p sc => some (7, syHead 0x0A p ++ sc.code ++ 0#41)
  | .fadv p fs n => some (7, syHead 0x10 p ++ BitVec.ofBool fs.toBit ++ n ++ 0#38)
  | .fwait o =>
    some (7, syHead 0x11 o.p ++ BitVec.ofBool o.fs.toBit ++ o.n ++ BitVec.ofBool o.form.dcl ++ o.form.limit ++ o.form.pd ++ 0#14)
  | .ffree o =>
    some (7, syHead 0x12 o.p ++ BitVec.ofBool o.fs.toBit ++ o.n ++ BitVec.ofBool o.form.dcl ++ o.form.limit ++ o.form.pd ++ 0#14)
  | _ => none

/-- A bundle that holds one operation and the header of Table 4.1 all zero. -/
def oneSlotBundle (s : Nat) (w : BitVec 64) : Bundle := (w.setWidth 512) <<< (64 * s)

end Sys2Proof
end

