-- ==== Sys2Proof/Machine/Map.lean ====
section
/-! DEFINITION. Sparse maps in one canonical form: keys strictly rising, and no entry equal to the default, so that equal
contents are equal lists. Memories, register files and tables are held this way. -/

namespace Sys2Proof.Machine

/-- A sparse map from naturals. -/
abbrev SMap (α : Type) := List (Nat × α)

/-- A memory: an unlisted address reads as zero, as a wipe leaves it (R23). -/
abbrev Mem := List Host.Cell

/-- The value at a key, `d` where none is listed. -/
def SMap.get {α : Type} (d : α) (m : SMap α) (k : Nat) : α :=
  match m with
  | [] => d
  | (k', v) :: m => if k = k' then v else SMap.get d m k

/-- List a value, in key order. -/
def SMap.put {α : Type} (m : SMap α) (k : Nat) (v : α) : SMap α :=
  match m with
  | [] => [(k, v)]
  | (k', v') :: r => if k < k' then (k, v) :: (k', v') :: r else if k = k' then (k, v) :: r else (k', v') :: SMap.put r k v

/-- Drop a key. -/
def SMap.erase {α : Type} (m : SMap α) (k : Nat) : SMap α := m.filter fun e => e.1 ≠ k

/-- Write a value, dropping the entry when it is the default. -/
def SMap.set {α : Type} [DecidableEq α] (d : α) (m : SMap α) (k : Nat) (v : α) : SMap α :=
  if v = d then m.erase k else m.put k v

/-- The canonical form: keys strictly rising and no default entry. -/
def SMap.wf {α : Type} [DecidableEq α] (d : α) (m : SMap α) : Bool :=
  match m with
  | [] => true
  | [(_, v)] => v ≠ d
  | (k, v) :: (k', v') :: r => decide (k < k') && decide (v ≠ d) && SMap.wf d ((k', v') :: r)

/-- The canonical form of a memory. -/
def Memory.wf (m : Mem) : Bool := SMap.wf (0 : Byte) m

/-- One byte. -/
def Mem.byte (m : Mem) (a : Nat) : Byte := SMap.get 0 m a

/-- Write one byte. -/
def Mem.setByte (m : Mem) (a : Nat) (b : Byte) : Mem := SMap.set (0 : Byte) m a b

/-- The part of a memory between two addresses. -/
def Mem.window (m : Mem) (a n : Nat) : Mem := m.filter fun e => a ≤ e.1 && e.1 < a + n

/-- `n` bytes from address `a` upward. -/
def Mem.read (m : Mem) (a n : Nat) : List Byte :=
  let w := m.window a n
  (List.range n).map fun i => w.byte (a + i)

/-- Nonzero bytes of a list with their addresses. -/
def Mem.cells (a : Nat) (bs : List Byte) : Mem :=
  match bs with
  | [] => []
  | b :: bs => if b = 0 then Mem.cells (a + 1) bs else (a, b) :: Mem.cells (a + 1) bs

/-- Write bytes from address `a` upward. -/
def Mem.write (m : Mem) (a : Nat) (bs : List Byte) : Mem :=
  (m.filter fun e => e.1 < a) ++ Mem.cells a bs ++ (m.filter fun e => a + bs.length ≤ e.1)

/-- Write the bytes whose enable is set; the others keep their contents. -/
def Mem.writeMasked (m : Mem) (a : Nat) (bs : List (Byte × Bool)) : Mem :=
  match bs with
  | [] => m
  | (b, en) :: bs => Mem.writeMasked (if en then m.setByte a b else m) (a + 1) bs

/-- Bytes of a natural, least significant first (R1). -/
def leBytes (n : Nat) (v : Nat) : List Byte :=
  match n with
  | 0 => []
  | n + 1 => BitVec.ofNat 8 v :: leBytes n (v / 256)

/-- The natural with the given bytes, least significant first (R1). -/
def ofLe : List Byte → Nat
  | [] => 0
  | b :: bs => b.toNat + 256 * ofLe bs

/-- The little-endian natural of `n` bytes at `a`. -/
def Mem.nat (m : Mem) (a n : Nat) : Nat := ofLe (m.read a n)

end Sys2Proof.Machine
end

