-- ==== Sys2Proof/Machine/Journal.lean ====
section
/-! DEFINITION. The layout of a journal entry (Table 6.10). -/

namespace Sys2Proof.Machine

/-- The fields of an entry that its writer gives. -/
structure JEntry where
  kind : Nat
  status : BitVec 16 := 0
  tenant : BitVec 16 := 0
  queue : Nat := 0
  index : Nat := 0
  tag : Word := 0
  arg0 : Word := 0
  arg1 : Word := 0
  deriving DecidableEq, Repr

/-- The 64 bytes of an entry with its sequence number and time in nanoseconds; the last four are the CRC-32C of the
others. -/
def JEntry.bytes (e : JEntry) (seq time : Nat) : List Byte :=
  let b := leBytes 8 seq ++ leBytes 8 time ++ leBytes 1 e.kind ++ leBytes 1 0 ++ leBytes 2 e.status.toNat ++
    leBytes 2 e.tenant.toNat ++ leBytes 1 e.queue ++ leBytes 1 0 ++ leBytes 4 e.index ++ leBytes 4 0 ++
    leBytes 8 e.tag.toNat ++ leBytes 8 e.arg0.toNat ++ leBytes 8 e.arg1.toNat ++ leBytes 4 0
  b ++ leBytes 4 (crc32c b).toNat

/-- The journal a module reset leaves: one entry of kind die reset for each compute die (R28). -/
def resetJournal : SMap (List Byte) :=
  (List.range 8).map fun n => (n, ({ kind := 5, arg0 := BitVec.ofNat 64 n } : JEntry).bytes n 0)

end Sys2Proof.Machine
end

