-- ==== Sys2Proof/Machine/State.lean ====
section
/-! DEFINITION. The state of one GX2048-M module, as plain data: every register, memory, queue and table the manual names,
and after them the model's own fields (the agenda of the cycle, the bundle now issuing, the outside events still to come,
and the counter of free values). -/

namespace Sys2Proof.Machine

/-- Why a run can stop. -/
inductive Fault where
  /-- HOST_READ, HOST_WRITE or PEER_WRITE names an address at or beyond the end of a device memory (R422). Safe: the
  manual says the address names no memory. -/
  | noSuchAddress (sp : Space) (addr : Nat)
  deriving DecidableEq, Repr

/-- Why the model answers nothing for an instruction. -/
inductive Refusal where
  /-- The arms of `exec` that have no meaning yet. Safe. -/
  | notModelled (mnemonic : String)
  /-- A slot operation for which no bundle is at its slot: the part does not perform it there. Safe. -/
  | notIssuing (slot : Nat)
  /-- An event whose conditions do not hold: the part does not perform it there. Safe. -/
  | notEnabled (row : String)
  deriving DecidableEq, Repr

/-! ### One context -/

/-- A launch record's name: queue and index (R111). -/
structure LId where
  q : BitVec 6
  i : BitVec 32
  deriving DecidableEq, Repr

/-- The registers, quires and weight planes of a context: what a stepped bundle keeps from its first step (R402). -/
structure Regs where
  /-- s1-s31 (R75) -/
  s : SMap Word := []
  /-- p7..p0; bit 0 is not read -/
  p : BitVec 8 := 0
  m : SMap Mask := []
  /-- register space by register number (R82) -/
  space : SMap Vec := []
  opf : SMap Vec := []
  /-- %va, %vb, %mx, %ld as 0 to 3 (R81) -/
  latch : SMap Vec := []
  vq : SMap Quire := []
  key : Word := 0
  step : Word := 0
  morig : Word := 0
  flga : FlgVec := 0
  flgb : FlgVec := 0
  /-- quire `128 n + j` is quire j of row n (R298) -/
  quires : SMap Quire := []
  qx : BitVec 32 := 0
  /-- plane slot `128 P + p` of physical plane P (R299) -/
  plane : SMap Vec := []
  tag0 : BitVec 4 := 0
  tag1 : BitVec 4 := 0
  /-- part `8 P + p` of the block-scale memory of physical plane P (R201) -/
  bscale : SMap Vec := []
  /-- the physical plane MACC reads (R301) -/
  act : Bool := false
  /-- the physical plane MPUSH and LDSCL.B write; the other one once every MSHIFT has landed (R308) -/
  fill : Bool := true
  fp : BitVec 7 := 0
  ascale : BitVec 128 := 0
  deriving DecidableEq, Repr

/-- A level of the loop stack (Table 8.1). -/
structure Level where
  count : BitVec 32 := 0
  idx : BitVec 32 := 0
  len : BitVec 16 := 0
  start : BitVec 16 := 0
  rt : Bool := false
  pe : Bool := false
  deriving DecidableEq, Repr

/-- Where a pending transfer goes: an offset's bits [21:6], or the return of a TRET (R178, R192). -/
inductive Goal where
  | off (t : BitVec 16)
  | tret
  deriving DecidableEq, Repr

/-- A pending transfer (R178). -/
structure Pending where
  d : Nat
  goal : Goal
  deriving DecidableEq, Repr

/-- An operand FIFO and its state word (Table 14.1). -/
structure Fifo where
  ent : SMap Vec := []
  wr : BitVec 4 := 0
  rd : BitVec 4 := 0
  tkn : BitVec 16 := 0
  avl : BitVec 16 := 0
  deriving DecidableEq, Repr

/-- What a row's landing does to its QX bit (R303). -/
inductive QxUp where
  | keep
  | orWith (b : Bool)
  | set (b : Bool)
  deriving DecidableEq, Repr

/-- The result of one slot operation, to be applied when it lands (R163, R164). -/
inductive Write where
  | sreg (r : Nat) (v : Word)
  | preg (r : Nat) (v : Bool)
  | mreg (r : Nat) (v : Mask)
  /-- register `j` reached through view `n`, in the lanes given -/
  | reg (n j : Nat) (v : Vec) (lanes : Mask)
  | opf (e : Nat) (v : Vec) (lanes : Mask)
  | latch (n : Nat) (v : Vec) (lanes : Mask)
  | vq (n : Nat) (v : Quire)
  | flags (u : VUnit) (f : FlgVec)
  | flagClear (u : VUnit) (f : FlgVec)
  | row (n : Nat) (qs : List (Nat × Quire)) (qx : QxUp)
  | qxAll (v : BitVec 32)
  /-- a quire became NaR; the word is EINFO of QOVF (R367) -/
  | overflow (einfo : Word)
  | planeSlot (pl : Bool) (slot : Nat) (v : Vec) (tag : BitVec 4)
  | fillRole
  | computeRole
  | planeClear (pl : Bool)
  | ascale (v : BitVec 128)
  | bscale (pl : Bool) (part : Nat) (v : Vec)
  | morig (v : Word)
  | sys (num : Nat) (v : Word)
  | cntSet (phys : Nat) (v : Word)
  | cntAdd (phys : Nat) (v : Word)
  | cmap (n phys : Nat)
  /-- bytes at a physical scratchpad offset; the enable of each byte -/
  | store (a : Nat) (bs : List (Byte × Bool))
  | fifoFill (f : FS) (e : Nat) (v : Vec)
  | fifoFree (f : FS) (e : Nat)
  deriving DecidableEq, Repr

/-- A result in flight. -/
structure Landing where
  /-- cycles still to run; 0 is due -/
  left : Nat
  /-- which of the context's bundles issued it -/
  serial : Nat
  slot : Nat
  off : BitVec 16
  /-- issued in user mode, and in which interval of R398 -/
  hash : Option Nat
  /-- issued as the secondary context's (R203) -/
  second : Bool := false
  /-- already in the digest of a checked interval that has closed (R384) -/
  counted : Bool := false
  w : Write
  deriving DecidableEq, Repr

/-- One entry of the stream log (Table 18.4). -/
structure LogEntry where
  count : BitVec 32 := 0
  tgt : BitVec 16 := 0
  off : BitVec 16 := 0
  nop : Bool := false
  pop : Bool := false
  push : Bool := false
  annul : Bool := false
  xfer : Bool := false
  deriving DecidableEq, Repr

/-- The sequencer of a headland before one of its bundles (R369). -/
structure Past where
  num : Nat
  epc : Word
  ept : Word
  ls : SMap Level
  deriving DecidableEq, Repr

/-- What a TRET leaves for the bundle it reissues (R192, R370). -/
structure Resume where
  done : BitVec 8
  xfer : Option (BitVec 16)
  annul : Bool
  /-- whole bundles still to skip, in a furrow -/
  skip : Nat
  /-- bundles the headland still replays from its stream log -/
  replay : List LogEntry
  deriving DecidableEq, Repr

/-- Filled and free counts of fa and fb before a bundle, and the entries of each that the bundle has consumed. -/
structure FifoCounts where
  fill : Nat × Nat := (0, 0)
  free : Nat × Nat := (0, 0)
  used : Nat × Nat := (0, 0)
  deriving DecidableEq, Repr

/-- The part of a context that a context image or a shadow holds. -/
structure Core extends Regs where
  sup : Bool := false
  pc : BitVec 16 := 0
  ldep : Nat := 0
  ls : SMap Level := []
  pend : List Pending := []
  nulls : Nat := 0
  fa : Fifo := {}
  fb : Fifo := {}
  /-- VW0-VW3 (Table 4.7) -/
  vw : SMap Word := []
  /-- the descriptors a SYSW has written in the present cycle (R189) -/
  vwNew : BitVec 4 := 0
  qtrap : Word := 2
  cyc : Word := 0
  shn : Word := 0
  epc : Word := 0
  ept : Word := 0
  ecause : Word := 0
  eslot : Word := 0
  edone : Word := 0
  einfo : Word := 0
  tvec : Word := 0
  sscr : SMap Word := []
  /-- DCR:0-31 and DSUM (R390, R391) -/
  dcr : SMap Word := []
  dsum : BitVec 32 := 0
  /-- DHIST:0-31 (Table 15.3) -/
  dhist : SMap Word := []
  bars : BitVec 8 := 0
  psc : Nat := 0
  inflight : List Landing := []
  /-- a pending quire overflow's EINFO (R367) -/
  qovf : Option Word := none
  resume : Option Resume := none
  /-- the operands kept by a stepped bundle (R402) -/
  kept : Option Regs := none
  /-- with them the filled and free counts of fa and fb at its first step, and the entries its MX operation has consumed (R164) -/
  keptFifo : Option FifoCounts := none
  /-- BRK is due before the next bundle: a step has completed (R402) -/
  stepped : Bool := false
  /-- the last bundle issued acted as a point (R371), and a point was deferred (R180) -/
  point : Bool := false
  deferred : Bool := false
  tpos : Nat := 0
  slog : List LogEntry := []
  deriving DecidableEq, Repr

/-- A region record (Table 6.6). For classes 4 and 5 the target tile and context and the launch that holds it, for class 7
the port and window, and the offset of the entry. -/
structure Region where
  cls : BitVec 8 := 0
  rights : BitVec 8 := 0
  valid : Bool := false
  locked : Bool := false
  dyn : Bool := false
  qloc : Bool := false
  rowb : BitVec 32 := 0
  nrow : BitVec 32 := 0
  stride : BitVec 32 := 0
  /-- extents: frame number and frame count -/
  ext : List (Nat × Nat) := []
  tile : Nat := 0
  k : BitVec 2 := 0
  owner : Option LId := none
  /-- which launch of that name: the sequence number of its accepted entry -/
  gen : Nat := 0
  port : Nat := 0
  window : Nat := 0
  off : Nat := 0
  deriving DecidableEq, Repr

/-- A place a command can read or write. -/
inductive Place where
  | scratch (t a : Nat)
  | mem (sp : Space) (a : Nat)
  | peer (port window a : Nat)
  deriving DecidableEq, Repr

/-- Where the byte moved comes from: a pad byte or a place. -/
inductive Source where
  | pad (b : Byte)
  | byte (p : Place)
  deriving DecidableEq, Repr

/-- One indivisible step of a started command. -/
inductive Beat where
  /-- bytes of one 64-byte block of the destination: the block's start, and the source of each byte it moves -/
  | move (base : Place) (bytes : List (Option Source))
  /-- one FIFO entry -/
  | entry (f : FS) (bytes : List Source)
  /-- one addend into a quire cell: the near bytes it is read from (low or high nibble for T4) -/
  | addend (cell : Place) (near : List Place) (nib : Option Bool)
  /-- cells rounded into the block `base` of the near side: the cell (none for a pad), the coordinates for the draw, and the
  element number; `chain` says that an element of an earlier beat reaches into the block -/
  | drain (base : Place) (chain : Bool) (els : List (Option Place × BitVec 32 × BitVec 32 × Nat))
  | clear (cell : Place)
  /-- one row of XCSR -/
  | csrRow (r : Nat)
  /-- the count of a row of XCSR, after the entries of the row -/
  | csrCount (base : Place) (bytes : List (Option Source))
  /-- a listed coordinate or bound that faults when it is reached: QDET.D1 -/
  | bad (d1 : BitVec 32)
  deriving DecidableEq, Repr

/-- A release entry of an arrival counter (Table 11.5): the amount, the tile and context it was resolved to at the XARM's issue,
the virtual counter, and the launch and field coordinate of that context (R218, R220). -/
structure RelEntry where
  amt : Nat
  tile : Nat
  k : BitVec 2
  ctr : Nat
  id : LId
  gen : Nat := 0
  fx : Nat
  fy : Nat
  deriving DecidableEq, Repr

/-- An entry of a queue: what the command captured at issue (R205, R237, R380). -/
structure XEntry where
  word : BitVec 64
  /-- override registers, the registers of a register layout, or N(0) to N(3) of an XJOIN -/
  vals : List Word
  idx : BitVec 16
  recs : List (BitVec 1024)
  off : BitVec 16
  /-- zone cycle of issue -/
  at_ : Nat
  key : Word
  step : Word
  /-- issued in supervisor mode -/
  sup : Bool := false
  /-- its number among all commands of its context, which never repeats -/
  ord : Nat := 0
  /-- commands of earlier fences that must have ended, by number (R342) -/
  after : List Nat := []
  /-- its reach, 0 to 4 for T, F, D, P and S (R342) -/
  reach : Nat := 0
  /-- the declared completion cycle of a timed command (R234), and the cycle in which FIFO entry 0 is due -/
  due : Option Nat := none
  fifoDue : Nat := 0
  /-- 64-byte blocks of its own tile that it reads and writes (R337, R338) -/
  rd : List Nat := []
  wr : List Nat := []
  /-- the release entries of an XARM, resolved at its issue (R220) -/
  rel : List RelEntry := []
  deriving DecidableEq, Repr

/-- A started command. -/
structure Started where
  e : XEntry
  /-- beats not yet landed -/
  beats : List Beat := []
  /-- 64-byte source blocks already read, each with the bytes it held then (R337) -/
  cap : List (Place × List Byte) := []
  /-- the translation-table records captured at start (R255) -/
  regs : List (Nat × Region) := []
  /-- progress of an XDEC: next byte of the stream, next near-side offset, block ordinal -/
  dpos : Nat := 0
  dout : Nat := 0
  dblk : Nat := 0
  /-- progress: entries appended by an XCSR, or made available in a FIFO -/
  napp : Nat := 0
  /-- its remote action is on the way -/
  acting : Bool := false
  /-- bytes of elements already drained that lie in a block whose own beat is still to land (R247, R334) -/
  carry : List (Place × Byte) := []
  /-- the dies that its beats pass, on the routes in force as it started; 8 is the CTD (R387) -/
  route : List Nat := []
  /-- a die on the route that drains, and how many of the beats had not entered it when it began to: they wait for its return (R387) -/
  held : Option (Nat × Nat) := none
  /-- FIFO entries whose bytes have been moved, and which are not yet available (R234, R240) -/
  staged : List Vec := []
  /-- arrival counters that its bytes have brought to their totals: it is acknowledged after their releases (R406) -/
  owed : List (ArrLoc × Nat) := []
  /-- the word of its XWORD, or of its action, has been written -/
  wrote : Bool := false
  deriving DecidableEq, Repr

/-- One queue of a context (Tables 11.1, 11.2). -/
structure XQueue where
  issued : BitVec 16 := 0
  done : BitVec 16 := 0
  qs : BitVec 2 := 0
  ecode : BitVec 8 := 0
  d0 : BitVec 32 := 0
  d1 : BitVec 32 := 0
  ents : List XEntry := []
  run : Option Started := none
  /-- index, and block ordinal, of the command whose fault is pending or held -/
  bad : Option (BitVec 16 × BitVec 16) := none
  /-- reach of that command, and the counters of its own context that its local action adds to (R232) -/
  badReach : Nat := 0
  badCtrs : List Nat := []
  badOrd : Nat := 0
  /-- QSTAT as it stood before the cycle of the latest completion, and that cycle (R253) -/
  prev : Nat × Word := (0, 0)
  /-- the commands whose windows closed in a cycle, and that cycle: the windows still hold it (R337) -/
  closed : Nat × List XEntry := (0, [])
  deriving DecidableEq, Repr

/-- A copy in the template cache (R208), most recently used first. -/
structure TCopy where
  idx : Nat
  bits : BitVec 1024
  stale : Bool
  deriving DecidableEq, Repr

/-- A bundle on the furrow path (R148, R187). -/
structure PathItem where
  /-- cycles still to travel -/
  left : Nat
  bytes : Bundle
  off : BitVec 16
  /-- IDX of the levels in use, innermost first -/
  idx : List (BitVec 32)
  /-- iteration ends of levels with RT set (R187) -/
  rot : Nat
  nop : Bool
  /-- mode of the headland at its issue -/
  sup : Bool
  /-- replayed from the stream log (R370) -/
  replay : Bool
  /-- its REALIGN missed at the headland (R359) -/
  rmiss : Bool
  /-- it acted as a point at the headland (R371, R374) -/
  point : Bool := false
  /-- its number in the headland's stream -/
  num : Nat
  deriving DecidableEq, Repr

/-- A furrow stop in progress, held by the headland (R368): the resume bundle's number, the cycle after which it issues
nothing, and for each position the stopping tile's trap. -/
structure FStop where
  resume : Nat
  /-- the last cycle in which the headland issues -/
  until_ : Nat
  /-- position and cause of the first trap -/
  pos : Nat
  cause : BitVec 8
  /-- no handler bundle before this cycle -/
  floor : Nat := 0
  /-- once the headland has stopped: how many bundles it had issued, and the cycle of the last one -/
  last : Option (Nat × Nat) := none
  /-- the offset at which its sequencer then stood (R400) -/
  off : BitVec 16 := 0
  deriving DecidableEq, Repr

/-- A bundle held at issue: the cycle c0 it first reached issue, the target formed then, and the value last read (R352). -/
structure Hold where
  c0 : Nat
  target : Word := 0
  value : Word := 0
  ea : Int := 0
  /-- the SY condition has held in some cycle since c0 -/
  met : Bool := false
  /-- the latest cycle in which it held -/
  okAt : Nat := 0
  deriving DecidableEq, Repr

/-- A wait probe in a furrow (R150): the cycle c0 from which limits count, the cycle from which its travel counts (cycles of a
stretch count in no latency), and the cycle each member's report reaches the headland. -/
structure Probe where
  c0 : Nat
  sent : Nat := 0
  /-- cycles by which freezes have held the probe up before it reached a position, and the freeze cycles of the headland (R152) -/
  delay : SMap Nat := []
  froz : Nat := 0
  /-- positions whose condition has held, before its limit, in a cycle before the probe came by -/
  early : List Nat := []
  /-- the first cycle in which the headland's condition held apart from forcing (R395) -/
  nat0 : Option Nat := none
  /-- position and arrival cycle of the report -/
  ready : SMap Nat := []
  deriving DecidableEq, Repr

/-- Operations a checked pair gates until the mark (R384). -/
inductive Gated where
  | store (a : Nat) (bs : List (Byte × Bool))
  | sig (phys : Nat) (v : Word)
  | xe (q : Nat) (e : XEntry)
  deriving DecidableEq, Repr

/-- An open interval of the hash log (R398). -/
structure HashIv where
  i : Nat
  crc : BitVec 64 := 0
  deriving DecidableEq, Repr

/-- What a checked tile keeps of its context at a mark: the whole of its state that issue can change, its map of counters, its issue
table, its place in the stream and its open hashes with it (R384). -/
structure Shadow extends Core where
  cmap : SMap (Option Nat) := []
  itab : SMap Region := []
  fence : List Nat := []
  preq : Word := 0
  sent : Nat := 0
  past : List Past := []
  fstop : Option FStop := none
  mute : Bool := false
  hashes : List HashIv := []
  deriving DecidableEq, Repr

/-- Checked-mode state of one tile of a pair (R384, R385). -/
structure Check where
  gate : List Gated := []
  crc : BitVec 64 := 0
  /-- bundles since the last mark -/
  n : Nat := 0
  shadow : Option Shadow := none
  /-- what SYSW operations have added to counters since the mark, and the barriers that the context has passed since it -/
  sets : SMap Word := []
  passed : List Nat := []
  /-- zone cycles of mismatches in the sliding window -/
  miss : List Nat := []
  /-- at the headland: a digest exchange is under way, and may end from this cycle -/
  until_ : Option Nat := none
  /-- the cycle of the last mark -/
  markAt : Nat := 0
  pair : Bool := false
  deriving DecidableEq, Repr

/-- The life of a hardware context. -/
inductive Life where
  | free
  /-- placed: loading, parked, or waiting for T0 -/
  | placed
  | running
  /-- after its EXIT (R389) -/
  | retiring
  | retired
  /-- stopped by a kill, a final trap or a die reset (R382) -/
  | stopped
  deriving DecidableEq, Repr

/-- One of the four contexts of a tile. -/
structure Ctx extends Core where
  launch : Option LId := none
  life : Life := .free
  /-- the image has been saved (R377) -/
  saved : Bool := false
  timed : Bool := false
  checked : Bool := false
  flen : Nat := 1
  /-- tiles that run the stream: FLEN, or 2 for a checked pair (R383) -/
  span : Nat := 1
  pos : Nat := 0
  /-- tile and context of the headland -/
  head : Nat := 0
  headK : BitVec 2 := 0
  spacing : Nat := 256
  reserve : BitVec 8 := 0
  qrows : Nat := 0
  counters : Nat := 0
  prio : Nat := 0
  foot : Nat := 0
  wbase : Nat := 0
  field : Word := 0
  t0 : Nat := 0
  preq : Word := 0
  /-- CMAP:n (Table 17.2), `none` unmapped -/
  cmap : SMap (Option Nat) := []
  /-- g0-g47 -/
  locked : SMap Region := []
  /-- g48-g63: the issue table and the translation table (R255) -/
  itab : SMap Region := []
  ttab : SMap Region := []
  xq : SMap XQueue := []
  tcache : List TCopy := []
  /-- the copy timetable (R216) -/
  timetable : List Word := []
  /-- the commands that later ones wait for, and the number of the next command (R342) -/
  fence : List Nat := []
  nextOrd : Nat := 0
  serial : Nat := 0
  age : Nat := 0
  /-- no bundle before this zone cycle -/
  readyAt : Nat := 0
  hold : Option Hold := none
  probe : Option Probe := none
  path : List PathItem := []
  /-- the bundle delivered for this cycle -/
  got : Option PathItem := none
  /-- bundles issued by the headland, by number -/
  sent : Nat := 0
  /-- the cycle in which the latest bundle issued -/
  lastIssue : Nat := 0
  /-- in a timed furrow: a padded completion cannot come by its declared cycle, which is this one or has passed (R152) -/
  stuck : Bool := false
  /-- sequencer state of the headland before each of its last 32 bundles -/
  past : List Past := []
  fstop : Option FStop := none
  /-- this member suppresses what it receives until the handler's bundles (R368) -/
  mute : Bool := false
  chk : Option Check := none
  /-- cycles of a slip so far at the held bundle, and the late operation's slot -/
  stall : Nat := 0
  stallSlot : Nat := 0
  /-- an image operation is in progress (R376), and the cycle from which it may end -/
  imgOp : Bool := false
  imgAt : Nat := 0
  /-- the cycle of the first hold of its walk (R121) -/
  imgHold : Option Nat := none
  /-- cycle from which a pre-emption request is seen (Table 18.6) -/
  reqAt : Nat := 0
  /-- chosen as secondary in this cycle; cycles of age of the bytes that fetch reads (R147) -/
  second : Bool := false
  lag : Nat := 0
  prof : SMap Nat := []
  /-- DCR events of the present cycle: slot, code, offset, amount, kernel-relative cycle (R391) -/
  events : List (Nat × Nat × BitVec 16 × Nat × Nat) := []
  hashes : List HashIv := []
  /-- sync events so far (R395), and trace records not yet in the ring (R400) -/
  ordinal : Nat := 0
  trace : List (BitVec 128) := []
  deriving DecidableEq, Repr

/-! ### One tile -/

/-- Who armed an arrival counter: its tile and number then, its field coordinate, its queue and the XARM's index (R222). -/
structure Armer where
  t : Nat := 0
  k : BitVec 2 := 0
  fx : Nat := 0
  fy : Nat := 0
  q : Nat := 0
  idx : BitVec 16 := 0
  deriving DecidableEq, Repr

/-- An arrival counter (Table 11.5), with the arming context, its queue and command index, and the beats seen (R222,
R223). -/
structure Arrival where
  st : BitVec 2 := 0
  gen : BitVec 16 := 0
  ownt : BitVec 16 := 0
  nrel : Nat := 0
  side : Bool := false
  slot : BitVec 8 := 0
  own : LId := ⟨0, 0⟩
  base : Nat := 0
  len : Nat := 0
  total : Nat := 0
  count : Nat := 0
  rel : List RelEntry := []
  /-- COUNT has reached TOTAL and the release has not yet been performed -/
  due : Bool := false
  arm : Armer := {}
  armOff : BitVec 16 := 0
  beats : List Nat := []
  /-- some byte of this generation came from another launch, or from the host (R162) -/
  alien : Bool := false
  deriving DecidableEq, Repr

/-- The decompressor of a tile (R228): the XDEC it serves and the block in its staging buffer. -/
structure Decomp where
  k : BitVec 2
  xq : Nat
  /-- cycles until the block now decoding is done -/
  left : Nat := 0
  /-- raw bytes that passed the CRC and are not yet released -/
  staged : List Byte := []
  /-- the block decoding now is not yet done -/
  busy : Bool := true
  /-- the cycle in which a FIFO entry was last released (R228) -/
  fed : Option Nat := none
  deriving DecidableEq, Repr

structure Tile where
  scratch : Mem := []
  cnt : SMap Word := []
  arr : SMap Arrival := []
  ctx : SMap Ctx := []
  /-- the holder of each priority class (R154) -/
  holder : SMap (Option (BitVec 2)) := []
  /-- freezes: first cycle and number of cycles (R152) -/
  freeze : List (Nat × Nat) := []
  decomp : Option Decomp := none
  /-- the command the next beat goes to (R207) -/
  rr : Nat := 0
  /-- beside a timed context: the counters, and the 8-byte words of the scratchpad, last changed by elastic work (R162) -/
  ecnt : List Nat := []
  eword : List Nat := []
  /-- uncorrectable errors, by 64-byte block of the scratchpad (R196); fed by no modelled event -/
  bad : List Nat := []
  /-- bytes that writes of the present and the previous cycle replaced: cycle, offset, old byte (R147) -/
  undo : List (Nat × Nat × Byte) := []
  /-- the additions of the present cycle, by physical counter (R189) -/
  added : SMap Word := []
  /-- scratchpad bytes that stores have written in the present cycle (R203) -/
  fresh : List Nat := []
  /-- bytes that the transfer engine has moved in the present cycle (R207) -/
  moved : Nat := 0
  deriving DecidableEq, Repr

/-! ### The control die -/

/-- A saved context: its launch and field coordinate. -/
structure SavedCtx where
  id : LId
  fx : Nat
  fy : Nat
  deriving DecidableEq, Repr

/-- A slot of the image store: the image of Tables 18.7 to 18.9 from byte 0 upward, and the bytes 0xF_FE00 to 0xF_FFFF, which hold
DCR:0-31 and DSUM (R376, R392); the launch and field coordinate of the context, and the context as it was saved. A restore takes
from the last only what the image does not hold and other rules still need (log entry 43). -/
structure Image where
  id : LId
  fx : Nat
  fy : Nat
  was : Ctx
  bytes : List Byte
  tail : List Byte
  deriving DecidableEq, Repr

/-- The readiness map (Table 2.2). -/
structure Ready where
  tile : SMap Word := []
  hbm : BitVec 16 := 0
  lpd : BitVec 8 := 0
  die : BitVec 8 := 0
  mgmt : BitVec 4 := 0
  pf : Bool := false
  dv : BitVec 4 := 0
  bnd : BitVec 12 := 0
  gen : Word := 0
  deriving DecidableEq, Repr

/-- A launch queue (Tables 6.1 and 19.4). -/
structure Queue where
  base : Word := 0
  cfg : Word := 0
  ptr : Word := 0
  cq : Word := 0
  /-- the lowest index not yet taken, and the indices above it taken out of turn (R110) -/
  head : BitVec 32 := 0
  out : List (BitVec 32) := []
  tail : BitVec 32 := 0
  ovf : Bool := false
  err : Bool := false
  dbgctl : Word := 0
  slbase : Word := 0
  trbase : Word := 0
  hrbase : Word := 0
  prbase : Word := 0
  dbgsz : Word := 0
  bp0 : Word := 0
  bp1 : Word := 0
  deriving DecidableEq, Repr

/-- Where a launch stands (R112). -/
inductive LPhase where
  /-- waiting for its dependences -/
  | deps
  /-- walking its image and regions -/
  | walk
  /-- waiting for admission -/
  | admitting
  /-- its packet has been broadcast; dies are loading -/
  | loading
  /-- parked in its siding -/
  | parked
  /-- T0 is set; its contexts start then, or have started -/
  | running
  /-- ending: quiescing before its completion record -/
  | ending
  deriving DecidableEq, Repr

/-- The HKI header's fields a launch keeps (Table 4.11). -/
structure Header0 where
  timed : Bool := false
  checked : Bool := false
  spacing : Nat := 256
  reserve : BitVec 8 := 0
  counters : Nat := 1
  qrows : Nat := 0
  stages : Nat := 1
  flen : Nat := 1
  fcount : Nat := 1
  entry : Nat := 0
  imgsize : Nat := 0
  views : List Word := []
  /-- sections: type, offset, size, load -/
  sect : List (Nat × Nat × Nat × Nat) := []
  deriving DecidableEq, Repr

/-- What one tile of a placed launch gives it: the context number, the window base, and the physical counters. -/
structure Member where
  k : BitVec 2 := 0
  base : Nat := 0
  phys : List Nat := []
  deriving DecidableEq, Repr

/-- One furrow of a placed launch: its number, headland tile and members. -/
structure Furrow where
  fy : Nat
  head : Nat
  mem : List Member
  deriving DecidableEq, Repr

/-- One record of the synchronisation log (Table 19.5). -/
structure SyncRec where
  zc : Nat
  value : Word
  kind : Nat
  obj : Nat
  tile : Nat
  k : Nat
  /-- of an arrival release, the controller of the counter: 0 for the tile's, 1 to 16 for the HBM4 stacks', 17 for LPDDR6 -/
  ctl : Nat := 0
  deriving DecidableEq, Repr

/-- A taken launch record. -/
structure Launch where
  id : LId
  tenant : BitVec 16 := 0
  prio : Nat := 0
  side : Option (BitVec 8) := none
  bytes : List Byte := []
  phase : LPhase := .deps
  hdr : Header0 := {}
  /-- the image's bytes as far as the walk has read them, and whether it has been checked -/
  image : List Byte := []
  imgDone : Bool := false
  /-- location and frame number of each page of the image, and of each frame of the locked reach -/
  imgFrames : List (Nat × Nat) := []
  frames : List (Nat × Nat) := []
  /-- the image's frames are locked; the frames that each context has locked, by field coordinate -/
  imgLocked : Bool := false
  lockSets : List ((Nat × Nat) × List (Nat × Nat)) := []
  /-- progress of the walk: region entries done, pages of the present entry, and the level, location and address of the node
  to be read next -/
  wentry : Nat := 0
  wpages : List (Nat × Nat) := []
  wnode : Option (Nat × Nat × Nat) := none
  regions : SMap Region := []
  timetable : List Word := []
  /-- a hold of the walk: the cycle of the first hold of the present stretch, the total before it, the next re-read -/
  holdAt : Option Nat := none
  holdSum : Nat := 0
  reread : Nat := 0
  /-- no admission before this cycle (R35); sequence number of the accepted entry -/
  admitAt : Nat := 0
  accSeq : Nat := 0
  furrows : List Furrow := []
  /-- the dies the launch has touched (R382) -/
  dies : List Nat := []
  /-- dies that have not yet placed, and not yet acknowledged loading -/
  toPlace : List Nat := []
  toAck : List Nat := []
  ackAt : Nat := 0
  t0 : Option Nat := none
  started : Bool := false
  accepted : Bool := false
  /-- the end it came to: status, cause, tile -/
  status : BitVec 16 := 0
  fcause : BitVec 16 := 0
  ftile : Nat := 0
  dcrsum : BitVec 32 := 0
  lastRetire : Nat := 0
  /-- field coordinates of the contexts that have retired -/
  retired : List (Nat × Nat) := []
  /-- dies whose contexts have all retired and reported; dies still to acknowledge a quiesce, with the deadline -/
  reported : List Nat := []
  toQuiesce : List Nat := []
  deadline : Nat := 0
  /-- kill records that complete with it -/
  killers : List (LId × Word) := []
  /-- the sampled debug block -/
  dbg : Queue := {}
  slog : List SyncRec := []
  slogN : Nat := 0
  /-- replay: the records still to consume; `none` once forcing has stopped -/
  force : Option (List (Nat × SyncRec)) := none
  trN : Nat := 0
  hrN : Nat := 0
  /-- field barriers (R357): furrows that have arrived and not been let go (barrier, FY), the cycle of the last arrival,
  releases on their way (barrier, cycle, FY), releases delivered and not yet consumed, releases so far, and the furrows whose
  headland has exited -/
  barArr : List (Nat × Nat) := []
  barAt : SMap Nat := []
  barWay : List (Nat × Nat × Nat) := []
  barRel : List (Nat × Nat) := []
  barCount : SMap Nat := []
  exited : List Nat := []
  /-- tiles of pairs with a lasting mismatch (R385) -/
  faulty : List Nat := []
  deriving DecidableEq, Repr

/-- A remote add under way (R218): the launch, tile, context and virtual counter it goes to, the amount, the launch it
comes from, and the queue that waits for it. -/
structure AddMsg where
  id : LId
  t : Nat
  k : BitVec 2
  ctr : Nat
  amt : Word
  src : Option LId
  from_ : Option (Nat × BitVec 2 × Nat)
  gen : Nat := 0
  deriving DecidableEq, Repr

/-- A migration whose copy is under way (R122). -/
structure Migration where
  id : LId
  tag : Word
  src : Nat
  dst : Nat
  pte : Nat
  locs : Word
  deriving DecidableEq, Repr

/-- Reset or draining state of a compute die (R387). -/
inductive DieState where
  | up
  | draining (deadline : Nat)
  | resetting
  deriving DecidableEq, Repr

/-- The stretch pacing (R166, R167). -/
structure Stretch where
  cond : Bool := false
  /-- cycle the condition began, and the start of the latest stretch that has begun -/
  since : Nat := 0
  begun : Nat := 0
  /-- announced stretches: first cycle and length -/
  sched : List (Nat × Nat) := []
  deriving DecidableEq, Repr

/-- The management mailbox (Table 2.6). -/
structure Mailbox where
  rqlen : BitVec 16 := 0
  cmd : BitVec 8 := 0
  rslen : BitVec 16 := 0
  code : BitVec 8 := 0
  busy : Bool := false
  done : Bool := false
  req : List Byte := []
  rsp : List Byte := []
  /-- CODE and response of the command that runs, and the life-cycle transition that follows an accepted LCTRANS -/
  staged : Option (BitVec 8 × List Byte) := none
  trans : Option (BitVec 2) := none
  /-- the challenge of the latest LCCHAL -/
  chal : Option (List Byte) := none
  nchal : Nat := 0
  deriving DecidableEq, Repr

/-- The control die. -/
structure Ctd where
  ready : Ready := {}
  /-- functions retired as lasting-faulty (R36) -/
  retired : List Func := []
  /-- correctable events of the last second, by unit: zone cycles -/
  ecc : List (EccUnit × Nat) := []
  lifeCycle : BitVec 2 := 0
  svn : BitVec 32 := 0
  fuseSvn : BitVec 32 := 0
  keyDigest : List Byte := []
  firmware : List Byte := []
  slotA : List Byte := []
  slotB : List Byte := []
  /-- slot B is tried first at the next module reset (R32) -/
  firstB : Bool := false
  /-- attestation keys generated so far (R31) -/
  keyGen : Nat := 0
  runB : Bool := false
  recovery : Bool := false
  mbox : Mailbox := {}
  queues : SMap Queue := []
  launches : List Launch := []
  /-- completed records: name and status (R113) -/
  doneRecs : List (LId × BitVec 16) := []
  /-- kills waiting for a pending target: target, kill record, TAG (R128) -/
  pendingKills : List (LId × LId × Word) := []
  /-- release latches: tenant and slot (R114) -/
  latches : List (BitVec 16 × BitVec 8) := []
  /-- siding releases on their way to the CTD -/
  sideMsgs : List (BitVec 16 × BitVec 8) := []
  migrations : List Migration := []
  /-- lock counts by location and frame (R121) -/
  locks : List ((Nat × Nat) × Nat) := []
  journal : SMap (List Byte) := []
  jseq : Nat := 0
  /-- opened peer windows: port and window (Table 6.7) -/
  windows : List (Nat × Nat) := []
  dies : SMap DieState := []
  /-- the cycle in which a die last left reset -/
  dieAt : SMap Nat := []
  /-- the cycles in which bring-up reached step 3, and steps 4 to 6 (R22) -/
  lpdAt : Option Nat := none
  upAt : Option Nat := none
  /-- dies whose detour routes are installed (R387) -/
  detours : List Nat := []
  stretch : Stretch := {}
  clockMHz : Nat := 600
  /-- end of a clock step in progress, and its frequency -/
  clockUntil : Option Nat := none
  clockTo : Nat := 600
  /-- the module has halted in a hard trip (Table 2.5) -/
  tripped : Bool := false
  /-- the 1 MiB slots of the image store (R376) -/
  images : SMap (Option Image) := []
  /-- adds held for a saved context: launch, fx, fy, virtual counter, amount (R218) -/
  heldAdds : List (LId × Nat × Nat × Nat × Word) := []
  /-- barrier releases held for a saved context: launch, fy, barrier (R357) -/
  heldRels : List (LId × Nat × Nat) := []
  /-- the saved contexts of the launches -/
  savedAt : List SavedCtx := []
  adds : List AddMsg := []
  /-- MSI-X vectors sent, oldest first -/
  msix : List (BitVec 11) := []
  /-- answers of HOST_READ, oldest first; none is a Completer Abort (R348) -/
  reads : List (Option (List Byte)) := []
  /-- the handler offset firmware writes into TVEC before a context starts (Table 9.7) -/
  fwTvec : Word := 0
  deriving DecidableEq, Repr

/-! ### The bundle now issuing -/

/-- A trap raised by a slot. -/
structure Raise where
  slot : Nat
  /-- found as the bundle issues (ILL, PRIV, FMT), as against raised by the operation -/
  atIssue : Bool
  cause : BitVec 8
  einfo : Word
  deriving DecidableEq, Repr

/-- The bundle a context is issuing: its operations still to perform, and what they have done so far. -/
structure Cur where
  t : Nat
  k : BitVec 2
  todo : List (Nat × Instr)
  off : BitVec 16
  /-- mode at issue -/
  sup : Bool
  occ : BitVec 8
  hdr : Header
  /-- slots performed before this issue (a reissue under R192) -/
  pre : BitVec 8 := 0
  raised : List Raise := []
  /-- transfer taken, annul, loop changes -/
  xfer : Option Goal := none
  annul : Bool := false
  pushed : Option (BitVec 32) := none
  popped : Bool := false
  isRet : Bool := false
  exit : Bool := false
  /-- key reuses: slot and matched index -/
  reuse : List (Nat × Nat) := []
  /-- the SY operation's limit has expired: EINFO of its WTO (R353) -/
  expired : Option Word := none
  /-- the hold of its SY operation, whose condition counts as met -/
  wait : Option Hold := none
  /-- its REALIGN missed (R359) -/
  rmiss : Bool := false
  /-- slots suppressed and left not done -/
  skip : BitVec 8 := 0
  second : Bool := false
  /-- the item of the furrow path, at a member -/
  item : Option PathItem := none
  /-- the sequencer before the bundle: pending transfers and NOP bundles owed -/
  pend0 : List Pending := []
  nulls0 : Nat := 0
  /-- the bundle's bytes; issued as a NOP bundle (R178); replayed from the stream log (R370) -/
  bytes : Bundle := 0
  nop : Bool := false
  replay : Option LogEntry := none
  /-- skipped whole: this tile has issued it before the stop (R370) -/
  skipped : Bool := false
  /-- its number in the stream -/
  num : Nat := 0
  /-- IDX of the levels in use at issue, innermost first -/
  idx : List (BitVec 32) := []
  /-- only the slot given is performed (R402) -/
  only : Option Nat := none
  /-- entries its MX operation has consumed from fa and fb (R361) -/
  consumedA : Nat := 0
  consumedB : Nat := 0
  /-- its loads and stores: slot, physical offset and size (R338) -/
  touched : List (Nat × Nat × Nat) := []
  /-- filled and free counts of fa and fb before the bundle (R164) -/
  fill0 : Nat × Nat := (0, 0)
  free0 : Nat × Nat := (0, 0)
  deriving DecidableEq, Repr

/-! ### The module -/

structure State where
  /-- the zone counter, alike on every die (R141) -/
  zone : Word := 0
  tiles : SMap Tile := []
  hbm : Mem := []
  lpddr : Mem := []
  host : Mem := []
  /-- peer windows: port, window, bytes -/
  peer : List ((Nat × Nat) × Mem) := []
  /-- uncorrectable errors by 64-byte block, of HBM4 and LPDDR6 -/
  badHbm : List Nat := []
  badLpddr : List Nat := []
  /-- arrival counters of the HBM4 stacks (64 each) and of LPDDR6 -/
  arrHbm : SMap Arrival := []
  arrLpddr : SMap Arrival := []
  ctd : Ctd := {}
  /-- the MODEL's own fields: events of the cycle still to happen, the bundle issuing, outside events with the zone cycle
  from which each can happen, and the counters of free values -/
  agenda : List Instr := []
  cur : Option Cur := none
  inbox : List (Nat × Instr) := []
  freeCtr : Nat := 0
  choiceCtr : Nat := 0
  deriving DecidableEq, Repr

/-- The machine right after a module reset that is no life-cycle transition (R21-R28): every memory wiped, nothing ready,
the journal with its eight die-reset entries. Firmware, life-cycle state and flash contents are fuses and flash, for which
the manual gives no reset value (log entry 4). -/
def State.reset : State := { ctd := { journal := resetJournal, jseq := 8 } }

end Sys2Proof.Machine
end

