-- ==== Sys2Proof/Machine/Units.lean ====
section
/-! DEFINITION. The journal, the readiness bits, and the retirement of a unit (R23, R24, R36, R37, R126, R127). -/

namespace Sys2Proof.Machine

/-! ### The journal (R126, R127) -/

/-- Write an entry at the next sequence number; TIME is floor(5Z / 3). -/
def State.journal (s : State) (e : JEntry) : State :=
  { s with ctd := { s.ctd with
      journal := s.ctd.journal.put (s.ctd.jseq % 65536) (e.bytes s.ctd.jseq (5 * s.zone.toNat / 3))
      jseq := s.ctd.jseq + 1 } }

/-! ### Readiness (Table 2.2) -/

/-- Clear or set a readiness bit; RDYGEN counts a change (Table 2.2). -/
def Ready.set (r : Ready) (f : Func) (b : Bool) : Ready :=
  let put {n : Nat} (v : BitVec n) (i : Nat) : BitVec n :=
    if b then v ||| BitVec.ofNat n (2 ^ i) else v &&& ~~~(BitVec.ofNat n (2 ^ i))
  let r' : Ready := match f with
    | .tile t => { r with tile := SMap.set 0 r.tile (t / 64) (put (SMap.get 0 r.tile (t / 64)) (t % 64)) }
    | .hbm n => { r with hbm := put r.hbm n }
    | .lpddr n => { r with lpd := put r.lpd n }
    | .die n => { r with die := put r.die n }
    | .boundary n => { r with bnd := put r.bnd n }
    | .dv n => { r with dv := put r.dv n }
    | .mgmt n => { r with mgmt := put r.mgmt n }
    | .pf => { r with pf := b }
  if r' = r then r else { r' with gen := r.gen + 1 }

/-- RDYM and RDYL (Table 2.2). -/
def Ready.rdym (r : Ready) : Word :=
  ((BitVec.ofBool r.pf).setWidth 64 <<< 36) ||| (r.mgmt.setWidth 64 <<< 32) ||| (r.die.setWidth 64 <<< 24) |||
    (r.lpd.setWidth 64 <<< 16) ||| r.hbm.setWidth 64

def Ready.rdyl (r : Ready) : Word := (r.dv.setWidth 64 <<< 12) ||| r.bnd.setWidth 64

/-- The word offset in the readiness map, and the bit, of a function (Table 2.2). -/
def funcBit : Func → Nat × Nat
  | .tile t => (8 * (t / 64), t % 64)
  | .hbm n => (0x100, n)
  | .lpddr n => (0x100, 16 + n)
  | .die n => (0x100, 24 + n)
  | .mgmt n => (0x100, 32 + n)
  | .pf => (0x100, 36)
  | .boundary n => (0x108, n)
  | .dv n => (0x108, 12 + n)

/-- A function is retired as lasting-faulty (R36): its bit is cleared and an entry of kind 6 is written. -/
def State.retireFunc (s : State) (f : Func) : State :=
  if s.ctd.retired.contains f then s
  else
    ({ s with ctd := { s.ctd with ready := s.ctd.ready.set f false, retired := s.ctd.retired ++ [f] } } : State).journal
      { kind := 6, arg0 := BitVec.ofNat 64 (funcBit f).1, arg1 := BitVec.ofNat 64 (funcBit f).2 }

end Sys2Proof.Machine
end

