-- ==== Sys2Proof/Machine/Ops.lean ====
section
/-! DEFINITION. The named operations on the state: tiles and contexts, registers, the determinism cause register, offsets
of the scratchpad, results in flight, and the taking of a trap (R75, R164, R191, R195, R363-R366, R391). -/

namespace Sys2Proof.Machine

/-! ### Tiles and contexts -/

/-- A tile nothing has happened to yet stands at its wiped state (R22). -/
def State.tile (s : State) (t : Nat) : Tile := SMap.get {} s.tiles t

def State.setTile (s : State) (t : Nat) (x : Tile) : State := { s with tiles := s.tiles.put t x }

def Tile.get (x : Tile) (k : BitVec 2) : Ctx := SMap.get {} x.ctx k.toNat

def Tile.set (x : Tile) (k : BitVec 2) (c : Ctx) : Tile := { x with ctx := x.ctx.put k.toNat c }

def State.ctx (s : State) (t : Nat) (k : BitVec 2) : Ctx := (s.tile t).get k

def State.setCtx (s : State) (t : Nat) (k : BitVec 2) (c : Ctx) : State := s.setTile t ((s.tile t).set k c)

def State.updCtx (s : State) (t : Nat) (k : BitVec 2) (f : Ctx → Ctx) : State := s.setCtx t k (f (s.ctx t k))

/-- The zone cycle as a number. -/
abbrev State.now (s : State) : Nat := s.zone.toNat

/-- The compute die of a tile (R14); tile number 64 y + x. -/
def dieOf (t : Nat) : Nat := (t % 64) / 16 + 4 * ((t / 64) / 16)

/-- The entry of the die-pair latency table (R142). -/
def lat (a b : Nat) : Nat := if a = b then 0 else 1 + Config.latEntry a b % 255

/-- A choice the manual leaves to the hardware: the value and the state with its counter advanced. -/
def State.choose (s : State) : Nat × State := (Config.choice s.choiceCtr, { s with choiceCtr := s.choiceCtr + 1 })

/-- The four context numbers. -/
def allK : List (BitVec 2) := [0, 1, 2, 3]

/-! ### Registers (R75) -/

/-- s0 reads zero. -/
def Regs.sreg (r : Regs) (n : BitVec 5) : Word := if n = 0 then 0 else SMap.get 0 r.s n.toNat

/-- p0 reads 1. -/
def Regs.pred (r : Regs) (n : BitVec 3) : Bool := n = 0 || r.p.getLsbD n.toNat

/-- m0 reads all ones. -/
def Regs.mask (r : Regs) (n : BitVec 3) : Mask := if n = 0 then BitVec.allOnes 128 else SMap.get 0 r.m n.toNat

/-- A write to s0 is discarded. -/
def Regs.setS (r : Regs) (n : Nat) (v : Word) : Regs := if n = 0 then r else { r with s := SMap.set 0 r.s n v }

/-- A write to p0 is discarded. -/
def Regs.setP (r : Regs) (n : Nat) (v : Bool) : Regs :=
  if n = 0 then r
  else { r with p := if v then r.p ||| (1#8 <<< n) else r.p &&& ~~~(1#8 <<< n) }

/-- A write to m0 is discarded. -/
def Regs.setM (r : Regs) (n : Nat) (v : Mask) : Regs := if n = 0 then r else { r with m := SMap.set 0 r.m n v }

/-- The condition of a predicate (R73). -/
def Regs.holds (r : Regs) (p : Pred) : Bool := r.pred p.pr != p.pn

/-- The lanes of `v` where the mask has a one, the lanes of `old` elsewhere (R76). -/
def blend (lanes : Mask) (v old : Vec) : Vec :=
  (List.range 128).foldr (fun l (acc : Vec) =>
    (acc <<< 16) ||| ((if lanes.getLsbD l then v else old).extractLsb' (16 * l) 16).setWidth 2048) 0

def Core.fifo (c : Core) : FS → Fifo
  | .fa => c.fa
  | .fb => c.fb

def Core.setFifo (c : Core) (f : FS) (x : Fifo) : Core :=
  match f with
  | .fa => { c with fa := x }
  | .fb => { c with fb := x }

def Ctx.setFifo (c : Ctx) (f : FS) (x : Fifo) : Ctx := { c with toCore := c.toCore.setFifo f x }

def Ctx.setRegs (c : Ctx) (r : Regs) : Ctx := { c with toRegs := r }

/-- Consecutive available entries from `rd` upward (R300). -/
def filledGo (avl : BitVec 16) : Nat → BitVec 4 → Nat
  | 0, _ => 0
  | n + 1, r => if avl.getLsbD r.toNat then 1 + filledGo avl n (r + 1) else 0

def Fifo.filled (f : Fifo) : Nat := filledGo f.avl 16 f.rd

/-- Entries neither available nor taken (R300). -/
def Fifo.free (f : Fifo) : Nat := 16 - ((List.range 16).filter fun i => (f.avl ||| f.tkn).getLsbD i).length

/-- Take entry WR for a filler. -/
def Fifo.take (f : Fifo) : Nat × Fifo := (f.wr.toNat, { f with tkn := f.tkn ||| (1#16 <<< f.wr.toNat), wr := f.wr + 1 })

/-- A fill lands: the entry becomes available. -/
def Fifo.fill (f : Fifo) (e : Nat) (v : Vec) : Fifo :=
  { f with ent := SMap.set 0 f.ent e v, tkn := f.tkn &&& ~~~(1#16 <<< e), avl := f.avl ||| (1#16 <<< e) }

/-- The entry is free again. -/
def Fifo.release (f : Fifo) (e : Nat) : Fifo := { f with avl := f.avl &&& ~~~(1#16 <<< e) }

/-! ### The determinism cause register (R390, R391) -/

/-- The DCR entry with a code, offset and slot: `some n` for entry n. -/
def dcrFind (d : SMap Word) (p : Word → Word → Bool) : Nat → Option Nat
  | 0 => none
  | n + 1 =>
    match dcrFind d p n with
    | some m => some m
    | none => if p (SMap.get 0 d (2 * n)) (SMap.get 0 d (2 * n + 1)) then some n else none

/-- Add to COUNT with saturation. -/
def dcrBump (w : Word) (amt : Nat) : Word :=
  let c := min ((w.setWidth 32).toNat + amt) 0xFFFFFFFF
  (w &&& ~~~0xFFFFFFFF#64) ||| BitVec.ofNat 64 c

/-- record (R391). `zc` is the kernel-relative cycle. -/
def Core.dcrRecord (c : Core) (code : Nat) (off : BitVec 16) (slot amt zc : Nat) : Core :=
  let d := c.dcr
  let val (w : Word) : Bool := w.getLsbD 63
  let sameCode (w : Word) : Bool := val w && (w >>> 48).setWidth 8 == BitVec.ofNat 8 code
  let same (w x : Word) : Bool := sameCode w && (w >>> 45).setWidth 3 == BitVec.ofNat 3 slot && (x >>> 6).setWidth 16 == off
  let d' : SMap Word :=
    match dcrFind d same 16 with
    | some n => SMap.set 0 d (2 * n) (dcrBump (SMap.get 0 d (2 * n)) amt)
    | none =>
    match dcrFind d (fun w _ => !val w) 16 with
    | some n =>
      let w : Word := (1#64 <<< 63) ||| (BitVec.ofNat 64 code <<< 48) ||| (BitVec.ofNat 64 slot <<< 45) |||
        BitVec.ofNat 64 (min amt 0xFFFFFFFF)
      let x : Word := (BitVec.ofNat 64 (zc % 2 ^ 40) <<< 24) ||| (off.setWidth 64 <<< 6)
      SMap.set 0 (SMap.set 0 d (2 * n) w) (2 * n + 1) x
    | none =>
    match dcrFind d (fun w _ => sameCode w) 16 with
    | some n => SMap.set 0 d (2 * n) (dcrBump (SMap.get 0 d (2 * n)) amt ||| (1#64 <<< 62))
    | none => d
  { c with dcr := d', dsum := c.dsum ||| (1#32 <<< code) }

/-- The codes of Table 19.3. -/
def dcrELAST : Nat := 1
def dcrSLIP : Nat := 2
def dcrSTRETCH : Nat := 3
def dcrRMISS : Nat := 4
def dcrWCOL : Nat := 5
def dcrFALLOW : Nat := 6
def dcrSRCW : Nat := 7
def dcrDSTW : Nat := 8
def dcrAOVC : Nat := 9
def dcrAUNO : Nat := 10
def dcrKEYRU : Nat := 11
def dcrDISP : Nat := 12
def dcrRDIV : Nat := 13

/-- A trace record (R400), kept until the end of the cycle. -/
def Ctx.traceRec (c : Ctx) (now kind code : Nat) (off : BitVec 16) (slot : Nat) (tgt : BitVec 16) (ret : Bool) : Ctx :=
  let f := c.field
  let r : BitVec 128 := (BitVec.ofNat 128 ((now - c.t0) % 2 ^ 40) <<< 88) ||| (BitVec.ofNat 128 kind <<< 80) |||
    (BitVec.ofNat 128 code <<< 72) ||| (off.setWidth 128 <<< 48) ||| (BitVec.ofNat 128 slot <<< 45) |||
    (tgt.setWidth 128 <<< 24) ||| (((f >>> 15).setWidth 6).setWidth 128 <<< 18) |||
    (((f >>> 10).setWidth 5).setWidth 128 <<< 13) ||| (((f >>> 8).setWidth 2).setWidth 128 <<< 11) ||| (if ret then 1 else 0)
  { c with trace := c.trace ++ [r] }

/-- A DCR event of a context in the present cycle; the events of a cycle are recorded together at its end. -/
def Ctx.event (c : Ctx) (now code : Nat) (off : BitVec 16) (slot amt : Nat) : Ctx :=
  { c with events := c.events ++ [(slot, code, off, amt, now - c.t0)] }

/-- Record the events of the cycle in ascending slot order, each with its trace record (R391, R400). -/
def Ctx.recordEvents (c : Ctx) : Ctx :=
  let es := (List.range 8).flatMap fun n => c.events.filter fun e => e.1 = n
  es.foldl (fun c e =>
    let (slot, code, off, amt, zc) := e
    { c with toCore := c.toCore.dcrRecord code off slot amt zc }.traceRec (zc + c.t0) 4 code off slot 0 false) { c with events := [] }

/-- Every code that the context has recorded, those of the present cycle included (R391). -/
def Ctx.codes (c : Ctx) : BitVec 32 := c.events.foldl (fun d e => d ||| (1#32 <<< e.2.1)) c.dsum

/-! ### Scratchpad offsets (R195) -/

/-- The supervisor reserve ends here (Table 10.1). -/
def scratchSize : Nat := 0x300000

/-- F, as far as the window word of the context lets the scratchpad hold it (R195). -/
def Ctx.room (c : Ctx) : Nat := min c.foot (scratchSize - c.wbase)

/-- The offset is legal in the given mode. -/
def Ctx.legal (c : Ctx) (sup : Bool) (a : Int) (size : Nat) : Bool :=
  0 ≤ a && (if sup then a + size ≤ scratchSize else a + size ≤ c.room)

/-- The physical offset of a legal offset. -/
def Ctx.phys (c : Ctx) (sup : Bool) (a : Int) : Nat := if sup then a.toNat else c.wbase + a.toNat

/-! ### Sequencer words (Table 8.1, Table 9.7) -/

/-- SQPC with the given mode, PC and depth. -/
def sqpc (sup : Bool) (pc : BitVec 16) (ldep : Nat) : Word :=
  (BitVec.ofBool sup).setWidth 64 <<< 23 ||| (pc.setWidth 64 <<< 6) ||| ((BitVec.ofNat 3 ldep).setWidth 64 <<< 3)

/-- The target of the pending transfer with count `d`. -/
def pendingAt (ps : List Pending) (d : Nat) : Option (BitVec 16) :=
  match ps with
  | [] => none
  | p :: ps =>
    if p.d = d then (match p.goal with | .off t => some t | .tret => none) else pendingAt ps d

/-- EPT of a sequencer with pending transfers and NOP bundles owed, and the transfer its bundle completed (R191). -/
def eptWord (pend : List Pending) (nulls : Nat) (x3 : Option (BitVec 16)) (a3 : Bool) : Word :=
  let f (o : Option (BitVec 16)) (vbit lo : Nat) : Word :=
    match o with
    | some t => (1#64 <<< vbit) ||| (t.setWidth 64 <<< lo)
    | none => 0
  f (pendingAt pend 1) 48 0 ||| f (pendingAt pend 2) 49 16 ||| f x3 50 32 |||
    (if a3 then 1#64 <<< 51 else 0) ||| (BitVec.ofNat 64 (nulls % 4) <<< 52)

/-! ### Traps (R362-R366) -/

/-- Causes of Table 18.1. -/
def cILL : BitVec 8 := 0x01
def cPRIV : BitVec 8 := 0x02
def cFMT : BitVec 8 := 0x03
def cBND : BitVec 8 := 0x04
def cALGN : BitVec 8 := 0x05
def cRGN : BitVec 8 := 0x06
def cXQF : BitVec 8 := 0x07
def cXTPL : BitVec 8 := 0x08
def cLSTK : BitVec 8 := 0x09
def cFUND : BitVec 8 := 0x0A
def cFOVF : BitVec 8 := 0x0B
def cMWID : BitVec 8 := 0x0C
def cWTO : BitVec 8 := 0x0D
def cQOVF : BitVec 8 := 0x0E
def cKEYRU : BitVec 8 := 0x0F
def cTRAPI : BitVec 8 := 0x10
def cBRK : BitVec 8 := 0x11
def cSPACE : BitVec 8 := 0x12
def cPREEMPT : BitVec 8 := 0x13
def cFURR : BitVec 8 := 0x14
def cPAIR : BitVec 8 := 0x15
def cXMEM : BitVec 8 := 0x16
def cXCRC : BitVec 8 := 0x20
def cXLOSS : BitVec 8 := 0x21
def cXOVC : BitVec 8 := 0x22
def cXARMD : BitVec 8 := 0x23
def cDIER : BitVec 16 := 0x30

/-- What a trap entry records. -/
structure Trap where
  cause : BitVec 8
  eng : Bool := false
  slot : Nat := 0
  einfo : Word := 0
  done : BitVec 8 := 0
  occ : BitVec 8 := 0
  rsk : Nat := 0
  off : BitVec 16
  ldep : Nat
  ept : Word
  deriving DecidableEq, Repr

/-- ECAUSE as a trap entry writes it: FIN keeps what SYSW wrote (Table 18.2). -/
def causeWord (old : Word) (eng supt : Bool) (cause : BitVec 8) : Word :=
  (old &&& (1#64 <<< 16)) ||| (if eng then 1#64 <<< 15 else 0) ||| (if supt then 1#64 <<< 14 else 0) ||| cause.setWidth 64

def doneWord (rsk : Nat) (occ done : BitVec 8) : Word :=
  (BitVec.ofNat 64 (rsk % 32) <<< 16) ||| (occ.setWidth 64 <<< 8) ||| done.setWidth 64

/-- The trap registers and the sequencer after a trap entry (R191, R363): the one place where an exception is taken. The
handler's first bundle issues no earlier than `ready`. -/
def Ctx.enter (c : Ctx) (x : Trap) (ready : Nat) : Ctx :=
  { c with
    epc := sqpc c.sup x.off x.ldep
    ept := x.ept
    ecause := causeWord c.ecause x.eng false x.cause
    eslot := BitVec.ofNat 64 x.slot
    edone := doneWord x.rsk x.occ x.done
    einfo := x.einfo
    sup := true
    ldep := 0
    pend := []
    nulls := 0
    pc := (c.tvec >>> 6).setWidth 16
    readyAt := ready
    hold := none
    resume := none
    probe := none
    point := false
    stepped := false
    stall := 0 }

/-- A trap in supervisor mode stops the context with SUPT set (R366). -/
def Ctx.finalTrap (c : Ctx) (eng : Bool) (cause : BitVec 8) : Ctx :=
  { c with ecause := causeWord c.ecause eng true cause, life := .stopped, hold := none }

/-- The launch with a given name. -/
def findLaunch (ls : List Launch) (id : LId) : Option Launch := ls.find? fun l => l.id = id

/-- Change a launch. -/
def State.updLaunch (s : State) (id : LId) (f : Launch → Launch) : State :=
  { s with ctd := { s.ctd with launches := s.ctd.launches.map fun l => if l.id = id then f l else l } }

/-- A launch ends with FAULT: its other contexts are killed and its dies quiesce, within 50 microseconds (R366, R382,
R388). A launch that is already ending keeps its end. -/
def State.failLaunch (s : State) (id : LId) (fcause : BitVec 16) (t : Nat) : State :=
  let now := s.now
  s.updLaunch id fun l =>
    if l.phase = .ending then l
    else { l with phase := .ending, status := 1, fcause := fcause, ftile := t, toQuiesce := l.dies, deadline := now + 30000 }

def State.failOf (s : State) (c : Ctx) (fcause : BitVec 16) (t : Nat) : State :=
  match c.launch with
  | some id => s.failLaunch id fcause t
  | none => s

/-- A context of a headland, or of FLEN 1, that fetches its own bundles. -/
def Ctx.leads (c : Ctx) : Bool := c.pos = 0

/-- Raise the resume skip of EDONE (R368). -/
def Ctx.addSkip (c : Ctx) (d : Nat) : Ctx :=
  { c with edone := (c.edone &&& ~~~(0x1F#64 <<< 16)) ||| (BitVec.ofNat 64 ((((c.edone >>> 16).setWidth 5).toNat + d) % 32) <<< 16) }

/-- The headland's trap registers for a stop at the bundle numbered `r`: EPC, EPT and the loop levels as the sequencer stood
before it was last issued (R369). The lowest `keep` levels, in use by a handler that already runs, stay as they are (DEDUCED, log
entry 103). -/
def Ctx.rewind (c : Ctx) (keep r : Nat) : Ctx :=
  match c.past.reverse.find? fun p => p.num = r with
  | some p =>
    { c with
      epc := p.epc, ept := p.ept, sent := r
      ls := (List.range 6).foldl (fun m i => SMap.set {} m i (SMap.get {} (if i < keep then c.ls else p.ls) i)) [] }
  | none => { c with sent := r }

/-- The context resident on a tile for a launch. -/
def State.contextOf (s : State) (t : Nat) (id : Option LId) : Option (BitVec 2) :=
  allK.find? fun k => (s.ctx t k).launch = id && (s.ctx t k).life ≠ .free

/-- Every context of the furrow. -/
def State.furrow (s : State) (t : Nat) (k : BitVec 2) : List (Nat × BitVec 2) :=
  let c := s.ctx t k
  (List.range c.span).filterMap fun j =>
    let u := t - c.pos + j
    if j = c.pos then some (t, k) else (s.contextOf u c.launch).map fun k' => (u, k')

/-- A tile of a furrow takes its own trap on the bundle numbered `num`: it suppresses what follows, and the headland
issues nothing after `quit` (R368). The resume bundle is the earliest trapped one; where it moves back, every tile that has
already stopped skips as many bundles more. -/
def State.stopStream (s : State) (t : Nat) (k : BitVec 2) (x : Trap) (num quit : Nat) : State :=
  let c := s.ctx t k
  let h := s.ctx c.head c.headK
  let more := match c.resume with | some r => r.skip | none => 0
  let r := match h.fstop with | some f => min f.resume num | none => num
  let back := match h.fstop with | some f => f.resume - r | none => 0
  let stopped := match h.fstop with | some f => f.last.isSome | none => false
  let s := if back = 0 then s else (s.furrow t k).foldl (fun s y =>
    s.updCtx y.1 y.2 fun d => if d.sup then d.addSkip back else d) s
  let s := s.updCtx t k fun c =>
    { c with
      ecause := causeWord c.ecause x.eng false x.cause
      eslot := BitVec.ofNat 64 x.slot
      edone := doneWord (more + (num - r)) x.occ x.done
      einfo := x.einfo
      sup := true
      mute := !c.leads
      point := false
      stepped := false
      hold := none
      resume := none
      probe := none
      stall := 0 }
  s.updCtx c.head c.headK fun h =>
    let h := { h with fstop := some (match h.fstop with
        | none => { resume := r, until_ := quit, pos := c.pos, cause := x.cause, floor := if c.leads then s.now + 3 else 0 }
        | some f => { f with resume := r, until_ := min f.until_ quit, floor := if c.leads then s.now + 3 else f.floor }) }
    if stopped && back > 0 then h.rewind h.ldep r else h

/-- Taking a trap: a final one in supervisor mode (R366), the stop of the stream in a furrow (R368), and otherwise the
entry of R191 with the handler's first bundle three cycles later (R365). `num` numbers the bundle in its stream. -/
def State.takeTrap (s : State) (t : Nat) (k : BitVec 2) (x : Trap) (num : Nat) : State :=
  let c := s.ctx t k
  if c.sup then
    let c' := c.finalTrap x.eng x.cause
    (s.setCtx t k c').failOf c (c'.ecause.setWidth 16) t
  else if c.span ≥ 2 then
    (s.stopStream t k x num (s.now + c.pos)).updCtx t k
      fun c => c.traceRec s.now 2 x.cause.toNat x.off x.slot 0 false
  else s.setCtx t k ((c.enter x (s.now + 3)).traceRec s.now 2 x.cause.toNat x.off x.slot 0 false)

/-- FY of a FIELD word (Table 7.2). -/
def fieldFy (w : Word) : Nat := ((w >>> 21).setWidth 11).toNat

/-- The resident contexts of a launch. -/
def State.contexts (s : State) (id : LId) : List (Nat × BitVec 2) :=
  s.tiles.flatMap fun e => allK.filterMap fun k =>
    let c := e.2.get k
    if c.launch = some id && c.life ≠ .free then some (e.1, k) else none

/-- The resident context of a launch with a field coordinate, wherever it stands now; while its image alone holds it, none. -/
def State.contextAt (s : State) (id : LId) (fx fy : Nat) : Option (Nat × BitVec 2) :=
  if s.ctd.savedAt.any fun x => x.id = id && x.fx = fx && x.fy = fy then none
  else (s.contexts id).find? fun x => let c := s.ctx x.1 x.2; c.pos = fx && fieldFy c.field = fy

/-! ### Results in flight (R164) -/

/-- The interval of R398 a bundle issued now belongs to. -/
def Ctx.hashIv (c : Ctx) : Option Nat :=
  if c.shn.getLsbD 63 && !c.sup then some (c.cyc.toNat / ((c.shn.setWidth 20).toNat + 1)) else none

end Sys2Proof.Machine
end

