-- ==== Sys2Proof/Machine/Hash.lean ====
section
/-! DEFINITION. The interval hashes of a context (R398). -/

namespace Sys2Proof.Machine

/-- The 8-byte tag of a write. -/
def hashTag (kind num slot off : Nat) : List Byte := leBytes 1 kind ++ leBytes 2 num ++ leBytes 1 slot ++ leBytes 4 off

/-- Continue the CRC of an interval. -/
def Ctx.hashBytes (c : Ctx) (iv : Option Nat) (bs : List Byte) : Ctx :=
  match iv with
  | none => c
  | some i =>
    let hs := if c.hashes.any (fun h => h.i = i) then c.hashes else c.hashes ++ [{ i }]
    { c with hashes := hs.map fun h => if h.i = i then { h with crc := crc64 h.crc bs } else h }

/-- A store. -/
def Write.isStore (w : Write) : Bool := match w with | .store _ _ => true | _ => false

/-- A vector result or a store of which no lane or byte is written, or a result for s0, p0 or m0: it writes nothing (R76, R284; Table
4.5). -/
def Write.silent (w : Write) : Bool :=
  match w with
  | .sreg r _ | .preg r _ | .mreg r _ => r = 0
  | .reg _ _ _ lanes | .opf _ _ lanes => lanes = 0
  | .store _ bs => !bs.any (·.2)
  | _ => false

/-- What a landed write contributes: its tag and its data, none for writes that are not hashed. `c` is the context after the
landing. -/
def Write.hashData (w : Write) (slot : Nat) (c : Ctx) : List Byte :=
  if w.silent then [] else
  match w with
  | .sreg r v => hashTag 1 r slot 0 ++ leBytes 8 v.toNat
  | .preg r v => hashTag 2 r slot 0 ++ leBytes 1 v.toNat
  | .mreg r v => hashTag 3 r slot 0 ++ leBytes 16 v.toNat
  | .reg _ j _ _ => hashTag 4 j slot 0 ++ leBytes 256 (SMap.get 0 c.space j).toNat
  | .opf e _ _ => hashTag 5 e slot 0 ++ leBytes 256 (SMap.get 0 c.opf e).toNat
  | .vq n v => hashTag 6 n slot 0 ++ leBytes 64 v.toNat
  | .row n _ _ => hashTag 7 n slot 0 ++ (List.range 128).flatMap fun j => leBytes 64 (SMap.get 0 c.quires (128 * n + j)).toNat
  | .store a bs => hashTag 8 0 slot ((a - c.wbase) % 2 ^ 32) ++ (bs.filter (·.2)).map (·.1)
  | _ => []

end Sys2Proof.Machine
end

