-- ==== Sys2Proof/Machine/Numbers.lean ====
section
/-! DEFINITION. Numbers: the tapered and IEEE formats, the exact values of their words, the three roundings, integers and
the quire (R39-R66). An exact real is `num / den` with `den` positive, not reduced. -/

namespace Sys2Proof.Machine

/-- The flag bits of one lane (Table 3.8). -/
abbrev Flags := BitVec 8

def flagNX : Flags := 0x01
def flagSATL : Flags := 0x02
def flagSATH : Flags := 0x04
def flagNV : Flags := 0x08
def flagNR : Flags := 0x10
def flagQG : Flags := 0x20

/-- An exact real number: numerator and positive denominator. -/
structure Rat2 where
  num : Int
  den : Nat
  deriving DecidableEq, Repr

/-- What a word of a format denotes: a real (the tapered zero and the IEEE +0 are `real 0`), the IEEE −0, an infinity, a
NaN, or the tapered NaR. -/
inductive Val where
  | real (r : Rat2)
  | negZero
  | inf (neg : Bool)
  | nan (quiet : Bool)
  | nar
  deriving DecidableEq, Repr

/-- `2 ^ e` for an exponent of either sign, as a real. -/
def pow2 (e : Int) : Rat2 := if 0 ≤ e then ⟨(2 : Int) ^ e.toNat, 1⟩ else ⟨1, 2 ^ (-e).toNat⟩

def Rat2.neg (a : Rat2) : Rat2 := ⟨-a.num, a.den⟩
def Rat2.add (a b : Rat2) : Rat2 := ⟨a.num * b.den + b.num * a.den, a.den * b.den⟩
def Rat2.sub (a b : Rat2) : Rat2 := a.add b.neg
def Rat2.mul (a b : Rat2) : Rat2 := ⟨a.num * b.num, a.den * b.den⟩
/-- Quotient by a nonzero real. -/
def Rat2.div (a b : Rat2) : Rat2 := ⟨a.num * b.den * b.num.sign, a.den * b.num.natAbs⟩
def Rat2.lt (a b : Rat2) : Bool := a.num * b.den < b.num * a.den
def Rat2.eq (a b : Rat2) : Bool := a.num * b.den == b.num * a.den
def Rat2.isZero (a : Rat2) : Bool := a.num == 0
def Rat2.isNeg (a : Rat2) : Bool := a.num < 0
/-- `a * 2 ^ e`. -/
def Rat2.scale (a : Rat2) (e : Int) : Rat2 := a.mul (pow2 e)
/-- The floor of a real. -/
def Rat2.floor (a : Rat2) : Int := a.num.fdiv a.den

/-- `floor (log2 (num / den))` of a positive real. -/
def floorLog2 (num den : Nat) : Int :=
  let s : Int := (Nat.log2 num : Int) - (Nat.log2 den : Int)
  if (pow2 s).num * den ≤ num * (pow2 s).den then s else s - 1

/-! ### Tapered words (R42-R46) -/

/-- The number of equal bits from bit `i - 1` of `b` downward. -/
def runLen (b : Nat) (v : Bool) : Nat → Nat
  | 0 => 0
  | i + 1 => if b.testBit i == v then 1 + runLen b v i else 0

/-- decode_t (R42). -/
def decodeT (b n es : Nat) : Val :=
  if b = 0 then .real ⟨0, 1⟩
  else if b = 2 ^ (n - 1) then .nar
  else
    let neg := b.testBit (n - 1)
    let c := if neg then 2 ^ n - b else b
    let first := c.testBit (n - 2)
    let m := runLen c first (n - 1)
    let k : Int := if first then (m : Int) - 1 else -(m : Int)
    let r := n - 1 - m - 1
    let rest := c % 2 ^ r
    let e := if es ≤ r then rest / 2 ^ (r - es) else rest * 2 ^ (es - r)
    let fb := r - es
    let v := Rat2.scale ⟨((2 ^ fb + (if es ≤ r then rest % 2 ^ fb else 0) : Nat) : Int), 1⟩ (k * 2 ^ es + e - fb)
    .real (if neg then v.neg else v)

/-- The exponent of maxpos (R43). -/
def maxExp (n es : Nat) : Int := ((n - 2) * 2 ^ es : Nat)

/-- The word of a magnitude strictly between minpos and maxpos, truncated, with the guard bit and whether any later bit is
set (the body of R48). -/
def taperBody (num den n es : Nat) : Nat × Bool × Bool :=
  let s := floorLog2 num den
  let k := s.fdiv (2 ^ es)
  let e := (s - k * 2 ^ es).toNat
  -- `g * 2 ^ n`, with `g` the fraction digits of `a / 2 ^ s - 1`
  let a := Rat2.scale ⟨num, den⟩ (n - s)
  let gi := a.floor.toNat - 2 ^ n
  let more := a.num % a.den ≠ 0
  let reg := if 0 ≤ k then (2 ^ (k.toNat + 1) - 1) * 2 else 1
  let len := if 0 ≤ k then k.toNat + 2 else (-k).toNat + 1
  let body := (reg * 2 ^ es + e) * 2 ^ n + gi
  let cut := len + es + 1
  (body / 2 ^ cut, body.testBit (cut - 1), body % 2 ^ (cut - 1) ≠ 0 || more)

/-- The word with sign. -/
def taperSign (neg : Bool) (w n : Nat) : Nat := if neg then (2 ^ n - w) % 2 ^ n else w

/-- The real of a tapered word that is not NaR. -/
def taperReal (b n es : Nat) : Rat2 :=
  match decodeT b n es with
  | .real r => r
  | _ => ⟨0, 1⟩

/-- round_rne, round_rz and round_sr (R48-R50) of a real, with the flags of R51. `u` is the draw. -/
def roundT (rm : RM) (n es : Nat) (u : BitVec 32) (v : Rat2) : Nat × Flags :=
  if v.isZero then (0, 0)
  else
    let neg := v.isNeg
    let num := v.num.natAbs
    let mp := (2 : Nat) ^ (maxExp n es).toNat
    if num > v.den * mp then (taperSign neg (2 ^ (n - 1) - 1) n, flagSATH ||| flagNX)
    else if num = v.den * mp then (taperSign neg (2 ^ (n - 1) - 1) n, 0)
    else if num * mp < v.den then (taperSign neg 1 n, flagSATL ||| flagNX)
    else if num * mp = v.den then (taperSign neg 1 n, 0)
    else
      let (w, guard, sticky) := taperBody num v.den n es
      let fl : Flags := if guard || sticky then flagNX else 0
      match rm with
      | .rz => (taperSign neg w n, fl)
      | .rne => (taperSign neg (if guard && (sticky || w % 2 == 1) then w + 1 else w) n, fl)
      | .sr =>
        if !guard && !sticky then (taperSign neg w n, 0)
        else
          let lo := if neg then (taperReal (w + 1) n es).neg else taperReal w n es
          let hi := if neg then (taperReal w n es).neg else taperReal (w + 1) n es
          let f := (((v.sub lo).div (hi.sub lo)).scale 32).floor
          let up := (u.toNat : Int) < f
          (taperSign neg (if up == neg then w else w + 1) n, fl)

/-! ### IEEE words (R52, R53) -/

/-- Fraction bits of F32 and B16. -/
def ieeeFrac (f : Fmt) : Nat := if f.width = 32 then 23 else 7

/-- The value of an F32 or B16 word. -/
def decodeI (f : Fmt) (b : Nat) : Val :=
  let mb := ieeeFrac f
  let neg := b.testBit (f.width - 1)
  let e := (b / 2 ^ mb) % 256
  let m := b % 2 ^ mb
  if e = 255 then (if m = 0 then .inf neg else .nan (m.testBit (mb - 1)))
  else if e = 0 && m = 0 then (if neg then .negZero else .real ⟨0, 1⟩)
  else
    let v := if e = 0 then Rat2.scale ⟨m, 1⟩ (-126 - mb) else Rat2.scale ⟨(2 ^ mb + m : Nat), 1⟩ ((e : Int) - 127 - mb)
    .real (if neg then v.neg else v)

/-- The canonical quiet NaN (R52). -/
def qNaN (f : Fmt) : Nat := if f.width = 32 then 0x7FC00000 else 0x7FC0

def infWord (f : Fmt) (neg : Bool) : Nat := (if neg then 2 ^ (f.width - 1) else 0) + 255 * 2 ^ ieeeFrac f

/-- The integer multiple of the unit in the last place chosen for a magnitude `num / den` of that unit, and whether it is
exact. -/
def pickUlp (rm : RM) (u : BitVec 32) (neg : Bool) (num den : Nat) : Nat × Bool :=
  let m := num / den
  let r := num % den
  let up : Bool :=
    if r = 0 then false
    else match rm with
      | .rz => false
      | .rne => 2 * r > den || (2 * r == den && m % 2 == 1)
      | .sr =>
        -- R50 on the signed value: the lower neighbour of a negative number has the greater magnitude
        if neg then !(u.toNat < ((den - r) * 2 ^ 32) / den) else u.toNat < (r * 2 ^ 32) / den
  (if up then m + 1 else m, r == 0)

/-- Round a real to F32 or B16 with the flags of R53. `zneg` is the sign of an exact zero. R52 has SR give an infinity for a magnitude
above the largest finite value, and RNE follow IEEE 754, which gives the largest finite value up to half an ulp above it; the
model takes each as it stands (DEDUCED, log entry 97). -/
def roundI (rm : RM) (f : Fmt) (u : BitVec 32) (zneg : Bool) (v : Rat2) : Nat × Flags :=
  let sgn (b : Bool) : Nat := if b then 2 ^ (f.width - 1) else 0
  if v.isZero then (sgn zneg, 0)
  else
    let mb := ieeeFrac f
    let neg := v.isNeg
    let num := v.num.natAbs
    let e := floorLog2 num v.den
    let eq := max e (-126)
    let a := Rat2.scale ⟨num, v.den⟩ (mb - eq)
    let (m, exact) := pickUlp rm u neg a.num.natAbs a.den
    let w := (eq + 126).toNat * 2 ^ mb + m
    let maxFin := 255 * 2 ^ mb - 1
    let above := (Rat2.scale ⟨(2 ^ (mb + 1) - 1 : Nat), 1⟩ (127 - mb)).lt ⟨num, v.den⟩
    if w ≥ 255 * 2 ^ mb || (rm == .sr && above) then
      (sgn neg + (if rm == .rz then maxFin else 255 * 2 ^ mb), flagSATH ||| flagNX)
    else if exact then (sgn neg + w, 0)
    else
      -- underflow is detected after a rounding with unbounded exponent
      let b := Rat2.scale ⟨num, v.den⟩ (mb - e)
      let (mu, _) := pickUlp rm u neg b.num.natAbs b.den
      let tiny := e < -126 && !(e == -127 && mu == 2 ^ (mb + 1))
      (sgn neg + w, if tiny then flagSATL ||| flagNX else flagNX)

/-! ### Either kind -/

/-- The value of a word of a tapered or IEEE format. -/
def decodeF (f : Fmt) (b : Nat) : Val := if f.isIeee then decodeI f b else decodeT b f.width f.es

/-- rnd of R263 for a real; the draw is `u`. -/
def roundF (rm : RM) (f : Fmt) (u : BitVec 32) (zneg : Bool) (v : Rat2) : Nat × Flags :=
  if f.isIeee then roundI rm f u zneg v else roundT rm f.width f.es u v

/-- The word of NaR, or the canonical quiet NaN. -/
def narWord (f : Fmt) : Nat := if f.isIeee then qNaN f else 2 ^ (f.width - 1)

/-! ### Integers (R55-R57) -/

/-- A natural below `2 ^ w` read as a two's-complement integer. -/
def signedOf (w a : Nat) : Int := if 2 ^ (w - 1) ≤ a then (a : Int) - 2 ^ w else a

/-- An element read signed, or unsigned when `u`. -/
def intOf (u : Bool) (w a : Nat) : Int := if u then a else signedOf w a

/-- Reduction modulo `2 ^ w`. -/
def modW (w : Nat) (z : Int) : Nat := (z % (2 : Int) ^ w).toNat

/-- The range of R55. -/
def clampInt (u : Bool) (w : Nat) (z : Int) : Int :=
  let lo : Int := if u then 0 else -(2 ^ (w - 1))
  let hi : Int := if u then 2 ^ w - 1 else 2 ^ (w - 1) - 1
  if z < lo then lo else if hi < z then hi else z

/-- A real rounded to an integer in a mode; SR takes the adjacent integers (R57). -/
def roundInt (rm : RM) (u : BitVec 32) (v : Rat2) : Int × Bool :=
  let m := v.floor
  let r := v.num - m * v.den
  if r = 0 then (m, true)
  else
    let up : Bool := match rm with
      | .rz => v.isNeg
      | .rne => 2 * r > v.den || (2 * r == v.den && m % 2 ≠ 0)
      | .sr => (u.toNat : Int) < (r * 2 ^ 32) / v.den
    (if up then m + 1 else m, false)

/-- The conversion of R57 of a value to an integer of width `w`. -/
def toIntW (rm : RM) (unsigned : Bool) (w : Nat) (u : BitVec 32) (v : Val) : Nat × Flags :=
  let none := if unsigned then 0 else 2 ^ (w - 1)
  match v with
  | .nar => (none, flagNV ||| flagNR)
  | .nan _ | .inf _ => (none, flagNV)
  | .negZero => (0, 0)
  | .real r =>
    let (z, exact) := roundInt rm u r
    let c := clampInt unsigned w z
    (modW w c, if c ≠ z then flagNV else if exact then 0 else flagNX)

/-! ### The quire (R58-R62) -/

/-- The NaR pattern of a quire. -/
def nar512 : Quire := BitVec.twoPow 512 511

/-- An exact addend of a quire in units of 2^-240: the floor and whether bits were discarded. -/
def quireUnits (v : Rat2) : Int × Bool :=
  let s := v.scale 240
  (s.floor, s.num % s.den ≠ 0)

/-- What quire_add answers: the new quire, and whether QX and QG are raised (R59). -/
structure QAdd where
  q : Quire
  qx : Bool
  qg : Bool
  deriving DecidableEq, Repr

def quireLimit : Int := 2 ^ 511 - 1

/-- quire_add of an integer number of units; `none` is NaR. -/
def quireAddUnits (q : Quire) (t : Option Int) (qx : Bool) : QAdd :=
  match t with
  | none => ⟨nar512, false, false⟩
  | some t =>
    if q = nar512 then ⟨nar512, false, false⟩
    else
      let z := q.toInt + t
      if z > quireLimit || z < -quireLimit then ⟨nar512, qx, true⟩ else ⟨BitVec.ofInt 512 z, qx, false⟩

/-- The value of a quire. -/
def quireVal (q : Quire) : Val := if q = nar512 then .nar else .real ((⟨q.toInt, 1⟩ : Rat2).scale (-240))

/-- A value rounded to a format, NaR and NaN to the format's own, with the flags of R62 and Table 3.5. -/
def roundVal (rm : RM) (f : Fmt) (u : BitVec 32) (v : Val) : Nat × Flags :=
  match v with
  | .real r => roundF rm f u false r
  | .negZero => if f.isIeee then (2 ^ (f.width - 1), 0) else (0, 0)
  | .inf neg => if f.isIeee then (infWord f neg, 0) else (narWord f, flagNV)
  | .nan quiet => (narWord f, if f.isIeee then (if quiet then 0 else flagNV) else flagNV)
  | .nar => (narWord f, flagNR)

/-- `value * 2 ^ 240` of a real word of any format; every such value is an integer (R59, R246). -/
def valUnits (v : Val) : Option Int :=
  match v with
  | .real r => some (quireUnits r).1
  | .negZero => some 0
  | _ => none

/-! ### Square roots -/

/-- The largest `r` below `2 ^ bits` with `r * r ≤ n`, from the bits already chosen in `acc`. -/
def isqrtGo (n : Nat) : Nat → Nat → Nat
  | 0, acc => acc
  | b + 1, acc => isqrtGo n b (if (acc + 2 ^ b) * (acc + 2 ^ b) ≤ n then acc + 2 ^ b else acc)

def isqrt (n : Nat) : Nat := isqrtGo n (Nat.log2 n / 2 + 1) 0

/-- A real that rounds in every mode and format as the square root of `num / den` does: the root itself when it is a
multiple of 2^-p, else the middle of the interval of width 2^-p that holds it. The bits below the leading one number at
least 160, more than any rounding of R50 looks at. -/
def sqrtStandIn (num den : Nat) : Rat2 :=
  let p := 400 + Nat.log2 den
  let r := isqrt (num * 2 ^ (2 * p) / den)
  if r * r * den = num * 2 ^ (2 * p) then (⟨r, 1⟩ : Rat2).scale (-(p : Int))
  else (⟨2 * r + 1, 1⟩ : Rat2).scale (-(p + 1 : Int))

end Sys2Proof.Machine
end

