-- ==== Sys2Proof/Machine/Operands.lean ====
section
/-! DEFINITION. The operand forms: views and their rotation, vector operands, elements and their enables, wide registers,
local addresses and scalar operands (R40, R41, R76-R85, R169, R197, R262). -/

namespace Sys2Proof.Machine

/-- A slot operation at work: the state it reads, its context and its bundle as they change. -/
structure Op where
  s : State
  c : Ctx
  u : Cur
  slot : Nat
  deriving DecidableEq, Repr

/-- The registers an operation reads: those kept from a stepped bundle's first step, or the present ones (R402). -/
def Op.regs (o : Op) : Regs := if o.u.sup then o.c.toRegs else o.c.kept.getD o.c.toRegs

def Op.now (o : Op) : Nat := o.s.now

/-- Send a result on its way with a latency (R4). -/
def Op.land (o : Op) (latency : Nat) (w : Write) : Op :=
  { o with c := { o.c with inflight := o.c.inflight ++
      [{ left := latency, serial := o.c.serial, slot := o.slot, off := o.u.off, hash := o.c.hashIv, second := o.u.second, w }] } }

/-- Raise a trap of the operation (kind slot); an uncorrectable error also retires the tile (R37). -/
def Op.raise (o : Op) (cause : BitVec 8) (einfo : Word := 0) : Op :=
  { o with
    u := { o.u with raised := o.u.raised ++ [⟨o.slot, false, cause, einfo⟩] }
    s := if cause = cXMEM then o.s.retireFunc (.tile o.u.t) else o.s }

/-- Raise a trap found as the bundle issues (R74). -/
def Op.raiseIssue (o : Op) (cause : BitVec 8) : Op :=
  { o with u := { o.u with raised := o.u.raised ++ [⟨o.slot, true, cause, 0⟩] } }

/-- A DCR event at the operation's bundle and slot. -/
def Op.event (o : Op) (code amt : Nat) : Op := { o with c := o.c.event o.now code o.u.off o.slot amt }

/-! ### Views (R82-R85) -/

def vwVal (w : Word) : Bool := w.getLsbD 34
def vwRpos (w : Word) : Nat := ((w >>> 26).setWidth 8).toNat
def vwDepth (w : Word) : Nat := ((w >>> 17).setWidth 9).toNat
def vwRot (w : Word) : Bool := w.getLsbD 16
def vwSize (w : Word) : Nat := ((w >>> 8).setWidth 8).toNat + 1
def vwBase (w : Word) : Nat := (w.setWidth 8).toNat

/-- The defined bits of a view descriptor; the others read as zero (R6). -/
def vwBits : Word := 0x7FFFFFFFF

/-- A descriptor with VAL set is valid (R82). -/
def vwValid (w : Word) : Bool :=
  vwVal w && vwBase w + vwSize w ≤ 256 && (!vwRot w || (1 ≤ vwDepth w && vwDepth w ≤ vwSize w))

def Core.view (c : Core) (n : Nat) : Word := SMap.get 0 c.vw n

/-- resolve (R83): the register an index names, `none` for the ILL. -/
def Core.resolve (c : Core) (n i : Nat) : Option Nat :=
  let d := c.view n
  if !vwVal d || i ≥ vwSize d then none
  else some (vwBase d + (if vwRot d then (i + vwSize d - vwRpos d % vwSize d) % vwSize d else i))

/-- The index under which view `n` now shows register `j`. -/
def Core.indexOf (c : Core) (n j : Nat) : Nat :=
  let d := c.view n
  (j - vwBase d + vwRpos d) % vwSize d

/-- The register is fallow in the view: a rotating view, and an index at or above the live depth (R85). -/
def Core.fallow (c : Core) (n j : Nat) : Bool :=
  let d := c.view n
  vwVal d && vwRot d && vwBase d ≤ j && j < vwBase d + vwSize d && c.indexOf n j ≥ vwDepth d

/-- The register lies in the valid view. -/
def Core.inView (c : Core) (n j : Nat) : Bool :=
  let d := c.view n
  vwVal d && vwBase d ≤ j && j < vwBase d + vwSize d

/-- Some rotating view holds the register, and it is fallow in every one that does (R85, R380). -/
def Core.allFallow (c : Core) (j : Nat) : Bool :=
  let rs := (List.range 4).filter fun n => c.inView n j && vwRot (c.view n)
  !rs.isEmpty && rs.all fun n => c.fallow n j

/-- A view descriptor after a rotation (R84). -/
def vwRotate (w : Word) : Word :=
  if vwRot w then
    (w &&& ~~~(0xFF#64 <<< 26)) ||| (BitVec.ofNat 64 ((vwRpos w + 1) % vwSize w) <<< 26)
  else w

/-- The registers that were fallow in `old` and are live now hold undefined contents: the free values from `ctr` upward (R85). -/
def Core.wake (old c : Core) (ctr : Nat) : Core :=
  let woken := (List.range 256).filter fun j => old.allFallow j && !c.allFallow j
  { c with space := woken.foldl (fun m j => SMap.set 0 m j (Config.freeVec (ctr + j))) c.space }

/-- Rotate every rotating view but those whose descriptor was written in this cycle (R84, R189). -/
def Core.rotate (c : Core) (ctr : Nat) : Core :=
  c.wake { c with vw := (List.range 4).foldl (fun m n =>
    if c.vwNew.getLsbD n then m else SMap.set 0 m n (vwRotate (c.view n))) c.vw } ctr

/-! ### Elements (R41, R262) -/

/-- Element `e` of width `w`. -/
def elem (v : Vec) (w e : Nat) : Nat := (v.extractLsb' (w * e) w).toNat

/-- The vector with the given elements of width `w`, element 0 first. -/
def ofElems (w : Nat) (es : List Nat) : Vec :=
  es.foldr (fun x (acc : Vec) => (acc <<< w) ||| BitVec.ofNat 2048 (x % 2 ^ w)) 0

/-- Element `e` is enabled under mask `m` (R262). -/
def enabled (m : Mask) (w e : Nat) : Bool := if w = 32 then m.getLsbD (2 * e) else m.getLsbD (w * e / 16)

/-- The lanes written by an operation on elements of width `w` under a mask: bit 2e governs both lanes of a 32-bit element
(R76). -/
def lanesOf (m : Mask) (w : Nat) : Mask :=
  if w = 32 then
    (List.range 64).foldl (fun acc e => if m.getLsbD (2 * e) then acc ||| (3#128 <<< (2 * e)) else acc) 0
  else m

/-- `2048 / w` copies of the low `w` bits of a word. -/
def replicate (w : Nat) (x : Word) : Vec :=
  ofElems w (List.replicate (2048 / w) (x.toNat % 2 ^ w))

/-- A vector operand read at width `w`, with the number of fallow reads it makes (R77, R78, R85). An operand that does not
resolve reads zero; it traps before anything is read. -/
def readV (c : Core) (r : Regs) (w : Nat) (v : VOp) : Vec × Nat :=
  match v with
  | .main n i =>
    match c.resolve n.toNat i.toNat with
    | some j => if c.fallow n.toNat j then (0, 1) else (SMap.get 0 r.space j, 0)
    | none => (0, 0)
  | .opf n => (SMap.get 0 r.opf n.toNat, 0)
  | .latch n => (SMap.get 0 r.latch n.toNat, 0)
  | .zero => (0, 0)
  | .ones => (BitVec.allOnes 2048, 0)
  | .bc s => (replicate w (r.sreg s), 0)

/-- Read a vector operand, recording fallow reads. -/
def Op.readV (o : Op) (w : Nat) (v : VOp) : Vec × Op :=
  let (x, n) := Machine.readV o.c.toCore o.regs w v
  (x, if n = 0 then o else o.event dcrFALLOW n)

/-- The vector of an operand field; a field of another kind reads zero. -/
def Op.readF (o : Op) (w : Nat) (f : VField) : Vec × Op :=
  match f with
  | .v x => o.readV w x
  | _ => (0, o)

/-- The operand resolves, or is no main-file operand (R77, R83). -/
def vopOk (c : Core) (v : VOp) : Bool :=
  match v with
  | .main n i => (c.resolve n.toNat i.toNat).isSome
  | _ => true

def vfieldOk (c : Core) (f : VField) : Bool :=
  match f with
  | .v x => vopOk c x
  | _ => true

/-- Send a vector to its destination, in the lanes given (R79). -/
def Op.dest (o : Op) (latency : Nat) (d : VField) (v : Vec) (lanes : Mask) : Op :=
  match d with
  | .v (.main n i) =>
    match o.c.resolve n.toNat i.toNat with
    | some j => o.land latency (.reg n.toNat j v lanes)
    | none => o
  | .v (.opf e) => o.land latency (.opf e.toNat v lanes)
  | _ => o

/-- The register a wide operand names. -/
def Core.wide (c : Core) (view : BitVec 2) (idx : BitVec 8) : Option Nat := c.resolve view.toNat idx.toNat

/-- Read a wide register, recording a fallow read (R85). -/
def Op.readWide (o : Op) (view : BitVec 2) (idx : BitVec 8) : Vec × Op :=
  match o.c.wide view idx with
  | some j => if o.c.fallow view.toNat j then (0, o.event dcrFALLOW 1) else (SMap.get 0 o.regs.space j, o)
  | none => (0, o)

/-! ### Scalar operands (R40, R169) -/

/-- Extension of a `w`-bit result to 64 bits. -/
def extRes (u : Bool) (w : Nat) (x : Nat) : Word :=
  if u then BitVec.ofNat 64 x else BitVec.ofInt 64 (signedOf w x)

/-- A 36-bit immediate, sign-extended or zero-extended. -/
def ext36 (v : BitVec 36) (u : Bool) : Int := if u then v.toNat else v.toInt

/-- A 32-bit immediate, likewise. -/
def ext32 (v : BitVec 32) (u : Bool) : Int := if u then v.toNat else v.toInt

/-- The second source modulo `2 ^ w`. -/
def srcB (r : Regs) (w : Nat) (u : Bool) (b : SrcB) : Nat :=
  match b with
  | .reg n => (r.sreg n).toNat % 2 ^ w
  | .imm v => modW w (ext36 v u)

def srcB32 (r : Regs) (w : Nat) (u : Bool) (b : SrcB32) : Nat :=
  match b with
  | .reg n => (r.sreg n).toNat % 2 ^ w
  | .imm v => modW w (ext32 v u)

/-! ### Local addresses (R197) -/

def scaleOf (sc : BitVec 2) : Int :=
  match sc.toNat with
  | 0 => 1 | 1 => 8 | 2 => 64 | _ => 256

/-- The effective offset of a load or store. -/
def lsEa (r : Regs) (o : LsArgs) : Int := (r.sreg o.sb).toInt + (r.sreg o.si).toInt * scaleOf o.sc + o.imm.toInt

/-- The low 32 bits of an offset, as EINFO holds them. -/
def ea32 (ea : Int) : Word := BitVec.ofNat 64 (modW 32 ea)

/-- An access of the bytes from `a` upward meets the bad block `b`: a load that reads a byte of it, or a store that writes some of
its bytes and not all. `en` are a store's enables, none for a load (R196, R348). -/
def spoils (a size b : Nat) (en : Option (List Bool)) : Bool :=
  let on (i : Nat) : Bool := a ≤ 64 * b + i && 64 * b + i < a + size && (match en with
    | none => true
    | some es => es.getD (64 * b + i - a) false)
  (List.range 64).any on && !(en.isSome && (List.range 64).all on)

/-- What the checks of R197 and R196 find at an offset: a trap, or nothing. -/
def Op.checkEa (o : Op) (ea : Int) (size align : Nat) (en : Option (List Bool)) : Option (BitVec 8) :=
  if ea % align ≠ 0 then some cALGN
  else if !o.c.legal o.u.sup ea size then some cBND
  else if (o.s.tile o.u.t).bad.any fun b => spoils (o.c.phys o.u.sup ea) size b en then some cXMEM
  else none

end Sys2Proof.Machine
end

