-- ==== Sys2Proof/Machine/Flags.lean ====
section
/-! DEFINITION. The sticky flags of the vector units (R65, R66, R264) and the conditions of compares (Table 9.3). -/

namespace Sys2Proof.Machine

/-- The flags `f` in the lanes an element of width `w` occupies. -/
def flagAt (w e : Nat) (f : Flags) : FlgVec :=
  if f = 0 then 0
  else if w = 32 then (f.setWidth 1024 <<< (16 * e)) ||| (f.setWidth 1024 <<< (16 * e + 8))
  else f.setWidth 1024 <<< (8 * (w * e / 16))

/-- The flags of a list of elements with their numbers, together. -/
def flagsOf (w : Nat) (fs : List (Nat × Flags)) : FlgVec :=
  fs.foldl (fun acc x => acc ||| flagAt w x.1 x.2) 0

/-- The flags `f` in every lane of a mask. -/
def flagsIn (lanes : Mask) (f : Flags) : FlgVec :=
  if f = 0 then 0
  else (List.range 128).foldl (fun acc l => if lanes.getLsbD l then acc ||| (f.setWidth 1024 <<< (8 * l)) else acc) 0

/-- Set flags when the result lands, unless Q is set (R66). -/
def Op.flags (o : Op) (latency : Nat) (u : VUnit) (q : Bool) (f : FlgVec) : Op :=
  if q || f = 0 then o else o.land latency (.flags u f)

/-- Raise QOVF for a quire that became NaR; its EINFO names the bundle, slot, row and lane (Table 18.1). -/
def Op.overflow (o : Op) (latency row lane : Nat) : Op :=
  o.land latency (.overflow
    ((o.u.off.setWidth 64 <<< 22) ||| (BitVec.ofNat 64 o.slot <<< 16) ||| (BitVec.ofNat 64 row <<< 8) ||| BitVec.ofNat 64 lane))

/-- A condition of Table 9.3 on the exact and the bit values of two operands. -/
def condTest (c : Cond) (x y : Int) (a b : Nat) : Bool :=
  match c with
  | .eq => x == y
  | .ne => x != y
  | .lt => x < y
  | .ge => y ≤ x
  | .le => x ≤ y
  | .gt => y < x
  | .tst => a &&& b != 0
  | .ntst => a &&& b == 0

/-- The condition of a 3-bit code. -/
def condOf (c : Nat) : Cond :=
  match c with
  | 0 => .eq | 1 => .ne | 2 => .lt | 3 => .ge | 4 => .le | 5 => .gt | 6 => .tst | _ => .ntst

/-- A bit of a truth table: bit 2a + b (R176). -/
def ttBit (tt : BitVec 4) (a b : Bool) : Bool := tt.getLsbD (2 * a.toNat + b.toNat)

end Sys2Proof.Machine
end

