-- ==== Sys2Proof/Machine/Seq.lean ====
section
/-! DEFINITION. What every slot operation shares: the traps found at issue, the predicate, the close of the bundle with its
trap, exit or seq_step, and the pre-emption points (R73, R74, R178-R185, R190-R193, R364, R371). -/

namespace Sys2Proof.Machine

/-! ### Traps found as the bundle issues (R74) -/

/-- Access of a system register in user mode (Table 9.6): readable and writable. -/
def userRead (n : Nat) : Bool :=
  n ≤ 6 || (0x010 ≤ n && n ≤ 0x013) || (0x030 ≤ n && n ≤ 0x04F) || (0x080 ≤ n && n ≤ 0x11F)

def userWrite (n : Nat) : Bool := n ≤ 2 || n == 6 || (0x100 ≤ n && n ≤ 0x11F)

/-- The physical counter of a virtual one (R138). -/
def Ctx.counter (c : Ctx) (n : Nat) : Option Nat := SMap.get none c.cmap n

/-- The register names an unmapped counter (R188). -/
def Ctx.unmappedSys (c : Ctx) (n : Nat) : Bool :=
  (0x080 ≤ n && n ≤ 0x0BF && (c.counter (n - 0x080)).isNone) || (0x0C0 ≤ n && n ≤ 0x0FF && (c.counter (n - 0x0C0)).isNone)

/-- The quire rows a MX operation names (R302). -/
def mxRows (opc : BitVec 8) (o : MxArgs) : List Nat :=
  match opc.toNat with
  | 0x03 | 0x04 | 0x08 | 0x09 | 0x0A | 0x0B => [o.row.toNat]
  | 0x0C => [o.row.toNat, o.sr.toNat]
  | 0x10 | 0x11 => if o.var = 0 then [o.row.toNat] else []
  | _ => []

/-- The ILL or PRIV that the state gives an operation. -/
def issueFault (c : Ctx) (sup : Bool) (i : Instr) : Option (BitVec 8) :=
  match i.vForm with
  | some (_, o) =>
    if vfieldOk c.toCore o.d && vfieldOk c.toCore o.a && vfieldOk c.toCore o.b && vfieldOk c.toCore o.c then none else some cILL
  | none =>
  match i.mxForm with
  | some (opc, o) =>
    if (mxRows opc o).all (fun n => n < c.qrows) && ((opc ≠ 0x04 && opc ≠ 0x08) || (c.toCore.wide o.view o.idx).isSome)
    then none else some cILL
  | none =>
  match (match i.ldForm with | some x => some x | none => i.stForm) with
  | some (_, o) =>
    match o.data with
    | .wide view idx => if (c.toCore.wide view idx).isSome then none else some cILL
    | _ => none
  | none =>
  match i with
  | .waitge _ n _ _ _ | .sig _ n _ _ => if (c.counter n.toNat).isSome then none else some cILL
  | .xsig o => if o.l && (c.counter o.ctr.toNat).isNone then some cILL else none
  | .sysr _ _ n => if c.unmappedSys n.toNat then some cILL else if sup || userRead n.toNat then none else some cPRIV
  | .sysw _ _ n => if sup || userWrite n.toNat then none else some cPRIV
  | .cmapWrite _ _ n | .cntWrite _ _ n => if (c.counter n.toNat).isNone then some cILL else if sup then none else some cPRIV
  | .tret _ => if sup then none else some cPRIV
  | _ => none

/-! ### The sequencer (R178-R184) -/

def Core.level (c : Core) (n : Nat) : Level := SMap.get {} c.ls n

/-- Push a level (R181). -/
def Core.pushLevel (c : Core) (l : Level) : Core := { c with ls := SMap.set {} c.ls c.ldep l, ldep := c.ldep + 1 }

/-- Pop the innermost level: a popped entry is zero. -/
def Core.popLevel (c : Core) : Core := { c with ls := c.ls.erase (c.ldep - 1), ldep := c.ldep - 1 }

/-- What the loop logic of seq_step finds at an offset. -/
structure Iter where
  c : Core
  next : BitVec 16
  /-- iteration ends of levels with RT, and whether one had PE -/
  rots : Nat
  pe : Bool
  deriving DecidableEq, Repr

/-- The while loop of seq_step; at most one turn for each level. -/
def iterEnds (a : BitVec 16) (ctr : Nat) : Nat → Iter → Iter
  | 0, x => x
  | fuel + 1, x =>
    let l := x.c.level (x.c.ldep - 1)
    if x.c.ldep = 0 || a.toNat + 1 ≠ l.start.toNat + l.len.toNat then x
    else
      let l' := { l with idx := l.idx + 1 }
      let c1 := { x.c with ls := SMap.set {} x.c.ls (x.c.ldep - 1) l' }
      let c2 := if l.rt then c1.rotate (ctr + 256 * x.rots) else c1
      let rots := if l.rt then x.rots + 1 else x.rots
      let pe := x.pe || l.pe
      if l'.idx.toNat < l.count.toNat then ⟨c2, l.start, rots, pe⟩
      else iterEnds a ctr fuel ⟨c2.popLevel, x.next, rots, pe⟩

/-- The defined bits of the register with a number; the others read as zero and ignore writes (R6). -/
def sysMask (n : Nat) : Word :=
  if n = 0x001 then 0xFFFFFFFF
  else if n = 0x002 then 0x3
  else if n = 0x007 then 0xC0000000000FFFFF
  else if 0x010 ≤ n && n ≤ 0x013 then vwBits
  else if n = 0x020 then 0xBFFFF8
  else if n = 0x021 then 0x1C0FF
  else if n = 0x022 then 0x7
  else if n = 0x023 then 0x1FFFFF
  else if n = 0x025 then 0x3FFFFFFFFFFFFF
  else if n = 0x026 then 0x3FFFC0
  else if 0x030 ≤ n && n ≤ 0x04F then (if n % 2 = 0 then 0xC0FFE000FFFFFFFF else 0xFFFFFFFFFF3FFFC0)
  else if 0x060 ≤ n && n ≤ 0x06B then (if n % 2 = 0 then 0xFFFFFFFF0003 else BitVec.allOnes 64)
  else if 0x080 ≤ n && n ≤ 0x0BF then 0xFF
  else if 0x100 ≤ n && n ≤ 0x11F then 0x3F3F3F3F3F3F3F3F
  else if 0x120 ≤ n && n ≤ 0x13F then (if n % 2 = 0 then 0x8000FFFFFFFFFFFF else BitVec.allOnes 64)
  else BitVec.allOnes 64

/-- A register with the SYSW of it that lands in the next cycle (R189). -/
def Core.nextSys (c : Core) (n : Nat) (old : Word) : Word :=
  c.inflight.foldl (fun w l => match l.w with
    | .sys m v => if m = n && l.left = 1 then v &&& sysMask n else w
    | _ => w) old

/-- The trap registers as they will read in the next cycle, which is the one in which TRET loads them: a bundle closes one cycle before
its successor issues (R192; DEDUCED, log entry 105). -/
def Core.soon (c : Core) : Core :=
  { c with
    epc := c.nextSys 0x020 c.epc, ecause := c.nextSys 0x021 c.ecause
    edone := c.nextSys 0x023 c.edone, ept := c.nextSys 0x025 c.ept }

/-- The return of a TRET (R192): the sequencer of EPC and EPT, and what the reissued bundle still has to do. -/
def Core.tretLoad (c : Core) : Core :=
  let p1 : List Pending := if c.ept.getLsbD 48 then [⟨1, .off (c.ept.setWidth 16)⟩] else []
  let p2 : List Pending := if c.ept.getLsbD 49 then [⟨2, .off ((c.ept >>> 16).setWidth 16)⟩] else []
  let cause := c.ecause.setWidth 8
  let occ := (c.edone >>> 8).setWidth 8
  let rsk := ((c.edone >>> 16).setWidth 5).toNat
  -- a trap of kind entry, or of a fetch, was taken in place of its bundle
  let entry := occ = 0 || cause = cBRK
  let n := if entry then rsk else rsk + 1
  { c with
    sup := c.epc.getLsbD 23
    pc := (c.epc >>> 6).setWidth 16
    ldep := ((c.epc >>> 3).setWidth 3).toNat
    pend := p1 ++ p2
    nulls := ((c.ept >>> 52).setWidth 2).toNat
    resume := some
      { done := c.edone.setWidth 8
        xfer := if c.ept.getLsbD 50 then some ((c.ept >>> 32).setWidth 16) else none
        annul := c.ept.getLsbD 51
        skip := rsk
        replay := c.slog.drop (c.slog.length - n) } }

/-- seq_step (R178): the sequencer after a bundle at offset `a`. -/
def Core.seqStep (c : Core) (a : BitVec 16) (xfer : Option Goal) (annul : Bool) (ctr : Nat) : Iter :=
  let x := iterEnds a ctr 7 ⟨c, a + 1, 0, false⟩
  let ps : List Pending := x.c.pend.map fun p => { p with d := p.d - 1 }
  let due : Option Pending := ps.find? fun p => p.d = 0
  let more : List Pending := match xfer with | some g => [⟨2, g⟩] | none => []
  let rest : List Pending := (ps.filter fun p => p.d ≠ 0) ++ more
  let c1 := { x.c with pend := rest, nulls := if annul then 2 else x.c.nulls, pc := x.next }
  let c2 := match due with
    | some p => (match p.goal with | .off t => { c1 with pc := t } | .tret => { c1.soon.tretLoad with
        epc := c1.epc, ecause := c1.ecause, edone := c1.edone, ept := c1.ept })
    | none => c1
  { x with c := c2 }

/-- A member returns from its handler as the first user bundle reaches it (R192, R233, R370). -/
def Ctx.memberReturn (c : Ctx) : Ctx :=
  { c with toCore := { c.toCore.tretLoad with sup := false }
           xq := c.xq.map fun e => (e.1, if e.2.qs = 2 then { e.2 with qs := 0 } else e.2) }

/-! ### The draw history (R325-R328) -/

/-- The index of the valid history entry equal to `e`. -/
def histFind (d : SMap Word) (w0 w1 : Word) : Nat → Option Nat
  | 0 => none
  | n + 1 =>
    match histFind d w0 w1 n with
    | some m => some m
    | none => if SMap.get 0 d (2 * n) = w0 && SMap.get 0 d (2 * n + 1) = w1 then some n else none

/-- Process one history entry of the bundle (R326). -/
def Op.history (o : Op) (t : BitVec 16) (s row col : BitVec 32) : Op :=
  let w0 : Word := (1#64 <<< 63) ||| (t.setWidth 64 <<< 32) ||| s.setWidth 64
  let w1 : Word := (row.setWidth 64 <<< 32) ||| col.setWidth 64
  match histFind o.c.dhist w0 w1 16 with
  | some m => { o with u := { o.u with reuse := o.u.reuse ++ [(o.slot, m)] } }
  | none =>
    let d := (w0 : Word) :: w1 :: (List.range 30).map fun i => SMap.get 0 o.c.dhist i
    { o with c := { o.c with dhist := (List.range 32).foldl (fun m i => SMap.set 0 m i (d.getD i 0)) o.c.dhist } }

/-! ### Closing the bundle -/

/-- Lowest slot among raised traps. -/
def lowestRaise : List Raise → Option Raise
  | [] => none
  | r :: rs =>
    match lowestRaise rs with
    | none => some r
    | some r' => if r'.slot < r.slot then some r' else some r

def slotBit (n : Nat) : BitVec 8 := 1#8 <<< n

/-- The slots of a bundle that have been performed when it traps: every occupied slot but those that raised a trap, were
suppressed, or hold the EXIT; a TRAP counts as done (R190, R193, R364). -/
def Cur.doneMask (u : Cur) : BitVec 8 :=
  let bad := u.raised.foldl (fun (m : BitVec 8) r => if r.cause = cTRAPI then m else m ||| slotBit r.slot) 0
  let ex : BitVec 8 := if u.exit then slotBit 0 else 0
  ((u.occ &&& ~~~bad) &&& ~~~ex &&& ~~~u.skip) ||| u.pre

def goalOff : Option Goal → Option (BitVec 16)
  | some (.off t) => some t
  | _ => none

/-- The trap record of the issuing bundle. -/
def Cur.trap (u : Cur) (c : Ctx) (cause : BitVec 8) (slot : Nat) (einfo : Word) : Trap :=
  { cause, slot, einfo, done := u.doneMask, occ := u.occ, off := u.off, ldep := c.ldep
    ept := eptWord u.pend0 u.nulls0 (goalOff u.xfer) u.annul }

/-- The bundle was issued as a NOP bundle (R178); a skipped bundle is one only where its log entry says so. -/
def Cur.isNop (u : Cur) : Bool := match u.replay with | some e => e.nop | none => u.nop

/-- The freezes that a bundle of a timed furrow still meets on its way from the headland to position `j`: those that come to the
headland's tile later, on their way up the path (R152). -/
def Tile.meets (x : Tile) (now j : Nat) : Nat := ((x.freeze.map (·.1)).eraseDups.filter fun f => now < f && f ≤ now + 2 * j).length

/-- Send the bundle along the furrow path to every member (R148, R187). The mark of an iteration end counts the levels with RT set that
ended one, so that a member's views turn as far as the headland's (DEDUCED, log entry 133). -/
def State.sendPath (s : State) (u : Cur) (rots : Nat) : State :=
  let h := s.ctx u.t u.k
  let late (j : Nat) : Nat := if h.timed then (s.tile u.t).meets s.now j else 0
  (List.range (h.span - 1)).foldl (fun s i =>
    match s.contextOf (u.t + i + 1) h.launch with
    | some k => s.updCtx (u.t + i + 1) k fun c =>
        { c with path := c.path ++ [{ left := i + 1 + late (i + 1), bytes := u.bytes, off := u.off, idx := u.idx, rot := rots,
                                      nop := u.isNop, sup := u.sup, replay := u.replay.isSome, rmiss := u.rmiss
                                      point := h.point && !u.sup, num := u.num }] }
    | none => s) s

/-- Cells of the profile record of level `lv` (R399). -/
def Ctx.profAdd (c : Ctx) (lv cell n : Nat) : Ctx := { c with prof := SMap.set 0 c.prof (32 * lv + cell) (SMap.get 0 c.prof (32 * lv + cell) + n) }

/-- Exclusive contexts (R131). -/
def Ctx.exclusive (c : Ctx) : Bool := c.timed || c.flen ≥ 2

/-- The next context number after `k`, in cyclic order, resident as a background context in the class of priority `pr`. -/
def Tile.nextHolder (x : Tile) (pr : Nat) (k : BitVec 2) : BitVec 2 :=
  let ok (j : BitVec 2) : Bool := (x.get j).life = .running && !(x.get j).exclusive && (x.get j).prio = pr
  if ok (k + 1) then k + 1 else if ok (k + 2) then k + 2 else if ok (k + 3) then k + 3 else k

/-- The context holds no class any more: it has exited, or has been saved, killed or replaced (R154). -/
def Tile.dropHolder (x : Tile) (k : BitVec 2) : Tile :=
  { x with holder := x.holder.map fun e => (e.1, if e.2 = some k then none else e.2) }

def State.dropHolder (s : State) (t : Nat) (k : BitVec 2) : State := s.setTile t ((s.tile t).dropHolder k)

/-! ### The header and the points (R68, R155, R371, R374) -/

/-- The header acts: the bundle is neither a NOP bundle nor replayed, and a step has completed it (R370, R402). -/
def Cur.headed (u : Cur) : Bool :=
  !u.nop && u.replay.isNone && (match u.item with | some it => !it.replay | none => true)

/-- What the bundle does as a point; `pe` says that it ended an iteration of a level with PE, and `defer` that it cannot be a
point itself (R180). At a member the headland has decided it. A point that is passed on to a bundle which takes a trap on itself is used
up by that issue (DEDUCED, log entry 135). -/
def Ctx.acted (c : Ctx) (u : Cur) (pe defer : Bool) : Ctx :=
  let acts := c.leads && ((u.headed && (u.hdr.p || u.hdr.y)) || pe || c.deferred)
  let point := if c.leads then acts && !defer else (match u.item with | some it => it.point | none => false)
  if u.sup then c
  else { c with point, deferred := acts && defer, psc := if point then 0 else c.psc }

/-- Y and M of the bundle: the holder passes on, and a checked interval closes. -/
def State.headerActs (s : State) (u : Cur) : State :=
  let c := s.ctx u.t u.k
  let s := if u.headed && u.hdr.y && !c.exclusive && !u.second && !c.checked then
      let x := s.tile u.t
      s.setTile u.t { x with holder := x.holder.put c.prio (some (x.nextHolder c.prio u.k)) }
    else s
  if u.headed && u.hdr.m && c.checked && !u.sup then { s with agenda := .checkedIntervalClose u.t u.k :: s.agenda } else s

/-- The deferral of R180: a transfer is pending at the bundle's issue, or the bundle takes one or annuls. -/
def Cur.defers (u : Cur) (xfer : Option Goal) (annul : Bool) : Bool := !u.pend0.isEmpty || xfer.isSome || annul

/-- The header of a bundle that issues and takes a trap, or holds the EXIT: it acts, though seq_step does not run. -/
def State.actHeader (s : State) (u : Cur) : State :=
  (s.updCtx u.t u.k fun c => c.acted u false (u.defers u.xfer u.annul)).headerActs u

/-- Slot 0 acts in this issue of the bundle: it was not performed before a reissue. -/
def Cur.acts0 (u : Cur) : Bool := (u.occ &&& ~~~u.pre).getLsbD 0

/-- A bundle that the tile has issued before the stop of its stream has rotated the views then, and rotates them no second time (DEDUCED,
log entry 34). -/
def Iter.kept (x : Iter) (skipped : Bool) (c : Core) : Iter :=
  if skipped then { x with c := { x.c with toRegs := c.toRegs, vw := c.vw, vwNew := c.vwNew } } else x

/-- The bundle performed with no trap: header, points and the sequencer (R178, R180, R371). -/
def State.retireBundle (s : State) (u : Cur) : State :=
  let c := s.ctx u.t u.k
  let ctr := s.freeCtr
  -- replayed control effects come from the stream log (R370)
  let live := u.acts0
  let xfer := match u.replay with
    | some e => if live then u.xfer else if e.xfer then some (.off e.tgt) else none
    | none => u.xfer
  let annul := match u.replay with
    | some e => if live then u.annul else e.annul
    | none => u.annul
  let c0 : Core := { c.toCore with nulls := if u.isNop && c.leads then c.nulls - 1 else c.nulls }
  let x : Iter := if c.leads then (c0.seqStep u.off xfer annul ctr).kept u.skipped c0
    else
      -- a member rotates after its issue of a bundle marked as an iteration end (R187)
      let n := match u.item with | some it => if u.skipped then 0 else it.rot | none => 0
      ⟨(List.range n).foldl (fun c i => c.rotate (ctr + 256 * i)) c.toCore, c.pc, n, false⟩
  let s := { s with freeCtr := s.freeCtr + 256 * x.rots }
  let c' : Ctx := ({ c with toCore := x.c } : Ctx).acted u x.pe (u.defers xfer annul)
  -- the handler's TRET lets its held queues go on (R233)
  let c' := if c.sup && !c'.sup then { c' with fstop := none, xq := c'.xq.map fun e => (e.1, if e.2.qs = 2 then { e.2 with qs := 0 } else e.2) } else c'
  let tgt := (goalOff xfer).getD 0
  let c' := if xfer.isSome && u.replay.isNone then
      (if xfer = some .tret then c'.traceRec s.now 3 0 u.off 0 0 false else c'.traceRec s.now 1 0 u.off 0 tgt u.isRet)
    else c'
  let s := (s.setCtx u.t u.k c').headerActs u
  if c.leads && c.span ≥ 2 then s.sendPath u x.rots else s

/-- An operand FIFO without the bytes of the entries that are not available. -/
def Fifo.only (f : Fifo) : Fifo := { f with ent := f.ent.filter fun e => f.avl.getLsbD e.1 }

/-- The state of Table 18.8 that a run leaves at its launch value though the run changes it: the stream log, the weight planes and the
FIFO entries that hold nothing (R403; DEDUCED, log entry 93). -/
def Ctx.atEnd (c : Ctx) : Ctx := { c with slog := [], plane := [], fa := c.fa.only, fb := c.fb.only }

/-- An EXIT ends the issue of its context; in supervisor mode with FIN set it ends the launch (R193, R366). PSC ends at its launch
value, as R410 has it (log entry 93). -/
def State.exitContext (s : State) (u : Cur) : State :=
  let s := s.actHeader u
  let c := s.ctx u.t u.k
  let s := if c.leads && c.span ≥ 2 then s.sendPath u 0 else s
  let s := s.setCtx u.t u.k (({ c with life := .retiring, hold := none, psc := 0 }).traceRec s.now 6 0 u.off 0 0 false)
  -- the furrow counts as arrived at every barrier from now on (R357)
  let s := match c.launch with
    | some id => if c.leads then s.updLaunch id fun l =>
        { l with exited := l.exited ++ [fieldFy c.field]
                 barAt := (l.barArr.map (·.1)).eraseDups.foldl (fun m b => SMap.set 0 m b s.now) l.barAt } else s
    | none => s
  if u.sup && c.ecause.getLsbD 16 then
    (s.updCtx u.t u.k fun c => { c with life := .stopped }).failOf c (c.ecause.setWidth 16) u.t
  else
    -- a pending engine fault can no longer be delivered (R389)
    match c.xq.find? fun x => x.2.qs = 1 with
    | some x => s.failOf c (x.2.ecode.setWidth 16) u.t
    | none => s

/-- The entry of the stream log for the bundle (Table 18.4). -/
def Cur.log (u : Cur) : LogEntry :=
  { count := u.pushed.getD 0, tgt := (goalOff u.xfer).getD 0, off := u.off, nop := u.nop, pop := u.popped,
    push := u.pushed.isSome, annul := u.annul, xfer := u.xfer.isSome }

/-- Add the bundle to the headland's stream log (R369). A replayed bundle stands there already; where its slot 0 acts only now, its
entry takes what that does. -/
def State.logStream (s : State) (u : Cur) : State :=
  s.updCtx u.t u.k fun c =>
    if c.leads && c.span ≥ 2 && !u.sup then
      match u.replay with
      | none => { c with slog := (c.slog ++ [u.log]).drop ((c.slog.length + 1) - 32) }
      | some e =>
        let after := match c.resume with | some r => r.replay.length | none => 0
        if u.acts0 then { c with slog := c.slog.set (c.slog.length - 1 - after) { u.log with nop := e.nop } } else c
    else c

/-- Key reuses that take no trap are DCR entries (R328). -/
def State.reuseEvents (s : State) (u : Cur) : State :=
  u.reuse.foldl (fun s x => s.updCtx u.t u.k fun c => c.event s.now dcrKEYRU u.off x.1 1) s

/-- The bundle takes a trap on itself, and the path receives it all the same. -/
def State.trapBundle (s : State) (u : Cur) (cause : BitVec 8) (slot : Nat) (einfo : Word) : State :=
  let c := s.ctx u.t u.k
  let s := if c.leads && c.span ≥ 2 then s.sendPath u 0 else s
  s.takeTrap u.t u.k (u.trap c cause slot einfo) u.num

/-- Every slot has committed: the bundle leaves its step, and the EXIT or seq_step follows. -/
def State.finishBundle (s : State) (u : Cur) : State :=
  let s := s.updCtx u.t u.k fun c => if u.sup then c else { c with kept := none, keptFifo := none, stepped := u.only.isSome }
  if u.exit then s.exitContext u else s.retireBundle u

/-- The slots that a step of the bundle still leaves, an EXIT apart (R193, R402). -/
def Cur.stepLeft (u : Cur) : BitVec 8 :=
  let ex : BitVec 8 := if u.exit then slotBit 0 else 0
  ((u.occ &&& ~~~u.doneMask) &&& ~~~ex) &&& ~~~(u.raised.foldl (fun (m : BitVec 8) r => m ||| slotBit r.slot) 0)

/-- A step keeps what its MX operation has consumed for the steps to come (R402). -/
def State.keepUsed (s : State) (u : Cur) : State :=
  s.updCtx u.t u.k fun c => { c with keptFifo := c.keptFifo.map fun x => { x with used := (u.consumedA, u.consumedB) } }

/-- Close the bundle now issuing, its slots all performed: rows 6 to 8 of Table 18.3, then EXIT, then seq_step. -/
def State.closeBundle (s : State) : State :=
  match s.cur with
  | none => s
  | some u =>
    let s := (({ s with cur := none } : State).logStream u).updCtx u.t u.k fun c => { c with cyc := c.cyc + 1 }
    let c := s.ctx u.t u.k
    let issue := u.raised.filter (·.atIssue)
    match lowestRaise (if issue.isEmpty then u.raised else issue) with
    | some r =>
      -- another trap turns key reuse into DCR entries (R328)
      let s := s.reuseEvents u
      (if u.only.isSome then s else s.actHeader u).trapBundle u r.cause r.slot r.einfo
    | none =>
      -- the step is not the bundle's last: BRK on the same bundle (R402)
      if u.only.isSome && u.stepLeft ≠ 0 then ((s.keepUsed u).reuseEvents u).trapBundle u cBRK 0 0
      else
        match u.reuse with
        | (slot, m) :: _ =>
          if c.qtrap.getLsbD 1 then (s.actHeader u).trapBundle u cKEYRU slot (BitVec.ofNat 64 m)
          else (s.reuseEvents u).finishBundle u
        | [] => s.finishBundle u

/-- Perform one slot operation of the bundle: its issue traps, whatever its predicate (R74), then its effect when its condition is true
(R73). A SYSW that its mode forbids traps with PRIV whatever value it would write (DEDUCED, log entry 128). -/
def Op.perform (o : Op) (i : Instr) (p : Pred) (eff : Op → Op) : Op :=
  match issueFault o.c o.u.sup i with
  | some cause => o.raiseIssue cause
  | none => if o.regs.holds p then eff o else o

/-- Put the context and the bundle back; the last slot closes the bundle. -/
def Op.settle (o : Op) : State :=
  let s := ({ o.s with cur := some o.u } : State).setCtx o.u.t o.u.k o.c
  if o.u.todo.isEmpty then s.closeBundle else s

/-- A slot operation as a step of the part: the bundle now issuing must stand at this slot with this operation. -/
def slotStep (slot : Nat) (i : Instr) (p : Pred) (eff : Op → Op) (s : State) : Host.Outcome State Fault Refusal :=
  match s.cur with
  | none => .refused (.notIssuing slot)
  | some u =>
    match u.todo with
    | [] => .refused (.notIssuing slot)
    | x :: rest =>
      if x = (slot, i) then
        .next (({ s := s, c := s.ctx u.t u.k, u := { u with todo := rest }, slot } : Op).perform i p eff).settle
      else .refused (.notIssuing slot)

end Sys2Proof.Machine
end

