-- ==== Sys2Proof/Machine/VectorInt.lean ====
section
/-! DEFINITION. What every vector operation shares (draws, element results, masks), and the integer, bitwise and movement
operations (R260-R269). -/

namespace Sys2Proof.Machine

/-! ### Shared -/

def latchNo : VUnit → Nat
  | .va => 0
  | .vb => 1

/-- The slot of a unit. -/
def unitSlot : VUnit → Nat
  | .va => 1
  | .vb => 2

def fieldM : VField → BitVec 3
  | .m r => r
  | _ => 0

def fieldS : VField → BitVec 5
  | .s r => r
  | _ => 0

def fieldQ : VField → BitVec 2
  | .q r => r
  | _ => 0

def morigT (m : Word) : BitVec 16 := (m >>> 48).setWidth 16
def morigRow (m : Word) : BitVec 32 := ((m >>> 24).setWidth 24).setWidth 32
def morigCol (m : Word) : BitVec 32 := (m.setWidth 24).setWidth 32

/-- The draw of a vector operation for output element `e` (R263). -/
def Op.drawAt (o : Op) (e : Nat) : BitVec 32 :=
  let r := o.regs
  draw r.key (morigT r.morig) (r.step.setWidth 32) (morigRow r.morig) (morigCol r.morig + BitVec.ofNat 32 e)

/-- The draw-history entry of an operation that may round by draws (R263). -/
def Op.drawEntry (o : Op) : Op :=
  let r := o.regs
  o.history (morigT r.morig) (r.step.setWidth 32) (morigRow r.morig) (morigCol r.morig)

def Op.srEntry (o : Op) (a : VArgs) : Op := if a.rm = .sr then o.drawEntry else o

/-- The governing mask. -/
def Op.mask (o : Op) (a : VArgs) : Mask := o.regs.mask a.m

/-- Send a whole vector result to the destination and the unit's latch, in the lanes given, with its flags. -/
def Op.emit (o : Op) (a : VArgs) (latency : Nat) (v : Vec) (lanes : Mask) (fl : FlgVec) : Op :=
  ((o.dest latency a.d v lanes).land latency (.latch (latchNo a.u) v lanes)).flags latency a.u a.q fl

/-- An element-wise result: element `e` of width `w` is `(f e).1` with flags `(f e).2`, in the lanes given. -/
def Op.emitElems (o : Op) (a : VArgs) (latency w : Nat) (lanes : Mask) (f : Nat → Nat × Flags) : Op :=
  let rs := (List.range (2048 / w)).map fun e => if enabled lanes w e then f e else (0, 0)
  o.emit a latency (ofElems w (rs.map (·.1))) lanes
    (flagsOf w ((List.range (2048 / w)).zip (rs.map (·.2))))

/-- The mask of a comparison (R268): a lane of several elements holds 1 when every one of them meets the condition. -/
def laneMask (w : Nat) (lanes : Mask) (cond : Nat → Bool) : Mask :=
  (List.range 128).foldl (fun (acc : Mask) l =>
    let b : Bool :=
      if w = 32 then cond (l / 2)
      else (List.range (16 / w)).all fun i => cond (16 / w * l + i)
    if lanes.getLsbD l && b then acc ||| (1#128 <<< l) else acc) 0

/-! ### Integer arithmetic (R265) -/

/-- The common form of R265; `sat` says whether the variant's bit 1 is SAT. -/
def Op.vint (o : Op) (a : VArgs) (sat : Bool) (f : Int → Int → Nat → Int) : Op :=
  let w := a.fmt.width
  let u := a.var.getLsbD 0
  let (x, o) := o.readF w a.a
  let (y, o) := o.readF w a.b
  o.emitElems a 2 w (lanesOf (o.mask a) w) fun e =>
    let z := f (intOf u w (elem x w e)) (intOf u w (elem y w e)) w
    (modW w (if sat && a.var.getLsbD 1 then clampInt u w z else z), 0)

def execVadd (a : VArgs) (s : State) : Host.Outcome State Fault Refusal :=
  slotStep (unitSlot a.u) (.vadd a) a.p (fun o => o.vint a true fun x y _ => x + y) s

def execVsub (a : VArgs) (s : State) : Host.Outcome State Fault Refusal :=
  slotStep (unitSlot a.u) (.vsub a) a.p (fun o => o.vint a true fun x y _ => x - y) s

def execVmul (a : VArgs) (s : State) : Host.Outcome State Fault Refusal :=
  slotStep (unitSlot a.u) (.vmul a) a.p (fun o => o.vint a true fun x y _ => x * y) s

def execVmulh (a : VArgs) (s : State) : Host.Outcome State Fault Refusal :=
  slotStep (unitSlot a.u) (.vmulh a) a.p (fun o => o.vint a false fun x y w => (x * y).fdiv (2 ^ w)) s

def execVmin (a : VArgs) (s : State) : Host.Outcome State Fault Refusal :=
  slotStep (unitSlot a.u) (.vmin a) a.p (fun o => o.vint a false fun x y _ => if x ≤ y then x else y) s

def execVmax (a : VArgs) (s : State) : Host.Outcome State Fault Refusal :=
  slotStep (unitSlot a.u) (.vmax a) a.p (fun o => o.vint a false fun x y _ => if x ≤ y then y else x) s

/-- VABS has no U: its source is signed. -/
def execVabs (a : VArgs) (s : State) : Host.Outcome State Fault Refusal :=
  slotStep (unitSlot a.u) (.vabs a) a.p (fun o => o.vint a true fun x _ _ => (x.natAbs : Int)) s

/-! ### Bitwise operations, shifts and compares (R266-R268) -/

/-- A truth table applied to every bit. -/
def ttBits {n : Nat} (tt : BitVec 4) (a b : BitVec n) : BitVec n :=
  (if tt.getLsbD 0 then ~~~a &&& ~~~b else 0) ||| (if tt.getLsbD 1 then ~~~a &&& b else 0) |||
    (if tt.getLsbD 2 then a &&& ~~~b else 0) ||| (if tt.getLsbD 3 then a &&& b else 0)

def execVlog (a : VArgs) (s : State) : Host.Outcome State Fault Refusal :=
  slotStep (unitSlot a.u) (.vlog a) a.p
    (fun o =>
      let w := a.fmt.width
      let (x, o) := o.readF w a.a
      let (y, o) := o.readF w a.b
      o.emit a 2 (ttBits (a.imm.extractLsb' 0 4) x y) (lanesOf (o.mask a) w) 0) s

/-- VSH (R267). -/
def shiftElem (kind : Nat) (w x n : Nat) : Nat :=
  match kind with
  | 0 => if n ≥ w then 0 else (x * 2 ^ n) % 2 ^ w
  | 1 => if n ≥ w then 0 else x / 2 ^ n
  | 2 => modW w (if n ≥ w then (if signedOf w x < 0 then -1 else 0) else (signedOf w x).fdiv (2 ^ n))
  | _ => (x * 2 ^ (n % w)) % 2 ^ w + x / 2 ^ (w - n % w)

def execVsh (a : VArgs) (s : State) : Host.Outcome State Fault Refusal :=
  slotStep (unitSlot a.u) (.vsh a) a.p
    (fun o =>
      let w := a.fmt.width
      let (x, o) := o.readF w a.a
      let (y, o) := o.readF w a.b
      o.emitElems a 2 w (lanesOf (o.mask a) w) fun e => (shiftElem a.var.toNat w (elem x w e) (elem y w e % 256), 0)) s

def execVcmp (a : VArgs) (s : State) : Host.Outcome State Fault Refusal :=
  slotStep (unitSlot a.u) (.vcmp a) a.p
    (fun o =>
      let w := a.fmt.width
      let u := a.var.getLsbD 0
      let (x, o) := o.readF w a.a
      let (y, o) := o.readF w a.b
      let c := condOf (a.imm.extractLsb' 0 3).toNat
      o.land 2 (.mreg (fieldM a.d).toNat (laneMask w (lanesOf (o.mask a) w) fun e =>
        condTest c (intOf u w (elem x w e)) (intOf u w (elem y w e)) (elem x w e) (elem y w e)))) s

/-! ### Movement (R269) -/

def execVsel (a : VArgs) (s : State) : Host.Outcome State Fault Refusal :=
  slotStep (unitSlot a.u) (.vsel a) a.p
    (fun o =>
      let w := a.fmt.width
      let (x, o) := o.readF w a.a
      let (y, o) := o.readF w a.b
      let mc := o.regs.mask (a.imm.extractLsb' 0 3)
      o.emitElems a 2 w (lanesOf (o.mask a) w) fun e => (if enabled mc w e then elem x w e else elem y w e, 0)) s

def execVmov (a : VArgs) (s : State) : Host.Outcome State Fault Refusal :=
  slotStep (unitSlot a.u) (.vmov a) a.p
    (fun o =>
      let w := a.fmt.width
      let (x, o) := o.readF w a.a
      o.emit a 2 x (lanesOf (o.mask a) w) 0) s

def execVbcast (a : VArgs) (s : State) : Host.Outcome State Fault Refusal :=
  slotStep (unitSlot a.u) (.vbcast a) a.p
    (fun o =>
      let w := a.fmt.width
      let (x, o) := o.readF w a.a
      let k := (a.imm.extractLsb' 0 9).toNat
      o.emitElems a 2 w (lanesOf (o.mask a) w) fun _ => (elem x w k, 0)) s

def execViota (a : VArgs) (s : State) : Host.Outcome State Fault Refusal :=
  slotStep (unitSlot a.u) (.viota a) a.p
    (fun o =>
      let w := a.fmt.width
      let (x, o) := o.readF w a.a
      o.emitElems a 2 w (lanesOf (o.mask a) w) fun e => ((elem x w e + e) % 2 ^ w, 0)) s

end Sys2Proof.Machine
end

