-- ==== Sys2Proof/Machine/LoadStore.lean ====
section
/-! DEFINITION. Loads and stores (R195-R204). -/

namespace Sys2Proof.Machine

/-- Bytes of the scratchpad as the context reads them: the gated stores of a checked context over the others (R203, R384). -/
def Ctx.sees (c : Ctx) (m : Mem) (a n : Nat) : List Byte :=
  let bs := m.read a n
  match c.chk with
  | none => bs
  | some k =>
    k.gate.foldl (fun bs g =>
      match g with
      | .store b ws =>
        (List.range n).map fun i =>
          let x := ws.getD (a + i - b) (0, false)
          if b ≤ a + i && x.2 then x.1 else bs.getD i 0
      | _ => bs) bs

/-- The bytes of the context's tile from a physical offset upward, as a load issued now reads them (R203). -/
def Op.bytes (o : Op) (a n : Nat) : List Byte := o.c.sees (o.s.tile o.u.t).scratch a n

/-- Commands of the context issued and not yet ended by completion, with their queues; those a checked pair gates stand
last (R384). -/
def Ctx.commands (c : Ctx) : List (Nat × XEntry) :=
  ((List.range 4).flatMap fun q =>
    let x : XQueue := SMap.get {} c.xq q
    ((match x.run with | some r => [r.e] | none => []) ++ x.ents).map fun e => (q, e)) ++
  (match c.chk with
   | none => []
   | some k => k.gate.filterMap fun g => match g with | .xe q e => some (q, e) | _ => none)

/-- The command writes a block that holds some of the `n` bytes from `a` upward. -/
def XEntry.writes (e : XEntry) (a n : Nat) : Bool := e.wr.any fun b => a / 64 ≤ b && b ≤ (a + n - 1) / 64

/-- A load or store that touches a block some command of the context writes records the destination window. A command that the
bundle itself issues opens its window in this cycle too, so the touch is kept for it (R338). -/
def Op.destWindow (o : Op) (a n : Nat) : Op :=
  if o.c.commands.any fun x => x.2.writes a n then o.event dcrDSTW 1
  else { o with u := { o.u with touched := o.u.touched ++ [(o.slot, a, n)] } }

/-- Run `f` on the physical offset, or take the trap of R197 and R196. -/
def Op.access (o : Op) (ea : Int) (size align : Nat) (en : Option (List Bool)) (f : Nat → Op) : Op :=
  match o.checkEa ea size align en with
  | some cause => o.raise cause (ea32 ea)
  | none => f (o.c.phys o.u.sup ea)

def vecOf (bs : List Byte) : Vec := BitVec.ofNat 2048 (ofLe bs)

/-- A load of `size` bytes. -/
def Op.load (o : Op) (a : LsArgs) (size align : Nat) (f : Op → List Byte → Op) : Op :=
  o.access (lsEa o.regs a) size align none fun p => f (o.destWindow p size) (o.bytes p size)

def execLdv (a : LsArgs) (s : State) : Host.Outcome State Fault Refusal :=
  slotStep 4 (.ldv a) a.p
    (fun o => o.load a 256 64 fun o bs =>
      match a.data with
      | .wide view idx =>
        let m := o.regs.mask a.m
        match o.c.wide view idx with
        | some j => (o.land 3 (.reg view.toNat j (vecOf bs) m)).land 3 (.latch 3 (vecOf bs) m)
        | none => o
      | _ => o) s

def execLdvb (a : LsArgs) (s : State) : Host.Outcome State Fault Refusal :=
  slotStep 4 (.ldvb a) a.p
    (fun o => o.load a (a.w.bits / 8) (a.w.bits / 8) fun o bs =>
      match a.data with
      | .wide view idx =>
        match o.c.wide view idx with
        | some j => o.land 3 (.reg view.toNat j (replicate a.w.bits (BitVec.ofNat 64 (ofLe bs))) (o.regs.mask a.m))
        | none => o
      | _ => o) s

def execLds (a : LsArgs) (s : State) : Host.Outcome State Fault Refusal :=
  slotStep 4 (.lds a) a.p
    (fun o => o.load a (a.w.bits / 8) (a.w.bits / 8) fun o bs =>
      match a.data with
      | .sreg sd => o.land 3 (.sreg sd.toNat (extRes a.u a.w.bits (ofLe bs)))
      | _ => o) s

def execLdof (a : LsArgs) (s : State) : Host.Outcome State Fault Refusal :=
  slotStep 4 (.ldof a) a.p
    (fun o => o.load a 256 64 fun o bs =>
      match a.data with
      | .opf e => o.land 3 (.opf e.toNat (vecOf bs) (o.regs.mask a.m))
      | _ => o) s

def execLdq (a : LsArgs) (s : State) : Host.Outcome State Fault Refusal :=
  slotStep 4 (.ldq a) a.p
    (fun o => o.load a 64 64 fun o bs =>
      match a.data with
      | .vq n => o.land 4 (.vq n.toNat (BitVec.ofNat 512 (ofLe bs)))
      | _ => o) s

/-- LDSCL.A (R200). -/
def execLdsclA (a : LsArgs) (s : State) : Host.Outcome State Fault Refusal :=
  slotStep 4 (.ldsclA a) a.p
    (fun o => o.load a 16 16 fun o bs => o.land 3 (.ascale (BitVec.ofNat 128 (ofLe bs)))) s

/-- LDSCL.B (R201): the plane is the fill plane of its issue. -/
def execLdsclB (a : LsArgs) (s : State) : Host.Outcome State Fault Refusal :=
  slotStep 4 (.ldsclB a) a.p
    (fun o => o.load a 256 64 fun o bs =>
      match a.data with
      | .part p => o.land 3 (.bscale o.c.fill p.toNat (vecOf bs))
      | _ => o) s

/-! ### Stores (R202) -/

/-- A store of bytes with their enables. -/
def Op.store (o : Op) (a : LsArgs) (align : Nat) (bs : List (Byte × Bool)) : Op :=
  o.access (lsEa o.regs a) bs.length align (some (bs.map (·.2))) fun p => (o.destWindow p bs.length).land 2 (.store p bs)

def bytesOf (n : Nat) (v : Nat) : List (Byte × Bool) := (leBytes n v).map fun b => (b, true)

def execStv (a : LsArgs) (s : State) : Host.Outcome State Fault Refusal :=
  slotStep 5 (.stv a) a.p
    (fun o =>
      match a.data with
      | .wide view idx =>
        let (x, o) := o.readWide view idx
        o.store a 64 (bytesOf 256 x.toNat)
      | _ => o) s

def execStvm (a : LsArgs) (s : State) : Host.Outcome State Fault Refusal :=
  slotStep 5 (.stvm a) a.p
    (fun o =>
      match a.data with
      | .wide view idx =>
        let (x, o) := o.readWide view idx
        let m := o.regs.mask a.m
        o.store a 64 ((leBytes 256 x.toNat).zip ((List.range 256).map fun i => m.getLsbD (i / 2)))
      | _ => o) s

def execSts (a : LsArgs) (s : State) : Host.Outcome State Fault Refusal :=
  slotStep 5 (.sts a) a.p
    (fun o =>
      match a.data with
      | .sreg sa => o.store a (a.w.bits / 8) (bytesOf (a.w.bits / 8) (o.regs.sreg sa).toNat)
      | _ => o) s

def execStq (a : LsArgs) (s : State) : Host.Outcome State Fault Refusal :=
  slotStep 5 (.stq a) a.p
    (fun o =>
      match a.data with
      | .vq n => o.store a 64 (bytesOf 64 (SMap.get 0 o.regs.vq n.toNat).toNat)
      | _ => o) s

end Sys2Proof.Machine
end

