-- ==== Sys2Proof/Machine/Places.lean ====
section
/-! DEFINITION. Places a command can name, and what happens when bytes land there: the write itself, stale template copies,
source windows, arrival counters and the marks of elastic work (R162, R208, R219-R223, R332-R337, R422). -/

namespace Sys2Proof.Machine

/-! ### Reading and writing places -/

/-- The size of a device memory (R422); host memory has 64-bit addresses. -/
def spaceSize : Space → Nat
  | .hbm => 576 * 2 ^ 30
  | .lpddr => 2 ^ 41
  | .host => 2 ^ 64

def State.mem (s : State) : Space → Mem
  | .hbm => s.hbm
  | .lpddr => s.lpddr
  | .host => s.host

def State.setMem (s : State) (sp : Space) (m : Mem) : State :=
  match sp with
  | .hbm => { s with hbm := m }
  | .lpddr => { s with lpddr := m }
  | .host => { s with host := m }

def peerGet (ps : List ((Nat × Nat) × Mem)) (k : Nat × Nat) : Mem :=
  match ps with
  | [] => []
  | (k', m) :: ps => if k = k' then m else peerGet ps k

def peerPut (ps : List ((Nat × Nat) × Mem)) (k : Nat × Nat) (m : Mem) : List ((Nat × Nat) × Mem) :=
  match ps with
  | [] => [(k, m)]
  | (k', m') :: ps => if k = k' then (k, m) :: ps else (k', m') :: peerPut ps k m

/-- The place `n` bytes further on. -/
def Place.plus (p : Place) (n : Nat) : Place :=
  match p with
  | .scratch t a => .scratch t (a + n)
  | .mem sp a => .mem sp (a + n)
  | .peer po w a => .peer po w (a + n)

def Place.addr : Place → Nat
  | .scratch _ a => a
  | .mem _ a => a
  | .peer _ _ a => a

/-- The start of the 64-byte block that holds a place. -/
def Place.block (p : Place) : Place :=
  match p with
  | .scratch t a => .scratch t (a / 64 * 64)
  | .mem sp a => .mem sp (a / 64 * 64)
  | .peer po w a => .peer po w (a / 64 * 64)

/-- `n` bytes from a place upward. -/
def State.readPlace (s : State) (p : Place) (n : Nat) : List Byte :=
  match p with
  | .scratch t a => (s.tile t).scratch.read a n
  | .mem sp a => (s.mem sp).read a n
  | .peer po w a => (peerGet s.peer (po, w)).read a n

/-- The bytes written over the old ones, where enabled. -/
def overlay (old : List Byte) (bs : List (Byte × Bool)) : List Byte :=
  match old, bs with
  | o :: os, (b, en) :: bs => (if en then b else o) :: overlay os bs
  | os, [] => os
  | [], _ => []

/-- A memory with bytes written from `a` upward, where enabled. -/
def Mem.merge (m : Mem) (a : Nat) (bs : List (Byte × Bool)) : Mem := m.write a (overlay (m.read a bs.length) bs)

def State.writePlace (s : State) (p : Place) (bs : List (Byte × Bool)) : State :=
  match p with
  | .scratch t a =>
    let x := s.tile t
    s.setTile t { x with scratch := x.scratch.merge a bs }
  | .mem sp a => s.setMem sp ((s.mem sp).merge a bs)
  | .peer po w a => { s with peer := peerPut s.peer (po, w) ((peerGet s.peer (po, w)).merge a bs) }

/-- The blocks with uncorrectable errors at a place's home. -/
def State.badBlocks (s : State) : Place → List Nat
  | .scratch t _ => (s.tile t).bad
  | .mem .hbm _ => s.badHbm
  | .mem .lpddr _ => s.badLpddr
  | _ => []

/-- The first bad block among `n` bytes of a place that is read, or written only in part. -/
def State.badIn (s : State) (p : Place) (bs : List (Byte × Bool)) : Option Nat :=
  let a := p.addr
  (s.badBlocks p).find? fun b =>
    64 * b < a + bs.length && a < 64 * b + 64 &&
      !((List.range 64).all fun i => a ≤ 64 * b + i && (bs.getD (64 * b + i - a) (0, false)).2)

/-- The unit that holds a place (R36). -/
def Place.unit : Place → Option Func
  | .scratch t _ => some (.tile t)
  | .mem .hbm a => some (.hbm (a / (36 * 2 ^ 30)))
  | .mem .lpddr a => some (.lpddr (a / (256 * 2 ^ 30)))
  | _ => none

/-- The place of a block of the same memory. -/
def Place.at (p : Place) (a : Nat) : Place :=
  match p with
  | .scratch t _ => .scratch t a
  | .mem sp _ => .mem sp a
  | .peer po w _ => .peer po w a

/-- An access has met an uncorrectable error: the unit is retired (R37). -/
def State.retireAt (s : State) (p : Place) : State :=
  match p.unit with
  | some f => s.retireFunc f
  | none => s

/-- The place of the first bad block that `n` bytes from a place reach. -/
def State.badOver (s : State) (p : Place) (n : Nat) : Option Place :=
  ((s.badBlocks p).find? fun b => 64 * b < p.addr + n && p.addr < 64 * b + 64).map fun b => p.at (64 * b)

/-- An access that may have met an uncorrectable error: then its unit is retired (R37). -/
def State.retireMet (s : State) (bad : Option Place) : State :=
  match bad with
  | some p => s.retireAt p
  | none => s

/-- Blocks written whole take fresh ECC (R348). -/
def State.heal (s : State) (p : Place) (bs : List (Byte × Bool)) : State :=
  let a := p.addr
  let keep (b : Nat) : Bool :=
    !((List.range 64).all fun i => a ≤ 64 * b + i && (bs.getD (64 * b + i - a) (0, false)).2)
  match p with
  | .scratch t _ => let x := s.tile t; s.setTile t { x with bad := x.bad.filter keep }
  | .mem .hbm _ => { s with badHbm := s.badHbm.filter keep }
  | .mem .lpddr _ => { s with badLpddr := s.badLpddr.filter keep }
  | _ => s

/-! ### Queues of a context -/

def Ctx.queue (c : Ctx) (q : Nat) : XQueue := SMap.get {} c.xq q

def Ctx.setQueue (c : Ctx) (q : Nat) (x : XQueue) : Ctx := { c with xq := c.xq.put q x }

/-- Every command of a queue that holds an open source window. -/
def XQueue.open_ (x : XQueue) : List XEntry := (match x.run with | some r => [r.e] | none => []) ++ x.ents

/-- Command number `n` of the context has ended: it is neither held nor started, and no fault of it is still to be delivered or
returned from (R251, R342). -/
def Ctx.endedOrd (c : Ctx) (n : Nat) : Bool :=
  !(c.commands.any fun y => y.2.ord = n) &&
    (List.range 4).all fun q =>
      let x := c.queue q
      x.qs = 0 || x.ecode = cXOVC || x.bad.isNone || x.badOrd ≠ n

/-- The commands that later ones wait for, without those that have ended. -/
def Ctx.pruneFence (c : Ctx) : Ctx := { c with fence := c.fence.filter fun n => !c.endedOrd n }

/-- An engine fault of a queue (R231): recorded when QS is 0, and otherwise lost. -/
def XQueue.fault (x : XQueue) (cause : BitVec 8) (idx : BitVec 16) (d0 d1 : BitVec 32) (ordinal : BitVec 16) : XQueue :=
  if x.qs = 0 then { x with qs := 1, ecode := cause, d0, d1, bad := some (idx, ordinal) } else x

/-- A command of queue `q` ends in an engine fault, or an arrival counter faults it; of a context that has exited, that ends the
launch (R231, R389, R408). -/
def State.engineFault (s : State) (t : Nat) (k : BitVec 2) (q : Nat) (cause : BitVec 8) (idx : BitVec 16) (d0 d1 : BitVec 32)
    (ordinal : BitVec 16) : State :=
  let c := s.ctx t k
  let s := s.setCtx t k (c.setQueue q ((c.queue q).fault cause idx d0 d1 ordinal))
  if c.life = .retiring || c.life = .retired then s.failOf c (cause.setWidth 16) t else s

/-! ### Arrival counters (R219-R223) -/

/-- The counters of a place's controller. -/
def State.arrivals (s : State) : ArrLoc → SMap Arrival
  | .tile t => (s.tile t).arr
  | .hbm n => s.arrHbm.filterMap fun e => if e.1 / 64 = n then some (e.1 % 64, e.2) else none
  | .lpddr => s.arrLpddr

def State.setArrival (s : State) (l : ArrLoc) (i : Nat) (a : Arrival) : State :=
  match l with
  | .tile t => let x := s.tile t; s.setTile t { x with arr := SMap.set {} x.arr i a }
  | .hbm n => { s with arrHbm := SMap.set {} s.arrHbm (64 * n + i) a }
  | .lpddr => { s with arrLpddr := SMap.set {} s.arrLpddr i a }

def State.arrival (s : State) (l : ArrLoc) (i : Nat) : Arrival := SMap.get {} (s.arrivals l) i

/-- The controller that counts at a place. -/
def Place.counters : Place → Option ArrLoc
  | .scratch t _ => some (.tile t)
  | .mem .hbm a => some (.hbm (a / (36 * 2 ^ 30)))
  | .mem .lpddr _ => some .lpddr
  | _ => none

/-- A counter's location as QDET.D1 reports it (R219). -/
def arrWord (l : ArrLoc) (i : Nat) : BitVec 32 :=
  match l with
  | .tile t => BitVec.ofNat 32 ((t % 64) * 2 ^ 24 + (t / 64) * 2 ^ 19 + i)
  | .hbm n => BitVec.ofNat 32 (2 ^ 30 + n * 2 ^ 14 + i)
  | .lpddr => BitVec.ofNat 32 (2 ^ 31 + i)

/-- The arming context, while it is resident: a restore may have moved it (R222). -/
def State.armer (s : State) (a : Arrival) : Option (Nat × BitVec 2) := s.contextAt a.own a.arm.fx a.arm.fy

/-- A faulted counter: the over-count entry and the engine fault XOVC (R222). -/
def State.overCount (s : State) (l : ArrLoc) (i : Nat) (a : Arrival) : State :=
  match s.armer a with
  | none => s
  | some (t, k) =>
    (s.updCtx t k fun c =>
      let x := c.queue a.arm.q
      (c.setQueue a.arm.q { x with badCtrs := if x.qs = 0 then [] else x.badCtrs }).event s.now dcrAOVC a.armOff 6 1).engineFault
        t k a.arm.q cXOVC a.arm.idx 0 (arrWord l i) 0

/-- One beat counted by one counter: the bytes of it that lie in the span. -/
def State.countOne (s : State) (l : ArrLoc) (by_ : Option LId) (addr : Nat) (bs : List (Byte × Bool)) (i : Nat) : State :=
  let a := s.arrival l i
  let hits := (List.range bs.length).filter fun j =>
    (bs.getD j (0, false)).2 && a.base ≤ addr + j && addr + j < a.base + a.len
  if hits.isEmpty || !(a.st = 1 || a.st = 2) then s
  else
    let n := a.count + hits.length
    let blocks := (hits.map fun j => (addr + j) / 64).eraseDups
    let watch : Bool := (match l with | .tile _ => true | _ => false) && a.len ≤ 0x40000
    let again := watch && blocks.any fun b => a.beats.contains b
    let a' := { a with
      count := n
      beats := if watch then a.beats ++ blocks.filter (fun b => !a.beats.contains b) else a.beats
      alien := a.alien || by_ ≠ some a.own
      due := n = a.total && a.count < a.total
      st := if n > a.total then 3 else a.st }
    let s := s.setArrival l i a'
    let s := if again then
        (match s.armer a with
         | some (t, k) => s.updCtx t k fun c => c.event s.now dcrAUNO a.armOff 6 1
         | none => s)
      else s
    if n > a.total then s.overCount l i a else s

/-- The beats of a landing: its bytes by block of 64, with their addresses. -/
def beatsOf (addr : Nat) (bs : List (Byte × Bool)) : List (Nat × List (Byte × Bool)) :=
  (List.range ((addr + bs.length + 63) / 64 - addr / 64)).map fun i =>
    let lo := max addr (64 * (addr / 64 + i))
    (lo, (bs.drop (lo - addr)).take (64 * (addr / 64 + i + 1) - lo))

/-- Every counter of the place's controller sees the landing, beat by beat (R221-R223). -/
def State.count (s : State) (by_ : Option LId) (p : Place) (bs : List (Byte × Bool)) : State :=
  match p.counters with
  | none => s
  | some l => (beatsOf p.addr bs).foldl (fun s b => (s.arrivals l).foldl (fun s e => s.countOne l by_ b.1 b.2 e.1) s) s

/-! ### A landing -/

/-- The blocks of a landing that hold an enabled byte. -/
def touched (a : Nat) (bs : List (Byte × Bool)) : List Nat :=
  (((List.range bs.length).filter fun j => (bs.getD j (0, false)).2).map fun j => (a + j) / 64).eraseDups

/-- Template copies of the records written become stale (R208). A copy's index is its physical offset over 128. -/
def Ctx.stale (c : Ctx) (blocks : List Nat) : Ctx :=
  { c with tcache := c.tcache.map fun x => if blocks.any (fun b => b / 2 = x.idx) then { x with stale := true } else x }

/-- A command of the queue ends: its windows hold the present cycle still (R337). -/
def XQueue.close (x : XQueue) (now : Nat) (e : XEntry) : XQueue :=
  { x with closed := (now, (if x.closed.1 = now then x.closed.2 else []) ++ [e]) }

/-- The commands of a queue whose windows are open in a cycle. -/
def XQueue.windows (x : XQueue) (now : Nat) : List XEntry := x.open_ ++ (if x.closed.1 = now then x.closed.2 else [])

/-- The source-window entries of a context: one for each of its commands that reads a block written (R337). -/
def Ctx.sourceWindow (c : Ctx) (now : Nat) (blocks : List Nat) : Ctx :=
  (List.range 4).foldl (fun c q =>
    ((c.queue q).windows now).foldl (fun c e =>
      if e.rd.any (fun b => blocks.contains b) then c.event now dcrSRCW e.off 6 1 else c) c) c

/-- The timed launch of a tile. -/
def Tile.timed (x : Tile) : Option LId :=
  match allK.find? fun k => (x.get k).timed && (x.get k).life ≠ .free with
  | some k => (x.get k).launch
  | none => none

/-- Mark the 8-byte words of a landing as changed by elastic work, or by the timed launch itself (R162). -/
def Tile.markWords (x : Tile) (by_ : Option LId) (a n : Nat) : Tile :=
  match x.timed with
  | none => x
  | some id =>
    let ws := (List.range ((a + n - 1) / 8 - a / 8 + 1)).map fun i => a / 8 + i
    let rest := x.eword.filter fun w => !ws.contains w
    { x with eword := if by_ = some id then rest else rest ++ ws }

/-- The window words stand in the scratchpad: a write to one moves the context's window (R195). -/
def Tile.windows (x : Tile) (a n : Nat) : Tile :=
  if a + n ≤ 0x2C0000 || 0x2C0040 ≤ a then x
  else allK.foldl (fun x k =>
    let p := 0x2C0000 + 16 * k.toNat
    x.set k { x.get k with wbase := x.scratch.nat p 8, foot := x.scratch.nat (p + 8) 8 }) x

/-- What a write to a scratchpad does beside the bytes. -/
def Tile.afterWrite (x : Tile) (now : Nat) (by_ : Option LId) (a : Nat) (bs : List (Byte × Bool)) : Tile :=
  let blocks := touched a bs
  let x := (x.markWords by_ a bs.length).windows a bs.length
  allK.foldl (fun x k =>
    if (x.get k).life = .free then x else x.set k (((x.get k).stale blocks).sourceWindow now blocks)) x

/-- Bytes become visible at their home (R332, R333). `by_` is the launch that writes, none for the host and other packages. -/
def State.landData (s : State) (by_ : Option LId) (p : Place) (bs : List (Byte × Bool)) : State :=
  if bs.all (fun b => !b.2) then s
  else
    let s := match p with
      | .scratch t a =>
        let x := s.tile t
        let old := (x.scratch.read a bs.length).zip (List.range bs.length)
        s.setTile t { x with undo := x.undo ++ old.map fun (y : Byte × Nat) => (s.now, a + y.2, y.1) }
      | _ => s
    let s := (s.writePlace p bs).heal p bs
    match p with
    | .scratch t a => s.setTile t ((s.tile t).afterWrite s.now by_ a bs)
    | _ => s

/-- A landing: the bytes become visible and the arrival counters see them. -/
def State.landBytes (s : State) (by_ : Option LId) (p : Place) (bs : List (Byte × Bool)) : State :=
  if bs.all (fun b => !b.2) then s else (s.landData by_ p bs).count by_ p bs

/-- A store has written these bytes in the present cycle: a beat of the same cycle does not replace them (R203). -/
def State.markFresh (s : State) (t a : Nat) (bs : List (Byte × Bool)) : State :=
  let x := s.tile t
  s.setTile t { x with fresh := x.fresh ++ (List.range bs.length).filterMap fun i =>
    if (bs.getD i (0, false)).2 then some (a + i) else none }

/-- The bytes of a beat that no store of the cycle has written. -/
def State.unstored (s : State) (p : Place) (bs : List (Byte × Bool)) : List (Byte × Bool) :=
  match p with
  | .scratch t a =>
    let fresh := (s.tile t).fresh
    if fresh.isEmpty then bs else (bs.zip (List.range bs.length)).map fun b => (b.1.1, b.1.2 && !fresh.contains (a + b.2))
  | _ => bs

/-- A landing of the transfer engine: a byte that a store of the cycle has written keeps the store's value, and the arrival counters
see the whole beat (R203, R221). -/
def State.landBeatAt (s : State) (by_ : Option LId) (p : Place) (bs : List (Byte × Bool)) : State :=
  if bs.all (fun b => !b.2) then s else (s.landData by_ p (s.unstored p bs)).count by_ p bs

def allOn (bs : List Byte) : List (Byte × Bool) := bs.map fun b => (b, true)

/-! ### Counters of a context (R350) -/

/-- Mark whether elastic work has changed a counter (R162). -/
def Tile.markCounter (x : Tile) (by_ : Option LId) (phys : Nat) : Tile :=
  match x.timed with
  | none => x
  | some id =>
    let rest := x.ecnt.filter fun n => n ≠ phys
    { x with ecnt := if by_ = some id then rest else rest ++ [phys] }

/-- Add to a physical counter. -/
def Tile.addCounter (x : Tile) (by_ : Option LId) (phys : Nat) (v : Word) : Tile :=
  { x with
    cnt := SMap.set 0 x.cnt phys (SMap.get 0 x.cnt phys + v)
    added := SMap.set 0 x.added phys (SMap.get 0 x.added phys + v) }.markCounter by_ phys

/-- A SYSW of a counter lands: the written value plus every addition of the cycle, those that came before it included (R189). -/
def Tile.setCounter (x : Tile) (by_ : Option LId) (phys : Nat) (v : Word) : Tile :=
  { x with cnt := SMap.set 0 x.cnt phys (v + SMap.get 0 x.added phys) }.markCounter by_ phys

end Sys2Proof.Machine
end

