-- ==== Sys2Proof/Machine/Template.lean ====
section
/-! DEFINITION. Templates: their fields, the walk they describe, the sides they name, and the checks made on them (R209-R217,
R220, R230, R238-R250, R256, R342). -/

namespace Sys2Proof.Machine

/-- `n` bytes of a record, little-endian. -/
def recNat (r : BitVec 1024) (off n : Nat) : Nat := (r.extractLsb' (8 * off) (8 * n)).toNat

def recByte (r : BitVec 1024) (off : Nat) : BitVec 8 := r.extractLsb' (8 * off) 8

/-- Rights of Table 6.5. -/
def rRD : BitVec 8 := 1
def rWR : BitVec 8 := 2
def rAT : BitVec 8 := 4
def rQA : BitVec 8 := 8
def rSG : BitVec 8 := 16

/-! ### Errors, in the order of R205 -/

/-- What a check of a template finds. -/
inductive XErr where
  | xtpl
  | rgn (h : Nat)
  | bnd
  deriving DecidableEq, Repr

def firstErr : List (Option XErr) → Option XErr
  | [] => none
  | some e :: _ => some e
  | none :: es => firstErr es

def errIf (b : Bool) (e : XErr) : Option XErr := if b then some e else none

/-! ### Regions (R117) -/

/-- The legal limit of region offsets (R209). -/
def Region.limit (r : Region) : Nat := r.rowb.toNat * r.nrow.toNat

/-- The slab offset of a region offset. -/
def Region.slab (r : Region) (off : Nat) : Nat := off / r.rowb.toNat * r.stride.toNat + off % r.rowb.toNat

/-- The span of a record. -/
def Region.span (r : Region) : Nat := (r.nrow.toNat - 1) * r.stride.toNat + r.rowb.toNat

/-- The address of a slab offset in extents of 2 MiB frames. -/
def extAddr : List (Nat × Nat) → Nat → Option Nat
  | [], _ => none
  | (f, n) :: es, a => if a < n * 2 ^ 21 then some (f * 2 ^ 21 + a) else extAddr es (a - n * 2 ^ 21)

/-- The memory of a memory-class record. -/
def Region.space (r : Region) : Option Space :=
  match r.cls.toNat with
  | 1 => some .hbm
  | 2 => some .lpddr
  | 3 => some .host
  | 6 => some (if r.qloc then .lpddr else .hbm)
  | _ => none

/-- The place of a region offset. -/
def Region.place (r : Region) (off : Nat) : Option Place :=
  match r.space with
  | some sp => (extAddr r.ext (r.slab off)).map (.mem sp)
  | none =>
    match r.cls.toNat with
    | 4 => some (.scratch r.tile (r.off + r.slab off))
    | 7 => some (.peer r.port r.window (r.off + r.slab off))
    | _ => none

/-! ### Sides (R209) -/

inductive Side where
  | win
  | fifo (f : FS)
  | rgn (h : Nat) (r : Region)
  deriving DecidableEq, Repr

/-- What a check or a start sees: the tile, the context, and the records by number. -/
structure XView where
  t : Nat
  k : BitVec 2
  c : Ctx
  dyn : SMap Region
  deriving DecidableEq, Repr

/-- The record of a handle: locked below 48, and from the given table above (R255). -/
def XView.region (v : XView) (h : Nat) : Region := if h < 48 then SMap.get {} v.c.locked h else SMap.get {} v.dyn h

/-- The side a handle byte names. -/
def XView.side (v : XView) (h : BitVec 8) : Side :=
  if h.getLsbD 7 then .win else .rgn (h.toNat % 64) (v.region (h.toNat % 64))

/-- A handle byte in the layout of FARH is well formed: bit 6 clear, and no handle with L. -/
def handleOk (h : BitVec 8) : Bool := !h.getLsbD 6 && (!h.getLsbD 7 || h.toNat % 64 == 0)

def XView.limit (v : XView) : Side → Nat
  | .win => v.c.room
  | .fifo _ => 0
  | .rgn _ r => r.limit

/-- The place of an offset of a side. -/
def XView.place (v : XView) (d : Side) (off : Nat) : Option Place :=
  match d with
  | .win => some (.scratch v.t (v.c.wbase + off))
  | .fifo _ => none
  | .rgn _ r => r.place off

/-- Step 4 of R205: the handle is valid and of a class accepted. -/
def classErr (d : Side) (classes : List Nat) : Option XErr :=
  match d with
  | .rgn h r => errIf (!r.valid || !classes.contains r.cls.toNat) (.rgn h)
  | _ => none

/-- Step 5: the rights are present. -/
def rightErr (d : Side) (need : BitVec 8) : Option XErr :=
  match d with
  | .rgn h r => errIf (r.rights &&& need != need) (.rgn h)
  | _ => none

/-- Classes that may be read, and written (R215). -/
def readClasses : List Nat := [1, 2, 3, 7]
def writeClasses : List Nat := [1, 2, 3, 4, 7]

/-! ### Completion actions (R217) -/

/-- CACT, CCTR, CHDL, CVAL and CWOFF. -/
structure ActF where
  cact : Nat := 0
  cctr : Nat := 0
  chdl : BitVec 8 := 0
  cval : Nat := 0
  cwoff : Nat := 0
  bad : Bool := false
  deriving DecidableEq, Repr

/-- The action fields of a record, CVAL and CWOFF at the offsets given. -/
def actOf (r : BitVec 1024) (ov ow : Nat) : ActF :=
  let a := recByte r 4
  let b := recByte r 5
  { cact := a.toNat % 4, cctr := b.toNat % 64, chdl := recByte r 6, cval := recNat r ov 8, cwoff := recNat r ow 8
    bad := a.toNat ≥ 4 || b.toNat ≥ 64 || (recByte r 6).getLsbD 6 || recByte r 7 ≠ 0 }

/-- XTPL of the action fields (R211, R217). -/
def ActF.formErr (a : ActF) (c : Ctx) : Option XErr :=
  errIf (a.bad || a.cact == 3 || (a.cact == 2 && a.cwoff % 8 != 0) ||
    (a.cact == 1 && a.chdl.getLsbD 7 && a.cctr ≥ c.counters)) .xtpl

def ActF.classErr (v : XView) (a : ActF) : Option XErr :=
  match a.cact with
  | 1 => Machine.classErr (v.side a.chdl) [5]
  | 2 => Machine.classErr (v.side a.chdl) writeClasses
  | _ => none

def ActF.rightErr (v : XView) (a : ActF) : Option XErr :=
  match a.cact with
  | 1 => Machine.rightErr (v.side a.chdl) rSG
  | 2 => Machine.rightErr (v.side a.chdl) (rWR ||| rSG)
  | _ => none

def ActF.boundErr (v : XView) (a : ActF) : Option XErr :=
  errIf (a.cact == 2 && a.cwoff + 8 > v.limit (v.side a.chdl)) .bnd

/-! ### Tensor templates (R210-R213) -/

structure Dim where
  shape : Nat
  orig : Int
  ext : Nat
  str : Nat
  deriving DecidableEq, Repr

structure Tensor where
  farh : BitVec 8
  nearh : BitVec 8
  ndim : Nat
  esz : Nat
  dir : Bool
  padm : Bool
  act : ActF
  perm : List Nat
  padv : Nat
  noff : Nat
  foff : Nat
  xoff : Nat
  dims : List Dim
  bad : Bool
  deriving DecidableEq, Repr

/-- Records a template of this NDIM takes (R210). -/
def recsFor (ndim : Nat) : Nat := if 5 ≤ ndim ∧ ndim ≤ 12 then 2 else if 13 ≤ ndim ∧ ndim ≤ 16 then 3 else 1

/-- The 128 bits of dimension entry `d`. -/
def dimRaw (recs : List (BitVec 1024)) (d : Nat) : BitVec 128 :=
  if d < 4 then (recs.getD 0 0).extractLsb' (512 + 128 * d) 128
  else if d < 12 then (recs.getD 1 0).extractLsb' (128 * (d - 4)) 128
  else (recs.getD 2 0).extractLsb' (128 * (d - 12)) 128

def dimOf (x : BitVec 128) : Dim :=
  { shape := (x.extractLsb' 0 32).toNat, orig := (x.extractLsb' 32 32).toInt, ext := (x.extractLsb' 64 32).toNat,
    str := (x.extractLsb' 96 32).toNat }

/-- The tensor template of captured records; override `d` replaces ORIG of dimension `d` when `en` has it (R212). -/
def tensorOf (recs : List (BitVec 1024)) (vals : List Word) (en : BitVec 4) : Tensor :=
  let r := recs.getD 0 0
  let ndim := recNat r 2 1
  let f := recByte r 3
  let perm := (List.range 16).map fun p => recNat r 8 8 / 16 ^ p % 16
  let dims := (List.range (min ndim 16)).map fun d =>
    let x := dimOf (dimRaw recs d)
    if d < 4 && en.getLsbD d then { x with orig := ((vals.getD d 0).setWidth 32).toInt } else x
  let used := if ndim ≤ 4 then 4 else if ndim ≤ 12 then 12 else 16
  { farh := recByte r 0, nearh := recByte r 1, ndim, esz := f.toNat % 8, dir := f.getLsbD 3, padm := f.getLsbD 4
    act := actOf r 0x18 0x20, perm, padv := recNat r 0x10 8, noff := recNat r 0x28 8, foff := recNat r 0x30 8
    xoff := recNat r 0x38 8, dims
    bad := f.toNat ≥ 32 || !handleOk (recByte r 0) || !handleOk (recByte r 1) ||
      (List.range used).any (fun d => decide (ndim ≤ d) && dimRaw recs d != 0) ||
      (ndim ≥ 13 && recNat (recs.getD 2 0) 64 64 != 0) }

/-- Element size in bytes. -/
def Tensor.es (t : Tensor) : Nat := 2 ^ t.esz

/-- Π EXT. -/
def Tensor.count (t : Tensor) : Nat := t.dims.foldl (fun n d => n * d.ext) 1

/-- B of R212. -/
def Tensor.bytes (t : Tensor) : Nat := t.es * t.count

/-- R211. -/
def Tensor.formErr (t : Tensor) (c : Ctx) : Option XErr :=
  let ps := t.perm.take t.ndim
  firstErr [
    errIf (t.bad || t.ndim == 0 || t.ndim > 16 || !((List.range t.ndim).all fun d => ps.contains d) ||
      (t.perm.drop t.ndim).any (· != 0) ||
      t.dims.any (fun d => d.shape == 0 || d.shape ≥ 2 ^ 31 || d.ext == 0 || d.ext ≥ 2 ^ 31) ||
      (t.esz < 3 && t.padv ≥ 2 ^ (8 * t.es))) .xtpl,
    t.act.formErr c]

/-- The lowest and highest in-range coordinate of a dimension; `all` gives it its whole shape. -/
def Dim.clip (d : Dim) (all : Bool) : Option (Nat × Nat) :=
  if all then some (0, d.shape - 1)
  else
    let lo := max d.orig 0
    let hi := min (d.orig + d.ext - 1) (d.shape - 1)
    if lo ≤ hi then some (lo.toNat, hi.toNat) else none

/-- The corners of the clipped box (R213); `list` leaves dimension 1 to its whole shape. -/
def Tensor.box (t : Tensor) (list : Bool) : Option (Nat × Nat) :=
  ((List.range t.dims.length).zip t.dims).foldl (fun acc (i, d) =>
    match acc, d.clip (list && i == 1) with
    | some (lo, hi), some (a, b) => some (lo + a * d.str, hi + b * d.str)
    | _, _ => none) (some (t.foff, t.foff))

/-- Checks 1 to 4 of R213; `list` for XGATH and XSCAT, `near` the near side's limit and bytes where it is checked. -/
def Tensor.boundErr (t : Tensor) (list : Bool) (farLimit : Nat) (near : Option (Nat × Nat)) : Option XErr :=
  let ds := ((List.range t.dims.length).zip t.dims).filter fun x => !(list && x.1 == 1)
  firstErr [
    errIf (ds.any fun x => x.2.orig + x.2.ext - 1 > 2 ^ 31 - 1) .bnd,
    errIf ((!t.padm || t.dir) && ds.any fun x => x.2.orig < 0 || x.2.orig + x.2.ext > x.2.shape) .bnd,
    (match t.box list with
     | some (_, hi) => errIf (hi + t.es > farLimit) .bnd
     | none => none),
    (match near with
     | some (limit, n) => errIf (t.noff + n > limit) .bnd
     | none => none)]

/-- One element of a walk. -/
structure El where
  n : Nat
  inb : Bool
  foff : Nat
  c0 : BitVec 32
  c1 : BitVec 32
  /-- the coordinate of dimension 1 -/
  x1 : Int
  deriving DecidableEq, Repr

/-- The index vector of element `n`: pairs of dimension and index, position 0 fastest (R212). -/
def digits (t : Tensor) : List Nat → Nat → List (Nat × Nat)
  | [], _ => []
  | d :: ps, n =>
    let e := (t.dims.getD d ⟨1, 0, 1, 0⟩).ext
    (d, n % e) :: digits t ps (n / e)

/-- Element `n` of walk(T); `list` gives the coordinate of dimension 1 for an index (R214). -/
def Tensor.el (t : Tensor) (list : Option (Nat → Int)) (n : Nat) : El :=
  let ix := digits t (t.perm.take t.ndim) n
  let coord (d : Nat) : Int :=
    let i := SMap.get 0 ix d
    match list with
    | some f => if d = 1 then f i else (t.dims.getD d ⟨1, 0, 1, 0⟩).orig + i
    | none => (t.dims.getD d ⟨1, 0, 1, 0⟩).orig + i
  let ds := (List.range t.dims.length).zip t.dims
  { n
    inb := ds.all fun x => 0 ≤ coord x.1 && coord x.1 < x.2.shape
    foff := (ds.foldl (fun (a : Int) x => a + coord x.1 * x.2.str) t.foff).toNat
    c0 := BitVec.ofInt 32 (coord 0)
    c1 := if t.ndim = 1 then 0 else BitVec.ofInt 32 (coord 1)
    x1 := coord 1 }

def Tensor.els (t : Tensor) (list : Option (Nat → Int)) : List El := (List.range t.count).map (t.el list)

/-! ### The other templates -/

/-- Table 11.8. -/
structure Csr where
  rph : BitVec 8
  cih : BitVec 8
  vlh : BitVec 8
  esz : Nat
  act : ActF
  row0 : Int
  nrows : Nat
  rpoff : Nat
  cioff : Nat
  vloff : Nat
  bci : Nat
  bvl : Nat
  bcnt : Nat
  cap : Nat
  bad : Bool
  deriving DecidableEq, Repr

def csrOf (recs : List (BitVec 1024)) (vals : List Word) (en : BitVec 4) : Csr :=
  let r := recs.getD 0 0
  { rph := recByte r 0, cih := recByte r 1, vlh := recByte r 2, esz := recNat r 3 1 % 8, act := actOf r 0x10 0x18
    row0 := if en.getLsbD 0 then ((vals.getD 0 0).setWidth 32).toInt else (BitVec.ofNat 32 (recNat r 8 4)).toInt
    nrows := if en.getLsbD 1 then ((vals.getD 1 0).setWidth 32).toNat else recNat r 12 4
    rpoff := recNat r 0x20 8, cioff := recNat r 0x28 8, vloff := recNat r 0x30 8
    bci := recNat r 0x38 8, bvl := recNat r 0x40 8, bcnt := recNat r 0x48 8, cap := recNat r 0x50 4
    bad := recNat r 3 1 ≥ 8 || recNat r 0x54 44 ≠ 0 || !handleOk (recByte r 0) || !handleOk (recByte r 1) ||
      !handleOk (recByte r 2) }

/-- Table 12.3, with its 64-bit overrides. -/
structure Atom where
  tgth : BitVec 8
  act : ActF
  toff : Nat
  opa : Word
  opb : Word
  roff : Nat
  bad : Bool
  deriving DecidableEq, Repr

def atomOf (recs : List (BitVec 1024)) (vals : List Word) (en : BitVec 4) : Atom :=
  let r := recs.getD 0 0
  let ov (d off : Nat) : Nat := if en.getLsbD d then (vals.getD d 0).toNat else recNat r off 8
  { tgth := recByte r 0, act := actOf r 0x28 0x30, toff := ov 0 0x08, opa := BitVec.ofNat 64 (ov 1 0x10)
    opb := BitVec.ofNat 64 (ov 2 0x18), roff := ov 3 0x20
    bad := recNat r 1 3 ≠ 0 || recNat r 0x38 72 ≠ 0 || !handleOk (recByte r 0) }

/-- Table 12.5, with its 64-bit override. -/
structure Install where
  dnum : Nat
  pnum : Nat
  rights : BitVec 8
  rowb : BitVec 32
  nrow : BitVec 32
  stride : BitVec 32
  off : Nat
  bad : Bool
  deriving DecidableEq, Repr

def installOf (recs : List (BitVec 1024)) (vals : List Word) (en : BitVec 4) : Install :=
  let r := recs.getD 0 0
  { dnum := recNat r 0 1, pnum := recNat r 1 1, rights := recByte r 2, rowb := BitVec.ofNat 32 (recNat r 4 4)
    nrow := BitVec.ofNat 32 (recNat r 8 4), stride := BitVec.ofNat 32 (recNat r 12 4)
    off := if en.getLsbD 0 then (vals.getD 0 0).toNat else recNat r 16 8
    bad := recNat r 3 1 ≠ 0 || recNat r 0x18 104 ≠ 0 || (recByte r 2).toNat ≥ 32 }

/-- Table 11.6. -/
structure Arm where
  rgnh : BitVec 8
  idx : Nat
  nrel : Nat
  side : Bool
  slot : BitVec 8
  spoff : Nat
  splen : Nat
  total : Nat
  /-- release entries: handle, counter, amount -/
  rel : List (BitVec 8 × Nat × Nat)
  bad : Bool
  deriving DecidableEq, Repr

def armOf (recs : List (BitVec 1024)) : Arm :=
  let r := recs.getD 0 0
  let nrel := recNat r 2 1
  { rgnh := recByte r 0, idx := recNat r 1 1, nrel, side := (recByte r 3).getLsbD 0, slot := recByte r 4
    spoff := recNat r 8 8, splen := recNat r 16 8, total := recNat r 24 8
    rel := (List.range (min nrel 8)).map fun n =>
      (recByte r (0x47 + 8 * n), recNat r (0x46 + 8 * n) 1, recNat r (0x40 + 8 * n) 6)
    bad := (recByte r 3).toNat ≥ 2 || (recNat r 3 1 % 2 == 0 && recByte r 4 ≠ 0) || recNat r 5 3 ≠ 0 ||
      recNat r 0x20 32 ≠ 0 || nrel > 8 || !handleOk (recByte r 0) ||
      ((List.range 8).any fun n => decide (nrel ≤ n) && recNat r (0x40 + 8 * n) 8 != 0) }

/-! ### The record an XREC installs (R256) -/

/-- The extents of a parent from byte `off` onward. -/
def extDrop : List (Nat × Nat) → Nat → List (Nat × Nat)
  | [], _ => []
  | (f, n) :: es, k => if k = 0 then (f, n) :: es else if k < n then (f + k, n - k) :: es else extDrop es (k - n)

/-- The first `k` frames of extents. -/
def extTake : List (Nat × Nat) → Nat → List (Nat × Nat)
  | [], _ => []
  | (f, n) :: es, k => if k = 0 then [] else if n ≤ k then (f, n) :: extTake es (k - n) else [(f, k)]

def extFrames (es : List (Nat × Nat)) : Nat := (es.map (·.2)).sum

def Install.region (x : Install) (p : Region) : Region :=
  let r : Region := { cls := p.cls, rights := x.rights, valid := true, locked := false, dyn := true, qloc := p.qloc,
                      rowb := x.rowb, nrow := x.nrow, stride := x.stride }
  { r with ext := extTake (extDrop p.ext (x.off / 2 ^ 21)) ((r.span + 2 ^ 21 - 1) / 2 ^ 21) }

/-- The table after an XREC. -/
def installIn (locked tab : SMap Region) (inv : Bool) (x : Install) : SMap Region :=
  if inv then tab.erase x.dnum else SMap.set {} tab x.dnum (x.region (SMap.get {} locked x.pnum))

/-! ### Checks of one operation (R205 steps 3 to 6) -/

/-- The near side of a tensor operation. -/
def XView.near (v : XView) (i : Instr) (t : Tensor) : Side :=
  match i with
  | .xfill o => .fifo (FS.ofBit (o.cmd.getLsbD 0))
  | .xdec o => if o.cmd.getLsbD 1 then .fifo (FS.ofBit (o.cmd.getLsbD 0)) else v.side t.nearh
  | _ => v.side t.nearh

/-- The element width in bits of the near side of XQADD and XQRD (R245). -/
def nearBits (o : XeArgs) (raw : Bool) : Nat := if raw then 512 else o.fmt.width

/-- Checks common to tensor moves: form, own requirements, classes, rights and bounds. -/
def XView.tensorErr (v : XView) (i : Instr) (t : Tensor) (form : Bool) (farR farW : List Nat) (list : Bool)
    (nearLen : Option Nat) : Option XErr :=
  let far := v.side t.farh
  let near := v.near i t
  let quire := farR == [6]
  firstErr [
    t.formErr v.c, errIf (!form) .xtpl,
    classErr far (if t.dir then farW else farR),
    (if nearLen.isSome || !quire then classErr near (if t.dir then readClasses else writeClasses) else none),
    t.act.classErr v,
    rightErr far (if quire then rQA else if t.dir then rWR else rRD),
    (if nearLen.isSome || !quire then rightErr near (if t.dir then rRD else rWR) else none),
    t.act.rightErr v,
    t.boundErr list (v.limit far) (nearLen.map fun n => (v.limit near, n)),
    errIf (list && t.xoff + 4 * (t.dims.getD 1 ⟨1, 0, 1, 0⟩).ext > v.c.room) .bnd,
    t.act.boundErr v]

/-- R245's requirements on the far side of a quire command. -/
def quireForm (t : Tensor) : Bool :=
  !t.farh.getLsbD 7 && t.esz == 7 && t.foff % 128 == 0 && t.dims.all fun d => d.str % 128 == 0

/-- The operation accepts a quire-class far side: FARH must name one, or the template is malformed. -/
def XView.quireFar (v : XView) (t : Tensor) : Bool :=
  match v.side t.farh with
  | .rgn _ r => !r.valid || r.cls == 6
  | _ => false

/-- R220's span: in one extent, or in the window, and at one controller. -/
def XView.spanOk (v : XView) (d : Side) (off len : Nat) : Bool :=
  off + len ≤ v.limit d &&
    match v.place d off, v.place d (off + len - 1) with
    | some p, some q =>
      q == p.plus (len - 1) && p.counters == q.counters &&
        (match d with
         | .rgn _ r => r.space.isNone || (r.nrow.toNat ≤ 1 || r.stride == r.rowb || off / r.rowb.toNat == (off + len - 1) / r.rowb.toNat) &&
             (extTake (extDrop r.ext 0) ((r.slab off) / 2 ^ 21 + 1)).length ==
               (extTake (extDrop r.ext 0) ((r.slab (off + len - 1)) / 2 ^ 21 + 1)).length
         | _ => true)
    | _, _ => false

/-- XARM's checks (R220). -/
def XView.armErr (v : XView) (a : Arm) : Option XErr :=
  let d := v.side a.rgnh
  let tile : Bool := match d with
    | .win => true
    | .rgn _ r => r.cls == 4
    | _ => false
  firstErr ([
    errIf (a.bad || a.idx > (if tile then 15 else 63) || a.splen == 0 || a.splen > 2 ^ 48 || a.total == 0 ||
      a.total > 2 ^ 48 || a.rel.any (fun e => e.1.getLsbD 6 || e.2.1 > 63 || (e.1.getLsbD 7 && e.2.1 ≥ v.c.counters))) .xtpl,
    classErr d [1, 2, 4, 6]] ++
    a.rel.map (fun e => classErr (v.side e.1) [5]) ++
    [rightErr d rWR] ++
    a.rel.map (fun e => rightErr (v.side e.1) rSG) ++
    [errIf (!v.spanOk d a.spoff a.splen) .bnd])

/-- XREC's checks (R256). -/
def XView.installErr (v : XView) (inv : Bool) (x : Install) : Option XErr :=
  let p := SMap.get {} v.c.locked x.pnum
  let r := x.region p
  if inv then errIf (x.dnum < 48 || x.dnum > 63 || x.bad || x.pnum ≠ 0 || x.rights ≠ 0 || x.rowb ≠ 0 || x.nrow ≠ 0 || x.stride ≠ 0 ||
    x.off ≠ 0) .xtpl
  else
    firstErr [
      errIf (x.dnum < 48 || x.dnum > 63 || x.bad) .xtpl,
      errIf (x.pnum ≥ 48 || !p.locked || !([1, 2, 3, 6].contains p.cls.toNat) || x.rights &&& ~~~p.rights ≠ 0) (.rgn (x.pnum % 64)),
      errIf (x.off % 2 ^ 21 ≠ 0 || x.rowb == 0 || x.nrow == 0 || (x.nrow.toNat > 1 && x.stride.toNat < x.rowb.toNat) ||
        r.span > 2 ^ 36 || (p.cls == 6 && (x.rowb.toNat % 128 ≠ 0 || x.stride.toNat % 128 ≠ 0)) ||
        x.off + r.span > extFrames p.ext * 2 ^ 21) .bnd]

/-- The checks of a queued operation on its captured records and registers. -/
def XView.check (v : XView) (i : Instr) (e : XEntry) : Option XErr :=
  match i with
  | .xcopy o =>
    let t := tensorOf e.recs e.vals o.en
    v.tensorErr i t (t.xoff == 0) readClasses writeClasses false (some t.bytes)
  | .xfill o =>
    let t := tensorOf e.recs e.vals o.en
    v.tensorErr i t (t.xoff == 0 && !t.dir && t.nearh == 0 && t.noff == 0 && t.bytes % 256 == 0) readClasses writeClasses false none
  | .xgath o =>
    let t := tensorOf e.recs e.vals o.en
    v.tensorErr i t (t.xoff % 4 == 0 && !t.dir && t.ndim ≥ 2) readClasses writeClasses true (some t.bytes)
  | .xscat o =>
    let t := tensorOf e.recs e.vals o.en
    v.tensorErr i t (t.xoff % 4 == 0 && t.dir && t.ndim ≥ 2 && !t.padm) readClasses writeClasses true (some t.bytes)
  | .xdec o =>
    let t := tensorOf e.recs e.vals o.en
    v.tensorErr i t (t.xoff == 0 && t.esz == 0 && t.ndim == 1 && (t.dims.getD 0 ⟨1, 0, 1, 0⟩).str == 1 && !t.dir && !t.padm &&
      (if o.cmd.getLsbD 1 then t.nearh == 0 && t.noff == 0 else t.nearh == 0x80)) readClasses writeClasses false none
  | .xqadd o =>
    let t := tensorOf e.recs e.vals o.en
    let n := (t.count * nearBits o (o.cmd.getLsbD 0) + 7) / 8
    v.tensorErr i t (quireForm t && v.quireFar t && t.xoff == 0 && t.dir && !t.padm) [6] [6] false (some n)
  | .xqrd o =>
    let t := tensorOf e.recs e.vals o.en
    let n := (t.count * o.fmt.width + 7) / 8
    v.tensorErr i t (quireForm t && v.quireFar t && !t.dir && t.xoff < 2 ^ 16 && t.padv < 2 ^ o.fmt.width) [6] [6] false (some n)
  | .xqclr o =>
    let t := tensorOf e.recs e.vals o.en
    v.tensorErr i t (quireForm t && v.quireFar t && t.xoff == 0 && t.dir && !t.padm && t.nearh == 0 && t.noff == 0) [6] [6] false none
  | .xcsr o =>
    let a := csrOf e.recs e.vals o.en
    let sides := [v.side a.rph, v.side a.cih, v.side a.vlh]
    let f := v.c.room
    firstErr ([errIf a.bad .xtpl, a.act.formErr v.c] ++ sides.map (fun d => classErr d readClasses) ++ [a.act.classErr v] ++
      sides.map (fun d => rightErr d rRD) ++ [a.act.rightErr v,
        errIf (a.row0 < 0 || a.nrows == 0 || a.nrows > 65536 || a.rpoff + 4 * (a.row0.toNat + a.nrows + 1) > v.limit (v.side a.rph) ||
          a.bcnt + 4 * a.nrows > f) .bnd,
        a.act.boundErr v])
  | .xatom o =>
    let a := atomOf e.recs e.vals o.en
    let d := v.side a.tgth
    let n := if o.cmd.getLsbD 3 then 8 else 4
    firstErr [errIf (a.bad || ((o.cmd.toNat % 8) != 7 && a.opb != 0)) .xtpl, a.act.formErr v.c, classErr d [1, 2, 4], a.act.classErr v,
      rightErr d rAT, a.act.rightErr v,
      errIf (a.toff % n ≠ 0 || a.toff + n > v.limit d || a.roff % 8 ≠ 0 || a.roff + 8 > v.c.room) .bnd, a.act.boundErr v]
  | .xrec o => v.installErr (o.cmd.getLsbD 0) (installOf e.recs e.vals o.en)
  | .xarm _ => v.armErr (armOf e.recs)
  | .xsig o =>
    if o.l then none
    else
      let d := Side.rgn o.h.toNat (v.region o.h.toNat)
      firstErr [classErr d [5], rightErr d rSG]
  | .xword o =>
    let d := if o.l then Side.win else .rgn o.h.toNat (v.region o.h.toNat)
    let off := (e.vals.getD 1 0).toInt + 8 * o.imm.toNat
    firstErr [classErr d writeClasses, rightErr d (rWR ||| rSG), errIf (off < 0 || off + 8 > v.limit d) .bnd]
  | _ => none

/-! ### What a command will read (R214, R226, R230) -/

/-- The coordinate of dimension 1 that an index list gives, read from the window when the command starts (R214). -/
def State.indexList (s : State) (v : XView) (t : Tensor) (i : Nat) : Int :=
  match v.place .win (t.xoff + 4 * i) with
  | some p => (BitVec.ofNat 32 (ofLe (s.readPlace p 4))).toInt
  | none => 0

/-- The elements before the first listed coordinate that faults, and that coordinate (R214). -/
def cutAt (t : Tensor) : List El → List El × Option (BitVec 32)
  | [] => ([], none)
  | x :: xs =>
    if (!t.padm || t.dir) && !(0 ≤ x.x1 && x.x1 < (t.dims.getD 1 ⟨1, 0, 1, 0⟩).shape) then ([], some (BitVec.ofInt 32 x.x1))
    else
      let (ys, e) := cutAt t xs
      (x :: ys, e)

/-- The elements of a walk, those of a list as far as no listed coordinate faults. -/
def State.walked (s : State) (v : XView) (i : Instr) (t : Tensor) : List El × Option (BitVec 32) :=
  match i with
  | .xgath _ | .xscat _ => cutAt t (t.els (some (s.indexList v t)))
  | _ => (t.els none, none)

/-- The places of the row pointer numbered `n` of an XCSR. -/
def XView.rowPlaces (v : XView) (a : Csr) (n : Nat) : List (Option Place) :=
  (List.range 4).map fun j => v.place (v.side a.rph) (a.rpoff + 4 * n + j)

/-- Bytes as they stand in memory now. -/
def State.peek (s : State) (ps : List (Option Place)) : List Byte :=
  ps.map fun p => match p with | some p => (s.readPlace p 1).getD 0 0 | none => 0

/-- A row of an XCSR faults: its pointers fall, it passes the capacity, or it passes a bound (R230). -/
def Csr.rowFault (a : Csr) (v : XView) (napp x y : Nat) : Bool :=
  let n := y - x
  let es := 2 ^ a.esz
  y < x || napp + n > a.cap || (n > 0 && (a.cioff + 4 * y > v.limit (v.side a.cih) || a.vloff + es * y > v.limit (v.side a.vlh) ||
    a.bci + 4 * (napp + n) > v.c.room || a.bvl + es * (napp + n) > v.c.room))

/-- The rows of an XCSR as memory stands, up to the first that faults: the entries appended before each, and its pointers. -/
def State.csrRows (s : State) (v : XView) (a : Csr) : Nat → Nat → Nat → List (Nat × Nat × Nat)
  | 0, _, _ => []
  | fuel + 1, r, napp =>
    let x := ofLe (s.peek (v.rowPlaces a (a.row0.toNat + r)))
    let y := ofLe (s.peek (v.rowPlaces a (a.row0.toNat + r + 1)))
    if a.rowFault v napp x y then [] else (napp, x, y) :: State.csrRows s v a fuel (r + 1) (napp + (y - x))

/-- The places of `k` bytes of an XDEC's stream from position `n`. -/
def XView.streamPlaces (v : XView) (t : Tensor) (n k : Nat) : List (Option Place) :=
  let o := (t.dims.getD 0 ⟨1, 0, 1, 0⟩).orig.toNat
  (List.range k).map fun j => v.place (v.side t.farh) (t.foff + o + n + j)

/-! ### Blocks (R226, Table 11.7) -/

/-- A block at a position of the stream. -/
structure Block where
  raw : Nat
  coding : Nat
  crc : BitVec 32
  /-- where it ends in the stream -/
  stop : Nat
  /-- its header is in range and it lies within the stream -/
  ok : Bool
  deriving DecidableEq, Repr

def tableBytes (coding : Nat) : Nat := if coding = 1 then 8 else if coding = 2 then 128 else 0

/-- The header of the block at `pos` in a stream of `len` bytes. -/
def blockOf (h : List Byte) (pos len : Nat) : Block :=
  let n (o k : Nat) : Nat := ofLe ((h.drop o).take k)
  let coding := n 3 1
  let cod := n 6 2
  let stop := (pos + 32 + tableBytes coding + cod + 31) / 32 * 32
  { raw := n 4 2, coding, crc := BitVec.ofNat 32 (n 8 4), stop
    ok := pos + 32 ≤ len && n 0 2 = 0x5A47 && n 2 1 = 1 && coding ≤ 2 && 1 ≤ n 4 2 && n 4 2 ≤ 4096 && 1 ≤ cod &&
      cod ≤ 8192 && (coding ≠ 0 || cod = n 4 2) && (h.drop 12).all (· = 0) && stop ≤ len }

/-- The raw bytes of an XDEC's stream as memory stands, up to the first block that is malformed. -/
def State.rawTotal (s : State) (v : XView) (t : Tensor) : Nat → Nat → Nat
  | 0, _ => 0
  | fuel + 1, pos =>
    if pos ≥ t.bytes then 0
    else
      let b := blockOf (s.peek (v.streamPlaces t pos 32)) pos t.bytes
      if !b.ok then 0 else b.raw + State.rawTotal s v t fuel b.stop

/-! ### Reach (R342) -/

/-- The reach of a tile, whichever launch's context a record names there: 0 this tile, 1 the furrow, 2 the die, 3 the package. -/
def XView.tileReach (v : XView) (r : Region) : Nat :=
  if r.tile = v.t then 0
  else if v.c.flen ≥ 2 && v.c.head ≤ r.tile && r.tile < v.c.head + v.c.flen then 1
  else if dieOf r.tile = dieOf v.t then 2 else 3

/-- The stack of an HBM4 address. -/
def stackOf (a : Nat) : Nat := a / (36 * 2 ^ 30)

/-- The die of a place, with the CTD as 8. -/
def Place.die : Place → Nat
  | .scratch t _ => dieOf t
  | .mem .hbm a => stackOf a / 2
  | _ => 8

/-- The dies beside the extents of an HBM4 record. -/
def extDies (es : List (Nat × Nat)) : List Nat :=
  (es.flatMap fun e => [stackOf (e.1 * 2 ^ 21) / 2, stackOf ((e.1 + e.2 - 1) * 2 ^ 21) / 2]).eraseDups

/-- The dies that the bytes and counters of a record stand on; 8 is the CTD. -/
def Region.dies (r : Region) : List Nat :=
  match r.cls.toNat with
  | 1 => extDies r.ext
  | 6 => if r.qloc then [8] else extDies r.ext
  | 4 | 5 => [dieOf r.tile]
  | 7 => [if r.port = 0 then 3 else if r.port = 1 then 7 else 8]
  | _ => [8]

/-- The reach of the tile that a side's record resolves to, for a target that is no byte. -/
def XView.targetReach (v : XView) (d : Side) : Nat :=
  match d with
  | .rgn _ r => if r.cls = 4 || r.cls = 5 then v.tileReach r else 0
  | _ => 0

/-- The reach of the bytes of a side that a command touches, given as offsets and sizes; that of no byte is the tile. -/
def XView.spanReach (v : XView) (d : Side) (spans : List (Nat × Nat)) : Nat :=
  if spans.all (fun x => x.2 = 0) then 0
  else
    match d with
    | .win | .fifo _ => 0
    | .rgn _ r =>
      if r.cls = 4 || r.cls = 5 then v.tileReach r
      else match r.space with
        | some .hbm =>
          let here (x : Nat × Nat) : Bool := (List.range x.2).all fun j =>
            match v.place d (x.1 + j) with | some p => p.die == dieOf v.t | none => true
          if (extDies r.ext).all (· == dieOf v.t) || spans.all here then 2 else 3
        | some .lpddr => 3
        | _ => 4

def XView.actReach (v : XView) (a : ActF) : Nat := if a.cact = 0 then 0 else v.spanReach (v.side a.chdl) [(a.cwoff, 8)]

/-- The bytes of the near side of a tensor operation. -/
def nearBytes (i : Instr) (t : Tensor) : Nat :=
  match i with
  | .xqadd o => (t.count * nearBits o (o.cmd.getLsbD 0) + 7) / 8
  | .xqrd o => (t.count * o.fmt.width + 7) / 8
  | .xqclr _ => 0
  | _ => t.bytes

def State.reach (s : State) (v : XView) (i : Instr) (e : XEntry) : Nat :=
  let tensor (o : XeArgs) : Nat :=
    let t := tensorOf e.recs e.vals o.en
    let far := (((s.walked v i t).1.filter (·.inb)).map fun x => (x.foff, t.es))
    max (v.spanReach (v.side t.farh) far) (max (match i with | .xqclr _ => 0 | _ => v.spanReach (v.near i t) [(t.noff, nearBytes i t)])
      (v.actReach t.act))
  match i with
  | .xcopy o | .xfill o | .xgath o | .xscat o | .xdec o | .xqadd o | .xqrd o | .xqclr o => tensor o
  | .xcsr o =>
    let a := csrOf e.recs e.vals o.en
    let rows := s.csrRows v a a.nrows 0 0
    max (max (v.spanReach (v.side a.rph) [(a.rpoff + 4 * a.row0.toNat, 4 * (a.nrows + 1))])
        (v.spanReach (v.side a.cih) (rows.map fun x => (a.cioff + 4 * x.2.1, 4 * (x.2.2 - x.2.1)))))
      (max (v.spanReach (v.side a.vlh) (rows.map fun x => (a.vloff + 2 ^ a.esz * x.2.1, 2 ^ a.esz * (x.2.2 - x.2.1)))) (v.actReach a.act))
  | .xatom o =>
    let a := atomOf e.recs e.vals o.en
    max (v.spanReach (v.side a.tgth) [(a.toff, if o.cmd.getLsbD 3 then 8 else 4)]) (v.actReach a.act)
  | .xarm _ =>
    let a := armOf e.recs
    a.rel.foldl (fun n x => max n (v.targetReach (v.side x.1))) (v.spanReach (v.side a.rgnh) [(a.spoff, 1)])
  | .xsig o => if o.l then 0 else v.targetReach (.rgn o.h.toNat (v.region o.h.toNat))
  | .xword o => if o.l then 0 else
      v.spanReach (.rgn o.h.toNat (v.region o.h.toNat)) [(((e.vals.getD 1 0).toInt + 8 * (o.imm.toNat : Int)).toNat, 8)]
  | _ => 0

/-! ### Blocks of its own tile a command reads and writes (R337, R338) -/

/-- The 64-byte blocks of its own scratchpad under `n` bytes of a side: of the window, or of a tile-class region that names this
tile. -/
def XView.ownBlocks (v : XView) (d : Side) (off n : Nat) : List Nat :=
  match d with
  | .fifo _ => []
  | .win =>
    if n = 0 then []
    else
      let a := v.c.wbase + off
      (List.range ((a + n - 1) / 64 - a / 64 + 1)).map fun i => a / 64 + i
  | .rgn _ r =>
    if r.cls ≠ 4 || r.tile ≠ v.t then []
    else ((List.range n).filterMap fun j => match v.place d (off + j) with
      | some (.scratch t a) => if t = v.t then some (a / 64) else none
      | _ => none).eraseDups

/-- The blocks under elements of the far side. -/
def XView.farBlocks (v : XView) (t : Tensor) (els : List El) : List Nat :=
  let own : Bool := match v.side t.farh with
    | .win => true
    | .rgn _ r => r.cls == 4
    | _ => false
  if !own then []
  else
    (els.foldl (fun (acc : List Nat) x =>
      if x.inb then (v.ownBlocks (v.side t.farh) x.foff t.es).foldl (fun acc b => if acc.head? = some b then acc else b :: acc) acc
      else acc) []).eraseDups

/-- The blocks a command reads, and those it writes, in the scratchpad of its tile, as memory stands. -/
def State.blocks (s : State) (v : XView) (i : Instr) (e : XEntry) : List Nat × List Nat :=
  let actW (a : ActF) : List Nat := if a.cact = 2 then v.ownBlocks (v.side a.chdl) a.cwoff 8 else []
  let move (o : XeArgs) (list : Bool) : List Nat × List Nat :=
    let t := tensorOf e.recs e.vals o.en
    let far := v.farBlocks t (s.walked v i t).1
    let near := v.ownBlocks (v.near i t) t.noff (nearBytes i t)
    let ix := if list then v.ownBlocks .win t.xoff (4 * (t.dims.getD 1 ⟨1, 0, 1, 0⟩).ext) else []
    if t.dir then (near ++ ix, far ++ actW t.act) else (far ++ ix, near ++ actW t.act)
  match i with
  | .xcopy o | .xfill o => move o false
  | .xgath o | .xscat o => move o true
  | .xdec o =>
    let t := tensorOf e.recs e.vals o.en
    let raw := if o.cmd.getLsbD 1 then 0 else min (s.rawTotal v t t.bytes 0) (v.c.room - t.noff)
    (v.farBlocks t (t.els none), v.ownBlocks .win t.noff raw ++ actW t.act)
  | .xqadd o =>
    let t := tensorOf e.recs e.vals o.en
    (v.ownBlocks (v.near i t) t.noff (nearBytes i t), actW t.act)
  | .xqrd o =>
    let t := tensorOf e.recs e.vals o.en
    ([], v.ownBlocks (v.near i t) t.noff (nearBytes i t) ++ actW t.act)
  | .xqclr o => ([], actW (tensorOf e.recs e.vals o.en).act)
  | .xcsr o =>
    let a := csrOf e.recs e.vals o.en
    let rows := s.csrRows v a a.nrows 0 0
    let all := match rows.getLast? with | some x => x.1 + (x.2.2 - x.2.1) | none => 0
    let rd (h : BitVec 8) (off size : Nat) : List Nat :=
      rows.flatMap fun x => v.ownBlocks (v.side h) (off + size * x.2.1) (size * (x.2.2 - x.2.1))
    (v.ownBlocks (v.side a.rph) (a.rpoff + 4 * a.row0.toNat) (4 * (a.nrows + 1)) ++ rd a.cih a.cioff 4 ++ rd a.vlh a.vloff (2 ^ a.esz),
     v.ownBlocks .win a.bci (4 * all) ++ v.ownBlocks .win a.bvl (2 ^ a.esz * all) ++ v.ownBlocks .win a.bcnt (4 * rows.length) ++
      actW a.act)
  | .xatom o =>
    let a := atomOf e.recs e.vals o.en
    let tg := v.ownBlocks (v.side a.tgth) a.toff (if o.cmd.getLsbD 3 then 8 else 4)
    (tg, tg ++ v.ownBlocks .win a.roff 8 ++ actW a.act)
  | .xword o =>
    let d := if o.l then Side.win else .rgn o.h.toNat (v.region o.h.toNat)
    ([], v.ownBlocks d ((e.vals.getD 1 0).toInt + 8 * (o.imm.toNat : Int)).toNat 8)
  | _ => ([], [])

/-! ### Declared latencies (R234, R259) -/

/-- Mesh hops between two tiles. -/
def hops (a b : Nat) : Nat := ((a % 64 : Int) - (b % 64 : Int)).natAbs + ((a / 64 : Int) - (b / 64 : Int)).natAbs

/-- W + M of a side and the die that gives it; `cells` is the number of quire cells. -/
def XView.sideLatency (v : XView) (d : Side) (write : Bool) (cells : Nat) : Nat × Nat :=
  let a := dieOf v.t
  let w (b : Nat) : Nat := if write then 16 + lat a b else 32 + lat a b + lat b a
  let best (bs : List Nat) (m : Nat) : Nat × Nat :=
    bs.foldl (fun acc b => if w b + m > acc.1 then (w b + m, b) else acc) (0, a)
  match d with
  | .win | .fifo _ => (4, a)
  | .rgn _ r =>
    match r.cls.toNat with
    | 1 => best (extDies r.ext) 320
    | 2 => best [8] 720
    | 3 => best [8] 3000
    | 4 => (hops v.t r.tile + lat a (dieOf r.tile) + 4, dieOf r.tile)
    | 6 => best (if r.qloc then [8] else extDies r.ext) (400 + (cells + 3) / 4)
    | 7 => best [8] (Config.peerLatency r.port % 4096)
    | _ => (4, a)

/-- The larger W + M of two sides, with its die; two local sides give 4. -/
def XView.pairLatency (v : XView) (far near : Side) (farW nearW : Bool) : Nat × Nat :=
  let f := v.sideLatency far farW 0
  let n := v.sideLatency near nearW 0
  if n.1 > f.1 then n else f

/-- The larger W + M of the cells of an XQADD or XQRD and of its near side, with its die. -/
def XView.quireLatency (v : XView) (i : Instr) (t : Tensor) (write : Bool) : Nat × Nat :=
  let f := v.sideLatency (v.side t.farh) write t.count
  let n := v.sideLatency (v.near i t) (!write) 0
  if n.1 > f.1 then n else f

/-- A: the action's term, from die `b` (R234). -/
def XView.actLatency (v : XView) (a : ActF) (b : Nat) : Nat :=
  if a.cact = 0 || a.chdl.getLsbD 7 then 0
  else
    match v.side a.chdl with
    | .rgn _ r =>
      let e := if r.cls = 4 || r.cls = 5 then dieOf r.tile else (match v.place (v.side a.chdl) a.cwoff with
        | some p => p.die
        | none => 8)
      16 + lat b e
    | _ => 0

def ceilDiv (a b : Nat) : Nat := (a + b - 1) / b

/-- L, without the block terms of an XDEC, and W + M. -/
def XView.declared (v : XView) (i : Instr) (e : XEntry) : Nat × Nat :=
  let mk (bytes : Nat) (wm : Nat × Nat) (a : ActF) : Nat × Nat :=
    (8 + ceilDiv bytes 512 + wm.1 + v.actLatency a wm.2, wm.1)
  let tensor (o : XeArgs) : Nat × Nat :=
    let t := tensorOf e.recs e.vals o.en
    mk t.bytes (v.pairLatency (v.side t.farh) (v.near i t) t.dir !t.dir) t.act
  match i with
  | .xcopy o | .xfill o | .xgath o | .xscat o => tensor o
  | .xdec o =>
    let t := tensorOf e.recs e.vals o.en
    let (l, wm) := mk t.bytes (v.sideLatency (v.side t.farh) false 0) t.act
    (l + 150, wm)
  | .xcsr o =>
    let a := csrOf e.recs e.vals o.en
    let best := [a.rph, a.cih, a.vlh].foldl (fun (acc : Nat × Nat) h =>
      let x := v.sideLatency (v.side h) false 0
      if x.1 > acc.1 then x else acc) (4, dieOf v.t)
    mk (8 * a.nrows + 4 + (4 + 2 ^ a.esz) * a.cap) best a.act
  | .xatom o =>
    let a := atomOf e.recs e.vals o.en
    mk 64 (v.sideLatency (v.side a.tgth) false 0) a.act
  | .xqadd o =>
    let t := tensorOf e.recs e.vals o.en
    mk ((t.count * nearBits o (o.cmd.getLsbD 0) + 7) / 8) (v.quireLatency i t true) t.act
  | .xqrd o =>
    let t := tensorOf e.recs e.vals o.en
    mk ((t.count * o.fmt.width + 7) / 8) (v.quireLatency i t false) t.act
  | .xqclr o =>
    let t := tensorOf e.recs e.vals o.en
    mk 0 (v.sideLatency (v.side t.farh) true t.count) t.act
  | .xsig o =>
    if o.l then (8, 0) else (8 + 16 + lat (dieOf v.t) (dieOf (v.region o.h.toNat).tile), 0)
  | .xword o =>
    let d := if o.l then Side.win else .rgn o.h.toNat (v.region o.h.toNat)
    mk 8 (v.sideLatency d true 0) {}
  | .xarm _ =>
    -- W and M of the counter's controller; that of a quire region is its stack's, or the LPDDR6 tier's
    let a := armOf e.recs
    let d := match v.side a.rgnh with
      | .rgn h r => if r.cls = 6 then Side.rgn h { r with cls := if r.qloc then 2 else 1 } else .rgn h r
      | x => x
    mk 0 (v.sideLatency d true 0) {}
  | _ => (8, 0)

end Sys2Proof.Machine
end

