-- ==== Sys2Proof/Machine/Transfer.lean ====
section
/-! DEFINITION. The XE-slot operations at issue: templates through the cache, the checks of R205, the entry a queue takes,
and the operations that are not queued (R205, R208, R216, R235-R258). -/

namespace Sys2Proof.Machine

/-! ### Templates (R208) -/

/-- Why a record cannot be fetched: it lies outside the range of R195, or a block of it has an uncorrectable error (R37). -/
inductive FetchErr where
  | range
  | mem (a : Nat)
  deriving DecidableEq, Repr

/-- Record `n` through the template cache, with whether the copy used was stale. -/
def Op.record (o : Op) (n : Nat) : Except FetchErr (BitVec 1024 × Bool × Op) :=
  if !o.c.legal o.u.sup (128 * n : Nat) 128 then .error .range
  else
    let idx := o.c.phys o.u.sup (128 * n : Nat) / 128
    let rest := o.c.tcache.filter fun x => x.idx ≠ idx
    match o.c.tcache.find? fun x => x.idx = idx with
    | some x => .ok (x.bits, x.stale, { o with c := { o.c with tcache := x :: rest } })
    | none =>
      if (o.s.tile o.u.t).bad.any fun b => spoils (128 * idx) 128 b none then .error (.mem (128 * n))
      else
        let bits := BitVec.ofNat 1024 (ofLe (o.bytes (128 * idx) 128))
        .ok (bits, false, { o with c := { o.c with tcache := ⟨idx, bits, false⟩ :: rest.take 127 } })

/-- Records `n` onward. -/
def Op.recordsFrom (o : Op) : Nat → Nat → Except FetchErr (List (BitVec 1024) × Bool × Op)
  | 0, _ => .ok ([], false, o)
  | k + 1, n =>
    match o.record n with
    | .error e => .error e
    | .ok (r, st, o) =>
      match Op.recordsFrom o k (n + 1) with
      | .error e => .error e
      | .ok (rs, st', o) => .ok (r :: rs, st || st', o)

/-- The records of a template, a tensor template's extension records among them (R210); use of a stale copy is
recorded. -/
def Op.template (o : Op) (n : Nat) (tensor : Bool) : Except FetchErr (List (BitVec 1024) × Op) :=
  match o.record n with
  | .error e => .error e
  | .ok (r, st, o) =>
    match o.recordsFrom (if tensor then recsFor (recNat r 2 1) - 1 else 0) (n + 1) with
    | .error e => .error e
    | .ok (rs, st', o) => .ok (r :: rs, if st || st' then o.event dcrSRCW 1 else o)

/-! ### The queues -/

def Ctx.depth (c : Ctx) (q : Nat) : Nat := (c.commands.filter fun x => x.1 = q).length

/-- The index the next command of a queue takes (R205). -/
def Ctx.nextIdx (c : Ctx) (q : Nat) : BitVec 16 :=
  (c.queue q).issued + BitVec.ofNat 16 (c.depth q - (c.queue q).open_.length)

/-- QSTAT (Table 11.1). -/
def XQueue.stat (x : XQueue) : Word :=
  (x.issued.setWidth 64 <<< 48) ||| (x.done.setWidth 64 <<< 32) ||| (BitVec.ofNat 64 x.open_.length <<< 16) |||
    (x.qs.setWidth 64 <<< 8) ||| x.ecode.setWidth 64

/-- QDET (Table 11.2). -/
def XQueue.det (x : XQueue) : Word := (x.d1.setWidth 64 <<< 32) ||| x.d0.setWidth 64

/-- QSTAT as an XSTAT reads it: in the cycle of a completion, the word of before that cycle (R253). -/
def XQueue.statAt (x : XQueue) (now : Nat) : Word := if x.prev.1 = now && x.prev.2 ≠ 0 then x.prev.2 else x.stat

/-- Remember QSTAT before the first completion of a cycle. -/
def XQueue.mark (x : XQueue) (now : Nat) : XQueue :=
  if x.prev.1 = now && x.prev.2 ≠ 0 then x else { x with prev := (now, x.stat) }

/-- The context as checks and starts see it; `dyn` is the table of dynamic records. -/
def Ctx.xview (c : Ctx) (t : Nat) (k : BitVec 2) (dyn : SMap Region) : XView := { t, k, c, dyn }

/-- The table after an XREC entry. -/
def Ctx.installed (c : Ctx) (tab : SMap Region) (e : XEntry) : SMap Region :=
  match decSlot 6 e.word with
  | .op (.xrec o) => installIn c.locked tab (o.cmd.getLsbD 0) (installOf e.recs e.vals o.en)
  | _ => tab

/-- Commands in the order of their issue. -/
def insertByAge (x : Nat × XEntry) : List (Nat × XEntry) → List (Nat × XEntry)
  | [] => [x]
  | y :: ys => if y.2.ord ≤ x.2.ord then y :: insertByAge x ys else x :: y :: ys

/-- The unstarted commands of a context with their queues: those queued, and those a checked pair gates. -/
def Ctx.unstarted (c : Ctx) : List (Nat × XEntry) :=
  ((List.range 4).flatMap fun q => (c.queue q).ents.map fun e => (q, e)) ++
    (match c.chk with
     | none => []
     | some k => k.gate.filterMap fun g => match g with | .xe q e => some (q, e) | _ => none)

/-- The issue table rebuilt from the translation table and the unstarted XREC entries (R252, R255). -/
def Ctx.rebuildItab (c : Ctx) : Ctx :=
  let es := c.unstarted.foldl (fun acc x => insertByAge x acc) []
  { c with itab := es.foldl (fun tab x => c.installed tab x.2) c.ttab }

/-- The furrow and position of a tile in a launch. -/
def Launch.coord (l : Launch) (t : Nat) : Option (Nat × Nat) :=
  (l.furrows.find? fun f => f.head ≤ t && t < f.head + f.mem.length).map fun f => (t - f.head, f.fy)

/-- The release entries of an XARM: the context that each sync record, or the local counters, resolve to now (R220). -/
def State.relEntries (s : State) (v : XView) (i : Instr) (e : XEntry) : List RelEntry :=
  match i with
  | .xarm _ =>
    (armOf e.recs).rel.map fun y =>
      let here : RelEntry := { amt := y.2.2, tile := v.t, k := v.k, ctr := y.2.1, id := v.c.launch.getD ⟨0, 0⟩
                               gen := ((v.c.launch.bind fun id => findLaunch s.ctd.launches id).map (·.accSeq)).getD 0, fx := v.c.pos
                               fy := fieldFy v.c.field }
      match v.side y.1 with
      | .rgn _ r =>
        let id := r.owner.getD ⟨0, 0⟩
        let (fx, fy) := ((findLaunch s.ctd.launches id).bind fun l => l.coord r.tile).getD (0, 0)
        { here with tile := r.tile, k := r.k, id, gen := r.gen, fx, fy }
      | _ => here
  | _ => []

/-- The fields of an entry that its records and registers give, and memory as it stands: reach, blocks and declared cycles. -/
def State.fillEntry (s : State) (v : XView) (i : Instr) (e : XEntry) : XEntry :=
  let (rd, wr) := s.blocks v i e
  let (l, wm) := v.declared i e
  let due : Option Nat := if !v.c.timed then none else match i with
    | .xjoin _ _ _ | .xrec _ => none
    | _ => some (e.at_ + l)
  { e with reach := s.reach v i e, rd, wr, due, fifoDue := e.at_ + 9 + wm }

/-- The loads and stores of the issuing bundle that touch what the command writes record its destination window (R338). -/
def Op.openWindow (o : Op) (e : XEntry) : Op :=
  let hits := o.u.touched.filter fun x => e.writes x.2.1 x.2.2
  { o with
    c := hits.foldl (fun c x => c.event o.now dcrDSTW o.u.off x.1 1) o.c
    u := { o.u with touched := o.u.touched.filter fun x => !e.writes x.2.1 x.2.2 } }

/-- Append an entry to its queue, or to the gate of a checked pair (R205, R384). -/
def Ctx.append (c : Ctx) (q : Nat) (e : XEntry) : Ctx :=
  match c.chk with
  | some k => { c with chk := some { k with gate := k.gate ++ [.xe q e] } }
  | none =>
    let x := c.queue q
    c.setQueue q { x with issued := x.issued + 1, ents := x.ents ++ [e] }

/-- Issue one queued operation (R205, R237): the operation after it, and whether it was appended. A template record in a bad block
traps XMEM at the slot (DEDUCED, log entry 107). -/
def Op.enqueue (o : Op) (i : Instr) (q : BitVec 2) (tix : Option (Nat × Bool)) (vals : List Word) : Op × Bool :=
  let n := (tix.map (·.1)).getD 0
  let bad (cause : BitVec 8) (e : Nat) : Op × Bool := (o.raise cause (BitVec.ofNat 64 e), false)
  if o.c.depth q.toNat ≥ 64 then bad cXQF q.toNat
  else
    match (match tix with | some (n, tensor) => o.template n tensor | none => .ok ([], o)) with
    | .error .range => bad cBND n
    | .error (.mem a) => bad cXMEM a
    | .ok (recs, o) =>
      let bad (cause : BitVec 8) (e : Nat) : Op × Bool := (o.raise cause (BitVec.ofNat 64 e), false)
      let word : BitVec 64 := ((encode i).map (·.2)).getD 0
      let e0 : XEntry := { word, vals, idx := o.c.nextIdx q.toNat, recs, off := o.u.off, at_ := o.now, key := o.regs.key
                           step := o.regs.step, sup := o.u.sup, ord := o.c.nextOrd, after := o.c.pruneFence.fence }
      let v := o.c.xview o.u.t o.u.k o.c.itab
      match v.check i e0 with
      | some .xtpl => bad cXTPL n
      | some (.rgn h) => bad cRGN h
      | some .bnd => bad cBND n
      | none =>
        let e := { o.s.fillEntry v i e0 with rel := o.s.relEntries v i e0 }
        let c := (o.c.pruneFence.append q.toNat e).hashBytes o.c.hashIv
          (hashTag 9 0 o.slot 0 ++ leBytes 8 e.word.toNat ++ (List.range 4).flatMap fun n => leBytes 8 (e.vals.getD n 0).toNat)
        (({ o with c := { c with itab := c.installed c.itab e, nextOrd := c.nextOrd + 1 } } : Op).openWindow e, true)

/-- The override registers read at issue; a disabled one reads zero. -/
def Op.overrides (o : Op) (a : XeArgs) : List Word :=
  [(0, a.r0), (1, a.r1), (2, a.r2), (3, a.r3)].map fun x => if a.en.getLsbD x.1 then o.regs.sreg x.2 else 0

/-- The operation walks a tensor template. -/
def tensorOpc (opc : BitVec 8) : Bool := opc ≠ 0x05 && opc ≠ 0x08 && opc ≠ 0x1A && opc ≠ 0x1C

/-- Issue a queued operation in the default layout, an XQRD with stochastic rounding entering the draw history (R247). -/
def Op.issueXe (o : Op) (i : Instr) : Op × Bool :=
  match i.xeForm with
  | none => (o, true)
  | some (opc, a) =>
    let (o', ok) := o.enqueue i a.xq (some (a.tix.toNat, tensorOpc opc)) (o.overrides a)
    if !ok || opc ≠ 0x0A || a.cmd.extractLsb' 0 2 ≠ 1 then (o', ok)
    else
      match (o'.c.commands.filter fun x => x.1 = a.xq.toNat).getLast? with
      | none => (o', ok)
      | some (_, e) =>
        let t := tensorOf e.recs e.vals a.en
        let orig (d : Nat) : BitVec 32 := BitVec.ofInt 32 ((t.dims.getD d ⟨1, 0, 1, 0⟩).orig)
        (o'.history (BitVec.ofNat 16 t.xoff) (o'.regs.step.setWidth 32) (if t.ndim = 1 then 0 else orig 1) (orig 0), ok)

/-! ### The operations -/

def execXcopy (o : XeArgs) (s : State) : Host.Outcome State Fault Refusal :=
  slotStep 6 (.xcopy o) o.p (fun x => (x.issueXe (.xcopy o)).1) s

def execXfill (o : XeArgs) (s : State) : Host.Outcome State Fault Refusal :=
  slotStep 6 (.xfill o) o.p (fun x => (x.issueXe (.xfill o)).1) s

def execXgath (o : XeArgs) (s : State) : Host.Outcome State Fault Refusal :=
  slotStep 6 (.xgath o) o.p (fun x => (x.issueXe (.xgath o)).1) s

def execXscat (o : XeArgs) (s : State) : Host.Outcome State Fault Refusal :=
  slotStep 6 (.xscat o) o.p (fun x => (x.issueXe (.xscat o)).1) s

def execXcsr (o : XeArgs) (s : State) : Host.Outcome State Fault Refusal :=
  slotStep 6 (.xcsr o) o.p (fun x => (x.issueXe (.xcsr o)).1) s

def execXdec (o : XeArgs) (s : State) : Host.Outcome State Fault Refusal :=
  slotStep 6 (.xdec o) o.p (fun x => (x.issueXe (.xdec o)).1) s

def execXatom (o : XeArgs) (s : State) : Host.Outcome State Fault Refusal :=
  slotStep 6 (.xatom o) o.p (fun x => (x.issueXe (.xatom o)).1) s

def execXqadd (o : XeArgs) (s : State) : Host.Outcome State Fault Refusal :=
  slotStep 6 (.xqadd o) o.p (fun x => (x.issueXe (.xqadd o)).1) s

def execXqrd (o : XeArgs) (s : State) : Host.Outcome State Fault Refusal :=
  slotStep 6 (.xqrd o) o.p (fun x => (x.issueXe (.xqrd o)).1) s

def execXqclr (o : XeArgs) (s : State) : Host.Outcome State Fault Refusal :=
  slotStep 6 (.xqclr o) o.p (fun x => (x.issueXe (.xqclr o)).1) s

def execXrec (o : XeArgs) (s : State) : Host.Outcome State Fault Refusal :=
  slotStep 6 (.xrec o) o.p (fun x => (x.issueXe (.xrec o)).1) s

def execXarm (o : XeArgs) (s : State) : Host.Outcome State Fault Refusal :=
  slotStep 6 (.xarm o) o.p (fun x => (x.issueXe (.xarm o)).1) s

/-- XSIG (R249). -/
def execXsig (o : XsigArgs) (s : State) : Host.Outcome State Fault Refusal :=
  slotStep 6 (.xsig o) o.p (fun x => (x.enqueue (.xsig o) o.xq none [x.regs.sreg o.sa]).1) s

/-- XWORD (R250). -/
def execXword (o : XwordArgs) (s : State) : Host.Outcome State Fault Refusal :=
  slotStep 6 (.xword o) o.p (fun x => (x.enqueue (.xword o) o.xq none [x.regs.sreg o.sa, x.regs.sreg o.sb]).1) s

/-- XJOIN (R251): the ISSUED counts of the queues named. -/
def execXjoin (p : Pred) (xq : BitVec 2) (jm : BitVec 4) (s : State) : Host.Outcome State Fault Refusal :=
  slotStep 6 (.xjoin p xq jm) p
    (fun o => (o.enqueue (.xjoin p xq jm) xq none
      ((List.range 4).map fun r => if jm.getLsbD r then (o.c.nextIdx r).setWidth 64 else 0)).1) s

/-- XLRF (R254). -/
def execXlrf (p : Pred) (s : State) : Host.Outcome State Fault Refusal :=
  slotStep 6 (.xlrf p) p (fun o => { o with c := { o.c with tcache := [] } }) s

/-- Release timetable entries, the first failing one stopping the position (R216, R257). -/
def Op.advance (o : Op) : Nat → Op
  | 0 => o
  | n + 1 =>
    match o.c.timetable[o.c.tpos]? with
    | none => o
    | some w =>
      match decSlot 6 w with
      | .op i =>
        let (o', ok) := o.issueXe i
        if ok then Op.advance { o' with c := { o'.c with tpos := o'.c.tpos + 1 } } n else o'
      | .fmt _ => o.raiseIssue cFMT
      | _ => o.raiseIssue cILL

/-- XADV. A slot that traps makes no entry in the draw history, nor finds a reuse (R326). -/
def execXadv (p : Pred) (nm1 : BitVec 4) (s : State) : Host.Outcome State Fault Refusal :=
  slotStep 6 (.xadv p nm1) p
    (fun o =>
      let o' := o.advance (nm1.toNat + 1)
      if o'.u.raised.length = o.u.raised.length then o'
      else { o' with c := { o'.c with dhist := o.c.dhist }, u := { o'.u with reuse := o.u.reuse } }) s

/-- XSTAT (R253). -/
def execXstat (p : Pred) (xq : BitVec 2) (sd : BitVec 5) (sel : BitVec 2) (s : State) : Host.Outcome State Fault Refusal :=
  slotStep 6 (.xstat p xq sd sel) p
    (fun o =>
      let x := o.c.queue xq.toNat
      let v : Word := match sel.toNat with
        | 0 => x.statAt o.now
        | 1 => x.det
        | _ => BitVec.ofNat 64 o.c.tpos
      o.land 2 (.sreg sd.toNat v)) s

/-- The entries XCANCEL discards from a queue, gated ones included. -/
def Ctx.discard (c : Ctx) (q : Nat) : Nat × Ctx :=
  let x := c.queue q
  let n := c.depth q - (match x.run with | some _ => 1 | none => 0)
  let c := c.setQueue q { x with ents := [] }
  (n, { c with chk := c.chk.map fun k => { k with gate := k.gate.filter fun g => match g with | .xe r _ => r ≠ q | _ => true } })

/-- The command is an XREC. -/
def XEntry.isRec (e : XEntry) : Bool := match decSlot 6 e.word with | .op (.xrec _) => true | _ => false

/-- XCANCEL; the issue table is rebuilt where it discards an XREC (R252). -/
def execXcancel (p : Pred) (cm : BitVec 4) (sd : BitVec 5) (s : State) : Host.Outcome State Fault Refusal :=
  slotStep 6 (.xcancel p cm sd) p
    (fun o =>
      let (n, c) := (List.range 4).foldl (fun (acc : Nat × Ctx) q =>
        if cm.getLsbD q then (let (m, c) := acc.2.discard q; (acc.1 + m, c)) else acc) (0, o.c)
      let recs := o.c.unstarted.any fun x => cm.getLsbD x.1 && x.2.isRec
      ({ o with c := if recs then c.rebuildItab else c } : Op).land 2 (.sreg sd.toNat (BitVec.ofNat 64 n))) s

/-- XNOP (R104). -/
def execXnop (hint : BitVec 4) (val : BitVec 56) (s : State) : Host.Outcome State Fault Refusal :=
  slotStep 6 (.xnop hint val) ⟨false, 0⟩ (fun o => o) s

end Sys2Proof.Machine
end

