-- ==== Sys2Proof/Machine/Cells.lean ====
section
/-! DEFINITION. Memory quire cells (R63, R64), and the beats of the commands that walk them or move bytes
(R212, R214, R230, R238-R248). -/

namespace Sys2Proof.Machine

/-! ### Quire cells (Tables 3.6, 3.7) -/

structure Cell where
  /-- A: 544 bits -/
  a : BitVec 544 := 0
  adds : BitVec 32 := 0
  lim : Bool := false
  ovf : Bool := false
  nars : Bool := false
  nans : Bool := false
  infs : Bool := false
  deriving DecidableEq, Repr

def Cell.ofBytes (bs : List Byte) : Cell :=
  let n := ofLe bs
  let h := BitVec.ofNat 64 (n / 2 ^ 512)
  { a := BitVec.ofNat 32 (n / 2 ^ 576) ++ BitVec.ofNat 512 n
    adds := (h >>> 32).setWidth 32
    lim := h.getLsbD 4, ovf := h.getLsbD 3, nars := h.getLsbD 2, nans := h.getLsbD 1, infs := h.getLsbD 0 }

def Cell.bytes (c : Cell) : List Byte :=
  let flags : BitVec 5 := BitVec.ofBool c.lim ++ BitVec.ofBool c.ovf ++ BitVec.ofBool c.nars ++ BitVec.ofBool c.nans ++ BitVec.ofBool c.infs
  let h : BitVec 64 := c.adds ++ flags.setWidth 32
  leBytes 64 (c.a.setWidth 512).toNat ++ leBytes 8 h.toNat ++ leBytes 4 (c.a.extractLsb' 512 32).toNat ++ leBytes 52 0

/-- The kinds of addend. -/
inductive Addend where
  | units (n : Int)
  | nar
  | nan
  | inf
  deriving DecidableEq, Repr

/-- One addend: the four steps of R64. -/
def Cell.add (c : Cell) (x : Addend) : Cell :=
  let adds := if c.adds = BitVec.allOnes 32 then c.adds else c.adds + 1
  let c := { c with adds, lim := c.lim || adds = BitVec.allOnes 32 }
  let c := match x with
    | .units n => { c with a := c.a + BitVec.ofInt 544 n }
    | .nar => { c with nars := true }
    | .nan => { c with nans := true }
    | .inf => { c with infs := true }
  { c with ovf := c.a.toInt > quireLimit || c.a.toInt < -quireLimit }

/-- The value of a cell. -/
def Cell.val (c : Cell) : Val :=
  if c.infs || c.nans || c.nars || c.ovf || c.lim then .nar else .real ((⟨c.a.toInt, 1⟩ : Rat2).scale (-240))

/-- The addend a near element of XQADD gives (R246). -/
def addendOf (f : Fmt) (raw : Bool) (x : Nat) : Addend :=
  if raw then (if BitVec.ofNat 512 x = nar512 then .nar else .units (BitVec.ofNat 512 x).toInt)
  else
    match decodeF f x with
    | .inf _ => .inf
    | .nan _ => .nan
    | .nar => .nar
    | v => .units ((valUnits v).getD 0)

/-! ### Beats of moves -/

/-- Bytes to move, by 64-byte block of the destination: the newest block first, and in each block the newest byte first. -/
abbrev Moves := List (Place × List (Nat × Source))

def Moves.add (m : Moves) (d : Place) (x : Source) : Moves :=
  match m with
  | [] => [(d.block, [(d.addr % 64, x)])]
  | (b, xs) :: m => if b = d.block then (b, (d.addr % 64, x) :: xs) :: m else (b, xs) :: Moves.add m d x

/-- One beat for each block, in the order in which the walk reaches the blocks; a byte written twice keeps the later element
(R239, R334). -/
def Moves.beats (m : Moves) : List Beat :=
  m.map fun x => .move x.1 ((List.range 64).map fun i => (x.2.find? fun y => y.1 = i).map (·.2))

/-- Byte `j` of the pad element (Table 11.3). -/
def Tensor.pad (t : Tensor) (j : Nat) : Source := .pad (BitVec.ofNat 8 (t.padv / 256 ^ (j % 8)))

def srcOf (p : Option Place) : Source :=
  match p with
  | some p => .byte p
  | none => .pad 0

/-- The pairs of destination and source byte of one element. -/
def XView.elBytes (v : XView) (t : Tensor) (far near : Side) (x : El) : List (Option Place × Source) :=
  (List.range t.es).map fun j =>
    let n := v.place near (t.noff + x.n * t.es + j)
    if t.dir then (v.place far (x.foff + j), srcOf n)
    else (n, if x.inb then srcOf (v.place far (x.foff + j)) else t.pad j)

def addPairs (m : Moves) (ps : List (Option Place × Source)) : Moves :=
  ps.foldl (fun m p => match p.1 with | some d => m.add d p.2 | none => m) m

/-- The beats of XCOPY, XGATH and XSCAT. -/
def State.moveBeats (s : State) (v : XView) (i : Instr) (t : Tensor) : List Beat :=
  let far := v.side t.farh
  let near := v.near i t
  let (els, bad) := s.walked v i t
  let beats := (els.foldl (fun m x => addPairs m (v.elBytes t far near x)) []).beats
  beats ++ (match bad with | some d => [.bad d] | none => [])

/-- Lists of 256. -/
def chunk256 (n : Nat) (xs : List Source) : List (List Source) :=
  match n with
  | 0 => []
  | n + 1 => xs.take 256 :: chunk256 n (xs.drop 256)

/-- The FIFO entries of an XFILL (R240). -/
def XView.fillBeats (v : XView) (f : FS) (t : Tensor) : List Beat :=
  let far := v.side t.farh
  let bytes := (t.els none).flatMap fun x => (v.elBytes t far .win x).map (·.2)
  (chunk256 (t.bytes / 256) bytes).map (.entry f)

/-- The addends of an XQADD (R246). -/
def XView.addBeats (v : XView) (o : XeArgs) (i : Instr) (t : Tensor) : List Beat :=
  let far := v.side t.farh
  let near := v.near i t
  let w := nearBits o (o.cmd.getLsbD 0)
  (t.els none).filterMap fun x =>
    (v.place far x.foff).map fun cell =>
      .addend cell ((List.range ((w + 7) / 8)).filterMap fun j => v.place near (t.noff + x.n * w / 8 + j))
        (if w = 4 then some (x.n % 2 = 1) else none)

/-- The places of the bytes of near element `n` of an XQRD whose elements have `w` bits. -/
def XView.nearPlaces (v : XView) (near : Side) (t : Tensor) (w n : Nat) : List Place :=
  (List.range ((w + 7) / 8)).filterMap fun j => v.place near (t.noff + n * w / 8 + j)

/-- The near elements of an XQRD by 64-byte block of the near side, each in the block of its first byte (R247, R334). -/
def XView.drainBeats (v : XView) (o : XeArgs) (i : Instr) (t : Tensor) : List Beat :=
  let far := v.side t.farh
  let near := v.near i t
  let els := (t.els none).map fun x => (x, (v.nearPlaces near t o.fmt.width x.n).map Place.block)
  ((els.flatMap (·.2)).eraseDups).map fun b =>
    .drain b (els.any fun x => x.2.contains b && x.2.head? ≠ some b)
      ((els.filter fun x => x.2.head? = some b).map fun x => (if x.1.inb then v.place far x.1.foff else none, x.1.c0, x.1.c1, x.1.n))

/-- The beats of one row of an XCSR: its entries, and after them its count (R230, R242). -/
def XView.rowBeats (v : XView) (a : Csr) (napp r x y : Nat) : List Beat :=
  let n := y - x
  let run (h : BitVec 8) (src dst size : Nat) : List (Option Place × Source) :=
    (List.range (size * n)).map fun j => (v.place .win (dst + size * napp + j), srcOf (v.place (v.side h) (src + size * x + j)))
  let cnt := addPairs [] ((List.range 4).map fun j => (v.place .win (a.bcnt + 4 * r + j), .pad (BitVec.ofNat 8 (n / 256 ^ j))))
  (addPairs [] (run a.cih a.cioff a.bci 4)).beats ++ (addPairs [] (run a.vlh a.vloff a.bvl (2 ^ a.esz))).beats ++
    cnt.beats.filterMap fun b => match b with | .move p bs => some (.csrCount p bs) | _ => none

def XView.clearBeats (v : XView) (t : Tensor) : List Beat :=
  (t.els none).filterMap fun x => (v.place (v.side t.farh) x.foff).map .clear

/-! ### XATOM (R244) -/

/-- The new value of the word, none for a failed comparison; values are modulo `2 ^ w`. -/
def atomNew (aop w old a b : Nat) : Option Nat :=
  match aop with
  | 0 => some ((old + a) % 2 ^ w)
  | 1 => some (modW w (min (signedOf w old) (signedOf w a)))
  | 2 => some (modW w (max (signedOf w old) (signedOf w a)))
  | 3 => some (old &&& a)
  | 4 => some (old ||| a)
  | 5 => some (old ^^^ a)
  | 6 => some a
  | _ => if old = b then some a else none

end Sys2Proof.Machine
end

