-- ==== Sys2Proof/Machine/Engine.lean ====
section
/-! DEFINITION. The transfer engine after issue: commands start, their beats land, they complete and perform their actions,
adds reach other tiles and arrival counters release (R206, R207, R212-R225, R230-R234, R238-R255, R334-R345). -/

namespace Sys2Proof.Machine

/-! ### Ended commands (R251) -/

/-- `i` comes before `n` in the numbering modulo 2^16. -/
def idxBelow (i n : BitVec 16) : Bool := (n - 1 - i).toNat < 2 ^ 15

/-- Every command of queue `q` below index `n` has ended. -/
def Ctx.endedBelow (c : Ctx) (q : Nat) (n : BitVec 16) : Bool :=
  let x := c.queue q
  !(c.commands.any fun y => y.1 = q && idxBelow y.2.idx n) &&
    !(x.qs ≠ 0 && x.ecode ≠ cXOVC && (match x.bad with | some (i, _) => idxBelow i n | none => false))

/-- The joined commands of an XJOIN have ended. -/
def Ctx.joined (c : Ctx) (jm : BitVec 4) (e : XEntry) : Bool :=
  (List.range 4).all fun r => !jm.getLsbD r || c.endedBelow r ((e.vals.getD r 0).setWidth 16)

/-! ### Handles of a command -/

/-- The handle numbers a command uses: its sides and its action. -/
def handlesOf (i : Instr) (e : XEntry) : List Nat :=
  let h (b : BitVec 8) : List Nat := if b.getLsbD 7 then [] else [b.toNat % 64]
  let act (a : ActF) : List Nat := if a.cact = 0 then [] else h a.chdl
  let tensor (o : XeArgs) : List Nat :=
    let t := tensorOf e.recs e.vals o.en
    h t.farh ++ h t.nearh ++ act t.act
  match i with
  | .xcopy o | .xgath o | .xscat o | .xqadd o | .xqrd o => tensor o
  | .xfill o | .xdec o | .xqclr o => (let t := tensorOf e.recs e.vals o.en; h t.farh ++ act t.act)
  | .xcsr o => (let a := csrOf e.recs e.vals o.en; h a.rph ++ h a.cih ++ h a.vlh ++ act a.act)
  | .xatom o => (let a := atomOf e.recs e.vals o.en; h a.tgth ++ act a.act)
  | .xarm _ => (let a := armOf e.recs; h a.rgnh ++ a.rel.flatMap fun x => h x.1)
  | .xsig o => if o.l then [] else [o.h.toNat]
  | .xword o => if o.l then [] else [o.h.toNat]
  | _ => []

/-- Every context of the launch has retired (R125, R389). -/
def Launch.allRetired (l : Launch) : Bool :=
  !l.furrows.isEmpty && l.furrows.all fun f => (List.range f.mem.length).all fun i => l.retired.contains (i, f.fy)

/-- The launch that a record or a message was resolved to: the one of that name with that accepted entry. A later launch of the same name
is another one. -/
def State.bearer (s : State) (id : LId) (gen : Nat) : Option Launch :=
  (findLaunch s.ctd.launches id).bind fun l => if l.accSeq = gen then some l else none

/-- A target tile whose launch has retired or been killed (R117, R218). One whose contexts have left the die of the tile counts as
retired there, since R144 gives its tiles to others (DEDUCED, log entry 120). -/
def State.gone (s : State) (v : XView) (hs : List Nat) : Bool :=
  hs.any fun h =>
    let r := v.region h
    (r.cls = 4 || r.cls = 5) &&
      (match r.owner.bind fun id => s.bearer id r.gen with
       | some l => l.phase = .ending || l.allRetired || l.reported.contains (dieOf r.tile)
       | none => true)

/-- The record's far side or target lies on a die whose traffic goes round it (R386). -/
def Region.onDie (r : Region) (die : Nat) : Bool :=
  match r.cls.toNat with
  | 1 | 6 => !r.qloc && r.ext.any fun x =>
      (x.1 * 2 ^ 21) / (72 * 2 ^ 30) ≤ die && die ≤ ((x.1 + x.2) * 2 ^ 21 - 1) / (72 * 2 ^ 30)
  | 4 | 5 => dieOf r.tile = die
  | _ => false

/-- The fault that the checks at start find (R218, R255, R386). -/
def State.startErr (s : State) (v : XView) (i : Instr) (e : XEntry) : Option (BitVec 8) :=
  let hs := handlesOf i e
  if s.gone v hs then some cRGN
  else if hs.any (fun h => s.ctd.detours.any fun d => (v.region h).onDie d) then some cXLOSS
  else if hs.any (fun h => decide (h ≥ 48)) then
    (match v.check i e with
     | some .bnd => some cBND
     -- a quire command whose far side is now of another class fails in its class (R255)
     | some _ => some cRGN
     | none => none)
  else none

/-! ### Landing -/

def State.launchOf (s : State) (t : Nat) (k : BitVec 2) : Option LId := (s.ctx t k).launch

/-- Bits [37:6] of an address (Table 11.2). -/
def blockWord (a : Nat) : BitVec 32 := BitVec.ofNat 32 (a / 64)

/-- Land bytes of a command at a place, unless they meet an uncorrectable error there (R348): the state, or the failing block. -/
def State.put (s : State) (by_ : Option LId) (p : Place) (bs : List (Byte × Bool)) : Except Place State :=
  match s.badIn p bs with
  | some b => .error (p.at (64 * b))
  | none => .ok (s.landBeatAt by_ p bs)

/-- The places of a run of bytes of a side, cut where they do not follow each other. -/
def XView.runs (v : XView) (d : Side) (off : Nat) : List Byte → List (Place × List Byte)
  | [] => []
  | b :: bs =>
    match v.place d off with
    | none => XView.runs v d (off + 1) bs
    | some p =>
      match XView.runs v d (off + 1) bs with
      | (q, xs) :: r => if q = p.plus 1 then (p, b :: xs) :: r else (p, [b]) :: (q, xs) :: r
      | [] => [(p, [b])]

/-- Write bytes at an offset of a side, in one step: all of them, or none (R217, R250). -/
def State.putAt (s : State) (by_ : Option LId) (v : XView) (d : Side) (off : Nat) (bs : List Byte) : Except Place State :=
  let runs := v.runs d off bs
  match runs.findSome? fun x => (s.badIn x.1 (allOn x.2)).map fun b => x.1.at (64 * b) with
  | some p => .error p
  | none => .ok (runs.foldl (fun s x => s.landBeatAt by_ x.1 (allOn x.2)) s)

/-- Write bytes at an offset of a side as beats of one 64-byte block each, as far as none meets an uncorrectable error: the failing
block beside the state (R334, R348). -/
def State.putBeats (s : State) (by_ : Option LId) (v : XView) (d : Side) (off : Nat) (bs : List Byte) : State × Option Place :=
  (v.runs d off bs).foldl (fun acc x =>
    (beatsOf x.1.addr (allOn x.2)).foldl (fun acc b =>
      match acc.2 with
      | some _ => acc
      | none => match acc.1.put by_ (x.1.at b.1) b.2 with
        | .ok s => (s, none)
        | .error p => (acc.1, some p)) acc) (s, none)

/-! ### Ends of commands -/

def State.setRun (s : State) (t : Nat) (k : BitVec 2) (q : Nat) (r : Option Started) : State :=
  s.updCtx t k fun c => c.setQueue q { c.queue q with run := r }

/-- The decompressor is free when its XDEC ends. -/
def State.freeDecomp (s : State) (t : Nat) (k : BitVec 2) (q : Nat) : State :=
  let x := s.tile t
  match x.decomp with
  | some d => if d.k = k && d.xq = q then s.setTile t { x with decomp := none } else s
  | none => s

/-- The action fields of a command. -/
def actionOf (i : Instr) (e : XEntry) : ActF :=
  match i with
  | .xcopy o | .xfill o | .xgath o | .xscat o | .xdec o | .xqadd o | .xqrd o | .xqclr o => (tensorOf e.recs e.vals o.en).act
  | .xcsr o => (csrOf e.recs e.vals o.en).act
  | .xatom o => (atomOf e.recs e.vals o.en).act
  | _ => {}

/-- The counters of its own context that the local action of a command adds to (R217, R232). -/
def XEntry.counters (e : XEntry) : List Nat :=
  match decSlot 6 e.word with
  | .op (.xsig o) => if o.l then [o.ctr.toNat] else []
  | .op i => (let a := actionOf i e; if a.cact = 1 && a.chdl.getLsbD 7 then [a.cctr] else [])
  | _ => []

/-- Command `e` of queue `q` takes the blame for the fault now pending there, unless one is pending already. -/
def Ctx.blame (c : Ctx) (q : Nat) (e : XEntry) : Ctx :=
  let x := c.queue q
  if x.qs ≠ 0 then c else c.setQueue q { x with badReach := e.reach, badCtrs := e.counters, badOrd := e.ord }

/-- The started command of a queue ends in an engine fault (R231). -/
def State.failRun (s : State) (t : Nat) (k : BitVec 2) (q : Nat) (cause : BitVec 8) (d0 d1 : BitVec 32) (ordinal : BitVec 16) :
    State :=
  match ((s.ctx t k).queue q).run with
  | none => s
  | some r =>
    let now := s.now
    ((s.freeDecomp t k q).updCtx t k fun c => (c.setQueue q { (c.queue q).close now r.e with run := none }).blame q r.e).engineFault
      t k q cause r.e.idx d0 d1 ordinal

/-- The started command of a queue meets an uncorrectable error: XMEM, and the unit is retired (R37, R348). -/
def State.failMem (s : State) (t : Nat) (k : BitVec 2) (q : Nat) (p : Place) : State :=
  (s.retireAt p).failRun t k q cXMEM (blockWord p.addr) 0 0

/-- The started command of a queue completes (R206). -/
def State.endRun (s : State) (t : Nat) (k : BitVec 2) (q : Nat) : State :=
  (s.freeDecomp t k q).updCtx t k fun c =>
    let x := (c.queue q).mark s.now
    let x := match x.run with | some r => x.close s.now r.e | none => x
    c.setQueue q { x with run := none, done := x.done + 1 }

/-! ### Acknowledgement (R222, R406) -/

/-- The arrival counters that have counted their bytes and not yet released. -/
def State.dueList (s : State) : List (ArrLoc × Nat) :=
  (s.tiles.flatMap fun e => e.2.arr.filterMap fun a => if a.2.due then some (ArrLoc.tile e.1, a.1) else none) ++
    (s.arrHbm.filterMap fun a => if a.2.due then some (ArrLoc.hbm (a.1 / 64), a.1 % 64) else none) ++
    s.arrLpddr.filterMap fun a => if a.2.due then some (ArrLoc.lpddr, a.1) else none

/-- The counters that came to their totals since a state. -/
def State.dueSince (s s0 : State) : List (ArrLoc × Nat) := s.dueList.filter fun x => !s0.dueList.contains x

/-- The started command of a queue waits for the releases that its landing since a state has caused. Those that a timed command causes
come at once, so that its declared cycle holds (DEDUCED, log entry 122). -/
def State.owe (s s0 : State) (t : Nat) (k : BitVec 2) (q : Nat) : State :=
  let new_ := s.dueSince s0
  if new_.isEmpty then s
  else
    let s := s.updCtx t k fun c =>
      let x := c.queue q
      c.setQueue q { x with run := x.run.map fun r => { r with owed := r.owed ++ new_ } }
    if (s.ctx t k).timed then { s with agenda := new_.map (fun x => .arrivalRelease x.1 x.2) ++ s.agenda } else s

/-- The last word of a command has been written: it completes, unless that word has caused a release, which then comes first. -/
def State.acknowledge (s s0 : State) (t : Nat) (k : BitVec 2) (q : Nat) (r : Started) : State :=
  if (s.dueSince s0).isEmpty then s.endRun t k q
  else
    let s := s.setRun t k q (some { r with wrote := true })
    (if (s.ctx t k).timed then { s with agenda := .xeCommandComplete t k (BitVec.ofNat 2 q) :: s.agenda } else s).owe s0 t k q

/-! ### Adds to the counters of other contexts (R218) -/

/-- Where a context of a launch stands: its tile and number, or its field coordinate while it is saved; or it has retired. -/
inductive Where where
  | at (t : Nat) (k : BitVec 2)
  | saved (fx fy : Nat)
  | retired
  | nowhere
  deriving DecidableEq, Repr

/-- The context of a launch with a field coordinate, wherever it stands now. -/
def State.locateAt (s : State) (id : LId) (gen fx fy : Nat) : Where :=
  if (s.bearer id gen).isNone then .nowhere
  else if s.ctd.savedAt.any fun x => x.id = id && x.fx = fx && x.fy = fy then .saved fx fy
  else
    match s.contextAt id fx fy with
    | some (t, k) => if (s.ctx t k).life = .retired || (s.ctx t k).life = .stopped then .retired else .at t k
    | none => match findLaunch s.ctd.launches id with
      | some l => if l.retired.contains (fx, fy) then .retired else .nowhere
      | none => .nowhere

/-- The context that stood at a tile and number when a record was resolved, wherever it stands now. -/
def State.locate (s : State) (id : LId) (gen t : Nat) : Where :=
  match (findLaunch s.ctd.launches id).bind fun l => l.coord t with
  | none => .nowhere
  | some (fx, fy) => s.locateAt id gen fx fy

/-- Perform an add at its target: whether it was applied, held, or dropped by a context that has retired, which faults no command
(R218, R389; DEDUCED, log entry 106). -/
def State.addTo (s : State) (src : Option LId) (id : LId) (w : Where) (ctr : Nat) (amt : Word) : State × Bool :=
  match w with
  | .nowhere => (s, false)
  | .retired => (s, true)
  | .saved fx fy => ({ s with ctd := { s.ctd with heldAdds := s.ctd.heldAdds ++ [(id, fx, fy, ctr, amt)] } }, true)
  | .at t k =>
    match (s.ctx t k).counter ctr with
    | some phys => (s.setTile t ((s.tile t).addCounter src phys amt), true)
    | none => (s, false)

def State.remoteAdd (s : State) (src : Option LId) (id : LId) (gen t : Nat) (ctr : Nat) (amt : Word) : State × Bool :=
  s.addTo src id (s.locate id gen t) ctr amt

/-- Send an add to the context a sync region names. In elastic mode it travels as a message; a timed command performs it in
its declared cycle. -/
def State.sendAdd (s : State) (t : Nat) (k : BitVec 2) (q : Nat) (r : Region) (ctr : Nat) (amt : Word) (timed : Bool) : State :=
  let src := s.launchOf t k
  match r.owner with
  | none => s.failRun t k q cRGN 0 0 0
  | some id =>
    if timed then
      let (s, ok) := s.remoteAdd src id r.gen r.tile ctr amt
      if ok then s.endRun t k q else s.failRun t k q cRGN 0 0 0
    else
      let c := s.ctx t k
      match (c.queue q).run with
      | none => s
      | some x =>
        let s := s.setRun t k q (some { x with acting := true })
        { s with ctd := { s.ctd with adds := s.ctd.adds ++
          [{ id, t := r.tile, k := r.k, ctr, amt, src, from_ := some (t, k, q), gen := r.gen }] } }

/-- An add arrives (R217, R218, R249): an unmapped counter drops it and faults its command. -/
def execRemoteAddArrival (q : BitVec 6) (i : BitVec 32) (t : Nat) (k : BitVec 2) (ctr : BitVec 6) (amt : BitVec 64) (s : State) :
    Host.Outcome State Fault Refusal :=
  match s.ctd.adds.find? fun m => m.id = ⟨q, i⟩ && m.t = t && m.k = k && m.ctr = ctr.toNat && m.amt = amt with
  | none => .refused (.notEnabled "REMOTE_ADD_ARRIVAL")
  | some m =>
    let s := { s with ctd := { s.ctd with adds := s.ctd.adds.erase m } }
    let (s, ok) := s.remoteAdd m.src m.id m.gen m.t m.ctr m.amt
    match m.from_ with
    | none => .next s
    | some (ft, fk, fq) =>
      if s.launchOf ft fk ≠ m.src then .next s
      else .next (if ok then s.endRun ft fk fq else s.failRun ft fk fq cRGN 0 0 0)

/-! ### Reading sources (R337) -/

/-- A block of the source as the command has read it, or reads it now (R337). -/
def State.block (s : State) (cap : List (Place × List Byte)) (p : Place) : List Byte × List (Place × List Byte) :=
  match cap.find? fun x => x.1 = p with
  | some x => (x.2, cap)
  | none =>
    let bs := s.readPlace p 64
    (bs, (p, bs) :: cap)

/-- The bytes of a list of sources, with the blocks then read; the first bad block. -/
def State.sources (s : State) (cap : List (Place × List Byte)) :
    List (Option Source) → List (Byte × Bool) × List (Place × List Byte) × Option Place
  | [] => ([], cap, none)
  | x :: xs =>
    match x with
    | none => (let (bs, cap, e) := State.sources s cap xs; ((0, false) :: bs, cap, e))
    | some (.pad b) => (let (bs, cap, e) := State.sources s cap xs; ((b, true) :: bs, cap, e))
    | some (.byte p) =>
      let bad := !(cap.any fun x => x.1 = p.block) && (s.badIn p [(0, false)]).isSome
      let (blk, cap) := s.block cap p.block
      let (bs, cap, e) := State.sources s cap xs
      ((blk.getD (p.addr % 64) 0, true) :: bs, cap, if bad then some p else e)

/-- The bytes at places that the command reads, the blocks then read, and the first bad block. -/
def State.readVia (s : State) (cap : List (Place × List Byte)) (ps : List (Option Place)) :
    List Byte × List (Place × List Byte) × Option Place :=
  let (bs, cap, e) := s.sources cap (ps.map fun p => p.map .byte)
  (bs.map (·.1), cap, e)

/-! ### Routes (R387) -/

/-- The next die of a beat that keeps to die row `row` and goes to (`r`, `c`), at (`y`, `x`): along the row, then across. It leaves the
row before the column of a die of `down` that stands in its way there, and returns after that column. -/
def routeStep (down : List Nat) (row r c y x : Nat) : Nat × Nat :=
  let d (y x : Nat) : Nat := 4 * y + x
  let bars (z : Nat) : Bool := down.contains (d row z) && d row z ≠ d r c
  if x = c then (r, x)
  else
    let x' := if x < c then x + 1 else x - 1
    if y = row then (if bars x' then (1 - y, x) else (y, x'))
    else if bars x || bars x' then (y, x')
    else (row, x)

/-- The dies of a route from (`y`, `x`) to (`r`, `c`). -/
def routeGo (down : List Nat) (row r c : Nat) : Nat → Nat → Nat → List Nat
  | 0, _, _ => []
  | n + 1, y, x =>
    if y = r && x = c then [4 * y + x]
    else
      let p := routeStep down row r c y x
      (4 * y + x) :: routeGo down row r c n p.1 p.2

/-- The dies that beats from die `a` to die `b` pass, both included; 8 is the CTD. Traffic to and from the CTD goes by the west die
of the row, or of the other row where that one is down. -/
def route (down : List Nat) (a b : Nat) : List Nat :=
  let west (n : Nat) : Nat := if down.contains (4 * (n / 4)) && n ≠ 4 * (n / 4) then 1 - n / 4 else n / 4
  if a = b then [a]
  else if a = 8 then 8 :: routeGo down (b / 4) (b / 4) (b % 4) 12 (west b) 0
  else if b = 8 then routeGo down (a / 4) (west a) 0 12 (a / 4) (a % 4) ++ [8]
  else routeGo down (a / 4) (b / 4) (b % 4) 12 (a / 4) (a % 4)

/-- The dies that the beats of a command pass on the routes now in force. -/
def State.routeOf (s : State) (v : XView) (i : Instr) (e : XEntry) : List Nat :=
  let here := dieOf v.t
  let dies := (handlesOf i e).flatMap fun h => (v.region h).dies
  (dies.flatMap fun d => route s.ctd.detours here d ++ route s.ctd.detours d here).eraseDups

/-! ### Starting (R206) -/

/-- The XDEC that holds or wants the decompressor belongs to an exclusive context. -/
def Tile.exclusiveWaits (x : Tile) : Bool :=
  allK.any fun k =>
    let c := x.get k
    c.exclusive && c.life ≠ .free && (List.range 4).any fun q =>
      let u := c.queue q
      u.run.isNone && u.qs = 0 && (match u.ents with
        | e :: _ => (match decSlot 6 e.word with | .op (.xdec _) => true | _ => false) && e.after.all c.endedOrd
        | [] => false)

/-- The engine of a tile may move `n` more bytes in this cycle: at most 512 (R207; what a beat counts is log entry 116, DEDUCED). -/
def Tile.mayMove (x : Tile) (n : Nat) : Bool := x.moved + n ≤ 512

def State.countMoved (s : State) (t n : Nat) : State := s.setTile t { s.tile t with moved := (s.tile t).moved + n }

/-- The bytes that an XATOM moves: its target's and those of its result. -/
def atomBytes (o : XeArgs) : Nat := (if o.cmd.getLsbD 3 then 8 else 4) + 8

/-- The bytes that the completion of a command writes: the word of an XWORD or of an action. -/
def actWordBytes (i : Instr) (e : XEntry) : Nat :=
  match i with
  | .xword _ => 8
  | _ => if (actionOf i e).cact = 2 then 8 else 0

/-- The words that an exclusive context may write in a cycle: the engine keeps their bytes free, so that its beats do not hold them up
(log entry 116). -/
def Tile.reserved (x : Tile) : Nat :=
  (allK.flatMap fun k =>
    let c := x.get k
    if !c.exclusive || c.life = .free then []
    else (List.range 4).flatMap fun q =>
      let u := c.queue q
      (match u.run with
       | some r => (match decSlot 6 r.e.word with | .op i => [actWordBytes i r.e] | _ => [])
       | none => []) ++
        (match u.ents.find? fun e => match decSlot 6 e.word with | .op (.xatom _) => true | _ => false with
         | some _ => [16]
         | none => [])).sum

/-- The head entry of a queue may start now. -/
def State.startable (s : State) (t : Nat) (k : BitVec 2) (q : Nat) : Option (XEntry × Instr) :=
  let x := s.tile t
  let c := x.get k
  let u := c.queue q
  if (c.life ≠ .running && c.life ≠ .retiring) || c.imgOp || u.run.isSome || u.qs ≠ 0 then none
  else
    match u.ents with
    | [] => none
    | e :: _ =>
      if !(e.after.all c.endedOrd) then none
      else
        match decSlot 6 e.word with
        | .op i =>
          (match i with
           | .xjoin _ _ jm => if c.joined jm e then some (e, i) else none
           | .xdec _ => if x.decomp.isNone && (c.exclusive || !x.exclusiveWaits) then some (e, i) else none
           | .xatom o => if c.exclusive || x.mayMove (atomBytes o) then some (e, i) else none
           | _ => some (e, i))
        | _ => none

/-- Cycles to decode the block at an offset of the stream (R228): its header and table, its bytes, and the CRC. -/
def blockCycles (hdr : List Byte) : Nat :=
  let raw := ofLe ((hdr.drop 4).take 2)
  let coding := (hdr.getD 3 0).toNat
  4 + ceilDiv raw (if coding = 0 then 512 else if coding = 1 then 64 else 32)

/-- Take the decompressor and begin the block at the stream position of a run; in fixed-timing mode the block's cycles enter
the declared latency (R234). -/
def State.beginBlock (s : State) (t : Nat) (k : BitVec 2) (q : Nat) : State :=
  let c := s.ctx t k
  match (c.queue q).run with
  | none => s
  | some r =>
    match decSlot 6 r.e.word with
    | .op (.xdec o) =>
      let v := c.xview t k r.regs
      let tn := tensorOf r.e.recs r.e.vals o.en
      let (hdr, cap, bad) := s.readVia r.cap (v.streamPlaces tn r.dpos (min 32 (tn.bytes - r.dpos)))
      match bad with
      | some p => s.failMem t k q p
      | none =>
        let n := blockCycles hdr
        let s := s.setTile t { s.tile t with decomp := some { k, xq := q, left := n } }
        s.setRun t k q (some { r with cap, e := { r.e with due := r.e.due.map (· + n) } })
    | _ => s

/-- The indices of an XGATH or XSCAT, read as it starts: the blocks read, or the bad one (R214). -/
def State.readList (s : State) (v : XView) (t : Tensor) : List (Place × List Byte) × Option Place :=
  (s.readVia [] ((List.range (4 * (t.dims.getD 1 ⟨1, 0, 1, 0⟩).ext)).map fun j => v.place .win (t.xoff + j))).2

/-- A command that moves bytes outside its own scratchpad over bytes that it reads there (R239). It is recorded once, as the command
starts (DEDUCED, log entry 109). -/
def selfOverlap (t : Nat) (beats : List Beat) : Bool :=
  let src (b : Beat) : List Place := match b with
    | .move _ bs => bs.filterMap fun x => match x with | some (.byte p) => some p | _ => none
    | _ => []
  let reads := beats.flatMap src
  let blocks := (reads.map Place.block).eraseDups
  beats.any fun b => match b with
    | .move p bs => (match p with | .scratch u _ => u ≠ t | _ => true) && blocks.contains p &&
        (List.range 64).any fun i => (bs.getD i none).isSome && reads.contains (p.plus i)
    | _ => false

/-- The performance of an XATOM, one step in the controller's order; a failed comparison counts nothing (R221, R244). It comes after
the stores of its cycle (DESIGN CHOICE, log entry 111), and its own writes are none that its source window has to tell of (R337; DEDUCED,
log entry 123). -/
def State.atomic (s : State) (t : Nat) (k : BitVec 2) (q : Nat) (v : XView) (o : XeArgs) (e : XEntry) : State :=
  let by_ := v.c.launch
  let a := atomOf e.recs e.vals o.en
  let n := if o.cmd.getLsbD 3 then 8 else 4
  let d := v.side a.tgth
  let ps := (List.range n).map fun j => v.place d (a.toff + j)
  match ps.findSome? fun p => p.bind fun p => if (s.badIn p [(0, false)]).isSome then some p else none with
  | some p => s.failMem t k q p
  | none =>
    let old := ofLe (s.peek ps)
    let w := 8 * n
    let new := atomNew (o.cmd.toNat % 8) w old (a.opa.toNat % 2 ^ w) (a.opb.toNat % 2 ^ w)
    -- the target is written before the result word
    let target : List (Place × List Byte) := match new with | some x => v.runs d a.toff (leBytes n x) | none => []
    let s1 : State := target.foldl (fun (s : State) y => s.landBytes by_ y.1 (allOn y.2)) s
    let result := v.runs .win a.roff (leBytes 8 old)
    match result.findSome? fun x => (s1.badIn x.1 (allOn x.2)).map fun b => x.1.at (64 * b) with
    | some p => s1.failMem t k q p
    | none => result.foldl (fun (s : State) y =>
        if new.isSome then s.landBeatAt by_ y.1 (allOn y.2) else s.landData by_ y.1 (s.unstored y.1 (allOn y.2))) s1

/-- The arm, the atomic or the beats of a started command. Its reach and blocks are those of the records as they then stand (DEDUCED,
log entry 110). -/
def State.started (s : State) (t : Nat) (k : BitVec 2) (q : Nat) (e : XEntry) (i : Instr) : State :=
  let c := s.ctx t k
  let by_ := c.launch
  let v := c.xview t k c.ttab
  let (rd, wr) := s.blocks v i e
  let e := { e with rd, wr, reach := s.reach v i e }
  let route := s.routeOf v i e
  let go (s : State) (beats : List Beat) : State := s.setRun t k q (some { e, beats, regs := c.ttab, route })
  let s0 := go s []
  let move (o : XeArgs) : State :=
    let beats := s.moveBeats v i (tensorOf e.recs e.vals o.en)
    let s := go s beats
    if selfOverlap t beats then s.updCtx t k fun c => c.event s.now dcrSRCW e.off 6 1 else s
  let listed (o : XeArgs) : State :=
    match s.readList v (tensorOf e.recs e.vals o.en) with
    | (_, some p) => s0.failMem t k q p
    | (cap, none) => (move o).updCtx t k fun c =>
        c.setQueue q { c.queue q with run := (c.queue q).run.map fun r => { r with cap } }
  match i with
  | .xjoin _ _ _ => s0.endRun t k q
  | .xrec _ =>
    let s := s0.updCtx t k fun c => { c with ttab := c.installed c.ttab e }
    if c.timed then s.setRun t k q (some { e := { e with due := some (s.now + 1) }, regs := c.ttab }) else s.endRun t k q
  | .xsig _ => s0
  | .xarm _ =>
    let a := armOf e.recs
    match v.place (v.side a.rgnh) a.spoff with
    | none => s0.failRun t k q cBND 0 0 0
    | some p =>
      match p.counters, by_ with
      | some l, some id =>
        let x := s0.arrival l a.idx
        if x.st ≠ 0 && x.own ≠ id then s0.failRun t k q cXARMD 0 (arrWord l a.idx) 0
        else
          let tenant := match findLaunch s0.ctd.launches id with | some n => n.tenant | none => 0
          s0.setArrival l a.idx
            { st := 1, gen := x.gen + 1, ownt := tenant, nrel := a.nrel, side := a.side, slot := a.slot, own := id, base := p.addr
              len := a.splen, total := a.total, rel := e.rel
              arm := { t, k, fx := c.pos, fy := fieldFy c.field, q, idx := e.idx }, armOff := e.off }
      | _, _ => s0
  | .xatom o =>
    let s1 := if c.exclusive then s0 else s0.countMoved t (atomBytes o)
    let s2 := ((s1.setRun t k q (some { e := { e with rd := [] }, regs := c.ttab, route })).atomic t k q v o e).owe s1 t k q
    s2.updCtx t k fun c =>
      let x := c.queue q
      c.setQueue q { x with run := x.run.map fun r => { r with e := { r.e with rd } } }
  | .xcopy o => move o
  | .xgath o | .xscat o => listed o
  | .xfill o => go s (v.fillBeats (FS.ofBit (o.cmd.getLsbD 0)) (tensorOf e.recs e.vals o.en))
  | .xdec _ => s0.beginBlock t k q
  | .xqadd o => go s (v.addBeats o i (tensorOf e.recs e.vals o.en))
  | .xqrd o => go s (v.drainBeats o i (tensorOf e.recs e.vals o.en))
  | .xqclr o => go s (v.clearBeats (tensorOf e.recs e.vals o.en))
  | .xcsr o => go s ((List.range (csrOf e.recs e.vals o.en).nrows).map .csrRow)
  | _ => s0

/-- A command starts. The checks of its dynamic records may end it in an engine fault (R255). -/
def execXeCommandStart (t : Nat) (k : BitVec 2) (xq : BitVec 2) (s : State) : Host.Outcome State Fault Refusal :=
  match s.startable t k xq.toNat with
  | none => .refused (.notEnabled "XE_COMMAND_START")
  | some (e, i) =>
    let c := s.ctx t k
    let q := c.queue xq.toNat
    let s1 := s.setCtx t k (c.setQueue xq.toNat { q with ents := q.ents.tail })
    match s1.startErr (c.xview t k c.ttab) i e with
    | some cause =>
      .next ((s1.updCtx t k (·.blame xq.toNat e)).engineFault t k xq.toNat cause e.idx 0 0 0)
    | none => .next (s1.started t k xq.toNat e i)

/-! ### Beats (R334, R337) -/

/-- The source blocks of a beat. -/
def Beat.reads : Beat → List Place
  | .move _ bs => bs.filterMap fun x => match x with | some (.byte p) => some p.block | _ => none
  | .entry _ bs => bs.filterMap fun x => match x with | .byte p => some p.block | _ => none
  | .addend _ near _ => near.map Place.block
  | _ => []

/-- Blocks the command may read ahead of their beats, as many as the hardware chooses (R337); a block with an uncorrectable error
is met by the beat that needs it (R37). -/
def State.readAhead (s : State) (r : Started) : Started × State :=
  let (n, s) := s.choose
  let ps := ((r.beats.flatMap Beat.reads).eraseDups).filter fun p =>
    !(r.cap.any fun x => x.1 = p) && (s.badIn p (List.replicate 64 (0, false))).isNone
  ({ r with cap := (ps.take n).foldl (fun cap p => (s.block cap p).2) r.cap }, s)

/-- The beat lands after every beat that stands before it in the command's list. -/
def Beat.ordered : Beat → Bool
  | .entry _ _ | .csrRow _ | .csrCount _ _ | .bad _ => true
  | .drain _ chain _ => chain
  | _ => false

/-- The beat `n` may land now: no beat up to it waits for one before it. -/
def Started.mayLand (r : Started) (n : Nat) : Bool :=
  n < r.beats.length && (n = 0 || !((r.beats.take (n + 1)).any Beat.ordered))

/-- Elements of an XQRD read, rounded and packed into the block they share: the state with the cleared cells, and the bytes
by offset of the near side (R247). -/
def State.drainEls (s : State) (by_ : Option LId) (e : XEntry) (o : XeArgs) (t : Tensor)
    (els : List (Option Place × BitVec 32 × BitVec 32 × Nat)) : Except Place (State × List (Nat × Nat)) :=
  let rm := (RM.ofCode (o.cmd.extractLsb' 0 2)).getD .rne
  els.foldlM (fun (acc : State × List (Nat × Nat)) x =>
    let (s, vals) := acc
    match x.1 with
    | none => .ok (s, vals ++ [(x.2.2.2, t.padv % 2 ^ o.fmt.width)])
    | some cell =>
      if (s.badIn cell [(0, false)]).isSome || (s.badIn (cell.plus 64) [(0, false)]).isSome then .error cell
      else
        let c := Cell.ofBytes (s.readPlace cell 128)
        let u := draw e.key (BitVec.ofNat 16 t.xoff) (e.step.setWidth 32) x.2.2.1 x.2.1
        let r := (roundVal rm o.fmt u c.val).1
        let s := if o.cmd.getLsbD 2 then s.landBytes by_ cell (allOn (leBytes 128 0)) else s
        .ok (s, vals ++ [(x.2.2.2, r)])) (s, [])

/-- The bytes of drained elements and their places. Two 4-bit elements share a byte, the even one low; the manual does not say what
the other half holds where the last element is even, and it is a free value. -/
def XView.packDrain (v : XView) (near : Side) (t : Tensor) (w free : Nat) (vals : List (Nat × Nat)) : List (Place × Byte) :=
  if w = 4 then
    let at_ (n : Nat) : Nat := ((vals.find? fun x => x.1 = n).map (·.2)).getD (free % 16)
    ((vals.map fun x => x.1 / 2).eraseDups).flatMap fun b =>
      (v.nearPlaces near t w (2 * b)).map fun p => (p, BitVec.ofNat 8 (at_ (2 * b) + 16 * at_ (2 * b + 1)))
  else vals.flatMap fun x => (v.nearPlaces near t w x.1).zip (leBytes (w / 8) x.2)

/-- The bytes of a list that lie in one block, as a masked write of the block. -/
def inBlock (base : Place) (bs : List (Place × Byte)) : List (Byte × Bool) :=
  (List.range 64).map fun i => match bs.find? fun x => x.1 = base.plus i with | some x => (x.2, true) | none => (0, false)

/-- A FIFO entry may be filled now: a free entry, or a retiring context, which discards it (R389); and in fixed-timing mode its
cycle has come (R234, R240). -/
def Ctx.mayFill (c : Ctx) (now : Nat) (f : FS) (e : XEntry) (j : Nat) : Bool :=
  (c.life = .retiring || (c.toCore.fifo f).free > 0) && (e.due.isNone || e.fifoDue + j / 2 ≤ now)

/-- The FIFO of an XFILL. -/
def fillTarget : Instr → Option FS
  | .xfill o => some (FS.ofBit (o.cmd.getLsbD 0))
  | _ => none

/-- A command's next FIFO entry: appended, or discarded by a retiring context (R389). A timed command's is available in its very
cycle (R234). -/
def Ctx.pushFill (c : Ctx) (f : FS) (off : BitVec 16) (v : Vec) : Ctx :=
  if c.life = .retiring then c
  else
    let (en, x) := (c.toCore.fifo f).take
    if c.timed then c.setFifo f (x.fill en v)
    else
      let c := c.setFifo f x
      { c with inflight := c.inflight ++ [{ left := 1, serial := c.serial, slot := 6, off, hash := none, w := .fifoFill f en v }] }

/-- The bytes that a beat moves. -/
def Beat.size (i : Instr) : Beat → Nat
  | .move _ bs | .csrCount _ bs => (bs.filter (·.isSome)).length
  | .entry _ _ => 256
  | .addend _ near _ => near.length
  | .drain _ _ els => match i with | .xqrd o => (els.length * o.fmt.width + 7) / 8 | _ => 0
  | .csrRow _ => 4
  | .clear _ | .bad _ => 0

/-- Beats of the command may still come: they do not wait for the return of a die on its route (R387). -/
def State.reachable (s : State) (r : Started) : Bool :=
  match r.held with
  | some (d, n) => n < r.beats.length || !s.ctd.detours.contains d
  | none => true

/-- The bytes that beat `n` of a started command moves. -/
def Started.sizeAt (r : Started) (n : Nat) : Nat :=
  match decSlot 6 r.e.word, r.beats[n]? with
  | .op i, some b => b.size i
  | _, _ => 0

/-- Beat `n` of a started command moves its bytes. Those of a timed command's FIFO entry may come before its cycle, and then wait
(R159, R234). -/
def State.moveBeat (s : State) (t : Nat) (k : BitVec 2) (q : Nat) (r : Started) (n : Nat) : State :=
  let c := s.ctx t k
  let by_ := c.launch
  let v := c.xview t k r.regs
  let bad (s : State) (b : Place) : State := s.failMem t k q b
  let rest (r : Started) : Started := { r with beats := r.beats.eraseIdx n }
  let (r, s) := s.readAhead r
  let s := s.setRun t k q (some r)
  match r.beats[n]?, decSlot 6 r.e.word with
  | some b, .op i =>
    match b with
    | .move p bs | .csrCount p bs =>
      let (ws, cap, e) := s.sources r.cap bs
      (match e with
       | some b => bad s b
       | none =>
         match s.put by_ p ws with
         | .error b => bad s b
         | .ok s => s.setRun t k q (some (rest { r with cap })))
    | .entry f bs =>
      let (ws, cap, e) := s.sources r.cap (bs.map some)
      (match e with
       | some b => bad s b
       | none =>
         let y := vecOf (ws.map (·.1))
         if r.e.due.isSome && (!r.staged.isEmpty || !c.mayFill s.now f r.e r.napp) then
           s.setRun t k q (some (rest { r with cap, staged := r.staged ++ [y] }))
         else (s.updCtx t k (·.pushFill f r.e.off y)).setRun t k q (some (rest { r with cap, napp := r.napp + 1 })))
    | .addend cell near nib =>
      if (s.badIn cell [(0, false)]).isSome || (s.badIn (cell.plus 64) [(0, false)]).isSome then bad s cell
      else
        let (ws, cap, e) := s.sources r.cap (near.map fun p => some (.byte p))
        (match e, i with
         | some b, _ => bad s b
         | none, .xqadd o =>
           let x := ofLe (ws.map (·.1))
           let x := match nib with | some true => x / 16 | some false => x % 16 | none => x
           let y := (Cell.ofBytes (s.readPlace cell 128)).add (addendOf o.fmt (o.cmd.getLsbD 0) x)
           (s.landBytes by_ cell (allOn y.bytes)).setRun t k q (some (rest { r with cap }))
         | none, _ => s)
    | .drain base _ els =>
      (match i with
       | .xqrd o =>
         let d := tensorOf r.e.recs r.e.vals o.en
         (match s.drainEls by_ r.e o d els with
          | .error b => bad s b
          | .ok (s, vals) =>
            let (free, s) := s.choose
            let bytes := r.carry ++ v.packDrain (v.near i d) d o.fmt.width free vals
            (match s.put by_ base (inBlock base bytes) with
             | .error b => bad s b
             | .ok s => s.setRun t k q (some { rest r with carry := bytes.filter fun x => x.1.block ≠ base })))
       | _ => s)
    | .clear cell =>
      if (s.badIn cell [(0, false)]).isSome || (s.badIn (cell.plus 64) [(0, false)]).isSome then bad s cell
      else (s.landBytes by_ cell (allOn (leBytes 128 0))).setRun t k q (some (rest r))
    | .csrRow row =>
      (match i with
       | .xcsr o =>
         let a := csrOf r.e.recs r.e.vals o.en
         let at_ := a.row0.toNat + row
         let (x, cap, e) := s.readVia r.cap (v.rowPlaces a at_)
         let (y, cap, e') := s.readVia cap (v.rowPlaces a (at_ + 1))
         let (x, y) := (ofLe x, ofLe y)
         (match (match e with | some p => some p | none => e') with
          | some p => bad s p
          | none =>
            if a.rowFault v r.napp x y then s.failRun t k q cBND 0 (BitVec.ofNat 32 at_) 0
            else s.setRun t k q (some { r with cap, beats := v.rowBeats a r.napp row x y ++ r.beats.tail, napp := r.napp + (y - x) }))
       | _ => s)
    | .bad d1 => s.failRun t k q cBND 0 d1 0
  | _, _ => s

/-- Beat `n` of a started command lands. -/
def State.landBeat (s : State) (t : Nat) (k : BitVec 2) (q : Nat) (r : Started) (n : Nat) : State :=
  (s.moveBeat t k q r n).owe s t k q

/-- The first of the entries that wait for their cycles becomes available. -/
def State.fillStaged (s : State) (t : Nat) (k : BitVec 2) (q : Nat) (r : Started) : Option State :=
  match r.staged, (match decSlot 6 r.e.word with | .op i => fillTarget i | _ => none) with
  | y :: ys, some f =>
    if (s.ctx t k).mayFill s.now f r.e r.napp then
      some ((s.updCtx t k (·.pushFill f r.e.off y)).setRun t k q (some { r with staged := ys, napp := r.napp + 1 }))
    else none
  | _, _ => none

/-- A beat becomes visible whole at its home, within the bytes of the cycle (R207, R334). The number after the last beat stands for the
first FIFO entry that waits for its cycle. -/
def execXeBeatLand (t : Nat) (k : BitVec 2) (xq : BitVec 2) (n : Nat) (s : State) : Host.Outcome State Fault Refusal :=
  let c := s.ctx t k
  match (c.queue xq.toNat).run with
  | none => .refused (.notEnabled "XE_BEAT_LAND")
  | some r =>
    let free : Bool := match r.beats[n]? with
      | some (.entry f _) => r.e.due.isSome || c.mayFill s.now f r.e r.napp
      | _ => true
    let m := r.sizeAt n
    if n = r.beats.length then
      (match (if c.life = .stopped || c.life = .free then none else s.fillStaged t k xq.toNat r) with
       | some s => .next s
       | none => .refused (.notEnabled "XE_BEAT_LAND"))
    else if !r.mayLand n || !s.reachable r || !free || c.life = .stopped || c.life = .free || !(s.tile t).mayMove m then .refused (.notEnabled "XE_BEAT_LAND")
    else
      let s := s.countMoved t m
      -- the next turn goes to the command after this one
      let s := if c.exclusive then s else s.setTile t { s.tile t with rr := 4 * k.toNat + xq.toNat + 1 }
      .next (s.landBeat t k xq.toNat r n)

/-! ### Completion (R206, R217, R234) -/

/-- An XDEC has decoded its whole stream. -/
def Started.decoded (r : Started) : Bool :=
  match decSlot 6 r.e.word with
  | .op (.xdec o) => r.dpos ≥ (tensorOf r.e.recs r.e.vals o.en).bytes
  | _ => true

/-- An elastic FIFO entry of a command is not yet available (R240). -/
def Ctx.filling (c : Ctx) (r : Started) : Bool :=
  c.inflight.any fun l => l.slot = 6 && l.off = r.e.off && match l.w with | .fifoFill _ _ _ => true | _ => false

/-- The command has still to send a word or an add elsewhere. -/
def Started.sends (r : Started) : Bool :=
  !r.wrote && match decSlot 6 r.e.word with
    | .op (.xsig o) => !o.l
    | .op (.xword o) => !o.l
    | .op i => (let a := actionOf i r.e; a.cact ≠ 0 && !a.chdl.getLsbD 7)
    | _ => false

/-- The command may complete now: its bytes are all visible, and the releases that they have caused have been performed (R206, R406);
within the bytes of the cycle, where it writes a word (R207). -/
def State.mayComplete (s : State) (t : Nat) (k : BitVec 2) (q : Nat) : Bool :=
  let c := s.ctx t k
  match (c.queue q).run with
  | none => false
  | some r =>
    let serving : Bool := match (s.tile t).decomp with | some d => d.k = k && d.xq = q | none => false
    let room : Bool := match decSlot 6 r.e.word with
      | .op i => r.wrote || c.exclusive || (s.tile t).mayMove (actWordBytes i r.e)
      | _ => true
    r.beats.isEmpty && (s.reachable r || !r.sends) && r.staged.isEmpty && !c.filling r && (r.owed.all fun x => !(s.arrival x.1 x.2).due) && room &&
      !r.acting && r.decoded && !serving && (match r.e.due with | some d => d ≤ s.now | none => true) &&
      (c.life = .running || c.life = .retiring)

/-- Write the word of an XWORD, perform the action, and complete. -/
def State.complete (s : State) (t : Nat) (k : BitVec 2) (q : Nat) (r : Started) (i : Instr) : State :=
  let c := s.ctx t k
  let by_ := c.launch
  let v := c.xview t k r.regs
  let timed := r.e.due.isSome
  let s0 := if c.exclusive then s else s.countMoved t (actWordBytes i r.e)
  let localAdd (s : State) (ctr : Nat) (amt : Word) : State :=
    match c.counter ctr with
    | some phys => (s.setTile t ((s.tile t).addCounter by_ phys amt)).endRun t k q
    | none => s.endRun t k q
  if r.wrote then s.endRun t k q
  else
  match i with
  | .xword o =>
    let d := if o.l then Side.win else .rgn o.h.toNat (v.region o.h.toNat)
    let off := ((r.e.vals.getD 1 0).toInt + 8 * (o.imm.toNat : Int)).toNat
    (match s0.putAt by_ v d off (leBytes 8 (e0 r).toNat) with
     | .ok s1 => s1.acknowledge s0 t k q r
     | .error b => s.failMem t k q b)
  | .xsig o =>
    let amt := e0 r + o.imm.setWidth 64
    if o.l then localAdd s o.ctr.toNat amt else s.sendAdd t k q (v.region o.h.toNat) o.ctr.toNat amt timed
  | _ =>
    let a := actionOf i r.e
    match a.cact with
    | 1 =>
      (match v.side a.chdl with
       | .rgn _ x => s.sendAdd t k q x a.cctr (BitVec.ofNat 64 a.cval) timed
       | _ => localAdd s a.cctr (BitVec.ofNat 64 a.cval))
    | 2 =>
      (match s0.putAt by_ v (v.side a.chdl) a.cwoff (leBytes 8 a.cval) with
       | .ok s1 => s1.acknowledge s0 t k q r
       | .error b => s.failMem t k q b)
    | _ => s.endRun t k q
where
  /-- The register of an XSIG or the word of an XWORD. -/
  e0 (r : Started) : Word := r.e.vals.getD 0 0

def execXeCommandComplete (t : Nat) (k : BitVec 2) (xq : BitVec 2) (s : State) : Host.Outcome State Fault Refusal :=
  if !s.mayComplete t k xq.toNat then .refused (.notEnabled "XE_COMMAND_COMPLETE")
  else
    match ((s.ctx t k).queue xq.toNat).run with
    | none => .refused (.notEnabled "XE_COMMAND_COMPLETE")
    | some r =>
      match decSlot 6 r.e.word with
      | .op i => .next (s.complete t k xq.toNat r i)
      | _ => .refused (.notEnabled "XE_COMMAND_COMPLETE")

end Sys2Proof.Machine
end

