-- ==== Sys2Proof/Machine/Decomp.lean ====
section
/-! DEFINITION. The decompressor of a tile: block headers, prefix codes, and the release of raw bytes (R226-R229, R234,
R241). -/

namespace Sys2Proof.Machine

/-! ### Prefix codes (R227) -/

/-- The first code of each length: the codes of the shorter lengths, doubled (RFC 1951 section 3.2.2). -/
def firstCode (lens : List Nat) : Nat → Nat
  | 0 => 0
  | b + 1 => 2 * (firstCode lens b + if b = 0 then 0 else (lens.filter fun n => n = b).length)

/-- The code table: length, code and symbol. -/
def codeTable (lens : List Nat) : List (Nat × Nat × Nat) :=
  (lens.zip (List.range lens.length)).filterMap fun x =>
    if x.1 = 0 then none
    else some (x.1, firstCode lens x.1 + ((lens.take x.2).filter fun n => n = x.1).length, x.2)

/-- The lengths satisfy the Kraft sum exactly, or one symbol is present with length 1. -/
def lensOk (lens : List Nat) : Bool :=
  let p := lens.filter fun n => n ≠ 0
  p = [1] || (p.map fun n => 2 ^ (15 - n)).sum = 2 ^ 15

/-- Decode `need` symbols, most significant bit first: the symbols and the bits that remain. -/
def decodeSyms (tab : List (Nat × Nat × Nat)) : List Bool → Nat → Nat → Nat → List Nat → Option (List Nat × List Bool)
  | bits, _, _, 0, acc => some (acc.reverse, bits)
  | [], _, _, _, _ => none
  | b :: bs, code, n, need + 1, acc =>
    let code := 2 * code + b.toNat
    match tab.find? fun x => x.1 = n + 1 && x.2.1 = code with
    | some x => decodeSyms tab bs 0 0 need (x.2.2 :: acc)
    | none => if n + 1 ≥ 15 then none else decodeSyms tab bs code (n + 1) (need + 1) acc

/-- The bits of payload bytes, bit 7 of each first. -/
def payloadBits (bs : List Byte) : List Bool := bs.flatMap fun b => (List.range 8).map fun i => b.getLsbD (7 - i)

def pairNibbles : List Nat → List Byte
  | a :: b :: r => BitVec.ofNat 8 (a + 16 * b) :: pairNibbles r
  | _ => []

/-- The raw bytes of a coded payload. -/
def decodePayload (coding raw : Nat) (table body : List Byte) : Option (List Byte) :=
  let all := table.flatMap fun b => [b.toNat % 16, b.toNat / 16]
  if !lensOk all then none
  else
    match decodeSyms (codeTable all) (payloadBits body) 0 0 (if coding = 1 then 2 * raw else raw) [] with
    | none => none
    | some (syms, rest) =>
      if rest.length > 7 || rest.any id then none
      else some (if coding = 1 then pairNibbles syms else syms.map (BitVec.ofNat 8))

/-- The raw bytes of a block given all of its bytes, none where it is malformed. -/
def Block.decode (b : Block) (bytes : List Byte) : Option (List Byte) :=
  let cod := ofLe ((bytes.drop 6).take 2)
  let tab := tableBytes b.coding
  let body := (bytes.drop (32 + tab)).take cod
  if !((bytes.drop (32 + tab + cod)).all (· = 0)) then none
  else if b.coding = 0 then some body
  else decodePayload b.coding b.raw ((bytes.drop 32).take tab) body

/-! ### The events -/

/-- A block's time is over: its raw bytes are staged, or the command ends in an engine fault (R228, R229, R241). -/
def execDecompBlockDone (t : Nat) (s : State) : Host.Outcome State Fault Refusal :=
  let x := s.tile t
  match x.decomp with
  | none => .refused (.notEnabled "DECOMP_BLOCK_DONE")
  | some d =>
    let c := x.get d.k
    match (c.queue d.xq).run with
    | none => .refused (.notEnabled "DECOMP_BLOCK_DONE")
    | some r =>
      match decSlot 6 r.e.word with
      | .op (.xdec o) =>
        if !d.busy || d.left ≠ 0 || c.life = .stopped then .refused (.notEnabled "DECOMP_BLOCK_DONE")
        else
          let tn := tensorOf r.e.recs r.e.vals o.en
          let v := c.xview t d.k r.regs
          let toFifo := o.cmd.getLsbD 1
          let (hdr, cap, _) := s.readVia r.cap (v.streamPlaces tn r.dpos (min 32 (tn.bytes - r.dpos)))
          let b := blockOf hdr r.dpos tn.bytes
          let ord := BitVec.ofNat 16 r.dblk
          let malformed := s.failRun t d.k d.xq cXCRC 0xFFFFFFFF b.crc ord
          let stop := tn.noff + r.dout + b.raw
          if !b.ok || (toFifo && b.raw % 256 ≠ 0) then .next malformed
          else if !toFifo && stop > v.limit .win then .next (s.failRun t d.k d.xq cBND 0 (BitVec.ofNat 32 stop) ord)
          else
            let (bytes, cap, bad) := s.readVia cap (v.streamPlaces tn r.dpos (b.stop - r.dpos))
            (match bad, b.decode bytes with
             | some p, _ => .next (s.failMem t d.k d.xq p)
             | none, none => .next malformed
             | none, some raw =>
               let crc := crc32c raw
               if crc ≠ b.crc then .next (s.failRun t d.k d.xq cXCRC crc b.crc ord)
               else
                 let s := s.setTile t { x with decomp := some { d with busy := false, staged := raw } }
                 .next (s.setRun t d.k d.xq (some { r with cap, dpos := b.stop, dblk := r.dblk + 1 })))
      | _ => .refused (.notEnabled "DECOMP_BLOCK_DONE")

/-- The staging buffer is empty: the next block begins, the decompressor passes to the exclusive context's XDEC, or the
command has released its stream (R228). -/
def State.nextBlock (s : State) (t : Nat) (d : Decomp) : State :=
  let x := s.tile t
  let c := x.get d.k
  let more : Bool := match (c.queue d.xq).run with | some r => !r.decoded | none => false
  if !more || (!c.exclusive && x.exclusiveWaits) then s.setTile t { x with decomp := none }
  else s.beginBlock t d.k d.xq

/-- An XDEC that gave the decompressor up takes it again. -/
def State.regrant (s : State) (t : Nat) : Option State :=
  let x := s.tile t
  if x.exclusiveWaits then none
  else
    match allK.findSome? fun k => (List.range 4).findSome? fun q =>
      (match ((x.get k).queue q).run with
       | some r => if !r.decoded then some (k, q) else none
       | none => none) with
    | some (k, q) => some (s.beginBlock t k q)
    | none => none

/-- The bytes that the next release of an XDEC moves: one FIFO entry, or what the window takes in one beat, which the bytes of the cycle
may cut (R207, R228, R334). -/
def State.rawBeat (s : State) (t : Nat) (d : Decomp) (r : Started) (o : XeArgs) : Nat :=
  if o.cmd.getLsbD 1 then 256
  else
    let a := (s.ctx t d.k).wbase + (tensorOf r.e.recs r.e.vals o.en).noff + r.dout
    min (min (64 - a % 64) d.staged.length) (512 - (s.tile t).moved)

/-- Raw bytes that passed the CRC are released: one FIFO entry in a cycle, or the next beat of the window. -/
def State.releaseRaw (s : State) (t : Nat) (d : Decomp) (r : Started) (o : XeArgs) (n : Nat) : Option State :=
  let c := s.ctx t d.k
  let tn := tensorOf r.e.recs r.e.vals o.en
  let v := c.xview t d.k r.regs
  let go (s : State) (n : Nat) (r : Started) : State :=
    let d' := { d with staged := d.staged.drop n, fed := if o.cmd.getLsbD 1 then some s.now else d.fed }
    let s := (s.setTile t { s.tile t with decomp := some d' }).setRun t d.k d.xq (some { r with dout := r.dout + n })
    if d'.staged.isEmpty then s.nextBlock t d' else s
  if o.cmd.getLsbD 1 then
    let f := FS.ofBit (o.cmd.getLsbD 0)
    if !c.mayFill s.now f r.e r.napp || d.fed = some s.now then none
    else
      some (go (s.updCtx t d.k (·.pushFill f r.e.off (vecOf (d.staged.take 256)))) 256 { r with napp := r.napp + 1 })
  else
    match s.putBeats c.launch v .win (tn.noff + r.dout) (d.staged.take n) with
    | (s1, none) => some (go s1 n r |>.owe s t d.k d.xq)
    | (s, some b) => some (s.failMem t d.k d.xq b)

/-- The decompressor releases raw bytes, within the bytes of the cycle (R207, R228). -/
def execDecompRelease (t : Nat) (s : State) : Host.Outcome State Fault Refusal :=
  let no : Host.Outcome State Fault Refusal := .refused (.notEnabled "DECOMP_RELEASE")
  match (s.tile t).decomp with
  | none => (match s.regrant t with | some s => .next s | none => no)
  | some d =>
    let c := s.ctx t d.k
    if d.busy || c.life = .stopped then no
    else
      match (c.queue d.xq).run with
      | none => no
      | some r =>
        match decSlot 6 r.e.word with
        | .op (.xdec o) =>
          let n := s.rawBeat t d r o
          if n = 0 || !(s.tile t).mayMove n then no
          else
            -- the next turn goes to the command after this one
            let s := s.countMoved t n
            let s := if c.exclusive then s else s.setTile t { s.tile t with rr := 4 * d.k.toNat + d.xq + 1 }
            (match s.releaseRaw t d r o n with | some s => .next s | none => no)
        | _ => no

end Sys2Proof.Machine
end

