-- ==== Sys2Proof/Machine/Special.lean ====
section
/-! DEFINITION. The special functions of VFSPEC (R275) by interval arithmetic: bounds on the exact value are computed at
rising precision until both round alike. Fixed-point numbers are integers in units of 2^-P. -/

namespace Sys2Proof.Machine

/-- An interval of fixed-point numbers. -/
structure Ivl where
  lo : Int
  hi : Int
  deriving DecidableEq, Repr

/-- Sum of `z ^ (2k+1) / (2k+1)` for a fixed-point `z` in [0, 1/3], rounded down (`c = 0`) or up (`c = 1`). `t` is the
present power. -/
def atanhGo (P : Nat) (z2 : Int) (c : Int) : Nat → Int → Int → Int → Int
  | 0, _, _, acc => acc + c
  | n + 1, k, t, acc => atanhGo P z2 c n (k + 2) ((t * z2).fdiv (2 ^ P) + c) (acc + t.fdiv k + c)

/-- atanh of a fixed-point interval inside [0, 1/3]. -/
def atanhIvl (P : Nat) (z : Ivl) : Ivl :=
  let N := P / 3 + 8
  ⟨atanhGo P ((z.lo * z.lo).fdiv (2 ^ P)) 0 N 1 z.lo 0, atanhGo P ((z.hi * z.hi).fdiv (2 ^ P) + 1) 1 N 1 z.hi 0⟩

/-- ln 2 = 2 atanh (1/3). -/
def ln2Ivl (P : Nat) : Ivl :=
  let t := ((2 : Int) ^ P).fdiv 3
  let a := atanhIvl P ⟨t, t + 1⟩
  ⟨2 * a.lo, 2 * a.hi⟩

/-- The exponential series of a fixed-point `y` in [0, 1), rounded down or up; the tail after `P / 4 + 16` terms is below
one unit. -/
def expGo (P : Nat) (y c : Int) : Nat → Int → Int → Int → Int
  | 0, _, _, acc => acc + c
  | m + 1, n, t, acc => expGo P y c m (n + 1) (((t * y).fdiv (2 ^ P) + c).fdiv n + c) (acc + t)

def expIvl (P : Nat) (y : Ivl) : Ivl :=
  let N := P / 4 + 16
  ⟨expGo P y.lo 0 N 1 (2 ^ P) 0, expGo P y.hi 1 N 1 (2 ^ P) 0 + 1⟩

/-- `2 ^ x` for a fixed-point `x` of either sign: an interval of reals. -/
def exp2At (P : Nat) (x : Int) : Rat2 × Rat2 :=
  let q := x.fdiv (2 ^ P)
  let f := x - q * 2 ^ P
  let l := ln2Ivl P
  let e := expIvl P ⟨(f * l.lo).fdiv (2 ^ P), (f * l.hi).fdiv (2 ^ P) + 1⟩
  ((⟨e.lo, 1⟩ : Rat2).scale (q - P), (⟨e.hi, 1⟩ : Rat2).scale (q - P))

/-- log2 of a positive real. -/
def log2Ivl (P : Nat) (a : Rat2) : Rat2 × Rat2 :=
  let s := floorLog2 a.num.natAbs a.den
  let m := a.scale (-s)
  let z := ((m.sub ⟨1, 1⟩).div (m.add ⟨1, 1⟩)).scale P
  let t := atanhIvl P ⟨z.floor, z.floor + 1⟩
  let l := ln2Ivl P
  (((⟨2 * t.lo, 1⟩ : Rat2).div ⟨l.hi, 1⟩).add ⟨s, 1⟩, ((⟨2 * t.hi, 1⟩ : Rat2).div ⟨l.lo, 1⟩).add ⟨s, 1⟩)

/-- `e ^ y` for a real `y`. -/
def expReal (P : Nat) (y : Rat2) : Rat2 × Rat2 :=
  let l := ln2Ivl P
  let n := y.scale (2 * P)
  let x0 := (n.div ⟨l.lo, 1⟩).floor
  let x1 := (n.div ⟨l.hi, 1⟩).floor
  ((exp2At P (min x0 x1)).1, (exp2At P (max x0 x1 + 1)).2)

/-- The functions of R275. -/
inductive SpecFn where
  | exp2 | log2 | rcp | rsqrt | tanh | sigm
  deriving DecidableEq, Repr

def SpecFn.ofCode (n : Nat) : SpecFn :=
  match n with
  | 0 => .exp2 | 1 => .log2 | 2 => .rcp | 3 => .rsqrt | 4 => .tanh | _ => .sigm

/-- A real held inside [-2^8, 2^8]: outside it EXP2, TANH and SIGM are past every clamp, or within every rounding of
their limit, in every format of SPEC. -/
def clampArg (a : Rat2) : Rat2 :=
  if (⟨256, 1⟩ : Rat2).lt a then ⟨256, 1⟩ else if a.lt ⟨-256, 1⟩ then ⟨-256, 1⟩ else a

/-- Bounds on the value of a special function at precision `P`; a pair of equal bounds is an exact value. The operand is
one for which Table 13.3 names no special case. -/
def specBounds (fn : SpecFn) (P : Nat) (a : Rat2) : Rat2 × Rat2 :=
  match fn with
  | .rcp => ((⟨1, 1⟩ : Rat2).div a, (⟨1, 1⟩ : Rat2).div a)
  | .rsqrt => let r := sqrtStandIn a.den a.num.natAbs; (r, r)
  | .exp2 =>
    let b := clampArg a
    let x := b.scale P
    if b.num % b.den = 0 then (pow2 (b.num / b.den), pow2 (b.num / b.den))
    else ((exp2At P x.floor).1, (exp2At P (x.floor + 1)).2)
  | .log2 =>
    let s := floorLog2 a.num.natAbs a.den
    if (pow2 s).eq a then (⟨s, 1⟩, ⟨s, 1⟩) else log2Ivl P a
  | .tanh =>
    let b := clampArg a
    -- near zero the series bounds the value: a - a^3/3 < tanh a < a - a^3/3 + 2 a^5/15 for positive a
    if b.isZero then (⟨0, 1⟩, ⟨0, 1⟩)
    else
      let m : Rat2 := ⟨b.num.natAbs, b.den⟩
      let r : Rat2 × Rat2 :=
        if m.lt (pow2 (-20)) then
          let c := (m.mul (m.mul m)).mul ⟨1, 3⟩
          let lo := m.sub c
          (lo, lo.add ((m.mul (m.mul (m.mul (m.mul m)))).mul ⟨2, 15⟩))
        else
          let e := expReal P ((m.scale 1).neg)
          let one : Rat2 := ⟨1, 1⟩
          ((one.sub e.2).div (one.add e.2), (one.sub e.1).div (one.add e.1))
      if b.isNeg then (r.2.neg, r.1.neg) else r
  | .sigm =>
    let b := clampArg a
    let one : Rat2 := ⟨1, 1⟩
    if b.isZero then (⟨1, 2⟩, ⟨1, 2⟩)
    else
      let e := expReal P b.neg
      (one.div (one.add e.2), one.div (one.add e.1))

/-- The first precision of the list at which both bounds round alike. -/
def specRound (fn : SpecFn) (f : Fmt) (rm : RM) (u : BitVec 32) (a : Rat2) : List Nat → Option (Nat × Flags)
  | [] => none
  | P :: Ps =>
    let (lo, hi) := specBounds fn P a
    let r := roundF rm f u false lo
    if r = roundF rm f u false hi then some r else specRound fn f rm u a Ps

end Sys2Proof.Machine
end

