-- ==== Sys2Proof/Machine/VectorFp.lean ====
section
/-! DEFINITION. Tapered and IEEE vector arithmetic (R263, R264, R270-R277). -/

namespace Sys2Proof.Machine

/-! ### Results of exact operations -/

/-- The outcome of an exact operation, before rounding. -/
inductive Exact where
  /-- a real; `zneg` is the sign an IEEE zero takes -/
  | real (v : Rat2) (zneg : Bool)
  | inf (neg : Bool)
  /-- NaR, or the canonical NaN, with flags -/
  | bad (f : Flags)
  deriving DecidableEq, Repr

/-- The word and flags of an exact result (R263, R53). -/
def Exact.round (x : Exact) (rm : RM) (f : Fmt) (u : BitVec 32) (extra : Flags) : Nat × Flags :=
  match x with
  | .real v zneg => let r := roundF rm f u zneg v; (r.1, r.2 ||| extra)
  | .inf neg => (infWord f neg, extra)
  | .bad fl => (narWord f, fl ||| extra)

def Val.isNaN : Val → Bool
  | .nan _ | .nar => true
  | _ => false

def Val.signalling : Val → Bool
  | .nan q => !q
  | _ => false

def Val.isInf : Val → Bool
  | .inf _ => true
  | _ => false

def Val.isZero : Val → Bool
  | .negZero => true
  | .real r => r.isZero
  | _ => false

/-- The sign of a value that is not a NaN. -/
def Val.sign : Val → Bool
  | .negZero => true
  | .inf n => n
  | .real r => r.isNeg
  | _ => false

def Val.neg : Val → Val
  | .negZero => .real ⟨0, 1⟩
  | .inf n => .inf !n
  | .real r => if r.isZero then .negZero else .real r.neg
  | v => v

/-- The real of a finite value. -/
def Val.rat : Val → Rat2
  | .real r => r
  | _ => ⟨0, 1⟩

/-- The flags of reading NaR and NaN operands (R264). -/
def nanFlags (xs : List Val) : Flags :=
  (if xs.any (· == .nar) then flagNR else 0) ||| (if xs.any Val.signalling then flagNV else 0)

/-- a + b of values neither of which is a NaN. -/
def exactAdd (a b : Val) : Exact :=
  match a, b with
  | .inf m, .inf n => if m = n then .inf m else .bad flagNV
  | .inf m, _ => .inf m
  | _, .inf n => .inf n
  | a, b => .real (a.rat.add b.rat) (a.isZero && b.isZero && a.sign && b.sign)

/-- a × b. -/
def exactMul (a b : Val) : Exact :=
  if (a.isInf && b.isZero) || (a.isZero && b.isInf) then .bad flagNV
  else if a.isInf || b.isInf then .inf (a.sign != b.sign)
  else .real (a.rat.mul b.rat) (a.sign != b.sign)

/-- a / b: in a tapered format every division by zero gives NaR (Table 13.3). -/
def exactDiv (tapered : Bool) (a b : Val) : Exact × Flags :=
  if tapered then
    (if b.isZero then .bad flagNV else .real (a.rat.div b.rat) false, 0)
  else if (a.isZero && b.isZero) || (a.isInf && b.isInf) then (.bad flagNV, 0)
  else if a.isInf then (.inf (a.sign != b.sign), 0)
  else if b.isInf then (.real ⟨0, 1⟩ (a.sign != b.sign), 0)
  else if b.isZero then (.inf (a.sign != b.sign), flagNV)
  else (.real (a.rat.div b.rat) (a.sign != b.sign), 0)

/-- The square root. -/
def exactSqrt (a : Val) : Exact :=
  if a.isZero then .real ⟨0, 1⟩ a.sign
  else if a.sign then .bad flagNV
  else match a with
    | .inf _ => .inf false
    | v => .real (sqrtStandIn v.rat.num.natAbs v.rat.den) false

/-- a × b + c with one rounding; the product's infinities and zeros meet c as a value. -/
def exactFma (a b c : Val) : Exact :=
  match exactMul a b with
  | .bad f => .bad f
  | .inf n => exactAdd (.inf n) c
  | .real p zneg =>
    match c with
    | .inf n => .inf n
    | c =>
      let s := p.add c.rat
      .real s (p.isZero && c.isZero && zneg && c.sign)

/-- An operation on decoded operands: NaR and NaN operands first (R264, Table 13.3). -/
def withNaN (xs : List Val) (f : Exact × Flags) : Exact × Flags :=
  if xs.any Val.isNaN then (.bad 0, nanFlags xs) else f

/-! ### The common form -/

/-- A rounding operation on up to three decoded operands. -/
def Op.vfp (o : Op) (a : VArgs) (latency : Nat) (f : Val → Val → Val → Exact × Flags) : Op :=
  let w := a.fmt.width
  let (x, o) := o.readF w a.a
  let (y, o) := o.readF w a.b
  let (z, o) := o.readF w a.c
  let o := o.srEntry a
  o.emitElems a latency w (lanesOf (o.mask a) w) fun e =>
    let (r, fl) := f (decodeF a.fmt (elem x w e)) (decodeF a.fmt (elem y w e)) (decodeF a.fmt (elem z w e))
    r.round a.rm a.fmt (o.drawAt e) fl

def execVfadd (a : VArgs) (s : State) : Host.Outcome State Fault Refusal :=
  slotStep (unitSlot a.u) (.vfadd a) a.p (fun o => o.vfp a 4 fun x y _ => withNaN [x, y] (exactAdd x y, 0)) s

def execVfsub (a : VArgs) (s : State) : Host.Outcome State Fault Refusal :=
  slotStep (unitSlot a.u) (.vfsub a) a.p (fun o => o.vfp a 4 fun x y _ => withNaN [x, y] (exactAdd x y.neg, 0)) s

def execVfmul (a : VArgs) (s : State) : Host.Outcome State Fault Refusal :=
  slotStep (unitSlot a.u) (.vfmul a) a.p (fun o => o.vfp a 4 fun x y _ => withNaN [x, y] (exactMul x y, 0)) s

/-- The flag of 0 × ∞ with a quiet NaN addend, which IEEE 754-2019 leaves to the implementation. -/
def fmaOpenFlag (x y : Val) : Flags :=
  if Config.fmaZeroInfNaN && ((x.isInf && y.isZero) || (x.isZero && y.isInf)) then flagNV else 0

/-- VFMA: NP negates the product and NA the addend. -/
def execVfma (a : VArgs) (s : State) : Host.Outcome State Fault Refusal :=
  slotStep (unitSlot a.u) (.vfma a) a.p
    (fun o => o.vfp a 4 fun x y z =>
      let x' := if a.var.getLsbD 1 then x.neg else x
      let z' := if a.var.getLsbD 0 then z.neg else z
      let (r, fl) := withNaN [x, y, z] (exactFma x' y z', 0)
      (r, fl ||| (if z.isNaN then fmaOpenFlag x y else 0))) s

def execVfdiv (a : VArgs) (s : State) : Host.Outcome State Fault Refusal :=
  slotStep (unitSlot a.u) (.vfdiv a) a.p
    (fun o => o.vfp a 12 fun x y _ => withNaN [x, y] (exactDiv a.fmt.isTapered x y)) s

def execVfsqrt (a : VArgs) (s : State) : Host.Outcome State Fault Refusal :=
  slotStep (unitSlot a.u) (.vfsqrt a) a.p (fun o => o.vfp a 12 fun x _ _ => withNaN [x] (exactSqrt x, 0)) s

/-- VFSCALB (R270, R277): k is the element's bits as a signed integer. A k beyond ±1000 takes every format past its
clamps, as ±1000 does. -/
def execVfscalb (a : VArgs) (s : State) : Host.Outcome State Fault Refusal :=
  slotStep (unitSlot a.u) (.vfscalb a) a.p
    (fun o =>
      let w := a.fmt.width
      let (x, o) := o.readF w a.a
      let (y, o) := o.readF w a.b
      let o := o.srEntry a
      o.emitElems a 4 w (lanesOf (o.mask a) w) fun e =>
        let v := decodeF a.fmt (elem x w e)
        let k := max (-1000) (min 1000 (signedOf w (elem y w e)))
        let (r, fl) := withNaN [v] (match v with
          | .inf n => (.inf n, 0)
          | v => (.real (v.rat.scale k) v.sign, 0))
        r.round a.rm a.fmt (o.drawAt e) fl) s

/-! ### Sign operations (R273) -/

/-- VFNEG, or VFABS with `abs`. -/
def signElem (f : Fmt) (abs : Bool) (x : Nat) : Nat × Flags :=
  let top := 2 ^ (f.width - 1)
  if f.isTapered then
    if x = top then (x, flagNR)
    else if abs && x < top then (x, 0)
    else ((2 ^ f.width - x) % 2 ^ f.width, 0)
  else
    match decodeI f x with
    | .nan q => (qNaN f, if q then 0 else flagNV)
    | _ => (if x ≥ top then x - top else if abs then x else x + top, 0)

def Op.vsign (o : Op) (a : VArgs) (abs : Bool) : Op :=
  let w := a.fmt.width
  let (x, o) := o.readF w a.a
  o.emitElems a 2 w (lanesOf (o.mask a) w) fun e => signElem a.fmt abs (elem x w e)

def execVfneg (a : VArgs) (s : State) : Host.Outcome State Fault Refusal :=
  slotStep (unitSlot a.u) (.vfneg a) a.p (fun o => o.vsign a false) s

def execVfabs (a : VArgs) (s : State) : Host.Outcome State Fault Refusal :=
  slotStep (unitSlot a.u) (.vfabs a) a.p (fun o => o.vsign a true) s

/-! ### Minimum and maximum (R274) -/

/-- A key that orders the words of a format as R274 does: the signed word of a tapered format; for IEEE the sign and
magnitude, with −0 below +0. -/
def orderKey (f : Fmt) (x : Nat) : Int :=
  let top := 2 ^ (f.width - 1)
  if f.isTapered then signedOf f.width x
  else if x ≥ top then -1 - ((x - top : Nat) : Int) else x

/-- The lesser word, or the greater, of two; `x` when they are alike. -/
def pickWord (f : Fmt) (greater : Bool) (x y : Nat) : Nat :=
  if greater then (if orderKey f x < orderKey f y then y else x)
  else (if orderKey f y < orderKey f x then y else x)

def Op.vminmax (o : Op) (a : VArgs) (greater : Bool) : Op :=
  let w := a.fmt.width
  let (x, o) := o.readF w a.a
  let (y, o) := o.readF w a.b
  o.emitElems a 4 w (lanesOf (o.mask a) w) fun e =>
    let p := elem x w e
    let q := elem y w e
    let vs := [decodeF a.fmt p, decodeF a.fmt q]
    if vs.any Val.isNaN then (narWord a.fmt, nanFlags vs) else (pickWord a.fmt greater p q, 0)

def execVfmin (a : VArgs) (s : State) : Host.Outcome State Fault Refusal :=
  slotStep (unitSlot a.u) (.vfmin a) a.p (fun o => o.vminmax a false) s

def execVfmax (a : VArgs) (s : State) : Host.Outcome State Fault Refusal :=
  slotStep (unitSlot a.u) (.vfmax a) a.p (fun o => o.vminmax a true) s

/-! ### Special functions (R275) -/

/-- Table 13.3's cases of VFSPEC, and otherwise the correctly rounded function. -/
def specElem (fn : Nat) (f : Fmt) (rm : RM) (u : BitVec 32) (x : Nat) : Nat × Flags :=
  match decodeF f x with
  | .real r =>
    match SpecFn.ofCode fn with
    | .log2 | .rsqrt => if r.isZero || r.isNeg then (narWord f, flagNV) else go r
    | .rcp => if r.isZero then (narWord f, flagNV) else go r
    | _ => go r
  | _ => (narWord f, flagNR)
where
  go (r : Rat2) : Nat × Flags :=
    match specRound (SpecFn.ofCode fn) f rm u r [128, 256, 512] with
    | some w => w
    | none => (Config.specFallback fn x % 2 ^ f.width, flagNX)

def execVfspec (a : VArgs) (s : State) : Host.Outcome State Fault Refusal :=
  slotStep (unitSlot a.u) (.vfspec a) a.p
    (fun o =>
      let w := a.fmt.width
      let (x, o) := o.readF w a.a
      let o := o.srEntry a
      o.emitElems a 8 w (lanesOf (o.mask a) w) fun e =>
        specElem (a.imm.extractLsb' 0 3).toNat a.fmt a.rm (o.drawAt e) (elem x w e)) s

/-! ### Compares (R276) -/

/-- The order of two values that are not NaNs; negative and positive zero are equal. -/
def Val.lt (a b : Val) : Bool :=
  match a, b with
  | .inf m, .inf n => m && !n
  | .inf m, _ => m
  | _, .inf n => !n
  | a, b => a.rat.lt b.rat

/-- A condition of R276. -/
def fcond (c : Nat) (a b : Val) : Bool :=
  let un := a.isNaN || b.isNaN
  match c with
  | 0 => !un && !a.lt b && !b.lt a
  | 1 => un || a.lt b || b.lt a
  | 2 => !un && a.lt b
  | 3 => !un && !a.lt b
  | 4 => !un && !b.lt a
  | 5 => !un && b.lt a
  | 6 => un
  | _ => !un

/-- The flags of R276. -/
def fcondFlags (c : Nat) (a b : Val) : Flags :=
  nanFlags [a, b] |||
    (if 2 ≤ c && c ≤ 5 && (a == .nan true || b == .nan true) then flagNV else 0)

def execVfcmp (a : VArgs) (s : State) : Host.Outcome State Fault Refusal :=
  slotStep (unitSlot a.u) (.vfcmp a) a.p
    (fun o =>
      let w := a.fmt.width
      let (x, o) := o.readF w a.a
      let (y, o) := o.readF w a.b
      let c := (a.imm.extractLsb' 0 3).toNat
      let lanes := lanesOf (o.mask a) w
      let v (z : Vec) (e : Nat) : Val := decodeF a.fmt (elem z w e)
      (o.land 4 (.mreg (fieldM a.d).toNat (laneMask w lanes fun e => fcond c (v x e) (v y e)))).flags 4 a.u a.q
        (flagsOf w ((List.range (2048 / w)).filterMap fun e =>
          if enabled lanes w e then some (e, fcondFlags c (v x e) (v y e)) else none))) s

end Sys2Proof.Machine
end

