-- ==== Sys2Proof/Machine/CrossLane.lean ====
section
/-! DEFINITION. Cross-lane operations (R282-R288). -/

namespace Sys2Proof.Machine

/-- The lanes that hold the elements from `lo` up to `hi`. -/
def lanesBetween (w lo hi : Nat) : Mask :=
  (List.range 128).foldl (fun (acc : Mask) l =>
    if lo ≤ 16 * l / w && 16 * l / w < hi then acc ||| (1#128 <<< l) else acc) 0

/-- VPERM (R282): the indices are read at width 16. -/
def execVperm (a : VArgs) (s : State) : Host.Outcome State Fault Refusal :=
  slotStep (unitSlot a.u) (.vperm a) a.p
    (fun o =>
      let w := a.fmt.width
      let n := a.fmt.count
      let (x, o) := o.readF w a.a
      let (ix, o) := o.readF 16 a.b
      let p := 128 * a.var.toNat
      o.emitElems a 4 w (lanesOf (o.mask a) w &&& lanesBetween w p (p + min 128 n)) fun e =>
        let i := elem ix 16 (e - p)
        (if i < n then elem x w i else 0, 0)) s

def execVrot (a : VArgs) (s : State) : Host.Outcome State Fault Refusal :=
  slotStep (unitSlot a.u) (.vrot a) a.p
    (fun o =>
      let w := a.fmt.width
      let (x, o) := o.readF w a.a
      let k := (a.imm.extractLsb' 0 9).toNat
      o.emitElems a 4 w (lanesOf (o.mask a) w) fun e => (elem x w ((e + k) % a.fmt.count), 0)) s

/-- The enabled elements in ascending order, with their numbers. -/
def enabledElems (m : Mask) (w : Nat) (x : Vec) : List (Nat × Nat) :=
  (List.range (2048 / w)).filterMap fun e => if enabled m w e then some (e, elem x w e) else none

/-- A running exact sum of values: what has been seen of NaNs, infinities and signs, and the real part in units of
2^-240, of which every finite value of every format is a multiple. -/
structure Sum where
  flags : Flags := 0
  nan : Bool := false
  pinf : Bool := false
  ninf : Bool := false
  /-- every term so far is an IEEE −0 -/
  negz : Bool := true
  units : Int := 0
  deriving DecidableEq, Repr

def Sum.add (t : Sum) (v : Val) : Sum :=
  let t := { t with flags := t.flags ||| nanFlags [v], negz := t.negz && v == .negZero }
  match v with
  | .real r => { t with units := t.units + (quireUnits r).1 }
  | .negZero => t
  | .inf n => if n then { t with ninf := true } else { t with pinf := true }
  | .nan _ | .nar => { t with nan := true }

/-- The sum as an exact result, with the flags its operands raised; both infinities set NV beside a NaN too (R284, R286). -/
def Sum.exact (t : Sum) : Exact × Flags :=
  if t.pinf && t.ninf then (.bad flagNV, t.flags)
  else if t.nan then (.bad 0, t.flags)
  else if t.pinf then (.inf false, t.flags)
  else if t.ninf then (.inf true, t.flags)
  else (.real ((⟨t.units, 1⟩ : Rat2).scale (-240)) t.negz, t.flags)

/-- The reduction of R284 of a nonempty list of words. -/
def reduceWords (a : VArgs) (d : BitVec 32) (xs : List Nat) : Nat × Flags :=
  let f := a.fmt
  let w := f.width
  let u := a.imm.getLsbD 0
  if f.isInt then
    let zs := xs.map (intOf u w)
    match a.var.toNat with
    | 0 => (modW w zs.sum, 0)
    | 1 => (modW w (zs.foldl min (zs.headD 0)), 0)
    | _ => (modW w (zs.foldl max (zs.headD 0)), 0)
  else
    let vs := xs.map (decodeF f)
    if a.var = 0 then
      let (r, fl) := (vs.foldl Sum.add {}).exact
      r.round a.rm f d fl
    else if vs.any Val.isNaN then (narWord f, nanFlags vs)
    else (xs.foldl (pickWord f (a.var.toNat != 1)) (xs.headD 0), 0)

def execVred (a : VArgs) (s : State) : Host.Outcome State Fault Refusal :=
  slotStep (unitSlot a.u) (.vred a) a.p
    (fun o =>
      let w := a.fmt.width
      let (x, o) := o.readF w a.a
      let o := o.srEntry a
      match enabledElems (o.mask a) w x with
      | [] => o
      | es =>
        let (r, fl) := reduceWords a (o.drawAt 0) (es.map (·.2))
        let lanes := lanesOf (o.mask a) w
        o.emit a 4 (replicate w (BitVec.ofNat 64 r)) lanes (flagsIn lanes fl)) s

/-- The first greatest element that takes part (R285). -/
def argmax (f : Fmt) (u : Bool) (es : List (Nat × Nat)) : Nat :=
  let w := f.width
  let lt (x y : Nat) : Bool :=
    if f.isInt then intOf u w x < intOf u w y else (decodeF f x).lt (decodeF f y)
  match es.filter fun e => f.isInt || !(decodeF f e.2).isNaN with
  | [] => 0xFFFF
  | e :: es => (es.foldl (fun b e => if lt b.2 e.2 then e else b) e).1

def execVargmax (a : VArgs) (s : State) : Host.Outcome State Fault Refusal :=
  slotStep (unitSlot a.u) (.vargmax a) a.p
    (fun o =>
      let w := a.fmt.width
      let (x, o) := o.readF w a.a
      let es := enabledElems (o.mask a) w x
      let i := argmax a.fmt (a.imm.getLsbD 0) es
      let fl := flagsOf w (es.filterMap fun e =>
        if a.fmt.isInt then none
        else match decodeF a.fmt e.2 with
          | .nar => some (e.1, flagNR)
          | .nan q => some (e.1, if q then flagNR else flagNV)
          | _ => none)
      o.emit a 4 (replicate 16 (BitVec.ofNat 64 i)) (o.mask a) fl) s

/-- Inclusive prefix sums of integers over the enabled elements (R286). -/
def scanInts (u sat : Bool) (w : Nat) : Int → List (Nat × Nat) → List (Nat × (Nat × Flags))
  | _, [] => []
  | acc, (e, x) :: es =>
    let z := acc + intOf u w x
    (e, modW w (if sat then clampInt u w z else z), 0) :: scanInts u sat w z es

/-- Prefix sums of real elements. From the first NaR or NaN on, NR is set. -/
def scanReals (rm : RM) (f : Fmt) (d : Nat → BitVec 32) : Sum → List (Nat × Nat) → List (Nat × (Nat × Flags))
  | _, [] => []
  | t, (e, x) :: es =>
    let t := t.add (decodeF f x)
    let (r, fl) := t.exact
    (e, r.round rm f (d e) (if t.nan then fl ||| flagNR else fl)) :: scanReals rm f d t es

def execVscan (a : VArgs) (s : State) : Host.Outcome State Fault Refusal :=
  slotStep (unitSlot a.u) (.vscan a) a.p
    (fun o =>
      let w := a.fmt.width
      let (x, o) := o.readF w a.a
      let o := o.srEntry a
      let es := enabledElems (o.mask a) w x
      let rs := if a.fmt.isInt then scanInts (a.var.getLsbD 0) (a.var.getLsbD 1) w 0 es
        else scanReals a.rm a.fmt o.drawAt {} es
      o.emitElems a 6 w (lanesOf (o.mask a) w) fun e => SMap.get (0, 0) rs e) s

/-- The sort key of a 16-bit word (R287). -/
def sortKey (f : Fmt) (u : Bool) (x : Nat) : Int :=
  match f with
  | .b16 =>
    (match decodeI .b16 x with
     | .nan _ => -0x10000
     | _ => if x ≥ 0x8000 then -((x - 0x8000 : Nat) : Int) else x)
  | .i16 => intOf u 16 x
  | _ => signedOf 16 x

/-- Insert by descending key, after the entries with the same key. -/
def insertDesc (key : Nat × Nat → Int) (x : Nat × Nat) : List (Nat × Nat) → List (Nat × Nat)
  | [] => [x]
  | y :: ys => if key x > key y then x :: y :: ys else y :: insertDesc key x ys

def sortDesc (key : Nat × Nat → Int) (xs : List (Nat × Nat)) : List (Nat × Nat) :=
  xs.foldl (fun acc x => insertDesc key x acc) []

/-- VSORTK (R287): when both destinations are one register, the values land after the indices and stay. -/
def execVsortk (a : VArgs) (s : State) : Host.Outcome State Fault Refusal :=
  slotStep (unitSlot a.u) (.vsortk a) a.p
    (fun o =>
      let (x, o) := o.readF 16 a.a
      let on := enabledElems (o.mask a) 16 x
      let off := enabledElems (~~~(o.mask a)) 16 x
      let all := sortDesc (fun e => sortKey a.fmt (a.var.getLsbD 0) e.2) on ++ off
      let o := o.dest 10 a.b (ofElems 16 (all.map (·.1))) (BitVec.allOnes 128)
      o.emit a 10 (ofElems 16 (all.map (·.2))) (BitVec.allOnes 128) 0) s

/-- VCOMP (R288). -/
def execVcomp (a : VArgs) (s : State) : Host.Outcome State Fault Refusal :=
  slotStep (unitSlot a.u) (.vcomp a) a.p
    (fun o =>
      let w := a.fmt.width
      let (x, o) := o.readF w a.a
      let es := (enabledElems (o.mask a) w x).map (·.2)
      o.emit a 4 (ofElems w es) (BitVec.allOnes 128) 0) s

end Sys2Proof.Machine
end

