-- ==== Sys2Proof/Machine/VQuire.lean ====
section
/-! DEFINITION. Vector quires (R58-R62, R289-R293). -/

namespace Sys2Proof.Machine

def Op.vq (o : Op) (n : BitVec 2) : Quire := SMap.get 0 o.regs.vq n.toNat

/-- Flags of an operation on vector quires go to lane 0 of the unit (R264). -/
def laneZero (f : Flags) : FlgVec := f.setWidth 1024

/-- quire_add lands in a vector quire: QG, NR and QOVF (R59, R289). `nr` is set when the addend held a NaR. -/
def Op.vqAdd (o : Op) (a : VArgs) (t : Option Int) (nr : Bool) : Op :=
  let n := fieldQ a.d
  let old := o.vq n
  let r := quireAddUnits old t false
  let fl : Flags := (if r.qg then flagQG else 0) ||| (if nr || old = nar512 then flagNR else 0)
  let o := (o.land 4 (.vq n.toNat r.q)).flags 4 a.u a.q (laneZero fl)
  if r.qg then o.overflow 4 n.toNat 0 else o

def execVqclr (a : VArgs) (s : State) : Host.Outcome State Fault Refusal :=
  slotStep (unitSlot a.u) (.vqclr a) a.p (fun o => o.land 4 (.vq (fieldQ a.d).toNat 0)) s

/-- The sum of a list of addends in units of 2^-240; a NaR makes it NaR. -/
def sumUnits : List Val → Option Int
  | [] => some 0
  | v :: vs =>
    match valUnits v, sumUnits vs with
    | some x, some y => some (x + y)
    | _, _ => none

/-- The product of two tapered values. -/
def tapMul (x y : Val) : Val :=
  match x, y with
  | .real a, .real b => .real (a.mul b)
  | _, _ => .nar

/-- VQDOT (R290). -/
def execVqdot (a : VArgs) (s : State) : Host.Outcome State Fault Refusal :=
  slotStep (unitSlot a.u) (.vqdot a) a.p
    (fun o =>
      let w := a.fmt.width
      let (x, o) := o.readF w a.a
      let (y, o) := o.readF w a.b
      let t := sumUnits ((enabledElems (o.mask a) w x).map fun e =>
        tapMul (decodeF a.fmt e.2) (decodeF a.fmt (elem y w e.1)))
      o.vqAdd a t t.isNone) s

/-- VQSUM (R290). -/
def execVqsum (a : VArgs) (s : State) : Host.Outcome State Fault Refusal :=
  slotStep (unitSlot a.u) (.vqsum a) a.p
    (fun o =>
      let w := a.fmt.width
      let (x, o) := o.readF w a.a
      let t := sumUnits ((enabledElems (o.mask a) w x).map fun e => decodeF a.fmt e.2)
      o.vqAdd a t t.isNone) s

/-- VQRND (R291): flags in every lane written. -/
def execVqrnd (a : VArgs) (s : State) : Host.Outcome State Fault Refusal :=
  slotStep (unitSlot a.u) (.vqrnd a) a.p
    (fun o =>
      let w := a.fmt.width
      let n := fieldQ a.a
      let o := o.srEntry a
      let (r, fl) := roundVal a.rm a.fmt (o.drawAt 0) (quireVal (o.vq n))
      let lanes := lanesOf (o.mask a) w
      let o := o.emit a 6 (replicate w (BitVec.ofNat 64 r)) lanes (flagsIn lanes fl)
      if a.var.getLsbD 0 then o.land 6 (.vq n.toNat 0) else o) s

/-- VQMOV (R292): ADD adds the source's value. -/
def execVqmov (a : VArgs) (s : State) : Host.Outcome State Fault Refusal :=
  slotStep (unitSlot a.u) (.vqmov a) a.p
    (fun o =>
      let q := o.vq (fieldQ a.a)
      let nar := q = nar512
      if a.var.getLsbD 0 then o.vqAdd a (if nar then none else some q.toInt) nar
      else (o.land 4 (.vq (fieldQ a.d).toNat q)).flags 4 a.u a.q (laneZero (if nar then flagNR else 0))) s

/-- A quire times `2 ^ n` (R292, R305): the new quire, and whether it overflowed or lost bits. -/
def quireScale (q : Quire) (n : Int) : Quire × Bool × Bool :=
  if q = nar512 then (nar512, false, false)
  else if 0 ≤ n then
    (let z := q.toInt * 2 ^ n.toNat
     if z > quireLimit || z < -quireLimit then (nar512, true, false) else (BitVec.ofInt 512 z, false, false))
  else
    (let m : Int := 2 ^ (-n).toNat
     (BitVec.ofInt 512 (q.toInt.fdiv m), false, q.toInt.fmod m ≠ 0))

/-- VQSCALE (R292). -/
def execVqscale (a : VArgs) (s : State) : Host.Outcome State Fault Refusal :=
  slotStep (unitSlot a.u) (.vqscale a) a.p
    (fun o =>
      let q := o.vq (fieldQ a.a)
      let d := (fieldQ a.d).toNat
      let (z, big, lost) := quireScale q (a.imm.extractLsb' 0 9).toInt
      let fl : Flags := (if q = nar512 then flagNR else 0) ||| (if big then flagQG else 0) ||| (if lost then flagNX else 0)
      let o := (o.land 4 (.vq d z)).flags 4 a.u a.q (laneZero fl)
      if big then o.overflow 4 d 0 else o) s

/-- VQRAW (R293). -/
def execVqraw (a : VArgs) (s : State) : Host.Outcome State Fault Refusal :=
  slotStep (unitSlot a.u) (.vqraw a) a.p
    (fun o =>
      let p := (a.imm.extractLsb' 0 2).toNat
      if a.var.getLsbD 0 then
        let (x, o) := o.readF 64 a.a
        o.land 4 (.vq (fieldQ a.d).toNat (x.extractLsb' (512 * p) 512))
      else
        o.emit a 4 ((o.vq (fieldQ a.a)).setWidth 2048 <<< (512 * p)) (lanesBetween 16 (32 * p) (32 * p + 32)) 0) s

end Sys2Proof.Machine
end

