-- ==== Sys2Proof/Machine/Matrix.lean ====
section
/-! DEFINITION. The matrix engine (R298-R320). -/

namespace Sys2Proof.Machine

/-! ### Weights (R307, R308) -/

/-- The FIFO entry an MX operation consumes. -/
def Fifo.entry (f : Fifo) : Vec := SMap.get 0 f.ent f.rd.toNat

/-- Consume entry RD; its AVL bit clears at the end of the cycle (R300). -/
def Op.consume (o : Op) (fs : FS) : Op :=
  let f := o.c.toCore.fifo fs
  let u := match fs with
    | .fa => { o.u with consumedA := o.u.consumedA + 1 }
    | .fb => { o.u with consumedB := o.u.consumedB + 1 }
  ({ o with u, c := o.c.setFifo fs { f with rd := f.rd + 1 } }).land 1 (.fifoFree fs f.rd.toNat)

/-- MPUSH (R307). -/
def execMpush (a : MxArgs) (s : State) : Host.Outcome State Fault Refusal :=
  slotStep 3 (.mpush a) a.p
    (fun o =>
      let f := o.c.fb
      if f.filled = 0 then o.raise cFUND 1
      else
        let o := o.land 1 (.planeSlot o.c.fill o.c.fp.toNat f.entry a.fmt.code)
        let o := { o with c := { o.c with fp := o.c.fp + 1 } }
        if a.k then o else o.consume .fb) s

/-- MSHIFT (R308): the fill role and FP change in the next cycle, the compute role in the one after. The former compute
plane is the one that is not the fill plane as the MSHIFT issues. -/
def execMshift (a : MxArgs) (s : State) : Host.Outcome State Fault Refusal :=
  slotStep 3 (.mshift a) a.p
    (fun o =>
      let former := !o.c.fill
      let o := (o.land 1 .fillRole).land 2 .computeRole
      if a.z then o.land 2 (.planeClear former) else o) s

/-! ### Accumulation (R309-R311) -/

def int8 (b : BitVec 8) : Int := b.toInt

/-- An element's value in units of 2^-120, of which every tapered value is a multiple; `none` is NaR. -/
def units120 (f : Fmt) (x : Nat) : Option Int :=
  match decodeT x f.width f.es with
  | .real r => some (r.scale 120).floor
  | _ => none

/-- The A elements of one k-block: its number and the decoded elements. -/
def kBlocks (f : Fmt) (a : Vec) : List (Nat × List (Option Int)) :=
  (List.range (f.count / 32)).map fun b => (b, (List.range 32).map fun i => units120 f (elem a f.width (32 * b + i)))

/-- The B elements of column `j` in k-block `b` (R299). -/
def planeColumn (r : Regs) (pl : Bool) (tag : Fmt) (j b : Nat) : List (Option Int) :=
  let rho := 16 / tag.width
  (List.range 32).map fun i =>
    let k := 32 * b + i
    units120 tag (elem (SMap.get 0 r.plane (128 * pl.toNat + k / rho)) tag.width ((k % rho) * 128 + j))

/-- The sum of the products of two lists; a NaR makes it NaR. -/
def dotUnits : List (Option Int) → List (Option Int) → Option Int
  | [], _ => some 0
  | _, [] => some 0
  | x :: xs, y :: ys =>
    match x, y, dotUnits xs ys with
    | some a, some b, some t => some (a * b + t)
    | _, _, _ => none

/-- The scale of k-block `b` and column `j`: the A scale and the plane's (R200, R201). -/
def blockScale (r : Regs) (pl : Bool) (b j : Nat) : Int :=
  int8 (r.ascale.extractLsb' (8 * b) 8) +
    int8 ((SMap.get 0 r.bscale (8 * pl.toNat + b / 2)).extractLsb' (8 * (128 * (b % 2) + j)) 8)

/-- x of R309 in units of 2^-496: the exact sum, every scale sum being at least −256. -/
def maccSum (r : Regs) (pl : Bool) (tag : Fmt) (sf : Bool) (as : List (Nat × List (Option Int))) (j : Nat) : Option Int :=
  as.foldl (fun acc (b, xs) =>
    match acc, dotUnits xs (planeColumn r pl tag j b) with
    | some t, some d => some (t + d * 2 ^ ((if sf then blockScale r pl b j else 0) + 256).toNat)
    | _, _ => none) (some 0)

/-- What a row operation does to one quire. -/
structure QRes where
  q : Quire
  qx : Bool := false
  qg : Bool := false
  f : Flags := 0
  deriving DecidableEq, Repr

/-- Quire `j` of row `n`. -/
def Regs.rowQuire (r : Regs) (n j : Nat) : Quire := SMap.get 0 r.quires (128 * n + j)

/-- Every one of the 128 columns is in the list. -/
def allColumns (js : List Nat) : Bool := js.length == 128

/-- A row operation lands (R302-R304): each enabled column's quire, the row's QX, and the flags in lane `lane j` of FLGA;
the first column to overflow raises QOVF. -/
def Op.rowOp (o : Op) (a : MxArgs) (lane : Nat → Nat) (fresh : Bool) (f : Nat → QRes) : Op :=
  let m := o.regs.mask a.m
  let js := (List.range 128).filter fun j => m.getLsbD (lane j)
  let rs := js.map fun j => (j, f j)
  let ind := rs.any fun x => x.2.qx
  let n := a.row.toNat
  let o := o.land 4 (.row n (rs.map fun x => (x.1, x.2.q))
    (if fresh && allColumns js then .set ind else .orWith ind))
  let o := o.flags 4 .va a.q (flagsOf 16 (rs.map fun x => (lane x.1, x.2.f ||| (if x.2.qg then flagQG else 0))))
  match rs.find? fun x => x.2.qg with
  | some x => o.overflow 4 n (lane x.1)
  | none => o

/-- MACC (R309). -/
def Op.macc (o : Op) (a : MxArgs) : Op :=
  let r := o.regs
  let pl := r.act
  let tag := if pl then r.tag1 else r.tag0
  let tf := Fmt.ofCode tag
  if tag = 0 || tf.width ≠ a.fmt.width then
    o.raise cMWID ((a.fmt.code.setWidth 64 <<< 4) ||| tag.setWidth 64)
  else if o.c.fa.filled = 0 then o.raise cFUND 0
  else
    let as := kBlocks a.fmt o.c.fa.entry
    let n := a.row.toNat
    let o := o.rowOp a (fun j => j) a.z fun j =>
      let q : Quire := if a.z then 0 else r.rowQuire n j
      match maccSum r pl tf a.s as j with
      | none => { q := nar512, f := flagNR }
      | some x =>
        let d : Int := 2 ^ 256
        let y := quireAddUnits q (some (x.fdiv d)) (x.fmod d ≠ 0)
        { q := y.q, qx := y.qx, qg := y.qg, f := if q = nar512 then flagNR else 0 }
    if a.k then o else o.consume .fa

def execMacc (a : MxArgs) (s : State) : Host.Outcome State Fault Refusal :=
  slotStep 3 (.macc a) a.p (fun o => o.macc a) s

/-! ### Row operations (R312) -/

/-- The vector element of column `j` under a part, and its lane (R304). -/
def partElem (a : MxArgs) (j : Nat) : Nat := 128 * a.var.toNat + j

def partLane (a : MxArgs) (j : Nat) : Nat := a.fmt.width * partElem a j / 16

/-- MQADD. -/
def execMqadd (a : MxArgs) (s : State) : Host.Outcome State Fault Refusal :=
  slotStep 3 (.mqadd a) a.p
    (fun o =>
      let (v, o) := o.readWide a.view a.idx
      o.rowOp a (partLane a) false fun j =>
        let q := o.regs.rowQuire a.row.toNat j
        let t := valUnits (decodeT (elem v a.fmt.width (partElem a j)) a.fmt.width a.fmt.es)
        let y := quireAddUnits q t false
        { q := y.q, qg := y.qg, f := if t.isNone || q = nar512 then flagNR else 0 }) s

/-- MQSCALE. -/
def execMqscale (a : MxArgs) (s : State) : Host.Outcome State Fault Refusal :=
  slotStep 3 (.mqscale a) a.p
    (fun o =>
      o.rowOp a (fun j => j) false fun j =>
        let q := o.regs.rowQuire a.row.toNat j
        let (z, big, lost) := quireScale q a.imm.toInt
        { q := z, qx := lost, qg := big, f := if q = nar512 then flagNR else 0 }) s

/-- MQNEG. -/
def execMqneg (a : MxArgs) (s : State) : Host.Outcome State Fault Refusal :=
  slotStep 3 (.mqneg a) a.p
    (fun o =>
      o.rowOp a (fun j => j) false fun j =>
        let q := o.regs.rowQuire a.row.toNat j
        if q = nar512 then { q, f := flagNR } else { q := -q }) s

/-- MQCLR. -/
def execMqclr (a : MxArgs) (s : State) : Host.Outcome State Fault Refusal :=
  slotStep 3 (.mqclr a) a.p (fun o => o.rowOp a (fun j => j) true fun _ => { q := 0 }) s

/-- MQCOPY: the source row's QX goes with the row (R303). -/
def execMqcopy (a : MxArgs) (s : State) : Host.Outcome State Fault Refusal :=
  slotStep 3 (.mqcopy a) a.p
    (fun o =>
      let src := a.sr.toNat
      let b := o.regs.qx.getLsbD src
      let js := (List.range 128).filter fun j => (o.regs.mask a.m).getLsbD j
      o.land 4 (.row a.row.toNat (js.map fun j => (j, o.regs.rowQuire src j)) (if allColumns js then .set b else .orWith b))) s

/-! ### Drains (R313, R314) -/

/-- MDRAIN. -/
def Op.mdrain (o : Op) (a : MxArgs) : Op :=
  let r := o.regs
  let n := a.row.toNat
  let row := morigRow r.morig + BitVec.ofNat 32 n
  let o := if a.rm = .sr then o.history (morigT r.morig) (r.step.setWidth 32) row (morigCol r.morig) else o
  let m := r.mask a.m
  let js := (List.range 128).filter fun j => m.getLsbD (partLane a j)
  let qx := r.qx.getLsbD n
  let w := a.fmt.width
  let rs := js.map fun j =>
    let d := draw r.key (morigT r.morig) (r.step.setWidth 32) row (morigCol r.morig + BitVec.ofNat 32 j)
    (j, roundVal a.rm a.fmt d (quireVal (r.rowQuire n j)))
  let v := ofElems w ((List.range (2048 / w)).map fun e =>
    if 128 * a.var.toNat ≤ e then (SMap.get (0, 0) rs (e - 128 * a.var.toNat)).1 else 0)
  let lanes := js.foldl (fun (acc : Mask) j => acc ||| (1#128 <<< partLane a j)) 0
  let o := match o.c.wide a.view a.idx with
    | some j => o.land 6 (.reg a.view.toNat j v lanes)
    | none => o
  let o := o.land 6 (.latch 2 v lanes)
  let o := o.flags 6 .va a.q
    (flagsOf 16 (rs.map fun x => (partLane a x.1, x.2.2 ||| (if qx then flagNX else 0))))
  if a.c then o.land 4 (.row n (js.map fun j => (j, 0)) (if allColumns js then .set false else .keep)) else o

def execMdrain (a : MxArgs) (s : State) : Host.Outcome State Fault Refusal :=
  slotStep 3 (.mdrain a) a.p (fun o => o.mdrain a) s

/-! ### Spill, fill and origin (R315-R318) -/

/-- The offset of a spill or fill (R315). -/
def Op.spillEa (o : Op) (a : MxArgs) : Int := (o.regs.sreg a.sr).toInt + 64 * a.imm.toInt

/-- MQSPILL. -/
def execMqspill (a : MxArgs) (s : State) : Host.Outcome State Fault Refusal :=
  slotStep 3 (.mqspill a) a.p
    (fun o =>
      if a.var.getLsbD 0 then
        o.access (o.spillEa a) 64 64 (some (List.replicate 64 true)) fun p => o.land 12 (.store p (bytesOf 64 o.regs.qx.toNat))
      else
        o.access (o.spillEa a) 8192 64 (some (List.replicate 8192 true)) fun p =>
          o.land 12 (.store p ((List.range 128).flatMap fun j => bytesOf 64 (o.regs.rowQuire a.row.toNat j).toNat))) s

/-- The quires of a row from its 8 KiB. -/
def rowOfBytes (bs : List Byte) : List (Nat × Quire) :=
  (List.range 128).map fun j => (j, BitVec.ofNat 512 (ofLe ((bs.drop (64 * j)).take 64)))

/-- MQFILL. -/
def execMqfill (a : MxArgs) (s : State) : Host.Outcome State Fault Refusal :=
  slotStep 3 (.mqfill a) a.p
    (fun o =>
      if a.var.getLsbD 0 then
        o.access (o.spillEa a) 64 64 none fun p =>
          o.land 12 (.qxAll (BitVec.ofNat 32 (ofLe (o.bytes p 4) % 2 ^ o.c.qrows)))
      else
        o.access (o.spillEa a) 8192 64 none fun p =>
          o.land 12 (.row a.row.toNat (rowOfBytes (o.bytes p 8192)) (.set false))) s

/-- MORIG (R318). -/
def execMorig (a : MxArgs) (s : State) : Host.Outcome State Fault Refusal :=
  slotStep 3 (.morig a) a.p
    (fun o =>
      let t : BitVec 16 := if a.var.getLsbD 0 then morigT o.regs.morig else a.imm
      o.land 1 (.morig (t ++ (o.regs.sreg a.sr).setWidth 48))) s

/-- MNOP (R104). -/
def execMnop (hint : BitVec 4) (val : BitVec 56) (s : State) : Host.Outcome State Fault Refusal :=
  slotStep 3 (.mnop hint val) ⟨false, 0⟩ (fun o => o) s

end Sys2Proof.Machine
end

