-- ==== Sys2Proof/Machine/Sync.lean ====
section
/-! DEFINITION. The SY slot: wait conditions, test forms, signals, barriers, realignment, fences and FIFO pointers, and the
synchronisation log (R342, R349-R361, R394, R395). -/

namespace Sys2Proof.Machine

/-! ### The synchronisation log (R394, R395) -/

/-- SYNC of the sampled debug block. -/
def Launch.sync (l : Launch) : Nat := ((l.dbg.dbgctl >>> 10).setWidth 2).toNat

def State.launchRec (s : State) (c : Ctx) : Option Launch := c.launch.bind fun id => findLaunch s.ctd.launches id

/-- The controller of an arrival counter as the log names it. Table 19.5 gives the field TILE no room for it; bits [15:11] take it
(DESIGN CHOICE, log entry 136). -/
def ctlOf : ArrLoc → Nat
  | .tile _ => 0
  | .hbm n => n + 1
  | .lpddr => 17

/-- The records an agent may still consume: a context's, or an arrival counter's, which its index and its controller tell. -/
def SyncRec.fits (r : SyncRec) (kind obj t : Nat) (k : BitVec 2) (ctl : Nat := 0) : Bool :=
  if kind = 4 then r.kind = 4 && r.obj = obj && r.ctl = ctl && (ctl ≠ 0 || r.tile = t)
  else r.kind ≠ 4 && r.tile = t && r.k = k.toNat

/-- Consume the record of an agent's next event. -/
def takeRecord (kind obj t : Nat) (k : BitVec 2) (ctl : Nat) (rs : List (Nat × SyncRec)) : List (Nat × SyncRec) :=
  match rs.find? (fun r => r.2.fits kind obj t k ctl) with
  | some r => rs.erase r
  | none => rs

/-- What forcing decides for the next sync event of an agent. -/
inductive Force where
  /-- the launch is not forced -/
  | free
  /-- its record is the lowest not yet consumed: the value logged -/
  | go (v : Word)
  /-- records with a lower SEQ come first; the value logged -/
  | later (v : Word)
  /-- no record is left for it, or its record is of another kind or object -/
  | diverge
  deriving DecidableEq, Repr

def Launch.forced (l : Launch) (kind obj t : Nat) (k : BitVec 2) (ctl : Nat := 0) : Force :=
  match l.force with
  | none => .free
  | some rs =>
    match rs.find? (fun r => r.2.fits kind obj t k ctl) with
    | none => .diverge
    | some r =>
      if r.2.kind ≠ kind || r.2.obj ≠ obj then .diverge
      else if rs.head? = some r then .go r.2.value else .later r.2.value

def State.forced (s : State) (c : Ctx) (kind obj t : Nat) (k : BitVec 2) : Force :=
  match s.launchRec c with
  | none => .free
  | some l => l.forced kind obj t k

/-- A sync event of the agent on tile `t` happens: it is logged, or its record is consumed, or forcing stops with an RDIV entry in the
context `res`. An arrival release names the tile of its counter, or for a counter of a memory the tile that armed it, with the number of
the context that armed it, wherever that stands (DEDUCED, log entry 113). -/
def State.syncEventOf (s : State) (id : LId) (res : Option (Nat × BitVec 2)) (t : Nat) (k : BitVec 2) (kind obj : Nat) (value : Word)
    (off : BitVec 16) (slot : Nat) (ctl : Nat := 0) : State :=
  match findLaunch s.ctd.launches id with
  | none => s
  | some l =>
    if l.sync = 1 then
      s.updLaunch id fun l =>
        { l with slog := l.slog ++ [{ zc := s.now - l.t0.getD 0, value, kind, obj, tile := t, k := k.toNat, ctl }] }
    else
      match l.forced kind obj t k ctl with
      | .free => s
      | .diverge =>
        let s := s.updLaunch id fun l => { l with force := none }
        (match res with
         | some (t, k) => s.updCtx t k fun c => c.event s.now dcrRDIV off slot 1
         | none => s)
      | _ => s.updLaunch id fun l => { l with force := l.force.map (takeRecord kind obj t k ctl) }

/-- A sync event of a resident context. -/
def State.syncEvent (s : State) (t : Nat) (k : BitVec 2) (kind obj : Nat) (value : Word) (off : BitVec 16) (slot : Nat) : State :=
  match (s.ctx t k).launch with
  | some id => s.syncEventOf id (some (t, k)) t k kind obj value off slot
  | none => s

/-! ### Conditions (Table 17.3) -/

/-- The waiting operations (R352). -/
def isWait : Instr → Bool
  | .waitge _ _ _ _ f | .waitw _ _ _ _ _ f => f.limit ≠ 0
  | .fwait o | .ffree o => o.form.limit ≠ 0
  | .barr _ _ _ _ | .realign _ _ _ => true
  | _ => false

/-- LIMIT of a waiting operation; REALIGN has none. -/
def waitLimit : Instr → Option Nat
  | .waitge _ _ _ _ f | .waitw _ _ _ _ _ f => some f.limit.toNat
  | .fwait o | .ffree o => some o.form.limit.toNat
  | .barr _ _ _ l => some l.toNat
  | _ => none

/-- A declared wait (R161, R355, R358). -/
def waitDeclared : Instr → Bool
  | .waitge _ _ _ _ f | .waitw _ _ _ _ _ f => f.dcl
  | .fwait o | .ffree o => o.form.dcl
  | .barr _ _ d _ => d
  | .realign _ _ _ => true
  | _ => false

/-- The hold of a bundle that first reaches issue now, its target formed from the registers of this cycle. -/
def Regs.holdOf (r : Regs) (now : Nat) (i : Instr) : Hold :=
  match i with
  | .waitge _ _ sa imm _ => { c0 := now, target := r.sreg sa + imm.setWidth 64 }
  | .waitw _ sb sa _ off _ => { c0 := now, target := r.sreg sa, ea := (r.sreg sb).toInt + 8 * (off.toNat : Int) }
  | .realign _ sa imm => { c0 := now, target := r.sreg sa + imm.setWidth 64 }
  | .fwait o | .ffree o => { c0 := now, target := o.n.setWidth 64 }
  | _ => { c0 := now }

/-- The check of a WAITW's address (R352); `bad` holds the tile's blocks with uncorrectable errors (R37), which trap XMEM (DEDUCED, log
entry 108). -/
def Ctx.waitwErr (c : Ctx) (sup : Bool) (bad : List Nat) (ea : Int) : Option (BitVec 8) :=
  if ea % 8 ≠ 0 then some cALGN
  else if !c.legal sup ea 8 then some cBND
  else if bad.any fun b => spoils (c.phys sup ea) 8 b none then some cXMEM
  else none

/-- The comparison of a WAITW. -/
def wcondTest (c : WCond) (x y : Word) : Bool :=
  match c with
  | .ge => y.toNat ≤ x.toNat
  | .eq => x = y
  | .ne => x ≠ y

/-- One of a pair of counts, of fa or of fb. -/
def fsPick (f : FS) (x : Nat × Nat) : Nat :=
  match f with
  | .fa => x.1
  | .fb => x.2

/-- The counts that FWAIT and FFREE wait for. At a later step of a bundle what its earlier steps have taken does not lower them, for all
slots of a bundle find the state before it (R164, R402). -/
def Ctx.filledFor (c : Ctx) (f : FS) : Nat :=
  (c.toCore.fifo f).filled + (match c.keptFifo with | some x => if c.sup then 0 else fsPick f x.used | none => 0)
def Ctx.freeFor (c : Ctx) (f : FS) : Nat :=
  max (c.toCore.fifo f).free (match c.keptFifo with | some x => if c.sup then 0 else fsPick f x.free | none => 0)

/-- The value a waiting operation reads in this cycle, and its condition. An operation that will trap as it issues does not
hold its bundle; BARR and REALIGN are decided at the headland. -/
def State.waitNow (s : State) (t : Nat) (c : Ctx) (i : Instr) (h : Hold) : Word × Bool :=
  match i with
  | .waitge _ n _ _ _ =>
    (match c.counter n.toNat with
     | none => (0, true)
     | some p => (let v := SMap.get 0 (s.tile t).cnt p; (v, h.target.toNat ≤ v.toNat)))
  | .waitw _ _ _ w _ _ =>
    (match c.waitwErr c.sup (s.tile t).bad h.ea with
     | some _ => (0, true)
     | none =>
       let v : Word := BitVec.ofNat 64 (ofLe (c.sees (s.tile t).scratch (c.phys c.sup h.ea) 8))
       (v, wcondTest w v h.target))
  | .barr _ b _ _ =>
    (match s.launchRec c with
     | some l => (BitVec.ofNat 64 (SMap.get 0 l.barCount b.toNat), !c.leads || l.barRel.contains (b.toNat, fieldFy c.field))
     | none => (0, true))
  | .realign _ _ _ => (BitVec.ofNat 64 (s.now - c.t0), !c.leads || h.target.toNat ≤ s.now - c.t0)
  | .fwait o => (let n := c.filledFor o.fs; (BitVec.ofNat 64 n, o.n.toNat ≤ n))
  | .ffree o => (let n := c.freeFor o.fs; (BitVec.ofNat 64 n, o.n.toNat ≤ n))
  | _ => (0, true)

/-- KIND and OBJ of the sync event of a wait (Table 19.5); FIFO waits and REALIGN make none. -/
def syncKind : Instr → Option (Nat × Nat)
  | .waitge _ n _ _ f => some (if f.limit = 0 then 5 else 1, n.toNat)
  | .waitw _ _ _ _ _ f => some (if f.limit = 0 then 5 else 2, 0)
  | .barr _ b _ _ => some (3, b.toNat)
  | _ => none

/-- The condition with forcing: a forced wait is also held until its turn, and counts the logged value (R395). -/
def State.waitForced (s : State) (t : Nat) (k : BitVec 2) (c : Ctx) (i : Instr) (h : Hold) : Word × Bool :=
  let (v, ok) := s.waitNow t c i h
  match syncKind i with
  | none => (v, ok)
  | some (kind, obj) =>
    if !c.leads then (v, ok)
    else match s.forced c kind obj t k with
      | .go w => (w, ok)
      | .later _ => (v, false)
      | _ => (v, ok)

/-- EINFO of WTO (R353). -/
def wtoInfo (i : Instr) (value target : Word) : Word :=
  let f (kind obj : Nat) (v t : Word) : Word :=
    (BitVec.ofNat 64 kind <<< 61) ||| (BitVec.ofNat 64 obj <<< 55) ||| ((v.setWidth 27).setWidth 64 <<< 28) ||| (t.setWidth 28).setWidth 64
  match i with
  | .waitge _ n _ _ _ => f 0 n.toNat value target
  | .waitw _ _ _ _ _ _ => f 1 0 value target
  | .barr _ b _ _ => f 2 b.toNat 0 0
  | .fwait o => f 3 o.fs.toBit.toNat value target
  | .ffree o => f 4 o.fs.toBit.toNat value target
  | _ => 0

/-! ### The operations -/

/-- A timed wait that elastic work satisfied (R162). -/
def Op.elastic (o : Op) (i : Instr) (ea : Int) : Op :=
  let x := o.s.tile o.u.t
  let hit : Bool := match i with
    | .waitge _ n _ _ _ => (match o.c.counter n.toNat with | some p => x.ecnt.contains p | none => false)
    | .waitw _ _ _ _ _ _ => x.eword.contains (o.c.phys o.u.sup ea / 8)
    | _ => false
  if o.c.timed && hit then o.event dcrELAST 1 else o

/-- A sync event of the operation; in a furrow the headland alone logs it. -/
def Op.sync (o : Op) (i : Instr) (value : Word) : Op :=
  match syncKind i with
  | none => o
  | some (kind, obj) =>
    if !o.c.leads then o
    else
      let s := (o.s.setCtx o.u.t o.u.k o.c).syncEvent o.u.t o.u.k kind obj value o.u.off o.slot
      { o with s, c := s.ctx o.u.t o.u.k }

/-- A waiting form as it issues: its condition counts as met, or its limit has expired (R353). -/
def Op.waited (o : Op) (i : Instr) : Op :=
  match o.u.expired with
  | some e => o.raise cWTO e
  | none =>
    let h := o.u.wait.getD (o.regs.holdOf o.now i)
    (o.elastic i h.ea).sync i h.value

/-- A test form: the condition, or the logged predicate, into p[pd] (R354, R395). `pre` gives FIFO counts from before the
bundle. -/
def Op.tested (o : Op) (i : Instr) (pd : BitVec 3) (cond : Bool) : Op :=
  let b : Bool := match syncKind i with
    | none => cond
    | some (kind, obj) =>
      match (if o.c.leads then o.s.forced o.c kind obj o.u.t o.u.k else .free) with
      | .go w | .later w => w ≠ 0
      | _ => cond
  (o.land 1 (.preg pd.toNat b)).sync i (BitVec.ofBool b |>.setWidth 64)

def execWaitge (p : Pred) (ctr : BitVec 6) (sa : BitVec 5) (imm : BitVec 9) (form : WaitForm) (s : State) :
    Host.Outcome State Fault Refusal :=
  slotStep 7 (.waitge p ctr sa imm form) p
    (fun o =>
      let i := Instr.waitge p ctr sa imm form
      if form.limit ≠ 0 then o.waited i
      else o.tested i form.pd (o.s.waitNow o.u.t o.c i (o.regs.holdOf o.now i)).2) s

def execWaitw (p : Pred) (sb : BitVec 5) (sa : BitVec 5) (cond : WCond) (off : BitVec 8) (form : WaitForm) (s : State) :
    Host.Outcome State Fault Refusal :=
  slotStep 7 (.waitw p sb sa cond off form) p
    (fun o =>
      let i := Instr.waitw p sb sa cond off form
      let h := match o.u.wait with
        | some h => h
        | none => o.regs.holdOf o.now i
      match o.c.waitwErr o.u.sup (o.s.tile o.u.t).bad h.ea with
      | some cause => o.raise cause (ea32 h.ea)
      | none => if form.limit ≠ 0 then o.waited i else o.tested i form.pd (o.s.waitNow o.u.t o.c i h).2) s

/-- SIG (R356); a checked pair gates it (R384). -/
def execSig (p : Pred) (ctr : BitVec 6) (sa : BitVec 5) (imm : BitVec 20) (s : State) : Host.Outcome State Fault Refusal :=
  slotStep 7 (.sig p ctr sa imm) p
    (fun o =>
      let v := o.regs.sreg sa + imm.setWidth 64
      match o.c.counter ctr.toNat with
      | none => o
      | some phys =>
        match o.c.chk with
        | some k => { o with c := { o.c with chk := some { k with gate := k.gate ++ [.sig phys v] } } }
        | none => o.land 1 (.cntAdd phys v)) s

/-- BARR as it issues: the headland takes the release (R357). -/
def execBarr (p : Pred) (b : BitVec 3) (dcl : Bool) (limit : BitVec 20) (s : State) : Host.Outcome State Fault Refusal :=
  slotStep 7 (.barr p b dcl limit) p
    (fun o =>
      let o := o.waited (.barr p b dcl limit)
      match o.u.expired, o.c.launch with
      | none, some id =>
        if o.c.leads then
          let x := (b.toNat, fieldFy o.c.field)
          { o with
            s := o.s.updLaunch id fun l => { l with barRel := l.barRel.filter (· ≠ x), barArr := l.barArr.filter (· ≠ x) }
            c := { o.c with chk := o.c.chk.map fun k => { k with passed := k.passed ++ [b.toNat] } } }
        else o
      | _, _ => o) s

/-- REALIGN (R359): a target that had passed when the bundle reached issue is a miss. -/
def execRealign (p : Pred) (sa : BitVec 5) (imm : BitVec 32) (s : State) : Host.Outcome State Fault Refusal :=
  slotStep 7 (.realign p sa imm) p
    (fun o =>
      let h := o.u.wait.getD (o.regs.holdOf o.now (.realign p sa imm))
      let miss : Bool := if o.c.leads then h.target.toNat < h.c0 - o.c.t0 else (match o.u.item with | some x => x.rmiss | none => false)
      if miss then { o.event dcrRMISS 1 with u := { o.u with rmiss := true } } else o) s

/-- The number of a scope (Table 16.1). -/
def scopeRank : Scope → Nat
  | .t => 0 | .f => 1 | .d => 2 | .p => 3 | .s => 4

/-- FENCE (R342, R360): later commands wait for the earlier ones whose reach lies within the scope. -/
def execFence (p : Pred) (sc : Scope) (s : State) : Host.Outcome State Fault Refusal :=
  slotStep 7 (.fence p sc) p
    (fun o =>
      let run := (o.c.commands.filter fun x => x.2.reach ≤ scopeRank sc).map fun x => x.2.ord
      let bad := (List.range 4).filterMap fun q =>
        let x := o.c.queue q
        if x.bad.isSome && x.qs ≠ 0 && x.ecode ≠ cXOVC && x.badReach ≤ scopeRank sc then some x.badOrd else none
      { o with c := { o.c with fence := o.c.fence ++ run ++ bad }.pruneFence }) s

/-- FADV (R361): entries that the bundle's MX operation consumed are already gone from the count. -/
def Op.discardEntries (o : Op) (fs : FS) : Nat → Op
  | 0 => o
  | n + 1 => (o.consume fs).discardEntries fs n

def execFadv (p : Pred) (fs : FS) (n : BitVec 5) (s : State) : Host.Outcome State Fault Refusal :=
  slotStep 7 (.fadv p fs n) p
    (fun o =>
      -- an entry that the bundle has consumed stays available until its landing
      if (fsPick fs o.u.fill0) - (fsPick fs (o.u.consumedA, o.u.consumedB)) < n.toNat then o.raise cFUND ((BitVec.ofBool fs.toBit).setWidth 64)
      else o.discardEntries fs n.toNat) s

def execFwait (a : FifoArgs) (s : State) : Host.Outcome State Fault Refusal :=
  slotStep 7 (.fwait a) a.p
    (fun o => if a.form.limit ≠ 0 then o.waited (.fwait a)
      else o.tested (.fwait a) a.form.pd (a.n.toNat ≤ fsPick a.fs o.u.fill0)) s

def execFfree (a : FifoArgs) (s : State) : Host.Outcome State Fault Refusal :=
  slotStep 7 (.ffree a) a.p
    (fun o => if a.form.limit ≠ 0 then o.waited (.ffree a)
      else o.tested (.ffree a) a.form.pd (a.n.toNat ≤ fsPick a.fs o.u.free0)) s

end Sys2Proof.Machine
end

