-- ==== Sys2Proof/Machine/System.lean ====
section
/-! DEFINITION. The system registers: what a read gives and what a write changes (Tables 9.6, 9.7, R188, R189, R327, R351,
R376). -/

namespace Sys2Proof.Machine

/-- The low and high word of a loop-stack entry (Table 8.1). -/
def Level.lo (l : Level) : Word :=
  (l.len.setWidth 64 <<< 32) ||| (l.start.setWidth 64 <<< 16) ||| ((BitVec.ofBool l.rt).setWidth 64 <<< 1) |||
    (BitVec.ofBool l.pe).setWidth 64

def Level.hi (l : Level) : Word := (l.count.setWidth 64 <<< 32) ||| l.idx.setWidth 64

def Level.setLo (l : Level) (v : Word) : Level :=
  { l with len := (v >>> 32).setWidth 16, start := (v >>> 16).setWidth 16, rt := v.getLsbD 1, pe := v.getLsbD 0 }

def Level.setHi (l : Level) (v : Word) : Level := { l with count := (v >>> 32).setWidth 32, idx := v.setWidth 32 }

/-- Replace word `j` of a flag array. -/
def flgWord (f : FlgVec) (j : Nat) (v : Word) : FlgVec :=
  (f &&& ~~~((BitVec.allOnes 64).setWidth 1024 <<< (64 * j))) ||| (v.setWidth 1024 <<< (64 * j))

/-- The value a SYSR reads; KEY, STEP, MORIG and the flags are operands that a stepped bundle keeps (R402). -/
def Op.sysRead (o : Op) (n : Nat) : Word :=
  let c := o.c
  let r := o.regs
  if n = 0x000 then r.key
  else if n = 0x001 then r.step
  else if n = 0x002 then c.qtrap
  else if n = 0x003 then c.cyc
  else if n = 0x004 then o.s.zone
  else if n = 0x005 then c.field
  else if n = 0x006 then r.morig
  else if n = 0x007 then c.shn
  else if 0x010 ≤ n && n ≤ 0x013 then c.toCore.view (n - 0x010)
  else if n = 0x020 then c.epc
  else if n = 0x021 then c.ecause
  else if n = 0x022 then c.eslot
  else if n = 0x023 then c.edone
  else if n = 0x024 then c.einfo
  else if n = 0x025 then c.ept
  else if n = 0x026 then c.tvec
  else if n = 0x027 then c.preq
  else if 0x028 ≤ n && n ≤ 0x02B then SMap.get 0 c.sscr (n - 0x028)
  else if 0x030 ≤ n && n ≤ 0x04F then SMap.get 0 c.dcr (n - 0x030)
  else if 0x060 ≤ n && n ≤ 0x06B then
    (let l := c.toCore.level ((n - 0x060) / 2); if n % 2 = 0 then l.lo else l.hi)
  else if 0x080 ≤ n && n ≤ 0x0BF then BitVec.ofNat 64 ((c.counter (n - 0x080)).getD 0)
  else if 0x0C0 ≤ n && n ≤ 0x0FF then SMap.get 0 (o.s.tile o.u.t).cnt ((c.counter (n - 0x0C0)).getD 0)
  else if 0x100 ≤ n && n ≤ 0x10F then r.flga.extractLsb' (64 * (n - 0x100)) 64
  else if 0x110 ≤ n && n ≤ 0x11F then r.flgb.extractLsb' (64 * (n - 0x110)) 64
  else if 0x120 ≤ n && n ≤ 0x13F then SMap.get 0 c.dhist (n - 0x120)
  else 0

/-- PREQ's OP field as a SYSW writes it (Table 18.5). -/
def preqOp (v : Word) : BitVec 2 := (v >>> 61).setWidth 2

/-- A write of a system register lands. KEY clears every VAL of the history (R327); ECAUSE and the others take the defined
bits, and PREQ its OP alone. -/
def Ctx.sysWrite (c : Ctx) (n : Nat) (w : Word) : Ctx :=
  let v := w &&& sysMask n
  if n = 0x000 then
    { c with key := v, dhist := (List.range 16).foldl (fun m i => SMap.set 0 m (2 * i) (SMap.get 0 m (2 * i) &&& ~~~(1#64 <<< 63))) c.dhist }
  else if n = 0x001 then { c with step := v }
  else if n = 0x002 then { c with qtrap := v }
  else if n = 0x003 then { c with cyc := v }
  else if n = 0x006 then { c with morig := v }
  else if n = 0x007 then { c with shn := v }
  else if 0x010 ≤ n && n ≤ 0x013 then
    { c with vw := SMap.set 0 c.vw (n - 0x010) v, vwNew := c.vwNew ||| (1#4 <<< (n - 0x010)) }
  else if n = 0x020 then { c with epc := v }
  else if n = 0x021 then { c with ecause := v }
  else if n = 0x022 then { c with eslot := v }
  else if n = 0x023 then { c with edone := v }
  else if n = 0x024 then { c with einfo := v }
  else if n = 0x025 then { c with ept := v }
  else if n = 0x026 then { c with tvec := v }
  else if n = 0x027 then { c with preq := (c.preq &&& ~~~(3#64 <<< 61)) ||| ((preqOp v).setWidth 64 <<< 61) }
  else if 0x028 ≤ n && n ≤ 0x02B then { c with sscr := SMap.set 0 c.sscr (n - 0x028) v }
  else if 0x030 ≤ n && n ≤ 0x04F then { c with dcr := SMap.set 0 c.dcr (n - 0x030) v }
  else if 0x060 ≤ n && n ≤ 0x06B then
    (let m := (n - 0x060) / 2
     let l := c.toCore.level m
     { c with ls := SMap.set {} c.ls m (if n % 2 = 0 then l.setLo v else l.setHi v) })
  else if 0x100 ≤ n && n ≤ 0x10F then { c with flga := flgWord c.flga (n - 0x100) v }
  else if 0x110 ≤ n && n ≤ 0x11F then { c with flgb := flgWord c.flgb (n - 0x110) v }
  else if 0x120 ≤ n && n ≤ 0x13F then { c with dhist := SMap.set 0 c.dhist (n - 0x120) v }
  else c

/-- The value a register rejects (R188): an invalid view descriptor with VAL set, or OP 3 in PREQ. -/
def sysRejects (n : Nat) (v : Word) : Bool :=
  if 0x010 ≤ n && n ≤ 0x013 then vwVal v && !vwValid v
  else n == 0x027 && (v >>> 61).setWidth 2 == 3#2

/-- A SYSW of PREQ with OP 1 or OP 2: the next bundle waits for the image operation that starts as the write lands (R163, R376). -/
def Op.preq (o : Op) (v : Word) : Op :=
  let o := o.land 2 (.sys 0x027 v)
  if preqOp v = 0 then o else { o with c := { o.c with readyAt := o.now + 2 } }

def execSysr (p : Pred) (sd : BitVec 5) (num : BitVec 12) (s : State) : Host.Outcome State Fault Refusal :=
  slotStep 0 (.sysr p sd num) p (fun o => o.land 2 (.sreg sd.toNat (o.sysRead num.toNat))) s

def execSysw (p : Pred) (sa : BitVec 5) (num : BitVec 12) (s : State) : Host.Outcome State Fault Refusal :=
  slotStep 0 (.sysw p sa num) p
    (fun o =>
      let v := o.regs.sreg sa
      if sysRejects num.toNat v then o.raiseIssue cILL
      else if num.toNat = 0x027 then o.preq v
      else o.land 2 (.sys num.toNat v)) s

/-- SYSW of KEY: landing clears the draw history (R327). -/
def execKeyWrite (p : Pred) (sa : BitVec 5) (s : State) : Host.Outcome State Fault Refusal :=
  slotStep 0 (.keyWrite p sa) p (fun o => o.land 2 (.sys 0 (o.regs.sreg sa))) s

/-- Some context resident on the tile maps the physical counter, other than virtual counter `n` of context `k`. -/
def Tile.mapped (x : Tile) (k : BitVec 2) (n phys : Nat) : Bool :=
  allK.any fun j => (x.get j).life ≠ .free && (x.get j).cmap.any fun e => e.2 = some phys && !(j = k && e.1 = n)

/-- The physical counters that launches broadcast and not yet loaded there have been given on a tile: their contexts count as resident
from the broadcast (DEDUCED, log entry 121). -/
def State.promised (s : State) (t : Nat) : List Nat :=
  (s.ctd.launches.filter fun l => l.toPlace.contains (dieOf t)).flatMap fun l => l.furrows.flatMap fun f =>
    if f.head ≤ t then (match f.mem[t - f.head]? with | some m => m.phys | none => []) else []

/-- SYSW of CMAP:n (R351). -/
def execCmapWrite (p : Pred) (sa : BitVec 5) (n : BitVec 6) (s : State) : Host.Outcome State Fault Refusal :=
  slotStep 0 (.cmapWrite p sa n) p
    (fun o =>
      let phys := (o.regs.sreg sa).toNat % 256
      if ((o.s.tile o.u.t).set o.u.k o.c).mapped o.u.k n.toNat phys || (o.s.promised o.u.t).contains phys then o.raiseIssue cILL
      else o.land 2 (.cmap n.toNat phys)) s

/-- SYSW of CNT:n writes the counter resolved at issue (R189). -/
def execCntWrite (p : Pred) (sa : BitVec 5) (n : BitVec 6) (s : State) : Host.Outcome State Fault Refusal :=
  slotStep 0 (.cntWrite p sa n) p
    (fun o =>
      match o.c.counter n.toNat with
      | some phys => o.land 2 (.cntSet phys (o.regs.sreg sa))
      | none => o) s

end Sys2Proof.Machine
end

