-- ==== Sys2Proof/Machine/Land.lean ====
section
/-! DEFINITION. Results land: the write of each slot operation, collisions, and the holding still of a tile in freezes and
stretches (R66, R85, R152, R164-R166, R189, R308, R367, R384, R398). -/

namespace Sys2Proof.Machine

/-! ### Holding still -/

/-- The module is in a stretch or a clock step (R166, R168). -/
def State.stretched (s : State) : Bool :=
  (s.ctd.stretch.sched.any fun x => x.1 ≤ s.now && s.now < x.1 + x.2) ||
    (match s.ctd.clockUntil with | some u => decide (s.now < u) | none => false)

/-- The tile is frozen in a cycle (R152). -/
def Tile.frozen (x : Tile) (now : Nat) : Bool := x.freeze.any fun f => f.1 ≤ now && now < f.1 + f.2

/-- A padded completion of a timed context has not happened by its declared cycle (R160). -/
def Ctx.late (c : Ctx) (now : Nat) : Bool :=
  c.timed && (c.life = .running || c.life = .retiring) && (List.range 4).any fun q =>
    let x := c.queue q
    let tooLate (e : XEntry) : Bool := match e.due with | some d => decide (d ≤ now) | none => false
    x.qs = 0 && ((match x.run with | some r => tooLate r.e | none => false) || x.ents.any tooLate)

/-- A timed furrow's tile that stalls freezes itself (R152). -/
def Tile.stalls (x : Tile) (now : Nat) : Bool := allK.any fun k => (x.get k).span ≥ 2 && ((x.get k).stuck || (x.get k).late now)

/-- The results of the tile that are due in this cycle wait: in a stretch, a freeze, or a stall. Whether a completion comes in its declared
cycle shows only after them, so that the cycle begins with what its command has still to do (DEDUCED, log entry 124). -/
def State.landsStill (s : State) (t : Nat) : Bool :=
  s.stretched || (s.tile t).frozen s.now || allK.any fun k => ((s.tile t).get k).span ≥ 2 && ((s.tile t).get k).stuck

/-- The tile's pipelines hold still in this cycle. -/
def State.holdsStill (s : State) (t : Nat) : Bool :=
  s.stretched || (s.tile t).frozen s.now || (s.tile t).stalls s.now

/-! ### One landing -/

/-- The register two results can collide on (R165); s0, p0 and m0 are none, and a result that writes no lane has none. -/
def Write.target (w : Write) : Option (Nat × Nat) :=
  if w.silent then none else
  match w with
  | .sreg r _ => if r = 0 then none else some (0, r)
  | .preg r _ => if r = 0 then none else some (1, r)
  | .mreg r _ => if r = 0 then none else some (2, r)
  | .reg _ j _ _ => some (3, j)
  | .opf e _ _ => some (4, e)
  | .row n _ _ => some (5, n)
  | .vq n _ => some (6, n)
  | _ => none

/-- Writes that act before the others of their cycle: a register written by SYSW, a flag or plane cleared. -/
def Write.early : Write → Bool
  | .sys _ _ | .cntSet _ _ | .flagClear _ _ | .planeClear _ => true
  | _ => false

def qxAfter (qx : BitVec 32) (n : Nat) : QxUp → BitVec 32
  | .keep => qx
  | .orWith b => if b then qx ||| (1#32 <<< n) else qx
  | .set b => if b then qx ||| (1#32 <<< n) else qx &&& ~~~(1#32 <<< n)

/-- What a landing changes in the registers. -/
def Regs.landed (r : Regs) (w : Write) : Regs :=
  match w with
  | .sreg n v => r.setS n v
  | .preg n v => r.setP n v
  | .mreg n v => r.setM n v
  | .reg _ j v lanes => { r with space := SMap.set 0 r.space j (blend lanes v (SMap.get 0 r.space j)) }
  | .opf e v lanes => { r with opf := SMap.set 0 r.opf e (blend lanes v (SMap.get 0 r.opf e)) }
  | .latch n v lanes => { r with latch := SMap.set 0 r.latch n (blend lanes v (SMap.get 0 r.latch n)) }
  | .vq n v => { r with vq := SMap.set 0 r.vq n v }
  | .flags .va f => { r with flga := r.flga ||| f }
  | .flags .vb f => { r with flgb := r.flgb ||| f }
  | .flagClear .va f => { r with flga := r.flga &&& ~~~f }
  | .flagClear .vb f => { r with flgb := r.flgb &&& ~~~f }
  | .row n qs qx =>
    { r with
      quires := qs.foldl (fun m x => SMap.set 0 m (128 * n + x.1) x.2) r.quires
      qx := qxAfter r.qx n qx }
  | .qxAll v => { r with qx := v }
  | .planeSlot pl slot v tag =>
    let r := { r with plane := SMap.set 0 r.plane (128 * pl.toNat + slot) v }
    if pl then { r with tag1 := tag } else { r with tag0 := tag }
  | .fillRole => { r with fill := !r.fill, fp := 0 }
  | .computeRole => { r with act := !r.act }
  | .planeClear pl =>
    let r := { r with
      plane := r.plane.filter fun e => e.1 / 128 ≠ pl.toNat
      bscale := r.bscale.filter fun e => e.1 / 8 ≠ pl.toNat }
    if pl then { r with tag1 := 0 } else { r with tag0 := 0 }
  | .ascale v => { r with ascale := v }
  | .bscale pl part v => { r with bscale := SMap.set 0 r.bscale (8 * pl.toNat + part) v }
  | .morig v => { r with morig := v }
  | _ => r

/-- What a landing changes in the rest of the context. A write to a fallow register is discarded, and recorded where it has a
lane to write (R85). -/
def Ctx.landed (c : Ctx) (now : Nat) (l : Landing) : Ctx :=
  match l.w with
  | .reg n j _ _ =>
    if c.toCore.fallow n j then (if l.w.silent then c else c.event now dcrFALLOW l.off l.slot 1)
    else c.setRegs (c.toRegs.landed l.w)
  | .sys num v => c.sysWrite num v
  | .cmap n phys => { c with cmap := c.cmap.put n (some phys) }
  | .fifoFill f e v => c.setFifo f ((c.toCore.fifo f).fill e v)
  | .fifoFree f e => c.setFifo f ((c.toCore.fifo f).release e)
  | w => c.setRegs (c.toRegs.landed w)

/-- The bytes of a write that a checked pair's digest takes (R384): those of R398, and the flags. -/
def Write.digest (w : Write) (slot : Nat) (c : Ctx) : List Byte :=
  match w with
  | .flags u f => hashTag 10 (if u = .va then 0 else 1) slot 0 ++ leBytes 128 f.toNat
  | .flagClear u f => hashTag 11 (if u = .va then 0 else 1) slot 0 ++ leBytes 128 f.toNat
  | _ => w.hashData slot c

/-- A SYSW lands: registers that a view descriptor makes live hold free values (R85), and OP 1 and OP 2 of PREQ start the image
operation (R376). -/
def State.landSys (s : State) (t : Nat) (k : BitVec 2) (n : Nat) (v : Word) : State :=
  let c := s.ctx t k
  let c' := c.sysWrite n v
  if 0x010 ≤ n && n ≤ 0x013 then
    ({ s with freeCtr := s.freeCtr + 256 } : State).setCtx t k { c' with toCore := c.toCore.wake c'.toCore s.freeCtr }
  else
    let s := s.setCtx t k c'
    if n ≠ 0x027 then s
    else match (preqOp v).toNat with
      | 1 => { s with agenda := .preqSave t k :: s.agenda }
      | 2 => { s with agenda := .preqRestore t k :: s.agenda }
      | _ => s

/-- A SYSW has changed a counter by `d`: a checked tile keeps account of it until the mark (R385). -/
def Ctx.noteSet (c : Ctx) (phys : Nat) (d : Word) : Ctx :=
  match c.chk with
  | some x => { c with chk := some { x with sets := SMap.set 0 x.sets phys (SMap.get 0 x.sets phys + d) } }
  | none => c

/-- One result lands. -/
def State.landOne (s : State) (t : Nat) (k : BitVec 2) (l : Landing) : State :=
  let c := s.ctx t k
  -- a fallow discard is not hashed (R398)
  let dropped : Bool := match l.w with | .reg n j _ _ => c.toCore.fallow n j | _ => false
  let s := match l.w with
    | .store a bs =>
      -- a store of a checked interval that has closed goes out with it (R384)
      (match (if l.counted then none else c.chk) with
       | some x => s.setCtx t k { c with chk := some { x with gate := x.gate ++ [Gated.store a bs] } }
       | none => (s.landBytes c.launch (.scratch t a) bs).markFresh t a bs)
    | .sys n v => s.landSys t k n v
    | .cntSet phys v =>
      let y := (s.tile t).setCounter c.launch phys v
      (s.setTile t y).updCtx t k fun c => c.noteSet phys (SMap.get 0 y.cnt phys - SMap.get 0 (s.tile t).cnt phys)
    | .cntAdd phys v => s.setTile t ((s.tile t).addCounter c.launch phys v)
    | _ => s.setCtx t k (c.landed s.now l)
  s.updCtx t k fun c =>
    let c := match c.chk with
      | some x => if l.counted then c else { c with chk := some { x with crc := crc64 x.crc (l.w.digest l.slot c) } }
      | none => c
    if dropped then c else c.hashBytes l.hash (l.w.hashData l.slot c)

/-! ### The landings of a cycle -/

/-- Results of one bundle on the same register: the last in slot order is kept, lane by lane under partial masks, and records the
collision (R165; DEDUCED, log entry 118). -/
def collisions (ls : List Landing) : List (Landing × Nat) :=
  (ls.zip (List.range ls.length)).filterMap fun x =>
    let same (y : Landing) : Bool := y.serial = x.1.serial && y.w.target.isSome && y.w.target = x.1.w.target
    let before := ((ls.take x.2).filter same).length
    if before > 0 && !((ls.drop (x.2 + 1)).any same) then some (x.1, before) else none

/-- The quire overflow a cycle reports: the lowest row, then the lowest lane (R367). -/
def firstOverflow : List Landing → Option Word
  | [] => none
  | l :: ls =>
    match l.w, firstOverflow ls with
    | .overflow e, none => some e
    | .overflow e, some f => some (if (e.setWidth 13).toNat ≤ (f.setWidth 13).toNat then e else f)
    | _, r => r

/-- The results due in this cycle land: first the writes of SYSW and the clears, then the others in the order of their
issue. Where a SYSW of FLGA or FLGB and a VFLG.CLR of one bundle land together, the write comes first and the clear after it:
R66 orders each of them against the updates of results only (DESIGN CHOICE, log entry 90). -/
def State.landAll (s : State) (t : Nat) (k : BitVec 2) : State :=
  let c := s.ctx t k
  let due := c.inflight.filter fun l => l.left = 0
  let s := s.setCtx t k { c with inflight := c.inflight.filter fun l => l.left ≠ 0 }
  let s := s.updCtx t k fun c => (collisions due).foldl (fun c x => c.event s.now dcrWCOL x.1.off x.1.slot x.2) c
  let s := ((due.filter (·.w.early)) ++ (due.filter fun l => !l.w.early)).foldl (fun s l => s.landOne t k l) s
  match firstOverflow due with
  | some e => s.updCtx t k fun c => if c.qtrap.getLsbD 0 && c.qovf.isNone then { c with qovf := some e } else c
  | none => s

/-- The results of a context that are due in this cycle land. -/
def execResultLand (t : Nat) (k : BitVec 2) (s : State) : Host.Outcome State Fault Refusal :=
  if s.landsStill t || (s.ctx t k).life = .free || !((s.ctx t k).inflight.any fun l => l.left = 0) then
    .refused (.notEnabled "RESULT_LAND")
  else .next (s.landAll t k)

end Sys2Proof.Machine
end

