-- ==== Sys2Proof/Machine/Issue.lean ====
section
/-! DEFINITION. What a context would issue in a cycle, what holds it, the traps taken in place of a bundle, and the start of
a bundle (R146, R147, R150-R153, R160, R232, R294, R311, R353, R363-R374, R384, R385, R401, R402). -/

namespace Sys2Proof.Machine

/-! ### The next bundle -/

/-- The bundle a context has at issue in this cycle. -/
structure Next where
  off : BitVec 16
  bytes : Bundle := 0
  /-- issued as a NOP bundle: owed under R178, or skipped under R370 -/
  nop : Bool := false
  /-- the trap of its fetch -/
  fault : Option (BitVec 8) := none
  /-- slots performed before a reissue (R192) -/
  pre : BitVec 8 := 0
  item : Option PathItem := none
  deriving DecidableEq, Repr

/-- The bytes of a bundle as they stood `lag` cycles ago (R147). -/
def Tile.fetch (x : Tile) (now lag a : Nat) : List Byte :=
  let bs := x.scratch.read a 64
  let old := x.undo.filter fun u => now < u.1 + lag
  if old.isEmpty then bs
  else (bs.zip (List.range 64)).map fun b =>
    match old.find? fun u => u.2.1 = a + b.2 with
    | some u => u.2.2
    | none => b.1

/-- Whole bundles still to skip (R370). -/
def Ctx.skips (c : Ctx) : Nat := match c.resume with | some r => r.skip | none => 0

def Ctx.done0 (c : Ctx) : BitVec 8 :=
  match c.resume with
  | some r => if r.skip = 0 then r.done else 0
  | none => 0

/-- The headland issues nothing while its stream stops (R368). -/
def Ctx.quiet (c : Ctx) (now : Nat) : Bool :=
  match c.fstop with
  | some f => f.last.isNone && (c.sup || decide (f.until_ < now))
  | none => false

/-- The digest exchange of a checked pair is under way (R384). -/
def Ctx.exchanging (c : Ctx) : Bool :=
  match c.chk with
  | some x => x.until_.isSome
  | none => false

/-- The bundle the context has at issue, none where it may issue nothing. A NOP bundle owed under R178 is not fetched, whatever its
offset (DEDUCED, log entry 134). -/
def State.next (s : State) (t : Nat) (k : BitVec 2) : Option Next :=
  let x := s.tile t
  let c := x.get k
  if c.life ≠ .running || (c.saved && !c.sup) || c.imgOp || s.now < c.t0 || s.now < c.readyAt || c.exchanging then none
  else if !c.leads then
    c.got.map fun it => { off := it.off, bytes := it.bytes, nop := it.nop || c.skips > 0, pre := c.done0, item := some it }
  else if c.quiet s.now then none
  else if c.nulls > 0 then some { off := c.pc, nop := true }
  else
    let a := 64 * c.pc.toNat
    if !c.legal c.sup a 64 then some { off := c.pc, fault := some cBND }
    else
      let p := c.phys c.sup a
      if x.bad.any fun b => 64 * b < p + 64 && p < 64 * b + 64 then some { off := c.pc, fault := some cXMEM }
      else some { off := c.pc, bytes := bundleOfBytes (x.fetch s.now c.lag p), nop := c.skips > 0, pre := c.done0 }

/-- The occupied slots, decoded. -/
def Next.slots (n : Next) : List (Nat × SlotDec) :=
  if n.nop || n.fault.isSome then []
  else ((List.range 8).map fun i => (i, decSlot i (n.bytes.slot i))).filter fun x => x.2 ≠ .nop

def maskOf (xs : List Nat) : BitVec 8 := xs.foldl (fun m i => m ||| slotBit i) 0

/-- The occupied-slot mask (R69). -/
def Next.occ (n : Next) : BitVec 8 := maskOf (n.slots.map (·.1))

/-- The slots not yet performed. -/
def Next.left (n : Next) : List (Nat × SlotDec) := n.slots.filter fun x => !n.pre.getLsbD x.1

/-! ### Stepping (R402) -/

/-- The bundle is the reissue of a TRET in a stepped context. -/
def Ctx.stepping (c : Ctx) : Bool := c.shn.getLsbD 62 && !c.timed && c.flen = 1 && !c.sup && c.resume.isSome

/-- The registers that the bundle reads. -/
def Ctx.reads (c : Ctx) (n : Next) : Regs :=
  if c.sup || n.pre = 0 then c.toRegs else c.kept.getD c.toRegs

/-- The FIFO counts that the bundle tests: those of its first step, or the present ones. -/
def Ctx.counts (c : Ctx) (n : Next) : FifoCounts :=
  let cur : FifoCounts := { fill := (c.fa.filled, c.fb.filled), free := (c.fa.free, c.fb.free) }
  if c.sup || n.pre = 0 then cur else c.keptFifo.getD cur

/-- The one slot a step performs: the lowest one left, an EXIT that holds only after the others, since a bundle that takes BRK
performs none (R193; DEDUCED, log entry 89); 8 where every slot has been performed. -/
def Ctx.only (c : Ctx) (n : Next) : Option Nat :=
  let exits (x : Nat × SlotDec) : Bool := match x.2 with
    | .op (.exit p) => (c.reads n).holds p
    | _ => false
  if c.stepping then
    some (match (n.left.filter fun x => !exits x) ++ n.left.filter exits with | x :: _ => x.1 | [] => 8)
  else none

/-- The slots to perform in this issue. -/
def Ctx.work (c : Ctx) (n : Next) : List (Nat × SlotDec) :=
  match c.only n with
  | some i => n.left.filter fun x => x.1 = i
  | none => n.left

/-! ### Waits (R150-R153, R294, R311, R353) -/

/-- The predicate of an operation that can wait or that delivers an engine fault. -/
def waitPred (i : Instr) : Option Pred :=
  match i with
  | .waitge p _ _ _ _ | .waitw p _ _ _ _ _ | .barr p _ _ _ | .realign p _ _ | .xjoin p _ _ => some p
  | .fwait o | .ffree o => some o.p
  | .macc o | .mpush o => some o.p
  | .vpushf o => some o.p
  | _ => none

/-- The operations that can wait, that issue without a trap and whose condition is true. -/
def Ctx.active (c : Ctx) (n : Next) : List (Nat × Instr) :=
  (c.work n).filterMap fun x =>
    match x.2 with
    | .op i =>
      (match waitPred i with
       | some p => if (c.reads n).holds p && (issueFault c c.sup i).isNone then some (x.1, i) else none
       | none => none)
    | _ => none

/-- The waiting operation of the bundle, whatever its condition. -/
def Ctx.waitOp (c : Ctx) (n : Next) : Option Instr :=
  (c.work n).findSome? fun x =>
    match x.2 with
    | .op i => if isWait i && (issueFault c c.sup i).isNone then some i else none
    | _ => none

/-- The waiting operation, when its condition is true. -/
def Ctx.activeWait (c : Ctx) (n : Next) : Option Instr := (c.active n).findSome? fun x => if isWait x.2 then some x.2 else none

/-- The slots whose FIFO need does not hold; two pushes take free entries in slot order. -/
def Ctx.unmet (c : Ctx) (n : Next) : BitVec 8 :=
  let go (acc : BitVec 8 × Nat × Nat) (x : Nat × Instr) : BitVec 8 × Nat × Nat :=
    let (m, a, b) := acc
    match x.2 with
    | .macc _ => (if c.fa.filled = 0 then m ||| slotBit x.1 else m, a, b)
    | .mpush _ => (if c.fb.filled = 0 then m ||| slotBit x.1 else m, a, b)
    | .vpushf o =>
      (match FS.ofBit (o.var.getLsbD 0) with
       | .fa => if a = 0 then (m ||| slotBit x.1, a, b) else (m, a - 1, b)
       | .fb => if b = 0 then (m ||| slotBit x.1, a, b) else (m, a, b - 1))
    | _ => acc
  ((c.active n).foldl go (0, c.fa.free, c.fb.free)).1

/-- What keeps a bundle from issuing: the cause of R399, and the slot its slip names. -/
structure Held where
  cause : Nat
  slip : Option Nat
  deriving DecidableEq, Repr

/-- What is left of a resume after one more bundle. -/
def Resume.after (r : Resume) : Option Resume :=
  if r.skip > 0 then some { r with skip := r.skip - 1, replay := r.replay.tail }
  else if r.replay.tail.isEmpty then none
  else some { done := 0, xfer := none, annul := false, skip := 0, replay := r.replay.tail }

/-- A context as it will stand when the bundle that its headland now has at issue reaches it: in the headland's mode, back from its
handler where that is user mode, and with the bundles still on the path skipped (R370). -/
def Ctx.arriving (c : Ctx) (sup : Bool) : Ctx :=
  if c.leads then c
  else if sup then { c with sup, resume := none }
  else
    let c' := if c.sup then c.memberReturn else c
    let n := (c.path.filter fun it => !it.sup).length + (match c.got with | some it => (!it.sup).toNat | none => 0)
    { c' with resume := (List.range n).foldl (fun r _ => r.bind Resume.after) c'.resume }

/-- The bundle as a context treats it: skipped, or with the slots it has performed suppressed. -/
def Ctx.view (c : Ctx) (n : Next) : Next := { n with pre := c.done0, nop := c.skips > 0 }

/-- The bundle holds a condition that a context still has to test: a wait, and in a checked pair a FIFO need. -/
def Ctx.tests (c : Ctx) (n : Next) : Bool :=
  (c.waitOp n).isSome || (c.checked && (c.work n).any fun x => match x.2 with
    | .op (.macc _) | .op (.mpush _) | .op (.vpushf _) => true
    | _ => false)

/-- The bundle's headland must probe its furrow (R150): some tile of it still has a condition of the bundle to test. -/
def State.probes (s : State) (t : Nat) (k : BitVec 2) (n : Next) : Bool :=
  let c := s.ctx t k
  c.leads && c.span ≥ 2 && (s.furrow t k).any fun x => let m := (s.ctx x.1 x.2).arriving c.sup; m.tests (m.view n)

/-- The limit of the SY operation has expired in a context of FLEN 1. -/
def Ctx.expiredAt (c : Ctx) (now : Nat) (i : Instr) (h : Hold) : Bool :=
  match waitLimit i with
  | some l => !h.met && h.c0 + l ≤ now && c.span = 1
  | none => false

/-- The probe has come back from every member. -/
def Ctx.probed (c : Ctx) (now : Nat) : Bool :=
  match c.probe with
  | some p => p.ready.length = c.span && p.ready.all fun x => decide (x.2 ≤ now)
  | none => false

/-- What holds the bundle in this cycle, once offers have been made. -/
def State.held (s : State) (t : Nat) (k : BitVec 2) (n : Next) : Option Held :=
  let c := s.ctx t k
  if c.late s.now || c.stuck then some ⟨3, some 6⟩
  else if !c.leads then none
  else if c.span ≥ 2 then (if s.probes t k n && !c.probed s.now then some ⟨2, none⟩ else none)
  else
    let fifo : Option Held :=
      match (List.range 8).find? fun i => (c.unmet n).getLsbD i with
      | some i => some ⟨1, some i⟩
      | none => none
    match c.activeWait n, c.hold with
    | some i, some h =>
      if c.expiredAt s.now i h then none
      else if h.met && h.okAt = s.now then fifo
      else
        -- a natural condition that holds is held back only by forcing (R395)
        let forced := (s.waitNow t c i h).2
        -- in elastic mode the marking DCL has no effect (R355)
        let decl := waitDeclared i && !forced && (c.timed || (match i with | .realign _ _ _ => true | _ => false))
        let barrier : Bool := match i with | .barr _ _ _ _ => !forced | _ => false
        some ⟨if decl then 7 else 0, if decl || barrier then none else some 7⟩
    | _, _ => fifo

/-- The bundle would trap with WTO: in FLEN 1 its limit has expired, in a furrow its report was that of an expired limit. -/
def State.expired (s : State) (t : Nat) (k : BitVec 2) (n : Next) : Bool :=
  let c := s.ctx t k
  match c.activeWait n, c.hold with
  | some i, some h => if c.span ≥ 2 then !h.met else c.expiredAt s.now i h
  | _, _ => false

/-- A headland's BARR bundle reaches issue: its furrow arrives, once (R357). -/
def State.arrive (s : State) (t : Nat) (k : BitVec 2) (b : Nat) : State :=
  let c := s.ctx t k
  match c.launch, s.launchRec c with
  | some id, some l =>
    let fy := fieldFy c.field
    if c.bars.getLsbD b || l.barRel.contains (b, fy) then s
    else
      -- a furrow that a rollback has taken back arrives once only (R357, R385)
      let s := if l.barArr.contains (b, fy) then s
        else s.updLaunch id fun l => { l with barArr := l.barArr ++ [(b, fy)], barAt := SMap.set 0 l.barAt b s.now }
      s.updCtx t k fun c => { c with bars := c.bars ||| slotBit b }
  | _, _ => s

/-- A release of an earlier BARR that trapped, still unconsumed, is gone when a new BARR bundle reaches issue. -/
def State.dropRelease (s : State) (c : Ctx) (b : Nat) : State :=
  match c.launch with
  | some id => s.updLaunch id fun l => { l with barRel := l.barRel.filter fun x => x ≠ (b, fieldFy c.field) }
  | none => s

/-- The bundle stands at issue: its hold begins, a barrier is arrived at, and the wait's value is read (R352, R353). -/
def State.offer (s : State) (t : Nat) (k : BitVec 2) : State :=
  match s.next t k with
  | none => s
  | some n =>
    let c := s.ctx t k
    if !c.leads then s
    else
      match c.waitOp n with
      | none => s
      | some i =>
        let fresh := c.hold.isNone
        let s := if !fresh then s else
          s.updCtx t k fun c => { c with hold := some ((c.reads n).holdOf s.now i) }
        let s := match i with
          | .barr p b _ _ =>
            let s := if fresh && c.resume.isNone then s.dropRelease c b.toNat else s
            if (c.reads n).holds p then s.arrive t k b.toNat else s
          | _ => s
        let c := s.ctx t k
        match c.hold with
        | none => s
        | some h =>
          if c.span ≥ 2 || c.expiredAt s.now i h then s
          else
            let (v, ok) := s.waitForced t k c i h
            s.setCtx t k { c with hold := some { h with value := v, met := h.met || ok, okAt := if ok then s.now else h.okAt } }

/-- The SY condition of a held bundle is found true. -/
def execWaitConditionMet (t : Nat) (k : BitVec 2) (s : State) : Host.Outcome State Fault Refusal :=
  let c := s.ctx t k
  match s.next t k, c.hold with
  | some n, some h =>
    (match c.waitOp n with
     | none => .refused (.notEnabled "WAIT_CONDITION_MET")
     | some i =>
       let (v, ok) := s.waitForced t k c i h
       if !ok || c.span ≥ 2 || c.expiredAt s.now i h then .refused (.notEnabled "WAIT_CONDITION_MET")
       else .next (s.setCtx t k { c with hold := some { h with value := v, met := true, okAt := s.now } }))
  | _, _ => .refused (.notEnabled "WAIT_CONDITION_MET")

/-! ### The wait probe (R150) -/

/-- What one member finds of the probed bundle in this cycle: its hold, whether it reports, and whether its condition held before
the limit although the probe has not come by yet. A limit that has passed stands as the report (R150). -/
def State.lookAt (s : State) (t : Nat) (k : BitVec 2) (c : Ctx) (n : Next) (c0 : Nat) (early here : Bool) : Hold × Bool × Bool :=
  let h := match c.hold with
    | some h => h
    | none => (match c.waitOp n with
      | some i => { (c.reads n).holdOf s.now i with c0 }
      | none => { c0, met := true })
  match c.activeWait n with
  | none => ({ h with met := true }, here, early)
  | some i =>
    let (v, ok) := s.waitForced t k c i h
    let inTime : Bool := match waitLimit i with | some l => decide (s.now < c0 + l) | none => true
    if ok && (inTime || early) then ({ h with value := v, met := here }, here, true)
    else ({ h with value := v }, here && !inTime && !early, early)

/-- The cycle in which the probe reaches a position: a hop each cycle, and the freezes it has met (R148, R152). -/
def Probe.reaches (p : Probe) (j : Nat) : Nat := p.sent + j + SMap.get 0 p.delay j

/-- Freezes still to come to position `j` of a furrow whose headland stands on tile `t`, from the side of the headland: a report on its
way there meets them. -/
def State.meetsFreezes (s : State) (t j : Nat) : Nat :=
  if j = 0 then 0
  else ((s.tile (t + j)).freeze.filter fun f => s.now < f.1 && !(s.tile (t + j - 1)).freeze.any fun g => g.1 = f.1 + 1).length

/-- One member looks at the probed bundle: its report, if it makes one in this cycle. A tile that holds still does not look. -/
def State.probeMember (s : State) (hc : Ctx) (n : Next) (t j : Nat) (p : Probe) : State × Probe :=
  if p.ready.any (fun x => x.1 = j) || s.holdsStill (t + j) then (s, p)
  else
    match s.contextOf (t + j) hc.launch with
    | none => (s, { p with ready := p.ready.put j (s.now + j) })
    | some k =>
      let here : Bool := p.reaches j ≤ s.now
      let c := (s.ctx (t + j) k).arriving hc.sup
      let n := c.view n
      let (h, ok, early) := s.lookAt (t + j) k c n p.c0 (p.early.contains j) here
      let p := if early && !p.early.contains j then { p with early := p.early ++ [j] } else p
      let natural : Bool := match c.activeWait n with | some i => (s.waitNow (t + j) c i h).2 | none => true
      let p := if j = 0 && natural && p.nat0.isNone then { p with nat0 := some s.now } else p
      let fifo := !c.checked || !h.met || c.unmet n = 0
      let s := if here then s.updCtx (t + j) k fun c => { c with hold := some h } else s
      (s, if ok && fifo then { p with ready := p.ready.put j (s.now + j + s.meetsFreezes t j) } else p)

/-- The conditions of a bundle at the headland of a furrow travel along the path, and members report. -/
def execWaitProbe (t : Nat) (k : BitVec 2) (s : State) : Host.Outcome State Fault Refusal :=
  match s.next t k with
  | none => .refused (.notEnabled "WAIT_PROBE")
  | some n =>
    if !s.probes t k n || n.fault.isSome || s.stretched || ((s.ctx t k).probe.isNone && s.holdsStill t) then .refused (.notEnabled "WAIT_PROBE")
    else
      let s := if s.holdsStill t then s else s.offer t k
      let c := s.ctx t k
      let p := c.probe.getD { c0 := s.now, sent := s.now }
      let r := (List.range c.span).foldl (fun (acc : State × Probe) j => acc.1.probeMember c n t j acc.2) (s, p)
      .next (r.1.updCtx t k fun c => { c with probe := some r.2 })

/-! ### Traps taken in place of a bundle (Table 18.3, rows 1 to 5) -/

/-- A pending engine fault that the bundle delivers: its queue and the slot reported (R232). -/
def Ctx.engineDue (c : Ctx) (n : Next) : Option (Nat × Nat) :=
  (List.range 4).findSome? fun q =>
    let x := c.queue q
    if x.qs ≠ 1 then none
    else
      let cs := x.badCtrs ++ x.open_.flatMap XEntry.counters
      if (c.active n).any fun y => match y.2 with | .waitge _ m _ _ f => f.limit ≠ 0 && cs.contains m.toNat | _ => false
      then some (q, 7)
      else if (c.active n).any fun y => match y.2 with | .xjoin _ _ jm => jm.getLsbD q | _ => false then some (q, 6)
      else if c.point && !c.sup then some (q, 6)
      else none

def XQueue.faultInfo (x : XQueue) (q : Nat) : Word :=
  let (i, ord) := x.bad.getD (0, 0)
  (BitVec.ofNat 64 q <<< 16) ||| i.setWidth 64 ||| (ord.setWidth 64 <<< 32)

/-- The debug block the launch sampled. -/
def State.dbg (s : State) (c : Ctx) : Queue := match s.launchRec c with | some l => l.dbg | none => {}

/-- A breakpoint comparator that matches: its number and the slot reported (R401). -/
def State.breakAt (s : State) (c : Ctx) (n : Next) : Option (Nat × Nat) :=
  let d := s.dbg c
  let hit (j : Nat) (w : Word) : Option (Nat × Nat) :=
    let sm : BitVec 8 := (w >>> 55).setWidth 8
    let m := sm &&& n.occ
    if w.getLsbD 63 && (w >>> 6).setWidth 16 = n.off && (sm = 0 || m ≠ 0) then
      some (j, ((List.range 8).find? fun i => m.getLsbD i).getD 0)
    else none
  if n.nop || n.fault.isSome || !n.bytes.header.b || c.resume.isSome || c.sup || !c.leads then none
  else match hit 0 d.bp0 with
    | some x => some x
    | none => hit 1 d.bp1

/-- The operations that one slot operation adds to the gate of a checked pair: stores, spills and signals, and the commands that
enter a queue, for an XADV as many as it releases (R384). -/
def Ctx.gateOps (c : Ctx) (r : Regs) (i : Instr) : Nat :=
  let one (p : Pred) : Nat := if r.holds p then 1 else 0
  match i with
  | .stv a | .stvm a | .sts a | .stq a => one a.p
  | .mqspill a => one a.p
  | .sig p _ _ _ => one p
  | .xcopy o | .xfill o | .xgath o | .xscat o | .xdec o | .xqadd o | .xqrd o | .xqclr o | .xcsr o | .xatom o | .xarm o => one o.p
  | .xword o => one o.p
  | .xsig o => one o.p
  | .xrec o => one o.p
  | .xjoin p _ _ => one p
  | .xadv p nm1 => one p * min (nm1.toNat + 1) (c.timetable.length - c.tpos)
  | _ => 0

/-- Operations the bundle would add to the gate of a checked pair. -/
def Ctx.gateNeed (c : Ctx) (n : Next) : Nat :=
  ((c.work n).map fun x => match x.2 with
    | .op i => if (issueFault c c.sup i).isNone then c.gateOps (c.reads n) i else 0
    | _ => 0).sum

/-- SPACE: the limit exceeded, and whether it is a mark limit (R374, R384). -/
def Ctx.spaceDue (c : Ctx) (n : Next) : Option (Nat × Bool) :=
  let idle := match c.resume with | some r => decide (r.skip > 0) || !r.replay.isEmpty | none => false
  if c.sup || !c.leads || idle then none
  else
    match c.chk with
    | some x =>
      if x.n ≥ 1024 || x.gate.length + (c.inflight.filter fun l => !l.counted && l.w.isStore).length +
          c.gateNeed n > 1024 then some (1024, true)
      else if c.psc ≥ c.spacing then some (c.spacing, false) else none
    | none => if c.psc ≥ c.spacing then some (c.spacing, false) else none

/-- A request is seen, and the bundle meets one of the conditions of R373. -/
def Ctx.preemptDue (c : Ctx) (now : Nat) (stalled : Bool) : Bool :=
  c.preq.getLsbD 63 && !c.sup && c.leads && c.reqAt ≤ now && (c.point || stalled)

/-- A lasting mismatch of the pair (R385). -/
def Ctx.pairDue (c : Ctx) : Bool := !c.sup && (match c.chk with | some x => x.pair | none => false)

/-- The first row of Table 18.3 that applies to the bundle, as the event that takes it. `stalled` says that the bundle is held
or that the merge stage did not choose it. -/
def State.entryEvent (s : State) (t : Nat) (k : BitVec 2) (n : Next) (stalled : Bool) : Option Instr :=
  let c := s.ctx t k
  if (c.engineDue n).isSome then some (.bundleFetch t k)
  else if c.qovf.isSome && !c.sup then some (.qovf t k)
  else if !c.sup && (c.stepped || (s.breakAt c n).isSome) then some (.brk t k)
  else if c.preemptDue s.now stalled then
    (match c.chk with
     | some x => if x.n > 0 then some (.checkedIntervalClose t k) else some (.preempt t k)
     | none => some (.preempt t k))
  else if (c.spaceDue n).isSome then some (.space t k)
  else if c.pairDue then some (.pair t k)
  else none

/-- The headland's sequencer before the bundle numbered `sent` (R369). -/
def Ctx.remember (c : Ctx) : Ctx :=
  if c.leads && c.span ≥ 2 && !c.sup then
    let x3 := c.resume.bind (·.xfer)
    let a3 := match c.resume with | some r => r.annul | none => false
    let p : Past := { num := c.sent, epc := sqpc c.sup c.pc c.ldep, ept := eptWord c.pend c.nulls x3 a3, ls := c.ls }
    { c with past := (c.past ++ [p]).drop (c.past.length + 1 - 33) }
  else c

/-- A slip so far is recorded, in every tile of the furrow (R152, R160). -/
def State.slipped (s : State) (t : Nat) (k : BitVec 2) (off : BitVec 16) : State :=
  let c := s.ctx t k
  if c.stall = 0 then s
  else
    (s.furrow t k).foldl (fun s x => s.updCtx x.1 x.2 fun d => d.event s.now dcrSLIP off c.stallSlot c.stall)
      (s.setCtx t k { c with stall := 0 })

/-- Take a trap of kind entry, or of a fetch, in place of the bundle: EDONE is 0 (Table 18.3, R232, R418), but for a comparator's
BRK, which records the occupied slots (R402's table). -/
def State.takeEntry (s : State) (t : Nat) (k : BitVec 2) (n : Next) (cause : BitVec 8) (eng : Bool) (slot : Nat) (einfo : Word) :
    State :=
  let s := (s.slipped t k n.off).updCtx t k fun c =>
    ({ c with resume := c.resume.map fun r => { r with xfer := none, annul := false } } : Ctx).remember
  let c := s.ctx t k
  let x : Trap :=
    { cause, eng, slot, einfo, done := 0, rsk := 0, off := n.off, ldep := c.ldep
      occ := if cause = cBRK && !c.stepped then n.occ else 0
      ept := eptWord c.pend c.nulls none false }
  let s := s.updCtx t k fun (c : Ctx) => { c with got := none, readyAt := max c.readyAt (s.now + 1) }
  s.takeTrap t k x (match n.item with | some it => it.num | none => c.sent)

/-- QOVF (R367). -/
def execQovf (t : Nat) (k : BitVec 2) (s : State) : Host.Outcome State Fault Refusal :=
  match s.next t k with
  | none => .refused (.notEnabled "QOVF")
  | some n =>
    let c := s.ctx t k
    match c.qovf with
    | none => .refused (.notEnabled "QOVF")
    | some e =>
      if c.sup || (c.engineDue n).isSome then .refused (.notEnabled "QOVF")
      else .next ((s.updCtx t k fun (c : Ctx) => { c with qovf := none }).takeEntry t k n cQOVF false 0 e)

/-- BRK: a comparator, or the end of a step (R401, R402). -/
def execBrk (t : Nat) (k : BitVec 2) (s : State) : Host.Outcome State Fault Refusal :=
  match s.next t k with
  | none => .refused (.notEnabled "BRK")
  | some n =>
    let c := s.ctx t k
    if s.entryEvent t k n false ≠ some (.brk t k) then .refused (.notEnabled "BRK")
    else if c.stepped then .next (s.takeEntry t k n cBRK false 0 0)
    else
      match s.breakAt c n with
      | some (j, slot) => .next (s.takeEntry t k n cBRK false 0 (BitVec.ofNat 64 (256 * j + slot)))
      | none => .refused (.notEnabled "BRK")

/-- PREEMPT (R373): the request is cleared in the whole furrow. A merge refusal shows in the age of the context. -/
def execPreempt (t : Nat) (k : BitVec 2) (s : State) : Host.Outcome State Fault Refusal :=
  match s.next t k with
  | none => .refused (.notEnabled "PREEMPT")
  | some n =>
    let c := s.ctx t k
    if s.entryEvent t k n ((s.held t k n).isSome || c.age > 0) ≠ some (.preempt t k) then .refused (.notEnabled "PREEMPT")
    else
      let s := (s.furrow t k).foldl (fun s x => s.updCtx x.1 x.2 fun c => { c with preq := c.preq &&& ~~~(1#64 <<< 63) }) s
      let s := s.updCtx t k fun (c : Ctx) => c.traceRec s.now 5 cPREEMPT.toNat n.off 0 0 false
      .next (s.takeEntry t k n cPREEMPT false 0 0)

/-- SPACE (R374, R384): a mark limit also closes the interval. PSC starts again in every context of the furrow (DEDUCED, log entry
104). -/
def execSpace (t : Nat) (k : BitVec 2) (s : State) : Host.Outcome State Fault Refusal :=
  match s.next t k with
  | none => .refused (.notEnabled "SPACE")
  | some n =>
    let c := s.ctx t k
    match c.spaceDue n with
    | none => .refused (.notEnabled "SPACE")
    | some (limit, mark) =>
      let e := s.entryEvent t k n ((s.held t k n).isSome || c.age > 0)
      if e ≠ some (.space t k) && e ≠ some (.preempt t k) then .refused (.notEnabled "SPACE")
      else
        let info := BitVec.ofNat 64 (limit % 2048 + (if mark then 4096 else 0))
        -- every context of the furrow starts its count afresh
        let s := ((s.furrow t k).foldl (fun s x => s.updCtx x.1 x.2 fun c => { c with psc := 0 }) s).takeEntry t k n cSPACE false 0 info
        .next (if mark then { s with agenda := .checkedIntervalClose t k :: s.agenda } else s)

/-- PAIR has been taken for the mismatch. -/
def Ctx.tookPair (c : Ctx) : Ctx := { c with chk := c.chk.map fun x => { x with pair := false } }

/-- PAIR (R385): EINFO names the partner tile. -/
def execPair (t : Nat) (k : BitVec 2) (s : State) : Host.Outcome State Fault Refusal :=
  match s.next t k with
  | none => .refused (.notEnabled "PAIR")
  | some n =>
    let c := s.ctx t k
    if !c.pairDue || (c.engineDue n).isSome || c.qovf.isSome then .refused (.notEnabled "PAIR")
    else
      let p := if c.pos = 0 then t + 1 else t - 1
      .next ((s.takeEntry t k n cPAIR false 0 (BitVec.ofNat 64 (p % 64 + 256 * (p / 64)))).updCtx t k Ctx.tookPair)

/-! ### The bundle begins -/

/-- Profiling is on for the context's launch (R399). -/
def State.profiled (s : State) (c : Ctx) : Bool := (s.dbg c).dbgctl.getLsbD 8

/-- The loop level at which the bundle counts. -/
def Ctx.lv (c : Ctx) (n : Next) : Nat := match n.item with | some it => it.idx.length | none => c.ldep

def Ctx.profSlots (c : Ctx) (n : Next) : Ctx :=
  if n.nop then c
  else (List.range 8).foldl (fun c i => c.profAdd (c.lv n) (if n.occ.getLsbD i then i else 8 + i) 1) c

/-- A trap of a slot that does not decode: ILL, or FMT where the state gives nothing that comes before it (R74). -/
def badSlot (c : Ctx) (x : Nat × SlotDec) : Option Raise :=
  match x.2 with
  | .ill => some ⟨x.1, true, cILL, 0⟩
  | .fmt i => some ⟨x.1, true, (issueFault c c.sup i).getD cFMT, 0⟩
  | _ => none

/-- The loop changes of a replayed bundle, taken from the stream log; LEN, RT and PE stand in the LOOP itself (R370). -/
def Ctx.replayLoop (c : Ctx) (n : Next) (e : LogEntry) : Ctx :=
  if e.push then
    match decSlot 0 (n.bytes.slot 0) with
    | .op (.loop a) =>
      { c with toCore := c.toCore.pushLevel { count := e.count, idx := 0, len := a.len, start := n.off + 1, rt := a.rt, pe := a.pe } }
    | _ => c
  else if e.pop then { c with toCore := c.toCore.popLevel }
  else c

/-- A bundle begins to issue: its slots stand in `cur`, and a bundle with no slot to perform closes at once. -/
def State.beginBundle (s : State) (t : Nat) (k : BitVec 2) (n : Next) (wto : Bool) : State :=
  let s := (s.slipped t k n.off).updCtx t k Ctx.remember
  let c := s.ctx t k
  let user := !c.sup
  let heads := c.leads && c.span ≥ 2
  let first := match c.resume with | some r => if r.skip = 0 then some r else none | none => none
  let replay := match c.resume with | some r => if heads && user then r.replay.head? else none | none => none
  let only := c.only n
  let starve : BitVec 8 := if wto then c.unmet n else 0
  let aside : BitVec 8 := match only with
    | some i => maskOf ((n.left.map (·.1)).filter fun j => j ≠ i)
    | none => 0
  let work := (c.work n).filter fun x => !starve.getLsbD x.1
  let counts := c.counts n
  let ops := work.filterMap fun x => match x.2 with | .op i => some (x.1, i) | _ => none
  let u : Cur :=
    { t, k, todo := ops, off := n.off, sup := c.sup, occ := n.occ, hdr := (if n.nop then 0 else n.bytes).header, pre := n.pre
      raised := work.filterMap (badSlot c)
      xfer := (first.bind (·.xfer)).map Goal.off
      annul := match first with | some r => r.annul | none => false
      expired := if wto then (match c.waitOp n, c.hold with
        | some i, some h => some (wtoInfo i h.value h.target)
        | _, _ => none) else none
      wait := c.hold
      skip := starve ||| aside
      second := c.second
      item := n.item
      pend0 := c.pend, nulls0 := c.nulls
      bytes := n.bytes, nop := n.nop, replay, skipped := c.skips > 0
      num := match n.item with | some it => it.num | none => c.sent
      idx := match n.item with
        | some it => it.idx
        | none => (List.range c.ldep).map fun d => (c.toCore.level (c.ldep - 1 - d)).idx
      only
      fill0 := counts.fill, free0 := counts.free, consumedA := counts.used.1, consumedB := counts.used.2 }
  let live := (n.occ &&& ~~~n.pre).getLsbD 0
  let c := match replay with | some e => if live then c else c.replayLoop n e | none => c
  let c := if s.profiled c then c.profSlots n else c
  let c := c.hashBytes c.hashIv []
  let c := { c with
    serial := c.serial + 1
    psc := if user && !(match n.item with | some it => it.replay | none => replay.isSome) && !(c.skips > 0) then c.psc + 1 else c.psc
    kept := if !user then c.kept else if only.isSome then some (c.reads n) else if n.pre = 0 then none else c.kept
    keptFifo := if !user then c.keptFifo else if only.isSome then some counts else if n.pre = 0 then none else c.keptFifo
    resume := c.resume.bind Resume.after
    point := if user then false else c.point
    sent := if heads && user then c.sent + 1 else c.sent
    lastIssue := s.now
    readyAt := s.now + 1
    got := none, hold := none, probe := none, age := 0
    chk := if user then c.chk.map fun x => { x with n := x.n + 1 } else c.chk }
  let s := s.setCtx t k c
  let s := if c.exclusive || u.second || c.checked then s else
    let x := s.tile t
    s.setTile t { x with holder := x.holder.put c.prio (some k) }
  let s := { s with cur := some u }
  if u.todo.isEmpty then s.closeBundle else s

/-- The next bundle of a context is fetched and issues, or a trap that is taken in its place by the fetch is taken: a pending
engine fault, or an offset outside the range (R146, R232). -/
def execBundleFetch (t : Nat) (k : BitVec 2) (s : State) : Host.Outcome State Fault Refusal :=
  match s.next t k with
  | none => .refused (.notEnabled "BUNDLE_FETCH")
  | some n =>
    let c := s.ctx t k
    if s.cur.isSome || s.holdsStill t then .refused (.notEnabled "BUNDLE_FETCH")
    else
      match c.engineDue n with
      | some (q, slot) =>
        let x := c.queue q
        let s := s.updCtx t k fun c => c.setQueue q { x with qs := 2 }
        .next (s.takeEntry t k n x.ecode true slot (x.faultInfo q))
      | none =>
        if (s.entryEvent t k n false).isSome then .refused (.notEnabled "BUNDLE_FETCH")
        else
          match n.fault with
          | some cause =>
            let s := if cause = cXMEM then s.retireFunc (.tile t) else s
            .next (s.takeEntry t k n cause false 0 0)
          | none =>
            let s := s.offer t k
            if (s.held t k n).isSome || s.expired t k n then .refused (.notEnabled "BUNDLE_FETCH")
            else .next (s.beginBundle t k n false)

/-- The bundle whose SY operation has reached its limit issues, and traps with WTO (R353). -/
def execWto (t : Nat) (k : BitVec 2) (s : State) : Host.Outcome State Fault Refusal :=
  match s.next t k with
  | none => .refused (.notEnabled "WTO")
  | some n =>
    if s.cur.isSome || s.holdsStill t || n.fault.isSome || (s.entryEvent t k n false).isSome || (s.held t k n).isSome ||
        !s.expired t k n then .refused (.notEnabled "WTO")
    else .next (s.beginBundle t k n true)

end Sys2Proof.Machine
end

