-- ==== Sys2Proof/Machine/Merge.lean ====
section
/-! DEFINITION. The merge stage of a tile, and the slips and freezes of timed contexts (R152-R160, R373, R399). -/

namespace Sys2Proof.Machine

/-! ### Slips and freezes -/

/-- One more cycle of a slip at the operation in `slot`; a slip at another slot is recorded first. -/
def State.addStall (s : State) (t : Nat) (k : BitVec 2) (off : BitVec 16) (slot : Nat) : State :=
  let s := if (s.ctx t k).stallSlot = slot then s else s.slipped t k off
  s.updCtx t k fun c => { c with stall := c.stall + 1, stallSlot := slot }

/-- A padded completion of a timed context that is due in the cycle `from_` or later moves one cycle later (R152, R166). -/
def XEntry.later (from_ : Nat) (e : XEntry) : XEntry :=
  match e.due with
  | some d => if from_ ≤ d then { e with due := some (d + 1), fifoDue := e.fifoDue + 1 } else { e with fifoDue := e.fifoDue + 1 }
  | none => e

/-- A context holds still in the cycle `now`: its padded completions due in `from_` or later, and the first bundle of a handler
still to come, move one cycle later. -/
def Ctx.later (c : Ctx) (now from_ : Nat) : Ctx :=
  { c with
    readyAt := if now < c.readyAt then c.readyAt + 1 else c.readyAt
    xq := c.xq.map fun x => (x.1, { x.2 with
      ents := x.2.ents.map (XEntry.later from_), run := x.2.run.map fun r => { r with e := r.e.later from_ } }) }

/-- Bundles on the path that would come at a distance of `d` cycles or later come one cycle later. -/
def Ctx.delayPath (c : Ctx) (d : Nat) : Ctx :=
  { c with path := c.path.map fun it => if d ≤ it.left then { it with left := it.left + 1 } else it }

/-- The tile holds still in the present cycle, after its countdown: every result that was to come moves one cycle later. -/
def Tile.holdOne (x : Tile) (now : Nat) : Tile :=
  { x with ctx := x.ctx.map fun e => (e.1, { e.2.later now (now + 1) with
      inflight := e.2.inflight.map fun l => if l.left = 0 then l else { l with left := l.left + 1 } }) }

/-- Member `i` of a furrow stalls from this cycle on for one cycle: the probe on its way to a position that freezes before the probe
comes there is held up once, and so is a report that meets the freeze on its way to the headland (R150, R152). -/
def Probe.meet (p : Probe) (now i span : Nat) : Probe :=
  let at_ (j : Nat) : Nat := now + ((j : Int) - (i : Int)).natAbs
  { p with
    delay := (List.range span).foldl (fun m j => if at_ j ≤ p.reaches j then SMap.set 0 m j (SMap.get 0 m j + 1) else m) p.delay
    ready := p.ready.map fun x => if i < x.1 && at_ 0 < x.2 then (x.1, x.2 + 1) else x
    froz := if i = 0 then p.froz + 1 else p.froz }

/-- A tile of a timed furrow stalls for this cycle: the other tiles freeze for one cycle each, at their distance, with what is on
the path to them. A freeze that meets another is one freeze (R152). -/
def State.stallFurrow (s : State) (t : Nat) (k : BitVec 2) : State :=
  let c := s.ctx t k
  let s := (s.furrow t k).foldl (fun s x =>
    let y := s.tile x.1
    if x.1 = t then s.updCtx t k (·.delayPath 1)
    else
      let d := (((s.ctx x.1 x.2).pos : Int) - (c.pos : Int)).natAbs
      if y.freeze.any fun f => f.1 = s.now + d then s
      else (s.setTile x.1 { y with freeze := y.freeze ++ [(s.now + d, 1)] }).updCtx x.1 x.2 (·.delayPath d)) s
  let now := s.now
  let s := s.updCtx c.head c.headK fun h => { h with probe := h.probe.map fun p => p.meet now c.pos c.span }
  s.setTile t ((s.tile t).holdOne s.now)

/-- A slip ends: each tile of the furrow records it (R152, R160). -/
def execSlip (t : Nat) (k : BitVec 2) (slot : BitVec 3) (cycles : Nat) (s : State) : Host.Outcome State Fault Refusal :=
  let c := s.ctx t k
  match s.next t k with
  | none => .refused (.notEnabled "SLIP")
  | some n =>
    if !c.timed || cycles = 0 || c.stall ≠ cycles || c.stallSlot ≠ slot.toNat then .refused (.notEnabled "SLIP")
    else
      .next (s.slipped t k n.off)

/-! ### The choice (R154-R157) -/

/-- The holder of a class: the context that last issued as primary in it, else the lowest-numbered one; a holder that has
exited, or been saved or killed, is one no more (R154). -/
def Tile.classHolder (x : Tile) (pr : Nat) : BitVec 2 :=
  let ok (k : BitVec 2) : Bool := let c := x.get k; c.life = .running && !c.exclusive && c.prio = pr
  match SMap.get none x.holder pr with
  | some k => if ok k && !(x.get k).saved then k else (allK.find? ok).getD 0
  | none => (allK.find? ok).getD 0

/-- A background context's place in the order: aged ones by number, then by class, then cyclically from the holder. -/
def Tile.rank (x : Tile) (k : BitVec 2) : Nat :=
  let c := x.get k
  if c.age ≥ 1024 then k.toNat else 4 + (255 - c.prio) * 4 + (k - x.classHolder c.prio).toNat

/-- A context that has a bundle with every condition met, and the slots the bundle occupies. -/
structure Cand where
  k : BitVec 2
  mask : BitVec 8
  wto : Bool
  deriving DecidableEq, Repr

def insertCand (x : Tile) (a : Cand) : List Cand → List Cand
  | [] => [a]
  | b :: bs => if x.rank a.k < x.rank b.k then a :: b :: bs else b :: insertCand x a bs

/-- Primary, secondary, and whether the primary is displaced. -/
structure Choice where
  prim : Option Cand := none
  sec : Option Cand := none
  disp : Bool := false
  deriving DecidableEq, Repr

def Tile.choose (x : Tile) (cs : List Cand) : Choice :=
  let ex (a : Cand) : Bool := (x.get a.k).exclusive || (x.get a.k).checked
  let bg := (cs.filter fun a => !ex a).foldr (insertCand x) []
  match (match cs.find? ex with | some a => some a | none => bg.head?) with
  | none => {}
  | some p =>
    let c := x.get p.k
    let rest := bg.filter fun a => a.k ≠ p.k
    let within := if c.timed then rest.find? fun a => a.mask &&& ~~~c.reserve = 0 else none
    let sec := match within with
      | some a => some a
      | none => rest.find? fun a => a.mask &&& p.mask = 0
    { prim := some p, sec, disp := match sec with | some a => c.timed && a.mask &&& p.mask ≠ 0 | none => false }

/-- A stall cycle of the profile. -/
def State.profStall (s : State) (t : Nat) (k : BitVec 2) (n : Next) (cause : Nat) : State :=
  let c := s.ctx t k
  if s.profiled c then s.setCtx t k (c.profAdd (c.lv n) (16 + cause) 1) else s

/-- A context held in this cycle. -/
def State.holdCtx (s : State) (t : Nat) (k : BitVec 2) (n : Next) (h : Held) : State :=
  let s := match h.slip with
    | some slot => if (s.ctx t k).timed then s.addStall t k n.off slot else s
    | none => s
  s.profStall t k n h.cause

/-- A context whose bundle is not chosen: it ages, and a pre-emption request is met at once. -/
def State.refuse (s : State) (t : Nat) (k : BitVec 2) : State × List Instr :=
  let s := s.updCtx t k fun c => { c with age := c.age + 1 }
  match s.next t k with
  | none => (s, [])
  | some n =>
    let s := s.profStall t k n 5
    if (s.ctx t k).preemptDue s.now true then (s, (s.entryEvent t k n true).toList) else (s, [])

/-- The cycles by which a probe took longer than its least cost: for a declared wait or a barrier those for which forcing alone
held it (R150, R395). The least cost counts from `sent`, which the cycles of a stretch move: they are in no latency, and have a
code of their own (R166; DEDUCED, log entry 88). The freeze cycles of the headland are slips recorded by themselves (R152). -/
def Probe.extra (p : Probe) (now span : Nat) (i : Instr) : Nat :=
  let least := p.sent + p.froz + 2 * (span - 1)
  let own : Bool := waitDeclared i || (match i with | .barr _ _ _ _ => true | _ => false)
  if own then
    match p.nat0 with
    | some n => now - (p.ready.filter fun x => x.1 ≠ 0).foldl (fun m x => max m x.2) (max n least)
    | none => 0
  else now - least

/-- A probe of a timed furrow that took longer than its least cost is a slip (R150). -/
def State.probeSlip (s : State) (t : Nat) (k : BitVec 2) (n : Next) : State :=
  let c := s.ctx t k
  match c.probe, c.waitOp { n with nop := false, pre := 0 } with
  | some p, some i =>
    let extra := p.extra s.now c.span i
    if c.timed && extra > 0 then (s.slipped t k n.off).updCtx t k fun c => { c with stall := extra, stallSlot := 7 } else s
  | _, _ => s

/-- The events by which a chosen context issues. -/
def State.chosen (s : State) (t : Nat) (a : Cand) (second : Bool) : State × List Instr :=
  match s.next t a.k with
  | none => (s, [])
  | some n =>
    let s := (s.probeSlip t a.k n).updCtx t a.k fun c => { c with second }
    let c := s.ctx t a.k
    let slip := if c.timed && c.stall > 0 then [Instr.slip t a.k (BitVec.ofNat 3 c.stallSlot) c.stall] else []
    (s, slip ++ [if a.wto then .wto t a.k else .bundleFetch t a.k])

/-- A timed bundle is displaced (R157): the displacement and one cycle of slip. -/
def State.displace (s : State) (t : Nat) (a : Cand) : State × List Instr :=
  match s.next t a.k with
  | none => (s, [])
  | some n =>
    let c := s.ctx t a.k
    let lo := ((List.range 8).find? fun i => (a.mask &&& c.reserve).getLsbD i).getD 0
    let s := (s.setCtx t a.k (c.event s.now dcrDISP n.off lo 1)).addStall t a.k n.off lo
    let s := if c.span ≥ 2 then s.stallFurrow t a.k else s
    s.refuse t a.k

/-- What each context of the tile does in this cycle, before the choice: a trap in its bundle's place, a hold, or a
candidate. -/
def State.survey (s : State) (t : Nat) : State × List Instr × List Cand :=
  allK.foldl (fun (acc : State × List Instr × List Cand) k =>
    let (s, es, cs) := acc
    match s.next t k with
    | none => acc
    | some n =>
      let h := s.held t k n
      match s.entryEvent t k n h.isSome with
      | some e => (s, es ++ [e], cs)
      | none =>
        match h with
        | some h => (s.holdCtx t k n h, es, cs)
        | none => (s, es, cs ++ [⟨k, n.occ, n.fault.isNone && s.expired t k n⟩])) (s, [], [])

/-- The merge stage when the tile may issue. -/
def State.merge (s : State) (t : Nat) : State :=
  let (s, es, cs) := s.survey t
  let ch := (s.tile t).choose cs
  let (s, e1) : State × List Instr := match ch.sec with | some a => s.chosen t a true | none => (s, [])
  let (s, e2) : State × List Instr := match ch.prim with
    | some a => if ch.disp then s.displace t a else s.chosen t a false
    | none => (s, [])
  let taken := (ch.prim.toList ++ ch.sec.toList).map (·.k)
  let (s, e3) := cs.foldl (fun (acc : State × List Instr) a =>
    if taken.contains a.k then acc else (let (s, e) := acc.1.refuse t a.k; (s, acc.2 ++ e))) (s, [])
  { s with agenda := es ++ e1 ++ e2 ++ e3 ++ s.agenda }

/-- The bundle that a tile of a stalled furrow holds: the one at issue, or at a member the next one on the path. -/
def State.heldBundle (s : State) (t : Nat) (k : BitVec 2) : Option Next :=
  match s.next t k with
  | some n => some n
  | none => (s.ctx t k).path.head?.map fun it => { off := it.off, bytes := it.bytes, nop := it.nop, item := some it }

/-- A timed furrow's tile stalls: nothing of the tile issues, and the other tiles freeze. -/
def State.mergeStalled (s : State) (t : Nat) : State :=
  allK.foldl (fun s k =>
    let c := s.ctx t k
    if c.span ≥ 2 && (c.late s.now || c.stuck) then
      match s.heldBundle t k with
      -- the slip is recorded with the next bundle
      | none => (s.addStall t k c.pc 6).stallFurrow t k
      | some n =>
        let s := (s.holdCtx t k n ⟨3, some 6⟩).stallFurrow t k
        match (if (s.next t k).isSome then s.entryEvent t k n true else none) with
        | some e => { s with agenda := e :: s.agenda }
        | none => s
    else match s.next t k with
      | some n => s.profStall t k n 4
      | none => s) s

/-- The merge stage of a tile chooses the contexts that issue in this cycle. In a cycle of a stretch, or in which the tile holds still, no
age rises (DEDUCED, log entry 132). -/
def execMergeStageChoice (t : Nat) (s : State) : Host.Outcome State Fault Refusal :=
  if !(allK.any fun k => (s.next t k).isSome) && !(s.tile t).stalls s.now then .refused (.notEnabled "MERGE_STAGE_CHOICE")
  else
    -- a furrow's bundle does not reach issue while its tile holds still
    let still : Bool := (s.tile t).frozen s.now || (s.tile t).stalls s.now
    let s := allK.foldl (fun s k => if still && (s.ctx t k).span ≥ 2 && (s.ctx t k).hold.isNone then s else s.offer t k) s
    let count (cause : Nat) : State := allK.foldl (fun s k => match s.next t k with
      | some n => s.profStall t k n cause
      | none => s) s
    if s.stretched then .next (count 6)
    else if (s.tile t).frozen s.now then .next (count 4)
    else if (s.tile t).stalls s.now then .next (s.mergeStalled t)
    else .next (s.merge t)

end Sys2Proof.Machine
end

