-- ==== Sys2Proof/Machine/Furrow.lean ====
section
/-! DEFINITION. The furrow path and the stop of a furrow (R148, R187, R365, R368-R370, R385). -/

namespace Sys2Proof.Machine

/-- The cause that a tile takes which did not stop the stream. -/
def Ctx.stopCause (c : Ctx) : BitVec 8 := if c.pairDue then cPAIR else cFURR

/-- The trap of a tile that did not stop the stream: FURR, or PAIR for the second tile of a pair with a lasting fault; what
an earlier stop still left to skip and to reissue stands behind what this one adds. -/
def Ctx.furr (c : Ctx) (f : FStop) (t rsk : Nat) : Ctx :=
  let p := if c.pos = 0 then t + 1 else t - 1
  { c with
    ecause := causeWord c.ecause false false c.stopCause
    eslot := 0
    edone := doneWord (rsk + c.skips) (match c.resume with | some _ => (c.edone >>> 8).setWidth 8 | none => 0)
      (match c.resume with | some r => r.done | none => 0)
    einfo := if c.pairDue then BitVec.ofNat 64 (p % 64 + 256 * (p / 64)) else BitVec.ofNat 64 (f.pos + 256 * f.cause.toNat)
    sup := true
    hold := none
    resume := none
    probe := none
    point := false
    stepped := false
    stall := 0 }.tookPair

/-- The headland stops its stream: L is the last bundle it issued, and its handler's bundles follow three cycles later. Where it
had issued nothing for so long that this cycle comes before the stop can reach it, they follow as soon as it has (DEDUCED, log
entry 87). -/
def Ctx.stopHead (c : Ctx) (now t : Nat) (f : FStop) : Ctx :=
  let c' := if c.sup then c else (c.furr f t (c.sent - f.resume)).traceRec now 2 c.stopCause.toNat c.pc 0 0 false
  { (c'.rewind 0 f.resume) with
    fstop := some { f with last := some (c.sent, c.lastIssue), off := c.pc }
    ldep := 0
    pend := []
    nulls := 0
    pc := (c.tvec >>> 6).setWidth 16
    readyAt := max (c.lastIssue + 3) (max (f.until_ + 1) f.floor)
    slog := c.slog }

/-- A tile whose own trap did not stop the stream takes FURR after its issue of L (R368). The trace record of a member names the offset at
which the headland's sequencer stood as it stopped, as the headland's own does (DESIGN CHOICE, log entry 127). -/
def execFurr (t : Nat) (k : BitVec 2) (s : State) : Host.Outcome State Fault Refusal :=
  let c := s.ctx t k
  let h := s.ctx c.head c.headK
  match h.fstop with
  | none => .refused (.notEnabled "FURR")
  | some f =>
    if c.life ≠ .running || c.span < 2 then .refused (.notEnabled "FURR")
    else if c.leads then
      if f.last.isNone && c.quiet s.now then .next (s.setCtx t k (c.stopHead s.now t f))
      else .refused (.notEnabled "FURR")
    else
      match f.last with
      | none => .refused (.notEnabled "FURR")
      | some (n, tl) =>
        let busy := c.got.isSome || c.path.any fun it => !it.sup
        if c.sup || busy || s.now < tl + c.pos + 1 then .refused (.notEnabled "FURR")
        else .next (s.setCtx t k ((c.furr f t (n - f.resume)).traceRec s.now 2 c.stopCause.toNat f.off 0 0 false))

/-- A bundle reaches a member along the path. -/
def execFurrowBundleDelivery (t : Nat) (k : BitVec 2) (s : State) : Host.Outcome State Fault Refusal :=
  let c := s.ctx t k
  match c.path with
  | [] => .refused (.notEnabled "FURROW_BUNDLE_DELIVERY")
  | it :: rest =>
    if c.leads || c.life ≠ .running || c.got.isSome || it.left ≠ 0 || s.holdsStill t then
      .refused (.notEnabled "FURROW_BUNDLE_DELIVERY")
    else if c.mute && !it.sup then .next (s.setCtx t k { c with path := rest })
    else
      let c := { c with path := rest, mute := false }
      let c := if c.sup && !it.sup then c.memberReturn else c
      .next (s.setCtx t k { c with got := some it })

end Sys2Proof.Machine
end

