-- ==== Sys2Proof/Machine/Checked.lean ====
section
/-! DEFINITION. Checked pairs: the close of an interval, the exchange of digests, the release of the buffers and the rollback
(R383-R385). -/

namespace Sys2Proof.Machine

/-- Results in flight in the order of their landing. -/
def insertDue (l : Landing) : List Landing → List Landing
  | [] => [l]
  | x :: xs => if l.left < x.left then l :: x :: xs else x :: insertDue l xs

/-- The digest of the interval with the results still in flight. -/
def Ctx.digest (c : Ctx) (now : Nat) : BitVec 64 :=
  match c.chk with
  | none => 0
  | some x =>
    let ls := (c.inflight.foldl (fun acc l => insertDue l acc) []).filter fun l => !l.counted
    (ls.foldl (fun (acc : Ctx × BitVec 64) l =>
      let c := acc.1.landed now l
      (c, crc64 acc.2 (l.w.digest l.slot c))) (c, x.crc)).2

/-- The bytes by which a gated operation enters the digest. -/
def Gated.digest : Gated → List Byte
  | .store _ _ => []
  | .sig phys v => hashTag 12 phys 7 0 ++ leBytes 8 v.toNat
  | .xe q e => hashTag 9 q 6 0 ++ leBytes 8 e.word.toNat ++ (List.range 4).flatMap fun n => leBytes 8 (e.vals.getD n 0).toNat

/-- The whole digest of a tile: its committed writes, then its gated operations. -/
def Ctx.digestAll (c : Ctx) (now : Nat) : BitVec 64 :=
  match c.chk with
  | none => 0
  | some x => x.gate.foldl (fun d g => crc64 d g.digest) (c.digest now)

/-- A gated command issues at the mark. -/
def State.issueGated (s : State) (t : Nat) (k : BitVec 2) (q : Nat) (e : XEntry) : State :=
  let c := s.ctx t k
  let e := { e with at_ := s.now }
  let e := match decSlot 6 e.word with
    | .op i => s.fillEntry (c.xview t k c.itab) i e
    | _ => e
  let x := c.queue q
  s.setCtx t k (c.setQueue q { x with issued := x.issued + 1, ents := x.ents ++ [e] })

/-- The buffer of a tile is released: its stores, then its other operations, each in order of issue. -/
def State.releaseGate (s : State) (t : Nat) (k : BitVec 2) : State :=
  match (s.ctx t k).chk with
  | none => s
  | some x =>
    let id := (s.ctx t k).launch
    let s := s.updCtx t k fun c => { c with chk := some { x with gate := [] } }
    let s := x.gate.foldl (fun s g => match g with
      | .store a bs => (s.landBytes id (.scratch t a) bs).markFresh t a bs
      | _ => s) s
    x.gate.foldl (fun s g => match g with
      | .store _ _ => s
      | .sig phys v => s.setTile t ((s.tile t).addCounter id phys v)
      | .xe q e => s.issueGated t k q e) s

/-- The context as a shadow keeps it. Stores still in flight go out with the interval that has closed, and a rollback does not repeat
them. -/
def Ctx.shadow (c : Ctx) : Shadow :=
  { toCore := { c.toCore with inflight := c.inflight.filter fun l => !l.w.isStore }
    cmap := c.cmap, itab := c.itab, fence := c.fence, preq := c.preq, sent := c.sent, past := c.past, fstop := c.fstop
    mute := c.mute, hashes := c.hashes }

/-- The interval has closed with equal digests: the buffer is released and the shadow refreshed. -/
def State.passMark (s : State) (t : Nat) (k : BitVec 2) : State :=
  (s.releaseGate t k).updCtx t k fun c =>
    let ls : List Landing := c.inflight.map fun l => ({ l with counted := true } : Landing)
    let c : Ctx := { c with inflight := ls }
    match c.chk with
    | none => c
    | some x =>
      let x' : Check := { x with
        gate := [], crc := 0, n := 0, until_ := none, markAt := s.now, shadow := some c.shadow, sets := [], passed := [] }
      { c with chk := some x' }

/-- The launch's furrow has not exited after all: an EXIT of the interval is taken back. -/
def State.unexit (s : State) (c : Ctx) : State :=
  match c.launch with
  | some id => if c.leads then s.updLaunch id fun l => { l with exited := l.exited.filter (· ≠ fieldFy c.field) } else s
  | none => s

/-- The context with its shadow back in place (R385): a request for pre-emption that it has taken since the mark stands again, and so
does an engine fault that it has taken. BARS stays, for a rollback takes back no arrival (log entry 126). -/
def Ctx.fromShadow (c : Ctx) (x : Shadow) : Ctx :=
  { c with
    toCore := { x.toCore with bars := c.bars }
    cmap := x.cmap, itab := x.itab, fence := x.fence, preq := c.preq ||| (x.preq &&& (1#64 <<< 63)), sent := x.sent, past := x.past
    fstop := x.fstop, mute := x.mute, hashes := x.hashes
    xq := if x.sup then c.xq else c.xq.map fun e => (e.1, if e.2.qs = 2 then { e.2 with qs := 1 } else e.2) }

/-- What the context itself has written into counters since the mark is taken back; what outside adds have raised them by is kept
(R385). A barrier it has passed since then lets it pass again. -/
def State.takeBack (s : State) (t : Nat) (c : Ctx) (x : Check) : State :=
  let s := x.sets.foldl (fun s e =>
    let y := s.tile t
    s.setTile t { y with cnt := SMap.set 0 y.cnt e.1 (SMap.get 0 y.cnt e.1 - e.2) }) s
  match c.launch with
  | some id => s.updLaunch id fun l => { l with barRel := l.barRel ++ (x.passed.map fun b => (b, fieldFy c.field)) }
  | none => s

/-- Unequal digests: the shadow comes back, and the third mismatch within 100 ms is lasting (R385). -/
def State.rollback (s : State) (t : Nat) (k : BitVec 2) : State :=
  let now := s.now
  let c := s.ctx t k
  match c.chk with
  | none => s
  | some x =>
    let miss := x.miss.filter (fun z => now ≤ z + 60000000) ++ [now]
    let y := x.shadow.getD c.shadow
    let x' := { x with gate := [], crc := 0, n := 0, until_ := none, markAt := now, miss, pair := x.pair || miss.length ≥ 3
                       sets := [], passed := [] }
    let s := ((s.takeBack t c x).unexit c).setCtx t k ({ c.fromShadow y with
        life := .running
        chk := some x'
        hold := none
        probe := none
        path := []
        got := none
        readyAt := now + 1 }.event now dcrSLIP y.pc 0 (now - x.markAt))
    match c.launch with
    | some id => if miss.length ≥ 3 then s.updLaunch id fun l => { l with faulty := l.faulty.filter (· ≠ t) ++ [t] } else s
    | none => s

/-- The context runs, or has exited with its last interval still to be compared. -/
def Ctx.runs (c : Ctx) : Bool := c.life = .running || c.life = .retiring

/-- The exchange of digests at the end of the context's interval is under way. -/
def State.exchanging (s : State) (c : Ctx) : Bool :=
  let h := s.ctx c.head c.headK
  c.checked && h.launch = c.launch && (h.chk.bind (·.until_)).isSome

/-- A restart mark, or 1024 bundles without one, closes the interval: the headland issues nothing until digests have been
exchanged. -/
def execCheckedIntervalClose (t : Nat) (k : BitVec 2) (s : State) : Host.Outcome State Fault Refusal :=
  let c := s.ctx t k
  match c.chk with
  | none => .refused (.notEnabled "CHECKED_INTERVAL_CLOSE")
  | some x =>
    if !c.leads || !c.runs || x.until_.isSome then .refused (.notEnabled "CHECKED_INTERVAL_CLOSE")
    else .next (s.setCtx t k { c with chk := some { x with until_ := some (s.now + 8) } })

/-- The digests are compared. -/
def execDigestExchange (t : Nat) (k : BitVec 2) (s : State) : Host.Outcome State Fault Refusal :=
  let c := s.ctx t k
  match c.chk.bind (·.until_), s.contextOf (t + 1) c.launch with
  | some u, some k' =>
    let m := s.ctx (t + 1) k'
    if s.now < u || !m.path.isEmpty || m.got.isSome || !c.runs || !m.runs then .refused (.notEnabled "DIGEST_EXCHANGE")
    else if c.digestAll s.now = m.digestAll s.now then .next ((s.passMark t k).passMark (t + 1) k')
    else .next ((s.rollback t k).rollback (t + 1) k')
  | _, _ => .refused (.notEnabled "DIGEST_EXCHANGE")

end Sys2Proof.Machine
end

