-- ==== Sys2Proof/Machine/Release.lean ====
section
/-! DEFINITION. Releases: arrival counters (R114, R222, R395) and field barriers (R357, R358). -/

namespace Sys2Proof.Machine

/-! ### Arrival counters -/

/-- One entry of a release: an add by the rules of R218; an add with no counter is dropped. -/
def State.releaseAdd (s : State) (a : Arrival) (r : RelEntry) : State :=
  (s.addTo (if a.alien then none else some a.own) r.id (s.locateAt r.id r.gen r.fx r.fy) r.ctr (BitVec.ofNat 64 r.amt)).1

/-- The tile by which the log names an arrival counter. -/
def arrTile (loc : ArrLoc) (a : Arrival) : Nat := match loc with | .tile t => t | _ => a.arm.t

/-- An arrival counter that has reached its total releases. -/
def execArrivalRelease (loc : ArrLoc) (idx : Nat) (s : State) : Host.Outcome State Fault Refusal :=
  let a := s.arrival loc idx
  let held : Bool := match findLaunch s.ctd.launches a.own with
    | some l => (match l.forced 4 idx (arrTile loc a) a.arm.k (ctlOf loc) with | .later _ => true | _ => false)
    | none => false
  if !a.due || a.st ≠ 1 || held then .refused (.notEnabled "ARRIVAL_RELEASE")
  else
    let s := s.setArrival loc idx { a with st := 2, due := false }
    let s := a.rel.foldl (fun s r => s.releaseAdd a r) s
    let s := if a.side then { s with ctd := { s.ctd with sideMsgs := s.ctd.sideMsgs ++ [(a.ownt, a.slot)] } } else s
    .next (s.syncEventOf a.own (s.armer a) (arrTile loc a) a.arm.k 4 idx (BitVec.ofNat 64 a.count) a.armOff 6 (ctlOf loc))

/-! ### Field barriers -/

/-- The dies that hold furrows of a launch. -/
def Launch.furrowDies (l : Launch) : List Nat :=
  (l.furrows.flatMap fun f => (List.range f.mem.length).map fun i => dieOf (f.head + i)).eraseDups

/-- LB of R358. -/
def Launch.barrierLatency (l : Launch) : Nat :=
  let ds := l.furrowDies
  8 + 2 * ((ds.flatMap fun a => ds.map fun e => lat a e).foldl max 0)

/-- Every furrow of the field has arrived at the barrier or has exited. -/
def Launch.complete (l : Launch) (b : Nat) : Bool :=
  l.barArr.any (fun x => x.1 = b) &&
    l.furrows.all fun f => l.barArr.contains (b, f.fy) || l.exited.contains f.fy

/-- The barrier network releases a barrier. A release reaches the headlands at its declared time in fixed-timing mode, and when
the hardware delivers it otherwise. -/
def execBarrierRelease (q : BitVec 6) (i : BitVec 32) (b : BitVec 3) (s : State) : Host.Outcome State Fault Refusal :=
  match findLaunch s.ctd.launches ⟨q, i⟩ with
  | none => .refused (.notEnabled "BARRIER_RELEASE")
  | some l =>
    if !l.complete b.toNat then .refused (.notEnabled "BARRIER_RELEASE")
    else
      let (n, s) := s.choose
      let at_ := if l.hdr.timed then SMap.get 0 l.barAt b.toNat + l.barrierLatency else s.now + 1 + n
      .next (s.updLaunch l.id fun l =>
        { l with
          barWay := l.barWay ++ (l.barArr.filter fun x => x.1 = b.toNat).map fun x => (b.toNat, at_, x.2)
          barArr := l.barArr.filter fun x => x.1 ≠ b.toNat
          barCount := SMap.set 0 l.barCount b.toNat (SMap.get 0 l.barCount b.toNat + 1) })

/-- One release reaches a headland: its PEND bit clears, in its image while the context is saved. -/
def State.deliverRelease (s : State) (id : LId) (b fy : Nat) : State :=
  if s.ctd.savedAt.any fun x => x.id = id && x.fx = 0 && x.fy = fy then
    { s with ctd := { s.ctd with heldRels := s.ctd.heldRels ++ [(id, fy, b)] } }
  else
    let s := s.updLaunch id fun l => { l with barRel := l.barRel ++ [(b, fy)] }
    match (s.contexts id).find? fun x => (s.ctx x.1 x.2).pos = 0 && fieldFy (s.ctx x.1 x.2).field = fy with
    | some (t, k) => s.updCtx t k fun c => { c with bars := c.bars &&& ~~~slotBit b }
    | none => s

/-- The releases that reach their headlands in this cycle. -/
def State.barrierDelivery (s : State) : State :=
  s.ctd.launches.foldl (fun s l =>
    let due := l.barWay.filter fun x => x.2.1 ≤ s.now
    if due.isEmpty then s
    else
      let s := s.updLaunch l.id fun l => { l with barWay := l.barWay.filter fun x => s.now < x.2.1 }
      due.foldl (fun s x => s.deliverRelease l.id x.1 x.2.2) s) s

end Sys2Proof.Machine
end

