-- ==== Sys2Proof/Machine/Logs.lean ====
section
/-! DEFINITION. The synchronisation log and the traces that launches write to LPDDR6 (R393, R394, R400). -/

namespace Sys2Proof.Machine

def State.lq (s : State) (q : BitVec 6) : Queue := SMap.get {} s.ctd.queues q.toNat

def State.setLq (s : State) (q : BitVec 6) (x : Queue) : State :=
  { s with ctd := { s.ctd with queues := s.ctd.queues.put q.toNat x } }

/-- A tile as FTILE and TILE give it. -/
def tileWord (t : Nat) : Nat := (t % 64) * 32 + t / 64

/-- SLSZ, TRSZ, HRSZ and PRSZ as 0 to 3. -/
def Queue.dbgSize (x : Queue) (n : Nat) : Nat := ((x.dbgsz >>> (15 - 5 * n)).setWidth 5).toNat

/-- Debug output to LPDDR6. What would write part of a bad block is not performed, and the unit is retired (R37, R348). -/
def State.debugWrite (s : State) (a : Nat) (bs : List Byte) : State :=
  let p : Place := .mem .lpddr a
  match s.badIn p (allOn bs) with
  | some b => s.retireAt (p.at (64 * b))
  | none => (s.writePlace p (allOn bs)).heal p (allOn bs)

/-- An area of the debug block: base and size. -/
def Queue.area (x : Queue) (n : Nat) : Nat × Nat :=
  let base := match n with | 0 => x.slbase | 1 => x.trbase | 2 => x.hrbase | _ => x.prbase
  (base.toNat / 4096 * 4096, 4096 * 2 ^ x.dbgSize n)

/-! ### The synchronisation log (R394) -/

/-- The order of Table 19.5's records: ZC, then kind, then y, x and k. -/
def SyncRec.before (a b : SyncRec) : Bool :=
  let f (r : SyncRec) : Nat := (((r.zc * 8 + r.kind) * 32 + r.tile / 64) * 64 + r.tile % 64) * 4 + r.k
  f a ≤ f b

def insertSync (a : SyncRec) : List SyncRec → List SyncRec
  | [] => [a]
  | b :: bs => if b.before a then b :: insertSync a bs else a :: b :: bs

def SyncRec.bytes (r : SyncRec) (seq : Nat) : List Byte :=
  leBytes 8 seq ++ leBytes 8 r.zc ++ leBytes 8 r.value.toNat ++ leBytes 1 r.kind ++ leBytes 1 r.obj ++
    leBytes 2 (tileWord r.tile + 2048 * r.ctl) ++ leBytes 1 r.k ++ leBytes 3 0

/-- The events of a cycle go to the log; a full log stops recording. -/
def State.flushSync (s : State) (l : Launch) : State :=
  if l.slog.isEmpty then s
  else
    let (base, size) := l.dbg.area 0
    let rs := l.slog.foldl (fun acc r => insertSync r acc) []
    let room := size / 32 - l.slogN
    let s := (rs.zip (List.range room)).foldl (fun s x =>
      s.debugWrite (base + 32 * (l.slogN + x.2)) (x.1.bytes (l.slogN + x.2))) s
    let s := s.updLaunch l.id fun l => { l with slog := [], slogN := l.slogN + min rs.length room }
    if rs.length < room then s
    else let x := s.lq l.id.q; s.setLq l.id.q { x with dbgctl := x.dbgctl ||| (1#64 <<< 31) }

/-! ### Traces (R400) -/

/-- One record of a context goes to the trace ring; TRCNT counts it. -/
def State.traceOut (s : State) (l : Launch) (r : BitVec 128) : State :=
  let x := s.lq l.id.q
  let (base, size) := l.dbg.area 1
  let n := (x.dbgctl >>> 32).toNat
  let s := s.debugWrite (base + 16 * n % size) (leBytes 16 r.toNat)
  s.setLq l.id.q { x with dbgctl := (x.dbgctl &&& 0xFFFFFFFF) ||| (BitVec.ofNat 64 (n + 1) <<< 32) }

def State.flushTrace (s : State) (t : Nat) (k : BitVec 2) : State :=
  let c := s.ctx t k
  if c.trace.isEmpty then s
  else
    let s' := s.setCtx t k { c with trace := [] }
    match s.launchRec c with
    | none => s'
    | some l => if l.dbg.dbgctl.getLsbD 7 then c.trace.foldl (fun s r => s.traceOut l r) s' else s'

/-- What a launch that ends in this cycle has still to log: the events of its contexts, their traces, and its sync events (R391, R394,
R400). -/
def State.flushLaunch (s : State) (id : LId) : State :=
  let s := (s.contexts id).foldl (fun s x => (s.updCtx x.1 x.2 Ctx.recordEvents).flushTrace x.1 x.2) s
  match findLaunch s.ctd.launches id with
  | some l => s.flushSync l
  | none => s

end Sys2Proof.Machine
end

