-- ==== Sys2Proof/Machine/Queues.lean ====
section
/-! DEFINITION. The queues, the journal and the completion records: configuration, doorbells, the taking of records, and the
end of a launch (R106-R114, R124-R129, R144, R388, R393). -/

namespace Sys2Proof.Machine

/-! ### Bytes of a record -/

/-- `n` bytes at an offset, little-endian. -/
def le (bs : List Byte) (off n : Nat) : Nat := ofLe ((bs.drop off).take n)

/-- Every byte of a field is zero. -/
def zeros (bs : List Byte) (off n : Nat) : Bool := ((bs.drop off).take n).all fun b => b = 0

/-- Status codes (Table 6.3). -/
def stOK : BitVec 16 := 0x0000
def stFAULT : BitVec 16 := 0x0001
def stKILLED : BitVec 16 := 0x0002
def stLOCKED : BitVec 16 := 0x0003
def stBADKIND : BitVec 16 := 0x0100
def stBADREC : BitVec 16 := 0x0101
def stBADIMAGE : BitVec 16 := 0x0102
def stBADPRIO : BitVec 16 := 0x0103
def stPTFAULT : BitVec 16 := 0x0104
def stPTTIME : BitVec 16 := 0x0105
def stNOPLACE : BitVec 16 := 0x0106
def stDEPFAIL : BitVec 16 := 0x0107
def stDEPBAD : BitVec 16 := 0x0108
def stSIDEBUSY : BitVec 16 := 0x0109
def stBUDGET : BitVec 16 := 0x010A
def stPRIV : BitVec 16 := 0x010B
def stSTATE : BitVec 16 := 0x010C
def stEXTENTS : BitVec 16 := 0x010D
def stNOTARGET : BitVec 16 := 0x010E

/-! ### Queue registers (Table 6.1) -/

def Queue.en (x : Queue) : Bool := x.cfg.getLsbD 63
def Queue.pcap (x : Queue) : Nat := ((x.cfg >>> 48).setWidth 3).toNat
def Queue.tenant (x : Queue) : BitVec 16 := (x.cfg >>> 32).setWidth 16
def Queue.log2n (x : Queue) : Nat := ((x.cfg >>> 20).setWidth 4).toNat
def Queue.size (x : Queue) : Nat := 2 ^ x.log2n
def Queue.ien (x : Queue) : Bool := x.cfg.getLsbD 11
def Queue.vec (x : Queue) : BitVec 11 := x.cfg.setWidth 11
def Queue.root (x : Queue) : Nat := x.ptr.toNat / 4096 * 4096
def Queue.loc (x : Queue) : Nat := ((x.ptr >>> 10).setWidth 2).toNat

/-- HEAD: the count of records taken, those taken out of turn with them (R108, R109; DEDUCED, log entry 50). -/
def Queue.count (x : Queue) : BitVec 32 := x.head + BitVec.ofNat 32 x.out.length

/-- The address of a record of the ring. -/
def Queue.slot (x : Queue) (i : BitVec 32) : Nat := x.base.toNat / 4096 * 4096 + 256 * (i.toNat % x.size)

/-- The pending indices, in order (R108, R110). -/
def Queue.pending (x : Queue) : List (BitVec 32) :=
  ((List.range (x.tail - x.head).toNat).map fun n => x.head + BitVec.ofNat 32 n).filter fun i => !x.out.contains i

/-- The configuration passes the check of R107. -/
def Queue.configOk (x : Queue) : Bool :=
  4 ≤ x.log2n && x.log2n ≤ 12 && (x.loc = 1 || x.loc = 2) && x.base.toNat / 4096 * 4096 + 256 * x.size ≤ 2 ^ 41

/-- The debug block's words (Table 19.4); its read-only bits are not the host's. -/
def Queue.setDebug (x : Queue) (w : QueueWords) : Queue :=
  { x with
    dbgctl := (x.dbgctl &&& 0xFFFFFFFF80000000) ||| (w.dbgctl &&& 0xF80)
    slbase := w.slbase &&& ~~~0xFFF, trbase := w.trbase &&& ~~~0xFFF, hrbase := w.hrbase &&& ~~~0xFFF, prbase := w.prbase &&& ~~~0xFFF
    dbgsz := w.dbgsz &&& 0xFFFFFFFFFF, bp0 := w.bp0 &&& 0xFF800000003FFFC0, bp1 := w.bp1 &&& 0xFF800000003FFFC0 }

/-- The host writes a queue's words and EN = 1. The kill marks on its records that were never taken are dropped (DESIGN CHOICE, log
entry 102), and its completions are forgotten (log entry 129). -/
def execQueueEnable (q : BitVec 6) (w : QueueWords) (s : State) : Host.Outcome State Fault Refusal :=
  if !s.ctd.ready.pf then .refused (.notEnabled "QUEUE_ENABLE")
  else
    let x := (s.lq q).setDebug w
    if x.en then .next (s.setLq q x)
    else
      let x := { x with base := w.base &&& ~~~0xFFF, cfg := w.cfg &&& 0x0007FFFF00F00FFF, ptr := w.ptr &&& ~~~0x3FF
                        cq := w.cq &&& ~~~0x3F }
      if x.configOk then
        let x := { x with cfg := x.cfg ||| (1#64 <<< 63), head := 0, out := [], tail := 0, ovf := false, err := false }
        let s := s.setLq q x
        .next { s with ctd := { s.ctd with doneRecs := s.ctd.doneRecs.filter fun d => d.1.q ≠ q
                                           pendingKills := s.ctd.pendingKills.filter fun d => d.1.q ≠ q } }
      else .next (s.setLq q { x with err := true })

/-- The host writes EN = 0. -/
def execQueueDisable (q : BitVec 6) (s : State) : Host.Outcome State Fault Refusal :=
  if !s.ctd.ready.pf then .refused (.notEnabled "QUEUE_DISABLE")
  else .next (s.setLq q { s.lq q with cfg := (s.lq q).cfg &&& ~~~(1#64 <<< 63) })

/-- A write of the tail register (R25, R108). -/
def execTailWrite (q : BitVec 6) (t : BitVec 32) (s : State) : Host.Outcome State Fault Refusal :=
  let x := s.lq q
  if !s.ctd.ready.pf then .refused (.notEnabled "TAIL_WRITE")
  else if !x.en || s.ctd.ready.lpd ≠ 0xFF then .next s
  else if (t - x.tail).toNat < 2 ^ 31 && (t - x.count).toNat ≤ x.size then .next (s.setLq q { x with tail := t })
  else .next (s.setLq q { x with ovf := true })

/-! ### Completion records (R124) -/

/-- The fields of a completion record that its writer gives. -/
structure Completion where
  id : LId
  kind : Nat
  status : BitVec 16
  tag : Word
  jseq : Nat
  start : Nat := 0
  cycles : Nat := 0
  dcrsum : BitVec 32 := 0
  fcause : BitVec 16 := 0
  ftile : Nat := 0
  deriving DecidableEq, Repr

def Completion.bytes (c : Completion) (n : Nat) : List Byte :=
  leBytes 4 c.id.i.toNat ++ leBytes 2 c.status.toNat ++ leBytes 1 c.kind ++ leBytes 1 (1 + (c.id.i.toNat / n) % 2) ++
    leBytes 8 c.tag.toNat ++ leBytes 8 c.jseq ++ leBytes 8 c.start ++ leBytes 8 c.cycles ++ leBytes 4 c.dcrsum.toNat ++
    leBytes 2 c.fcause.toNat ++ leBytes 2 c.ftile ++ leBytes 16 0

/-- Write a completion record and send its interrupt. -/
def State.finish (s : State) (c : Completion) : State :=
  let x := s.lq c.id.q
  let s := s.landBytes none (.mem .host (x.cq.toNat / 64 * 64 + 64 * (c.id.i.toNat % x.size))) (allOn (c.bytes x.size))
  { s with ctd := { s.ctd with
      doneRecs := s.ctd.doneRecs ++ [(c.id, c.status)]
      msix := if x.ien then s.ctd.msix ++ [x.vec] else s.ctd.msix } }

/-- DEP0's layout of a record's name. -/
def LId.word (d : LId) : Word := (d.q.setWidth 64 <<< 32) ||| d.i.setWidth 64

/-- A kill record ends: its entry of kind 3 and its completion. -/
def State.endKill (s : State) (id : LId) (tag : Word) (target : Word) (status : BitVec 16) : State :=
  let j := s.ctd.jseq
  (s.journal { kind := 3, status, tenant := (s.lq id.q).tenant, queue := id.q.toNat, index := id.i.toNat, tag, arg0 := target }).finish
    { id, kind := 2, status, tag, jseq := j }

/-- A migrate record ends. -/
def State.endMigrate (s : State) (id : LId) (tag src dst : Word) (status : BitVec 16) : State :=
  let j := s.ctd.jseq
  (s.journal { kind := 4, status, tenant := (s.lq id.q).tenant, queue := id.q.toNat, index := id.i.toNat, tag, arg0 := src
               arg1 := dst }).finish { id, kind := 3, status, tag, jseq := j }

/-- A record that is no kill, no migration and no accepted launch ends with an entry of kind 2. -/
def State.endRejected (s : State) (id : LId) (kind : Nat) (tenant : BitVec 16) (tag : Word) (status : BitVec 16) : State :=
  let j := s.ctd.jseq
  (s.journal { kind := 2, status, tenant, queue := id.q.toNat, index := id.i.toNat, tag }).finish
    { id, kind, status, tag, jseq := j }

/-! ### The end of a launch -/

/-- Lower the lock count of each frame by one, or raise it. -/
def lockChange (up : Bool) (ls : List ((Nat × Nat) × Nat)) (f : Nat × Nat) : List ((Nat × Nat) × Nat) :=
  match ls with
  | [] => if up then [(f, 1)] else []
  | (g, n) :: r =>
    if f = g then (if up then (g, n + 1) :: r else if n ≤ 1 then r else (g, n - 1) :: r) else (g, n) :: lockChange up r f

def State.lockFrames (s : State) (up : Bool) (fs : List (Nat × Nat)) : State :=
  { s with ctd := { s.ctd with locks := fs.foldl (lockChange up) s.ctd.locks } }

/-- The context of a launch with a field coordinate gives its frame locks up, where it holds some (R121). -/
def State.unlockContext (s : State) (id : LId) (fx fy : Nat) : State :=
  match (findLaunch s.ctd.launches id).bind fun l => l.lockSets.find? fun x => x.1 = (fx, fy) with
  | some x => (s.lockFrames false x.2).updLaunch id fun l => { l with lockSets := l.lockSets.filter fun y => y.1 ≠ (fx, fy) }
  | none => s

/-- The context of a launch with a field coordinate locks frames (R121). -/
def State.lockContext (s : State) (id : LId) (fx fy : Nat) (fs : List (Nat × Nat)) : State :=
  ((s.unlockContext id fx fy).lockFrames true fs).updLaunch id fun l => { l with lockSets := l.lockSets ++ [((fx, fy), fs)] }

/-- Every lock of a launch is released. -/
def State.unlockLaunch (s : State) (l : Launch) : State :=
  let s := l.lockSets.foldl (fun s x => s.lockFrames false x.2) s
  if l.imgLocked then s.lockFrames false l.imgFrames.eraseDups else s

/-- An arrival counter becomes free (R220); its other words stay. -/
def Arrival.freed (a : Arrival) : Arrival := { a with st := 0, due := false }

def freeOwned (id : LId) (m : SMap Arrival) : SMap Arrival :=
  m.foldl (fun (m : SMap Arrival) (e : Nat × Arrival) =>
    if e.2.own = id && e.2.st ≠ 0 then SMap.set {} m e.1 e.2.freed else m) m

def State.freeArrivals (s : State) (id : LId) : State :=
  { s with tiles := s.tiles.map fun e => (e.1, { e.2 with arr := freeOwned id e.2.arr })
           arrHbm := freeOwned id s.arrHbm
           arrLpddr := freeOwned id s.arrLpddr }

/-- The contexts of a launch leave their tiles: the registers keep what they held. -/
def Tile.freeLaunch (x : Tile) (id : LId) : Tile :=
  { x with ctx := x.ctx.map fun e => (e.1, if e.2.launch = some id then
      { e.2 with life := .free, saved := false, inflight := [], path := [], got := none, hold := none, probe := none } else e.2)
           holder := x.holder.map fun e => (e.1, match e.2 with
             | some k => if (x.get k).launch = some id then none else some k
             | none => none)
           decomp := match x.decomp with
             | some d => if (x.get d.k).launch = some id then none else x.decomp
             | none => none }

/-- Everything of a saved context of the launch is gone: its image slots, and the adds and releases held for it (R382). -/
def Ctd.dropSaved (c : Ctd) (id : LId) : Ctd :=
  { c with
    images := c.images.filter fun e => match e.2 with | some x => decide (x.id ≠ id) | none => true
    heldAdds := c.heldAdds.filter fun x => x.1 ≠ id
    heldRels := c.heldRels.filter fun x => x.1 ≠ id
    savedAt := c.savedAt.filter fun x => x.id ≠ id
    adds := c.adds.filter fun m => m.src ≠ some id }

def Launch.tag (l : Launch) : Word := BitVec.ofNat 64 (le l.bytes 8 8)

/-- A launch ends (R388): its resources return to the map (R144), its ending entry and completion record are written, and
the kills that waited for it complete. -/
def State.endLaunch (s : State) (l : Launch) (status fcause : BitVec 16) (ftile : Nat) : State :=
  let s := s.flushLaunch l.id
  let dsum := (s.contexts l.id).foldl (fun d x => d ||| (s.ctx x.1 x.2).codes) l.dcrsum
  let start := if l.started then l.t0.getD 0 else 0
  let stop := if status = stOK then l.lastRetire else s.now
  let s := (s.unlockLaunch l).freeArrivals l.id
  let s : State := { s with tiles := s.tiles.map fun (e : Nat × Tile) => (e.1, e.2.freeLaunch l.id), ctd := s.ctd.dropSaved l.id }
  let s := { s with ctd := { s.ctd with launches := s.ctd.launches.filter fun x => x.id ≠ l.id } }
  let j := s.ctd.jseq
  let s := s.journal { kind := if l.accepted then 8 else 2, status, tenant := l.tenant, queue := l.id.q.toNat
                       index := l.id.i.toNat, tag := l.tag }
  let s := s.finish { id := l.id, kind := 1, status, tag := l.tag, jseq := j, start, cycles := if l.started then stop - start else 0
                      dcrsum := dsum, fcause, ftile := if status = stFAULT then tileWord ftile else 0 }
  -- the tiles of pairs with a lasting mismatch are retired (R385)
  let s := l.faulty.foldl (fun s t => s.retireFunc (.tile t)) s
  l.killers.foldl (fun s k => s.endKill k.1 k.2 l.id.word stOK) s

/-- A launch not yet accepted is rejected (R112). -/
def State.reject (s : State) (l : Launch) (status : BitVec 16) : State := s.endLaunch l status 0 0

/-! ### Taking a record (R109, R110) -/

/-- A launch record holds the queue. -/
def Launch.holds (l : Launch) : Bool := l.phase = .deps || l.phase = .walk || l.phase = .admitting

def State.busyQueue (s : State) (q : BitVec 6) : Bool := s.ctd.launches.any fun l => l.id.q = q && l.holds

/-- The bytes of a record in its ring. -/
def State.record (s : State) (q : BitVec 6) (i : BitVec 32) : List Byte := s.lpddr.read ((s.lq q).slot i) 256

/-- An uncorrectable error stands in a record of the ring. -/
def State.recordBad (s : State) (q : BitVec 6) (i : BitVec 32) : Option Place := s.badOver (.mem .lpddr ((s.lq q).slot i)) 256

/-- KIND of a record. -/
def kindOf (bs : List Byte) : Nat := le bs 0 2

/-- A record that can be read is a kill or a migrate record. -/
def State.passes (s : State) (q : BitVec 6) (i : BitVec 32) : Bool :=
  let k := kindOf (s.record q i)
  (k = 2 || k = 3) && (s.recordBad q i).isNone

/-- The record the CTD takes next: the first one pending, or behind a held record the first kill or migration. -/
def State.nextRecord (s : State) (q : BitVec 6) : Option (BitVec 32 × List Byte) :=
  let x := s.lq q
  -- a record whose name an earlier launch or migration still bears waits for that one to end (log entry 51)
  let named (i : BitVec 32) : Bool :=
    (s.ctd.launches.any fun l => l.id = ⟨q, i⟩) || s.ctd.migrations.any fun m => m.id = ⟨q, i⟩
  if !x.en then none
  else
    (if s.busyQueue q then x.pending.find? (s.passes q) else x.pending.head?).bind
      fun i => if named i then none else some (i, s.record q i)

/-- The frontier passes the indices that were taken out of turn. -/
def Queue.pass : Nat → Queue → Queue
  | 0, x => x
  | n + 1, x => if x.out.contains x.head then Queue.pass n { x with head := x.head + 1, out := x.out.filter (· ≠ x.head) } else x

/-- Take index `i`. -/
def Queue.take (x : Queue) (i : BitVec 32) : Queue :=
  if i = x.head then Queue.pass x.out.length { x with head := x.head + 1 } else { x with out := x.out ++ [i] }

/-- A pending record that a kill marked is discarded when it is taken (R128). -/
def State.discardMarked (s : State) (id : LId) (bs : List Byte) : State :=
  let tag := BitVec.ofNat 64 (le bs 8 8)
  let ks := s.ctd.pendingKills.filter fun k => k.1 = id
  let s := match kindOf bs with
    | 2 => s.endKill id tag (BitVec.ofNat 64 (le bs 0x28 8)) stKILLED
    | 3 => s.endMigrate id tag (BitVec.ofNat 64 (le bs 0x10 8)) (BitVec.ofNat 64 (le bs 0x18 8)) stKILLED
    | k => s.endRejected id k (s.lq id.q).tenant tag stKILLED
  let s := { s with ctd := { s.ctd with pendingKills := s.ctd.pendingKills.filter fun k => k.1 ≠ id } }
  ks.foldl (fun s k => s.endKill k.2.1 k.2.2 id.word stOK) s

def State.marked (s : State) (id : LId) : Bool := s.ctd.pendingKills.any fun k => k.1 = id

/-! ### Launch records (Table 6.2) -/

/-- A dependence field is well formed: at or above NDEP it is zero. -/
def depOk (bs : List Byte) (n : Nat) : Bool :=
  let d := le bs (0x28 + 8 * n) 8
  if n < le bs 4 1 then d / 2 ^ 40 = 0 && d / 2 ^ 32 < 64 else d = 0

/-- An area of the debug block lies within LPDDR6. -/
def areaOk (base : Word) (v : Nat) : Bool := base.toNat / 4096 * 4096 + 4096 * 2 ^ v ≤ 2 ^ 41 && v ≤ 24

def Queue.debugOk (x : Queue) : Bool :=
  ((x.dbgctl >>> 10).setWidth 2).toNat ≠ 3 && areaOk x.slbase (x.dbgSize 0) && areaOk x.trbase (x.dbgSize 1) &&
    areaOk x.hrbase (x.dbgSize 2) && areaOk x.prbase (x.dbgSize 3)

/-- The BADREC checks. -/
def launchFieldsOk (bs : List Byte) (x : Queue) : Bool :=
  le bs 3 1 < 2 && le bs 4 1 ≤ 4 && (le bs 3 1 = 1 || le bs 5 1 = 0) && le bs 6 1 ≠ 0 && le bs 7 1 = 0 && le bs 0x10 8 % 64 = 0 &&
    zeros bs 0x24 4 && (List.range 4).all (depOk bs) && zeros bs 0x48 8 && zeros bs 0xD0 48 && x.debugOk

/-- The siding slot is reserved by another launch or holds a parked one (R114). -/
def State.sideBusy (s : State) (tenant : BitVec 16) (slot : BitVec 8) : Bool :=
  s.ctd.launches.any fun l => l.tenant = tenant && l.side = some slot && (l.holds || l.phase = .loading || l.phase = .parked)

/-- The first failure of step 1, in the order of R111. -/
def State.recordStatus (s : State) (q : BitVec 6) (bs : List Byte) : Option (BitVec 16) :=
  let x := s.lq q
  if kindOf bs ≠ 1 then some stBADKIND
  else if s.ctd.lifeCycle = 3 then some stSTATE
  else if !launchFieldsOk bs x then some stBADREC
  else if le bs 2 1 > x.pcap then some stBADPRIO
  else if le bs 3 1 = 1 && s.sideBusy x.tenant (BitVec.ofNat 8 (le bs 5 1)) then some stSIDEBUSY
  else none

/-- The CTD takes a launch record, one of unknown kind, or one that it cannot read: an uncorrectable error there ends the record with
BADREC (DESIGN CHOICE, log entry 119). -/
def execLaunchRecord (q : BitVec 6) (s : State) : Host.Outcome State Fault Refusal :=
  match s.nextRecord q with
  | none => .refused (.notEnabled "LAUNCH_RECORD")
  | some (i, bs) =>
    if s.passes q i then .refused (.notEnabled "LAUNCH_RECORD")
    else
      let x := s.lq q
      let bad := s.recordBad q i
      let s := (s.setLq q (x.take i)).retireMet bad
      let id : LId := ⟨q, i⟩
      if s.marked id then .next (s.discardMarked id bs)
      else if bad.isSome then .next (s.endRejected id (kindOf bs) x.tenant (BitVec.ofNat 64 (le bs 8 8)) stBADREC)
      else
        match s.recordStatus q bs with
        | some st => .next (s.endRejected id (kindOf bs) x.tenant (BitVec.ofNat 64 (le bs 8 8)) st)
        | none =>
          let l : Launch :=
            { id, tenant := x.tenant, prio := le bs 2 1
              side := if le bs 3 1 = 1 then some (BitVec.ofNat 8 (le bs 5 1)) else none
              bytes := bs, dbg := x }
          .next { s with ctd := { s.ctd with launches := s.ctd.launches ++ [l] } }

/-! ### Kill records (R128) -/

/-- A launch that holds furrows begins to end; the kills that wait complete with it. -/
def State.killLaunch (s : State) (id : LId) : State :=
  let now := s.now
  s.updLaunch id fun l => { l with phase := .ending, status := stKILLED, toQuiesce := l.dies, deadline := now + 30000 }

/-- The target fields of a kill record, and what they must leave zero. -/
def killFieldsOk (bs : List Byte) : Bool :=
  zeros bs 2 6 && zeros bs 0x10 0x18 && le bs 0x28 8 / 2 ^ 32 < 64 && zeros bs 0x30 0xD0

/-- A kill takes effect on its target. A launch that still runs is killed though the slot of its record has been used again, and a
kill or migrate record that has been taken is no target (DESIGN CHOICE, log entry 101). -/
def State.kill (s : State) (id target : LId) (tag : Word) : State :=
  match findLaunch s.ctd.launches target with
  | some l =>
    if l.holds then (s.reject l stKILLED).endKill id tag target.word stOK
    else if l.phase = .parked then (s.endLaunch l stKILLED 0 0).endKill id tag target.word stOK
    else
      let s := if l.phase = .ending then s else s.killLaunch target
      s.updLaunch target fun l => { l with killers := l.killers ++ [(id, tag)] }
  | none =>
    if (s.lq target.q).pending.contains target.i then
      { s with ctd := { s.ctd with pendingKills := s.ctd.pendingKills ++ [(target, id, tag)] } }
    else s.endKill id tag target.word stNOTARGET

/-- The CTD takes a kill record. -/
def execKillRecord (q : BitVec 6) (s : State) : Host.Outcome State Fault Refusal :=
  match s.nextRecord q with
  | none => .refused (.notEnabled "KILL_RECORD")
  | some (i, bs) =>
    if kindOf bs ≠ 2 || !s.passes q i then .refused (.notEnabled "KILL_RECORD")
    else
      let x := s.lq q
      let s := s.setLq q (x.take i)
      let id : LId := ⟨q, i⟩
      let tag := BitVec.ofNat 64 (le bs 8 8)
      let tw := le bs 0x28 8
      let target : LId := ⟨BitVec.ofNat 6 (tw / 2 ^ 32), BitVec.ofNat 32 tw⟩
      if s.marked id then .next (s.discardMarked id bs)
      else if !killFieldsOk bs then .next (s.endKill id tag (BitVec.ofNat 64 tw) stBADREC)
      else if (s.lq target.q).tenant ≠ x.tenant then .next (s.endKill id tag (BitVec.ofNat 64 tw) stPRIV)
      else .next (s.kill id target tag)

/-! ### Migrate records (R122) -/

/-- The memory of a location code. -/
def spaceOf : Nat → Option Space
  | 0 => some .hbm
  | 1 => some .lpddr
  | 2 => some .host
  | _ => none

def State.pte (s : State) (loc a : Nat) : Word :=
  match spaceOf loc with
  | some sp => BitVec.ofNat 64 ((s.mem sp).nat a 8)
  | none => 0

/-- An uncorrectable error stands under `n` bytes of a memory that a location code names. -/
def State.badAt (s : State) (loc a n : Nat) : Option Place := (spaceOf loc).bind fun sp => s.badOver (.mem sp a) n

/-- An entry is written, where its block can be: an entry is part of a block (R348). -/
def State.setPte (s : State) (loc a : Nat) (w : Word) : State :=
  match spaceOf loc with
  | some sp => if (s.badAt loc a 8).isSome then s else s.setMem sp ((s.mem sp).write a (leBytes 8 w.toNat))
  | none => s

/-- The address of a page-table entry, and its location. -/
def pteAddr (w : Word) : Nat := (w.setWidth 53).toNat / 4096 * 4096

def pteLoc (w : Word) : Nat := ((w >>> 4).setWidth 2).toNat

/-- The checks made before anything moves, in the order of R111 and R122. SRC, DST or PTE beyond the end of its memory is PTFAULT
(DESIGN CHOICE, log entry 100), and so is an entry that an uncorrectable error keeps from being read (log entry 119). -/
def State.migrateStatus (s : State) (bs : List Byte) (tenant : BitVec 16) : Option (BitVec 16) :=
  let src := le bs 0x10 8
  let dst := le bs 0x18 8
  let pte := le bs 0x20 8
  let locs := le bs 0x28 8
  let bad (l : Nat) : Bool := l % 4 = 3
  let outside (l a n : Nat) : Bool := match spaceOf (l % 4) with | some sp => decide (spaceSize sp < a + n) | none => true
  if !(zeros bs 2 6 && zeros bs 0x30 0xD0) || src % 2 ^ 21 ≠ 0 || dst % 2 ^ 21 ≠ 0 || pte % 8 ≠ 0 || bad locs || bad (locs / 4) ||
      bad (locs / 16) || locs / 64 ≠ 0 || (src = dst && locs % 4 = locs / 4 % 4) then some stBADREC
  else if tenant ≠ 0 then some stPRIV
  else if outside (locs / 16) pte 8 || outside locs src (2 ^ 21) || outside (locs / 4) dst (2 ^ 21) then some stPTFAULT
  else
    let e := s.pte (locs / 16 % 4) pte
    if (s.badAt (locs / 16 % 4) pte 8).isSome || !e.getLsbD 0 || pteAddr e ≠ src || pteLoc e ≠ locs % 4 then some stPTFAULT else none

/-- A frame is locked. -/
def State.locked (s : State) (loc addr : Nat) : Bool := s.ctd.locks.any fun x => x.1 = (loc, addr / 2 ^ 21)

/-- A launch not yet admitted whose walk has met the frame walks again: its steps 4 to 7 come after the migration (R112). -/
def Launch.rewalk (l : Launch) (f : Nat × Nat) : Launch :=
  if (l.phase = .walk || l.phase = .admitting) && (l.imgFrames.contains f || l.frames.contains f || l.wpages.contains f) then
    { l with phase := .walk, image := [], imgDone := false, imgFrames := [], frames := [], regions := [], wentry := 0, wpages := []
             wnode := none }
  else l

/-- The CTD takes a migrate record: its checks, the lock check, and the setting of MIG. -/
def execMigrateRecord (q : BitVec 6) (s : State) : Host.Outcome State Fault Refusal :=
  match s.nextRecord q with
  | none => .refused (.notEnabled "MIGRATE_RECORD")
  | some (i, bs) =>
    if kindOf bs ≠ 3 || !s.passes q i then .refused (.notEnabled "MIGRATE_RECORD")
    else
      let x := s.lq q
      let s := s.setLq q (x.take i)
      let id : LId := ⟨q, i⟩
      let tag := BitVec.ofNat 64 (le bs 8 8)
      let src := le bs 0x10 8
      let dst := le bs 0x18 8
      let locs := le bs 0x28 8
      let pte := le bs 0x20 8
      if s.marked id then .next (s.discardMarked id bs)
      else
        match s.migrateStatus bs x.tenant with
        | some st =>
          let s := if st = stPTFAULT then s.retireMet (s.badAt (locs / 16 % 4) pte 8) else s
          .next (s.endMigrate id tag (BitVec.ofNat 64 src) (BitVec.ofNat 64 dst) st)
        | none =>
          if s.locked (locs % 4) src || s.locked (locs / 4 % 4) dst then
            .next (s.endMigrate id tag (BitVec.ofNat 64 src) (BitVec.ofNat 64 dst) stLOCKED)
          else
            let s := s.setPte (locs / 16 % 4) pte (s.pte (locs / 16 % 4) pte ||| (1#64 <<< 62))
            .next { s with ctd := { s.ctd with
              migrations := s.ctd.migrations ++ [{ id, tag, src, dst, pte, locs := BitVec.ofNat 64 locs }]
              launches := s.ctd.launches.map fun l => l.rewalk (locs % 4, src / 2 ^ 21) } }

/-- Cells of one frame moved to another address. -/
def Mem.moveIn (dst : Mem) (a n : Nat) (cells : Mem) (from_ : Nat) : Mem :=
  (dst.filter fun e => e.1 < a) ++ (cells.map fun e => (e.1 - from_ + a, e.2)) ++ (dst.filter fun e => a + n ≤ e.1)

/-- The bytes of a copied frame count at the arrival counters of its controller (R221). -/
def State.countFrame (s : State) (p : Place) : State :=
  match p.counters with
  | none => s
  | some l => if (s.arrivals l).isEmpty then s else s.count none p (allOn (s.readPlace p (2 ^ 21)))

/-- The frame is copied: every block of the destination is written whole, and takes fresh ECC (R348). -/
def State.copyFrame (s : State) (ss ds : Space) (src dst : Nat) : State :=
  let keep (b : Nat) : Bool := 64 * b < dst || dst + 2 ^ 21 ≤ 64 * b
  let s := s.setMem ds ((s.mem ds).moveIn dst (2 ^ 21) ((s.mem ss).window src (2 ^ 21)) src)
  let s : State := match ds with
    | .hbm => { s with badHbm := s.badHbm.filter keep }
    | .lpddr => { s with badLpddr := s.badLpddr.filter keep }
    | .host => s
  s.countFrame (.mem ds dst)

/-- The entry after a migration: DST's bits [52:12] as ADDR, the new LOC, MIG clear; the rest stays. The check of the record tests no
bit of DST above 52, and the entry takes none (DESIGN CHOICE, log entry 100). -/
def movedPte (e : Word) (dst dl : Nat) : Word :=
  (e &&& 0xBFE0000000000FCF) ||| (BitVec.ofNat 64 dst &&& 0x001FFFFFFFFFF000) ||| BitVec.ofNat 64 (dl * 16)

/-- The frame copy ends (R122). An uncorrectable error in the source frame or in the entry ends the record with FAULT; of a bad source
nothing is copied, and MIG is cleared where the entry can be written (DESIGN CHOICE, log entry 119). -/
def execMigrateComplete (q : BitVec 6) (i : BitVec 32) (s : State) : Host.Outcome State Fault Refusal :=
  match s.ctd.migrations.find? fun m => m.id = ⟨q, i⟩ with
  | none => .refused (.notEnabled "MIGRATE_COMPLETE")
  | some m =>
    let sl := m.locs.toNat % 4
    let dl := m.locs.toNat / 4 % 4
    let el := m.locs.toNat / 16 % 4
    match spaceOf sl, spaceOf dl with
    | some ss, some ds =>
      let bad := s.badOver (.mem ss m.src) (2 ^ 21)
      let s := if bad.isSome then s else s.copyFrame ss ds m.src m.dst
      let lost := s.badAt el m.pte 8
      let e := s.pte el m.pte
      let s := s.setPte el m.pte (if bad.isSome then e &&& ~~~(1#64 <<< 62) else movedPte e m.dst dl)
      let s := (s.retireMet bad).retireMet lost
      let s := { s with ctd := { s.ctd with migrations := s.ctd.migrations.filter fun x => x.id ≠ m.id } }
      .next (s.endMigrate m.id m.tag (BitVec.ofNat 64 m.src) (BitVec.ofNat 64 m.dst)
        (if bad.isSome || lost.isSome then stFAULT else stOK))
    | _, _ => .refused (.notEnabled "MIGRATE_COMPLETE")

end Sys2Proof.Machine
end

