-- ==== Sys2Proof/Machine/Debug.lean ====
section
/-! DEFINITION. Interval hashes, profiles, and what the debug facilities write at the end of a cycle (R394, R398-R400). -/

namespace Sys2Proof.Machine

/-! ### Interval hashes (R398) -/

/-- The interval's bundles have all issued. -/
def Ctx.intervalOver (c : Ctx) (i : Nat) : Bool :=
  c.life ≠ .running || !c.shn.getLsbD 63 || i < c.cyc.toNat / ((c.shn.setWidth 20).toNat + 1)

/-- The record of an interval whose writes have all landed is appended to the hash ring. -/
def execHashRecord (t : Nat) (k : BitVec 2) (i : BitVec 32) (s : State) : Host.Outcome State Fault Refusal :=
  let c := s.ctx t k
  match c.hashes.find? fun h => h.i = i.toNat, c.launch, s.launchRec c with
  | some h, some id, some l =>
    if c.inflight.any (fun x => x.hash = some i.toNat) || !c.intervalOver i.toNat then .refused (.notEnabled "HASH_RECORD")
    else
      let (base, size) := l.dbg.area 2
      let bs := leBytes 8 h.crc.toNat ++ leBytes 4 h.i ++ leBytes 2 (tileWord t) ++ leBytes 1 k.toNat ++ leBytes 1 0
      let s := s.debugWrite (base + 16 * l.hrN % size) bs
      let s := s.setCtx t k { c with hashes := c.hashes.filter fun x => x.i ≠ i.toNat }
      .next (s.updLaunch id fun l => { l with hrN := l.hrN + 1 })
  | _, _, _ => .refused (.notEnabled "HASH_RECORD")

/-! ### Profiles (R399) -/

/-- Add a context's counters to its record, saturating, and clear them. -/
def State.flushProfile (s : State) (t : Nat) (k : BitVec 2) : State :=
  let c := s.ctx t k
  match s.launchRec c with
  | none => s
  | some l =>
    let (base, size) := l.dbg.area 3
    -- both tiles of a checked pair have FX 0 (R383)
    let n := fieldFy c.field * c.flen + (if c.checked then 0 else c.pos)
    let s := s.setCtx t k { c with prof := [] }
    if !s.profiled c || 1024 * n + 1024 > size then s
    else c.prof.foldl (fun s e =>
      let a := base + 1024 * n + 4 * e.1
      s.debugWrite a (leBytes 4 (min (s.lpddr.nat a 4 + e.2) 0xFFFFFFFF))) s

/-- What the debug facilities of every context and launch write at the end of a cycle. -/
def State.flushDebug (s : State) : State :=
  let s := s.tiles.foldl (fun s e => allK.foldl (fun s k => s.flushTrace e.1 k) s) s
  s.ctd.launches.foldl (fun s l => s.flushSync l) s

end Sys2Proof.Machine
end

