-- ==== Sys2Proof/Machine/Walk.lean ====
section
/-! DEFINITION. The image, the region list and the page-table walk (R93-R95, R112, R113, R115-R121, R135, R137, R216, R383). -/

namespace Sys2Proof.Machine

/-! ### The image (R93-R95) -/

/-- Section types with a LOAD. -/
def loaded (t : Nat) : Bool := t = 1 || t = 2 || t = 3

/-- The section entries in use: type, offset, size, load. -/
def sections (bs : List Byte) : List (Nat × Nat × Nat × Nat) :=
  (List.range (min (le bs 0x12 2) 12)).map fun i =>
    (le bs (0x40 + 16 * i) 2, le bs (0x44 + 16 * i) 4, le bs (0x48 + 16 * i) 4, le bs (0x4C + 16 * i) 4)

/-- No two of the ranges share a byte. -/
def disjoint : List (Nat × Nat) → Bool
  | [] => true
  | (a, n) :: r => r.all (fun x => a + n ≤ x.1 || x.1 + x.2 ≤ a || n = 0 || x.2 = 0) && disjoint r

/-- A section entry obeys Table 4.12. -/
def sectionOk (imgsize : Nat) (x : Nat × Nat × Nat × Nat) : Bool :=
  let (t, off, size, load) := x
  off % 64 = 0 && 0x100 ≤ off && off + size ≤ imgsize &&
    match t with
    | 1 => size % 64 = 0 && load = 0
    | 2 => load % 64 = 0
    | 3 => size % 128 = 0 && load % 128 = 0
    | 4 => size % 64 = 0 && load = 0
    | 5 => size % 8 = 0 && load = 0
    | _ => false

/-- A view descriptor of the header: nothing reserved is set, and one with VAL set is valid with RPOS in its range. -/
def headerView (w : Word) : Bool :=
  w.toNat < 2 ^ 35 && (!vwVal w || (vwValid w && vwRpos w < vwSize w))

/-- The smallest multiple of 64 KiB that holds every section (R137). -/
def footprint (ss : List (Nat × Nat × Nat × Nat)) : Nat :=
  let top := (ss.filter fun x => loaded x.1).foldl (fun m x => max m (x.2.2.2 + x.2.2.1)) 0
  (top + 0xFFFF) / 0x10000 * 0x10000

/-- The header's fields. -/
def headerOf (bs : List Byte) : Header0 :=
  { timed := le bs 6 1 = 1, checked := le bs 7 1 = 1, spacing := le bs 8 2, reserve := BitVec.ofNat 8 (le bs 0x0A 1)
    counters := le bs 0x0B 1, qrows := le bs 0x0C 1, stages := le bs 0x0D 1, flen := le bs 0x0E 1, fcount := le bs 0x10 2
    entry := le bs 0x14 4, imgsize := le bs 0x18 4
    views := (List.range 4).map fun n => BitVec.ofNat 64 (le bs (0x20 + 8 * n) 8)
    sect := sections bs }

/-- The fields of the header are in their ranges, and what is reserved is zero. -/
def headerOk (bs : List Byte) : Bool :=
  let h := headerOf bs
  le bs 0 4 = 0x00494B48 && le bs 4 2 = 1 && le bs 6 1 ≤ 1 && le bs 7 1 ≤ 1 && 1 ≤ h.spacing && h.spacing ≤ 256 &&
    (h.timed || h.reserve = 0) && 1 ≤ h.counters && h.counters ≤ 64 && h.qrows ≤ 32 && 1 ≤ h.stages && h.stages ≤ 16 &&
    1 ≤ h.flen && h.flen ≤ 16 && le bs 0x0F 1 = 0 && 1 ≤ h.fcount && h.fcount ≤ 2048 && h.flen * h.fcount ≤ 2048 &&
    2 ≤ le bs 0x12 2 && le bs 0x12 2 ≤ 12 && h.entry % 64 = 0 && h.imgsize % 64 = 0 && 0x100 ≤ h.imgsize &&
    h.stages ≤ h.fcount && (!h.checked || h.flen = 1) && h.views.all headerView &&
    zeros bs (0x40 + 16 * le bs 0x12 2) (16 * (12 - le bs 0x12 2)) &&
    (List.range (le bs 0x12 2)).all fun i => zeros bs (0x42 + 16 * i) 2

/-- The sections obey R94 and R137, and ENTRY lies in the code section. -/
def sectionsOk (h : Header0) : Bool :=
  let ss := h.sect
  let n (t : Nat) : Nat := (ss.filter fun x => x.1 = t).length
  ss.all (sectionOk h.imgsize) && n 1 = 1 && n 2 ≤ 8 && n 3 ≤ 1 && n 4 = 1 && n 5 ≤ 1 &&
    disjoint (ss.map fun x => (x.2.1, x.2.2.1)) &&
    disjoint ((ss.filter fun x => loaded x.1).map fun x => (x.2.2.2, x.2.2.1)) &&
    footprint ss ≤ 0x2C0000 && ss.any fun x => x.1 = 1 && h.entry < x.2.2.1

/-- The bytes of the section of a type. -/
def sectionBytes (bs : List Byte) (h : Header0) (t : Nat) : List Byte :=
  match h.sect.find? fun x => x.1 = t with
  | some x => (bs.drop x.2.1).take x.2.2.1
  | none => []

/-- The words of the copy timetable (R216). -/
def timetableOf (bs : List Byte) (h : Header0) : List Word :=
  let b := sectionBytes bs h 5
  (List.range (b.length / 8)).map fun i => BitVec.ofNat 64 (le b (8 * i) 8)

/-- An entry of the timetable: the XE opcode of a command that takes a template, with no predicate and no override. -/
def timetableOk (w : Word) : Bool :=
  let o := (w >>> 56).toNat
  ((1 ≤ o && o ≤ 6) || o = 8 || o = 9 || o = 0xA || o = 0xB || o = 0x1A || o = 0x1C) &&
    (w >>> 48).setWidth 8 = (0 : BitVec 8) && (w >>> 7).setWidth 24 = (0 : BitVec 24)

/-! ### The region list (R115-R118) -/

/-- An entry of the region list (Table 6.5). -/
structure REntry where
  num : Nat
  cls : Nat
  rights : Nat
  eflags : Nat
  rowb : Nat
  nrow : Nat
  stride : Nat
  off : Nat
  target : Nat
  rest : Bool
  deriving DecidableEq, Repr

def rentryOf (b : List Byte) : REntry :=
  { num := le b 0 1, cls := le b 1 1, rights := le b 2 1, eflags := le b 3 1, rowb := le b 4 4, nrow := le b 8 4
    stride := le b 0x0C 4, off := le b 0x10 8, target := le b 0x18 8, rest := zeros b 0x20 32 }

/-- The entries of the region-list section. -/
def rentries (bs : List Byte) (h : Header0) : List REntry :=
  let b := sectionBytes bs h 4
  (List.range (b.length / 64 - 1)).map fun i => rentryOf ((b.drop (64 * (i + 1))).take 64)

def REntry.span (e : REntry) : Nat := (e.nrow - 1) * e.stride + e.rowb

/-- The target is the launch of another record. -/
def REntry.xl (e : REntry) : Bool := e.target / 2 ^ 57 % 2 = 1
def REntry.fx (e : REntry) : Nat := e.target / 2 ^ 11 % 16
def REntry.fy (e : REntry) : Nat := e.target % 2 ^ 11
def REntry.launch (e : REntry) : Nat × Nat := (e.target / 2 ^ 48 % 256, e.target / 2 ^ 16 % 2 ^ 32)

/-- The checks that depend on the image alone. -/
def REntry.ok (e : REntry) (h : Header0) : Bool :=
  let t := e.target
  let targetOk : Bool := match e.cls with
    | 1 | 2 | 3 | 6 => t = 0
    | 4 | 5 => t / 2 ^ 58 = 0 && t / 2 ^ 56 % 2 = 0 && t / 2 ^ 15 % 2 = 0 &&
        (e.xl || (t / 2 ^ 16 % 2 ^ 40 = 0 && e.fx < h.flen && e.fy < h.fcount))
    | 7 => t / 2 ^ 50 = 0 && t % 2 ^ 32 = 0
    | _ => false
  let shape : Bool := if e.cls = 5 then e.off = 0 && e.rowb = 0 && e.nrow = 0 && e.stride = 0
    else 1 ≤ e.rowb && 1 ≤ e.nrow && (e.nrow = 1 || e.rowb ≤ e.stride)
  let extra : Bool := match e.cls with
    | 4 => e.off + e.span ≤ 0x2C0000
    | 6 => e.off % 128 = 0 && e.rowb % 128 = 0 && e.stride % 128 = 0
    | 7 => e.off % 2 ^ 21 = 0
    | _ => true
  e.num < 48 && e.rights < 32 && e.eflags < 16 && e.rest && targetOk && shape && extra

/-- NUM rises strictly. -/
def rising : List REntry → Bool
  | a :: b :: r => a.num < b.num && rising (b :: r)
  | _ => true

/-- The region-list header matches the image (Table 6.4). -/
def regionListOk (bs : List Byte) (h : Header0) : Bool :=
  let b := sectionBytes bs h 4
  64 ≤ b.length && le b 0 2 = 0x4752 && le b 2 2 ≤ 48 && b.length = 64 * (le b 2 2 + 1) && le b 4 4 = h.entry &&
    le b 8 1 = h.counters && le b 9 1 = h.qrows && zeros b 0x0A 2 &&
    le b 0x0C 4 = (crc32c ((bs.drop 0x20).take 32)).toNat && zeros b 0x10 48 &&
    (rentries bs h).all (fun e => e.ok h) && rising (rentries bs h)

/-- The whole check of R95. -/
def imageOk (bs : List Byte) : Bool :=
  let h := headerOf bs
  headerOk bs && bs.length = h.imgsize && le bs 0x1C 4 = (crc32c (bs.drop 0x100)).toNat && sectionsOk h &&
    regionListOk bs h && (timetableOf bs h).all timetableOk

/-! ### The page table (R120, R121) -/

/-- What reading one page-table entry gives. -/
inductive PteRes where
  | hold
  | fault
  /-- the entry's block holds an uncorrectable error -/
  | bad (p : Place)
  | node (loc addr : Nat)
  /-- location, frame number and the entry's rights bits -/
  | leaf (loc frame : Nat) (r w a : Bool)
  deriving DecidableEq, Repr

/-- The index of a level, 1 to 3. -/
def levelIndex (level va : Nat) : Nat := va / 2 ^ (48 - 9 * level) % 512

/-- The range lies beyond the end of its memory (R422). -/
def beyond (loc a n : Nat) : Bool :=
  match spaceOf loc with
  | some sp => decide (spaceSize sp < a + n)
  | none => true

/-- Read the entry of a node for an address. R121 holds the walk at an entry with NRES or MIG set, R422 and R120 give PTFAULT for
one that names an address beyond its memory, for LOC 3 and for a leaf whose address is not 2 MiB aligned, and neither comes first there:
the model holds (DESIGN CHOICE, log entry 94), after the checks of log entry 55. -/
def State.readPte (s : State) (level loc node va : Nat) : PteRes :=
  if beyond loc node 4096 then .fault
  else
    let w := s.pte loc (node + 8 * levelIndex level va)
    match s.badAt loc (node + 8 * levelIndex level va) 8 with
    | some p => .bad p
    | none =>
    if !w.getLsbD 0 || (w >>> 53).setWidth 9 ≠ (0 : BitVec 9) || (w >>> 6).setWidth 6 ≠ (0 : BitVec 6) then .fault
    else if w.getLsbD 63 || w.getLsbD 62 then .hold
    else if pteLoc w = 3 then .fault
    else if level < 3 then (if beyond (pteLoc w) (pteAddr w) 4096 then .fault else .node (pteLoc w) (pteAddr w))
    else if pteAddr w % 2 ^ 21 ≠ 0 || beyond (pteLoc w) (pteAddr w) (2 ^ 21) then .fault
    else .leaf (pteLoc w) (pteAddr w / 2 ^ 21) (w.getLsbD 1) (w.getLsbD 2) (w.getLsbD 3)

/-! ### The walk (R112, R120) -/

/-- Where one step of the walk leaves a launch. -/
inductive Walked where
  | more (l : Launch)
  | hold (l : Launch)
  /-- the status, and the place of the bad block that was met -/
  | fail (l : Launch) (status : BitVec 16) (bad : Option Place := none)
  | done (l : Launch)
  deriving DecidableEq, Repr

/-- The virtual address of the image. -/
def Launch.imageVa (l : Launch) : Nat := le l.bytes 0x10 8

/-- The node to read next: the one reached, or the root. -/
def State.walkNode (s : State) (l : Launch) : Nat × Nat × Nat :=
  l.wnode.getD (1, (s.lq l.id.q).loc, (s.lq l.id.q).root)

/-- One entry of the walk of the image. An address of the image at or beyond 2^48 is PTFAULT (DESIGN CHOICE, log entry 98); an
uncorrectable error in an entry is PTFAULT, and one in the image BADIMAGE (DESIGN CHOICE, log entry 119). -/
def State.walkImage (s : State) (l : Launch) : Walked :=
  let have_ := l.image.length
  let need := if have_ < 256 then 256 else le l.image 0x18 4
  if need ≤ have_ then
    let h := headerOf l.image
    if imageOk l.image then .more { l with imgDone := true, hdr := h, timetable := timetableOf l.image h } else .fail l stBADIMAGE
  else
    let va := l.imageVa + have_
    if va ≥ 2 ^ 48 then .fail l stPTFAULT
    else
      let (level, loc, node) := s.walkNode l
      match s.readPte level loc node va with
      | .hold => .hold { l with wnode := some (level, loc, node) }
      | .fault => .fail l stPTFAULT
      | .bad p => .fail l stPTFAULT (some p)
      | .node loc addr => .more { l with wnode := some (level + 1, loc, addr) }
      | .leaf loc f r _ _ =>
        match spaceOf loc with
        | none => .fail l stPTFAULT
        | some sp =>
          if !r then .fail l stPTFAULT
          else
            let n := min (need - have_) (2 ^ 21 - va % 2 ^ 21)
            let page := va / 2 ^ 21 - l.imageVa / 2 ^ 21
            let a := f * 2 ^ 21 + va % 2 ^ 21
            match s.badOver (.mem sp a) n with
            | some p => .fail l stBADIMAGE (some p)
            | none =>
              .more { l with
                wnode := none
                image := l.image ++ (s.mem sp).read a n
                imgFrames := if l.imgFrames.length = page then l.imgFrames ++ [(loc, f)] else l.imgFrames }

/-- BASE[BSEL] + OFF. -/
def Launch.entryVa (l : Launch) (e : REntry) : Nat := le l.bytes (0x50 + 8 * (e.eflags / 2 % 8)) 8 + e.off

/-- The location that a class asks for. -/
def classLoc (e : REntry) (ps : List (Nat × Nat)) (loc : Nat) : Bool :=
  match e.cls with
  | 1 => loc = 0
  | 2 => loc = 1
  | 3 => loc = 2
  | _ => (loc = 0 || loc = 1) && (match ps with | [] => true | p :: _ => p.1 = loc)

/-- Extents of frames in order (R120). -/
def extents : List Nat → List (Nat × Nat)
  | [] => []
  | f :: fs =>
    match extents fs with
    | (g, n) :: r => if g = f + 1 then (f, n + 1) :: r else (f, 1) :: (g, n) :: r
    | [] => [(f, 1)]

/-- The record of an entry (R118); the targets of classes 4 and 5 are resolved at placement. -/
def REntry.region (e : REntry) (ps : List (Nat × Nat)) : Region :=
  { cls := BitVec.ofNat 8 e.cls, rights := BitVec.ofNat 8 e.rights, valid := e.eflags % 2 = 1, locked := true
    qloc := e.cls = 6 && (match ps with | p :: _ => p.1 = 1 | [] => false)
    rowb := BitVec.ofNat 32 e.rowb, nrow := BitVec.ofNat 32 e.nrow, stride := BitVec.ofNat 32 e.stride
    ext := extents (ps.map (·.2))
    port := if e.cls = 7 then e.target / 2 ^ 48 % 4 else 0
    window := if e.cls = 7 then e.target / 2 ^ 32 % 2 ^ 16 else 0
    off := e.off }

/-- The launch a cross-launch record names: of the same tenant, running or parked, and with the coordinate in its field. -/
def State.targetOk (s : State) (l : Launch) (e : REntry) : Bool :=
  let (q, i) := e.launch
  q < 64 && match findLaunch s.ctd.launches ⟨BitVec.ofNat 6 q, BitVec.ofNat 32 i⟩ with
    | some x => x.tenant = l.tenant && (x.phase = .loading || x.phase = .parked || x.phase = .running) &&
        e.fx < x.hdr.flen && e.fy < x.hdr.fcount
    | none => false

/-- The checks of an entry at step 4, before its pages. A span that begins below 2^48 and runs past it is PTFAULT, and BASE + OFF is
summed without a wrap at 2^64 (DESIGN CHOICE, log entry 96). No event of the model opens a peer window, so that from reset an entry of
class 7 is PTFAULT (DESIGN CHOICE, log entry 130). -/
def State.entryStatus (s : State) (l : Launch) (e : REntry) : Option (BitVec 16) :=
  let memory := e.cls ≤ 3 || e.cls = 6
  if e.cls ≠ 5 && e.span > 64 * 2 ^ 30 then some stEXTENTS
  else if memory && (l.entryVa e % 2 ^ 21 ≠ 0 || l.entryVa e + e.span > 2 ^ 48) then some stPTFAULT
  else if (e.cls = 4 || e.cls = 5) && e.xl && !s.targetOk l e then some stNOTARGET
  else if e.cls = 7 && !s.ctd.windows.contains (e.target / 2 ^ 48 % 4, e.target / 2 ^ 32 % 2 ^ 16) then some stPTFAULT
  else none

/-- One entry of the walk of the region list. The extents are counted after all of its pages, so that a page that faults comes before
an excess of extents (DESIGN CHOICE, log entry 99). -/
def State.walkRegion (s : State) (l : Launch) : Walked :=
  match (rentries l.image l.hdr)[l.wentry]? with
  | none => .done l
  | some e =>
    match (if l.wpages.isEmpty && l.wnode.isNone then s.entryStatus l e else none) with
    | some st => .fail l st
    | none =>
      let memory := e.cls ≤ 3 || e.cls = 6
      let pages := if memory then (e.span + 2 ^ 21 - 1) / 2 ^ 21 else 0
      if l.wpages.length ≥ pages then
        let r := e.region l.wpages
        if r.ext.length > 8 then .fail l stEXTENTS
        else .more { l with regions := l.regions.put e.num r, frames := (l.frames ++ l.wpages).eraseDups, wentry := l.wentry + 1
                            wpages := [], wnode := none }
      else
        let va := l.entryVa e + l.wpages.length * 2 ^ 21
        let (level, loc, node) := s.walkNode l
        match s.readPte level loc node va with
        | .hold => .hold { l with wnode := some (level, loc, node) }
        | .fault => .fail l stPTFAULT
        | .bad p => .fail l stPTFAULT (some p)
        | .node loc addr => .more { l with wnode := some (level + 1, loc, addr) }
        | .leaf loc f r w a =>
          let lacks := (e.rights % 2 = 1 && !r) || ((e.rights / 2 % 2 = 1 || e.rights / 16 % 2 = 1) && !w) ||
            ((e.rights / 4 % 2 = 1 || e.rights / 8 % 2 = 1) && !a)
          if lacks || !classLoc e l.wpages loc then .fail l stPTFAULT
          else .more { l with wnode := none, wpages := l.wpages ++ [(loc, f)] }

/-- Walk until the list ends, a hold or a failure. -/
def State.walkOn (s : State) : Nat → Launch → Walked
  | 0, l => .hold l
  | n + 1, l =>
    match (if l.imgDone then s.walkRegion l else s.walkImage l) with
    | .more l => s.walkOn n l
    | r => r

/-- Entries that one walk can read at most: three for each page of an image of 4 GiB and of 48 entries of 64 GiB. -/
def walkFuel : Nat := 3 * 50 * 32768

/-- Continue the walk of a launch: to its end, to a hold, or to a rejection. -/
def State.walk (s : State) (l : Launch) : State :=
  match s.walkOn walkFuel l with
  | .fail l st bad => (s.retireMet bad).reject l st
  | .hold l =>
    let l' := { l with phase := .walk, holdAt := some (l.holdAt.getD s.now), reread := s.now + 30000 }
    s.updLaunch l.id fun _ => l'
  | .more l | .done l =>
    let (n, s) := s.choose
    let l' := { l with phase := .admitting, admitAt := s.now + n, holdAt := none
                       holdSum := l.holdSum + (match l.holdAt with | some h => s.now - h | none => 0) }
    s.updLaunch l.id fun _ => l'

/-! ### Dependences (R113) -/

/-- What one dependence of a launch comes to: satisfied, waiting, or a rejection. -/
inductive Dep where
  | met
  | wait
  | bad (status : BitVec 16)
  deriving DecidableEq, Repr

/-- One dependence (R113). The completions of a queue are forgotten as it is enabled again; from then on the name of an earlier record
stands for the new one, and an earlier launch that ends under it answers as that (DESIGN CHOICE, log entry 129). -/
def State.dep (s : State) (l : Launch) (n : Nat) : Dep :=
  let w := le l.bytes (0x28 + 8 * n) 8
  let d : LId := ⟨BitVec.ofNat 6 (w / 2 ^ 32), BitVec.ofNat 32 w⟩
  let x := s.lq d.q
  let behind := (x.count - d.i).toNat
  match s.ctd.doneRecs.find? fun r => r.1 = d with
  | some r => if r.2 = stOK then .met else .bad stDEPFAIL
  | none =>
    if d.q = l.id.q && (d.i - l.id.i).toNat < 2 ^ 31 then .bad stDEPBAD
    else if behind > x.size && behind < 2 ^ 31 then .bad stDEPBAD
    else .wait

/-- All dependences together: the first that is bad, else a wait, else met. -/
def State.deps (s : State) (l : Launch) : Dep :=
  let ds := (List.range (le l.bytes 4 1)).map (s.dep l)
  match ds.find? fun d => match d with | .bad _ => true | _ => false with
  | some d => d
  | none => if ds.contains .wait then .wait else .met

/-- The dependences have been decided: the launch is rejected, or its image and regions are walked. -/
def execLaunchWalk (q : BitVec 6) (i : BitVec 32) (s : State) : Host.Outcome State Fault Refusal :=
  match findLaunch s.ctd.launches ⟨q, i⟩ with
  | none => .refused (.notEnabled "LAUNCH_WALK")
  | some l =>
    if l.phase = .walk && l.holdAt.isNone then .next (s.walk l)
    else if l.phase ≠ .deps then .refused (.notEnabled "LAUNCH_WALK")
    else
      match s.deps l with
      | .wait => .refused (.notEnabled "LAUNCH_WALK")
      | .bad st => .next (s.reject l st)
      | .met => .next (s.walk l)

/-- The holding entry is read again (R121). -/
def execWalkReread (q : BitVec 6) (i : BitVec 32) (s : State) : Host.Outcome State Fault Refusal :=
  match findLaunch s.ctd.launches ⟨q, i⟩ with
  | none => .refused (.notEnabled "WALK_REREAD")
  | some l =>
    if l.phase = .walk && l.holdAt.isSome && l.reread ≤ s.now then .next (s.walk l) else .refused (.notEnabled "WALK_REREAD")

/-- Cycles a launch's walk has been held. -/
def Launch.heldFor (l : Launch) (now : Nat) : Nat := l.holdSum + (match l.holdAt with | some h => now - h | none => 0)

/-- The deadline of 10 ms. -/
def execPttime (q : BitVec 6) (i : BitVec 32) (s : State) : Host.Outcome State Fault Refusal :=
  match findLaunch s.ctd.launches ⟨q, i⟩ with
  | none => .refused (.notEnabled "PTTIME")
  | some l =>
    if l.phase = .walk && l.holdAt.isSome && 6000000 ≤ l.heldFor s.now then .next (s.reject l stPTTIME)
    else .refused (.notEnabled "PTTIME")

/-- A write to WKICK: every held walk reads its entry again, that of a context that resumes in this cycle's image operation (R121). -/
def execWkick (s : State) : Host.Outcome State Fault Refusal :=
  if !s.ctd.ready.pf then .refused (.notEnabled "WKICK")
  else
    let now := s.now
    let s : State := { s with tiles := s.tiles.map fun (e : Nat × Tile) => (e.1, { e.2 with ctx := e.2.ctx.map fun (y : Nat × Ctx) =>
      (y.1, if y.2.imgOp && y.2.imgHold.isSome then { y.2 with imgAt := now } else y.2) }) }
    .next ((s.ctd.launches.filter fun l => l.phase = .walk && l.holdAt.isSome).foldl (fun s l => s.walk l) s)

end Sys2Proof.Machine
end

