-- ==== Sys2Proof/Machine/Placing.lean ====
section
/-! DEFINITION. Placement: eligibility, the scan, admission, the loading of tiles, the start, and sidings (R26, R35, R112, R114,
R119, R123, R130-R144, R195, R383, R397). -/

namespace Sys2Proof.Machine

/-! ### The occupancy map (R131, R132, R137, R144) -/

/-- A context that the occupancy map counts on a tile. -/
structure Occupant where
  k : BitVec 2
  excl : Bool
  checked : Bool
  base : Nat
  len : Nat
  cnts : List Nat
  deriving DecidableEq, Repr

def Header0.exclusive (h : Header0) : Bool := h.timed || h.flen ≥ 2

/-- A launch holds the tiles of a die from its broadcast until the die's report. -/
def Launch.placedOn (l : Launch) (die : Nat) : Bool := !l.holds && !l.reported.contains die

/-- The physical counters that writes of CMAP still in flight will name (R351): no other context is given one (R138). -/
def Ctx.remaps (c : Ctx) : List Nat := c.inflight.filterMap fun x => match x.w with | .cmap _ phys => some phys | _ => none

/-- What the map holds on a tile: contexts placed there, and contexts restored there. -/
def State.occupants (s : State) (t : Nat) : List Occupant :=
  (s.ctd.launches.flatMap fun l =>
    if !l.placedOn (dieOf t) then []
    else l.furrows.filterMap fun f =>
      if f.head ≤ t then (f.mem[t - f.head]?).map fun m =>
        -- once loaded, its context tells which counters it maps
        ⟨m.k, l.hdr.exclusive, l.hdr.checked, m.base, footprint l.hdr.sect, if l.toPlace.contains (dieOf t) then m.phys else []⟩
      else none) ++
    allK.filterMap fun k =>
      let c := s.ctx t k
      if c.life = .free then none else some ⟨k, c.exclusive, c.checked, c.wbase, c.foot, c.cmap.filterMap (·.2) ++ c.remaps⟩

/-- The lowest 64 KiB-aligned range of `n` free bytes; `fuel` ranges are left to try. -/
def lowestWindow (os : List Occupant) (n : Nat) : Nat → Nat → Option Nat
  | 0, _ => none
  | fuel + 1, base =>
    if base + n > 0x2C0000 then none
    else if os.all fun o => base + n ≤ o.base || o.base + o.len ≤ base then some base
    else lowestWindow os n fuel (base + 0x10000)

def windowFor (os : List Occupant) (n : Nat) : Option Nat := lowestWindow os n 44 0

/-- The lowest context number that no occupant has. -/
def freeContext (os : List Occupant) : Option (BitVec 2) := allK.find? fun k => !os.any fun o => o.k = k

/-! ### Eligibility and the scan -/

/-- The readiness bit of a tile. -/
def Ready.tileBit (r : Ready) (t : Nat) : Bool := (SMap.get 0 r.tile (t / 64)).getLsbD (t % 64)

def Launch.dieMask (l : Launch) : BitVec 8 := BitVec.ofNat 8 (le l.bytes 6 1)

/-- R132, and its changes for a checked launch (R383). -/
def State.eligible (s : State) (l : Launch) (t : Nat) : Bool :=
  let os := s.occupants t
  s.ctd.ready.tileBit t && l.dieMask.getLsbD (dieOf t) && (freeContext os).isSome &&
    !(l.hdr.exclusive && os.any (·.excl)) && !(l.hdr.checked && !os.isEmpty) && !os.any (·.checked) &&
    (windowFor os (footprint l.hdr.sect)).isSome

/-- One die row of the scan: headland tiles assigned from `lx` onward; `step` is the stride past a place that does not serve. -/
def scanRow (elig : Nat → Bool) (row span step : Nat) : Nat → Nat → Nat → List Nat
  | 0, _, _ => []
  | fuel + 1, lx, left =>
    if lx + span > 16 || left = 0 then []
    else if (List.range span).all fun k => elig (row + lx + k) then (row + lx) :: scanRow elig row span step fuel (lx + span) (left - 1)
    else scanRow elig row span step fuel (lx + step) left

/-- The first tile of each die row, in the order of the scan. -/
def scanRows : List Nat :=
  (List.range 8).flatMap fun n => (List.range 16).map fun ly => 64 * (16 * (n / 4) + ly) + 16 * (n % 4)

/-- place (R133): the headland tiles in furrow order, none when the launch does not fit. A checked launch places pairs at even
lx. -/
def scan (elig : Nat → Bool) (span step fcount : Nat) : Option (List Nat) :=
  let hs := scanRows.foldl (fun acc row => acc ++ scanRow elig row span step 16 0 (fcount - acc.length)) []
  if hs.length = fcount then some hs else none

/-- Tiles that run one furrow's stream. -/
def Header0.span (h : Header0) : Nat := if h.checked then 2 else h.flen

def Launch.scan (l : Launch) (elig : Nat → Bool) : Option (List Nat) :=
  Machine.scan elig l.hdr.span (if l.hdr.checked then 2 else 1) l.hdr.fcount

/-- A tile of the die mask that no lasting fault has retired. -/
def State.usable (s : State) (l : Launch) (t : Nat) : Bool :=
  l.dieMask.getLsbD (dieOf t) && !s.ctd.retired.contains (.tile t)

/-! ### Admission (R112 step 5) -/

/-- The functions that hold a launch's frames. -/
def frameFunc (f : Nat × Nat) : Option Func :=
  match f.1 with
  | 0 => some (.hbm (f.2 * 2 ^ 21 / (36 * 2 ^ 30)))
  | 1 => some (.lpddr (f.2 * 2 ^ 21 / (256 * 2 ^ 30)))
  | _ => none

def Ready.bit (r : Ready) : Func → Bool
  | .tile t => r.tileBit t
  | .hbm n => r.hbm.getLsbD n
  | .lpddr n => r.lpd.getLsbD n
  | .die n => r.die.getLsbD n
  | .boundary n => r.bnd.getLsbD n
  | .dv n => r.dv.getLsbD n
  | .mgmt n => r.mgmt.getLsbD n
  | .pf => r.pf

/-- The functions that hold the frames of a launch and its image, and the ports of its peer records. -/
def Launch.functions (l : Launch) : List Func :=
  ((l.frames ++ l.imgFrames).filterMap frameFunc ++
    l.regions.filterMap fun (e : Nat × Region) => if e.2.cls = 7 then some (Func.dv e.2.port) else none).eraseDups

/-- The dies each boundary joins, from bit 0 upward; 8 is the CTD (Table 2.2). -/
def boundaries : List (Nat × Nat) :=
  [(8, 0), (8, 4), (0, 1), (1, 2), (2, 3), (4, 5), (5, 6), (6, 7), (0, 4), (1, 5), (2, 6), (3, 7)]

/-- The boundaries that a route crosses. -/
def crossings : List Nat → List Func
  | a :: b :: r => (match boundaries.idxOf? (a, b), boundaries.idxOf? (b, a) with
      | some n, _ | none, some n => [.boundary n]
      | none, none => []) ++ crossings (b :: r)
  | _ => []

/-- The tiles of other launches that its records name. -/
def State.crossTiles (s : State) (l : Launch) : List Nat :=
  (rentries l.image l.hdr).filterMap fun e =>
    if (e.cls = 4 || e.cls = 5) && e.xl then
      (findLaunch s.ctd.launches ⟨BitVec.ofNat 6 e.launch.1, BitVec.ofNat 32 e.launch.2⟩).bind fun x =>
        (x.furrows.find? fun f => f.fy = e.fy).map fun f => f.head + e.fx
    else none

/-- The boundaries that a launch placed at these headlands needs: those on the routes between its dies, from the CTD to them, and from
them to what its records name (DEDUCED, log entry 92). -/
def State.needsBoundaries (s : State) (l : Launch) (hs : List Nat) : List Func :=
  let dies := (hs.map dieOf).eraseDups
  let ends := (8 :: dies ++ (s.crossTiles l).map dieOf ++
    l.regions.flatMap fun e => if e.2.cls = 4 || e.2.cls = 5 then [] else e.2.dies).eraseDups
  (dies.flatMap fun a => ends.flatMap fun b => crossings (route s.ctd.detours a b) ++ crossings (route s.ctd.detours b a)).eraseDups

/-- The translation budget in frames (R119). -/
def budget : Nat := 2 ^ 21

/-- More distinct frames than the budget. -/
def overFrames (fs : List (Nat × Nat)) : Bool := budget < fs.length && budget < fs.eraseDups.length

/-- The frames that a launch and its image take. -/
def Launch.taken (l : Launch) : List (Nat × Nat) := l.frames ++ l.imgFrames

/-- The frames that a launch has locked. -/
def Launch.lockedFrames (l : Launch) : List (Nat × Nat) := l.lockSets.flatMap (·.2) ++ (if l.imgLocked then l.imgFrames else [])

/-- The die would go over budget with the launch placed on it. -/
def State.overBudget (s : State) (l : Launch) (die : Nat) : Bool :=
  overFrames (((s.ctd.launches.filter fun x => x.id ≠ l.id && x.placedOn die && x.furrowDies.contains die).flatMap
    Launch.lockedFrames) ++ l.taken)

/-- What step 5 decides. -/
inductive Admit where
  | wait
  | bad (status : BitVec 16)
  | go (heads : List Nat)
  deriving DecidableEq, Repr

/-- A launch that exceeds the translation budget by itself ends with BUDGET, also where no tiles could ever take it (DESIGN CHOICE, log
entry 131). -/
def State.admission (s : State) (l : Launch) : Admit :=
  if overFrames l.taken then .bad stBUDGET
  else if l.functions.any fun f => s.ctd.retired.contains f then .bad stNOPLACE
  else if l.functions.any fun f => !s.ctd.ready.bit f then .wait
  else
    match l.scan (s.eligible l) with
    | none => if (l.scan (s.usable l)).isNone then .bad stNOPLACE else .wait
    | some hs =>
      let dies := (hs.map dieOf).eraseDups
      let links := s.needsBoundaries l hs
      if links.any fun f => s.ctd.retired.contains f then .bad stNOPLACE
      else if links.any (fun f => !s.ctd.ready.bit f) || dies.any fun d => !s.ctd.ready.die.getLsbD d || s.overBudget l d then .wait
      else .go hs

/-- A furrow at a headland tile. -/
def State.furrowAt (s : State) (l : Launch) (fy head : Nat) : Furrow :=
  { fy, head
    mem := (List.range l.hdr.span).map fun i =>
      let os := s.occupants (head + i)
      let taken := os.flatMap (·.cnts)
      { k := (freeContext os).getD 0, base := (windowFor os (footprint l.hdr.sect)).getD 0
        phys := ((List.range 256).filter fun n => !taken.contains n).take l.hdr.counters } }

/-- Resolve a tile or sync record at placement: its tile, context and window (R117, R137). -/
def State.resolveTarget (s : State) (l : Launch) (e : REntry) (r : Region) : Region :=
  if e.cls ≠ 4 && e.cls ≠ 5 then r
  else
    let target : Option Launch := if e.xl then findLaunch s.ctd.launches ⟨BitVec.ofNat 6 e.launch.1, BitVec.ofNat 32 e.launch.2⟩
      else some l
    match target with
    | none => r
    | some x =>
      match x.furrows.find? fun f => f.fy = e.fy with
      | none => { r with owner := some x.id, gen := x.accSeq }
      | some f =>
        let m := f.mem.getD e.fx {}
        -- the span lies within the user scratchpad, window base included, or the record is invalid (DESIGN CHOICE, log entry 91)
        { r with tile := f.head + e.fx, k := m.k, owner := some x.id, gen := x.accSeq, off := if e.cls = 4 then m.base + e.off else 0
                 valid := r.valid && (e.cls = 5 || m.base + e.off + e.span ≤ 0x2C0000) }

/-- The dies a launch uses: of its contexts, its frames and the tiles of its records (R386). -/
def Launch.uses (l : Launch) : List Nat :=
  (l.furrowDies ++ (l.frames.filterMap fun f => match frameFunc f with | some (.hbm n) => some (n / 2) | _ => none) ++
    l.regions.filterMap fun e => if e.2.cls = 4 || e.2.cls = 5 then some (dieOf e.2.tile) else none).eraseDups

/-- One record of the synchronisation log. -/
def syncRecOf (b : List Byte) : SyncRec :=
  { zc := le b 8 8, value := BitVec.ofNat 64 (le b 0x10 8), kind := le b 0x18 1, obj := le b 0x19 1
    tile := le b 0x1A 2 / 32 % 64 + 64 * (le b 0x1A 2 % 32), ctl := le b 0x1A 2 / 2048, k := le b 0x1C 1 }

/-- The log read back for a replay (R395): records while their SEQ counts on. One that an uncorrectable error keeps from being read
ends it, and its place comes with it (DESIGN CHOICE, log entry 119). -/
def State.readLog (s : State) (base : Nat) : Nat → Nat → List (Nat × SyncRec) × Option Place
  | 0, _ => ([], none)
  | fuel + 1, n =>
    let b := s.lpddr.read (base + 32 * n) 32
    let r := syncRecOf b
    match s.badOver (.mem .lpddr (base + 32 * n)) 32 with
    | some p => ([], some p)
    | none =>
      if le b 0 8 = n && 1 ≤ r.kind && r.kind ≤ 5 then let (rs, bad) := s.readLog base fuel (n + 1); ((n, r) :: rs, bad) else ([], none)

/-- Steps 6 to 8 of R112, and the placement: the launch is journalled, its frames are locked, and its packet is broadcast. -/
def State.place (s : State) (l : Launch) (hs : List Nat) : State :=
  let fs : List Furrow := (hs.zip (List.range hs.length)).map fun x => s.furrowAt l x.2 x.1
  let (log, bad) := if l.sync = 2 then s.readLog (l.dbg.slbase.toNat / 4096 * 4096) (128 * 2 ^ l.dbg.dbgSize 0) 0 else ([], none)
  let s := s.retireMet bad
  let l : Launch := { l with furrows := fs, accSeq := s.ctd.jseq }
  let rs : SMap Region := (rentries l.image l.hdr).foldl
    (fun m e => SMap.put m e.num (s.resolveTarget l e (SMap.get {} m e.num))) l.regions
  let l : Launch := { l with regions := rs }
  let l : Launch := { l with
    phase := .loading, accepted := true, dies := l.uses, toPlace := l.furrowDies, toAck := l.furrowDies
    imgLocked := true
    force := if l.sync = 2 then some log else none }
  let s := s.journal { kind := 1, tenant := l.tenant, queue := l.id.q.toNat, index := l.id.i.toNat, tag := l.tag }
  let s := (s.lockFrames true l.imgFrames.eraseDups).updLaunch l.id fun _ => l
  l.furrows.foldl (fun s f => (List.range f.mem.length).foldl (fun s i => s.lockContext l.id i f.fy l.frames) s) s

/-- No launch that is also ready to broadcast comes first: higher PRIO, then the lower queue number (R110). -/
def State.firstReady (s : State) (l : Launch) : Bool :=
  s.ctd.launches.all fun x =>
    x.id = l.id || x.phase ≠ .admitting || s.now < x.admitAt || x.prio < l.prio || (x.prio = l.prio && l.id.q.toNat < x.id.q.toNat) ||
      s.admission x = .wait

def execLaunchAdmission (q : BitVec 6) (i : BitVec 32) (s : State) : Host.Outcome State Fault Refusal :=
  match findLaunch s.ctd.launches ⟨q, i⟩ with
  | none => .refused (.notEnabled "LAUNCH_ADMISSION")
  | some l =>
    if l.phase ≠ .admitting || s.now < l.admitAt || !s.firstReady l then .refused (.notEnabled "LAUNCH_ADMISSION")
    else
      match s.admission l with
      | .wait => .refused (.notEnabled "LAUNCH_ADMISSION")
      | .bad st => .next (s.reject l st)
      | .go hs => .next (s.place l hs)

/-! ### The dispatchers (R123, R136-R140) -/

/-- FIELD (Table 7.2). -/
def fieldWord (h : Header0) (fx fy t : Nat) (k : BitVec 2) : Word :=
  BitVec.ofNat 64 ((h.stages - 1) * 2 ^ 60 + (fy * h.stages / h.fcount) * 2 ^ 56 + (h.flen - 1) * 2 ^ 52 + fx * 2 ^ 48 +
    h.fcount * 2 ^ 32 + fy * 2 ^ 21 + (t % 64) * 2 ^ 15 + (t / 64) * 2 ^ 10 + k.toNat * 2 ^ 8)

/-- The bytes of the image at an offset, read from its locked frames. -/
def State.imageBytes (s : State) (l : Launch) : Nat → Nat → Nat → List Byte
  | 0, _, _ => []
  | fuel + 1, off, n =>
    if n = 0 then []
    else
      let va := l.imageVa + off
      let m := min n (2 ^ 21 - va % 2 ^ 21)
      match l.imgFrames[va / 2 ^ 21 - l.imageVa / 2 ^ 21]? with
      | none => []
      | some (loc, f) =>
        (match spaceOf loc with | some sp => (s.mem sp).read (f * 2 ^ 21 + va % 2 ^ 21) m | none => []) ++
          s.imageBytes l fuel (off + m) (n - m)

/-- The state a context starts with (R123). -/
def State.freshCtx (s : State) (l : Launch) (f : Furrow) (i : Nat) : Ctx :=
  let h := l.hdr
  let m := f.mem.getD i {}
  let arg (n : Nat) : Word := BitVec.ofNat 64 (le l.bytes (0x90 + 8 * n) 8)
  let d := l.dbg
  let r : Regs :=
    { s := (List.range 8).foldl (fun x n => SMap.set 0 x (24 + n) (arg n)) []
      key := BitVec.ofNat 64 (le l.bytes 0x18 8)
      step := BitVec.ofNat 64 (le l.bytes 0x20 4) }
  let core : Core :=
    { toRegs := r
      pc := BitVec.ofNat 16 (h.entry / 64)
      vw := (List.range 4).foldl (fun x n => SMap.set 0 x n (h.views.getD n 0)) []
      tvec := s.ctd.fwTvec &&& 0x3FFFC0
      shn := (if d.dbgctl.getLsbD 9 then 1#64 <<< 63 else 0) ||| ((d.dbgsz >>> 20).setWidth 20).setWidth 64 }
  { toCore := core
    launch := some l.id, life := .placed, timed := h.timed, checked := h.checked, flen := h.flen, span := h.span, pos := i
    head := f.head, headK := (f.mem.getD 0 {}).k, spacing := h.spacing, reserve := h.reserve, qrows := h.qrows
    counters := h.counters, prio := l.prio, foot := footprint h.sect, wbase := m.base
    field := fieldWord h (if h.checked then 0 else i) f.fy (f.head + i) m.k
    cmap := (List.range h.counters).map fun n => (n, m.phys[n]?)
    locked := l.regions
    timetable := l.timetable
    chk := if h.checked then some { shadow := some {
      toCore := core, cmap := (List.range h.counters).map fun n => (n, m.phys[n]?) } } else none }

/-- Load one tile of a furrow: its context, its counters, its window word and its sections (R138, R139, R195). -/
def State.loadTile (s : State) (l : Launch) (f : Furrow) (i : Nat) : State :=
  let t := f.head + i
  let m := f.mem.getD i {}
  let x := s.tile t
  let x := { ((x.dropHolder m.k).set m.k (s.freshCtx l f i)) with
    cnt := m.phys.foldl (fun z n => SMap.set 0 z n 0) x.cnt
    ecnt := x.ecnt.filter fun n => !m.phys.contains n }
  let s := s.setTile t x
  let s := s.writePlace (.scratch t (0x2C0000 + 16 * m.k.toNat)) (allOn (leBytes 8 m.base ++ leBytes 8 (footprint l.hdr.sect)))
  l.hdr.sect.foldl (fun s y =>
    let (ty, off, size, load) := y
    if !loaded ty then s
    else
      let bs := if ty = 1 && i ≠ 0 then leBytes size 0 else s.imageBytes l (size / 2 ^ 21 + 2) off size
      let p : Place := .scratch t (m.base + load)
      (s.writePlace p (allOn bs)).heal p (allOn bs)) s

/-- The first bad block under the sections that the loading of a launch reads. -/
def State.imageBad (s : State) (l : Launch) : Option Place :=
  (l.hdr.sect.filter fun y => loaded y.1).findSome? fun y =>
    let va := l.imageVa + y.2.1
    (List.range ((va + y.2.2.1 + 2 ^ 21 - 1) / 2 ^ 21 - va / 2 ^ 21)).findSome? fun i =>
      let lo := max va ((va / 2 ^ 21 + i) * 2 ^ 21)
      let hi := min (va + y.2.2.1) ((va / 2 ^ 21 + i + 1) * 2 ^ 21)
      (l.imgFrames[lo / 2 ^ 21 - l.imageVa / 2 ^ 21]?).bind fun f => s.badAt f.1 (f.2 * 2 ^ 21 + lo % 2 ^ 21) (hi - lo)

/-- No launch broadcast earlier still waits for the die (R110). -/
def State.packetFirst (s : State) (l : Launch) (die : Nat) : Bool :=
  s.ctd.launches.all fun x => x.id = l.id || !x.toPlace.contains die || l.accSeq < x.accSeq

/-- A die places and loads its furrows. An uncorrectable error in the image ends the launch with FAULT, cause XMEM, at the first of its
headlands there (DESIGN CHOICE, log entry 119). -/
def execLaunchPacketPlace (die : Nat) (q : BitVec 6) (i : BitVec 32) (s : State) : Host.Outcome State Fault Refusal :=
  match findLaunch s.ctd.launches ⟨q, i⟩ with
  | none => .refused (.notEnabled "LAUNCH_PACKET_PLACE")
  | some l =>
    if l.phase ≠ .loading || !l.toPlace.contains die || !s.packetFirst l die then .refused (.notEnabled "LAUNCH_PACKET_PLACE")
    else
      let fs := l.furrows.filter fun f => dieOf f.head = die
      match s.imageBad l with
      | some p => .next ((s.retireAt p).failLaunch l.id (cXMEM.setWidth 16) ((fs.map (·.head)).headD 0))
      | none =>
      let s := fs.foldl (fun s f =>
        (List.range f.mem.length).foldl (fun s i => s.loadTile l f i) s) s
      .next (s.updLaunch l.id fun l => { l with toPlace := l.toPlace.filter (· ≠ die) })

/-! ### The start (R114, R143) -/

/-- max Lat[8][n] + 16 over the dies that hold furrows. -/
def Launch.lead (l : Launch) : Nat := (l.furrowDies.map fun n => lat 8 n).foldl max 0 + 16

/-- The start cycle is sent, A being the present cycle. -/
def State.sendStart (s : State) (id : LId) : State :=
  let now := s.now
  s.updLaunch id fun l => { l with phase := .running, t0 := some (now + l.lead) }

/-- A load acknowledgement reaches the CTD; after the last one the launch starts, or parks in its siding. -/
def execLoadAck (die : Nat) (q : BitVec 6) (i : BitVec 32) (s : State) : Host.Outcome State Fault Refusal :=
  match findLaunch s.ctd.launches ⟨q, i⟩ with
  | none => .refused (.notEnabled "LOAD_ACK")
  | some l =>
    if l.phase ≠ .loading || l.toPlace.contains die || !l.toAck.contains die then .refused (.notEnabled "LOAD_ACK")
    else
      let rest := l.toAck.filter (· ≠ die)
      let now := s.now
      let s := s.updLaunch l.id fun l => { l with toAck := rest }
      if !rest.isEmpty then .next s
      else
        let s := s.lockFrames false l.imgFrames.eraseDups
        let s := s.updLaunch l.id fun l => { l with imgLocked := false, ackAt := now }
        match l.side with
        | none => .next (s.sendStart l.id)
        | some slot =>
          if s.ctd.latches.contains (l.tenant, slot) then
            .next (({ s with ctd := { s.ctd with latches := s.ctd.latches.filter (· ≠ (l.tenant, slot)) } } : State).sendStart l.id)
          else .next (s.updLaunch l.id fun l => { l with phase := .parked })

/-- The launch parked in a siding slot of a tenant. -/
def State.parked (s : State) (tenant : BitVec 16) (slot : BitVec 8) : Option Launch :=
  s.ctd.launches.find? fun l => l.tenant = tenant && l.side = some slot && l.phase = .parked

/-- A release reaches the CTD: the parked launch starts, or the latch is set. -/
def execSidingRelease (tenant : BitVec 16) (slot : BitVec 8) (s : State) : Host.Outcome State Fault Refusal :=
  if !s.ctd.sideMsgs.contains (tenant, slot) then .refused (.notEnabled "SIDING_RELEASE")
  else
    let s := { s with ctd := { s.ctd with sideMsgs := s.ctd.sideMsgs.erase (tenant, slot) } }
    match s.parked tenant slot with
    | some l => .next (s.sendStart l.id)
    | none =>
      .next { s with ctd := { s.ctd with latches := s.ctd.latches.filter (· ≠ (tenant, slot)) ++ [(tenant, slot)] } }

/-- T0 has come: every context of the launch may issue. -/
def execContextStart (q : BitVec 6) (i : BitVec 32) (s : State) : Host.Outcome State Fault Refusal :=
  match findLaunch s.ctd.launches ⟨q, i⟩ with
  | none => .refused (.notEnabled "CONTEXT_START")
  | some l =>
    match l.t0 with
    | none => .refused (.notEnabled "CONTEXT_START")
    | some t0 =>
      if l.phase ≠ .running || l.started || s.now < t0 then .refused (.notEnabled "CONTEXT_START")
      else
        let s := (s.contexts l.id).foldl (fun s x => s.updCtx x.1 x.2 fun c =>
          if c.life = .placed then { c with life := .running, t0 := t0, readyAt := t0 } else c) s
        .next (s.updLaunch l.id fun l => { l with started := true })

end Sys2Proof.Machine
end

