-- ==== Sys2Proof/Machine/Ending.lean ====
section
/-! DEFINITION. Retirement, kills and quiesce, and the reset of a compute die (R21, R36, R125, R144, R366, R382, R386-R389). -/

namespace Sys2Proof.Machine

/-! ### Retirement (R389, R144, R125) -/

/-- Nothing of the context is in flight and its queues are empty. -/
def Ctx.drained (c : Ctx) : Bool :=
  c.inflight.isEmpty && (List.range 4).all fun q => (c.queue q).run.isNone && (c.queue q).ents.isEmpty

/-- A retiring context retires: its profile is added up, its frame locks go, and the hashes of its open intervals are recorded. -/
def execContextRetire (t : Nat) (k : BitVec 2) (s : State) : Host.Outcome State Fault Refusal :=
  let c := s.ctx t k
  match c.launch with
  | none => .refused (.notEnabled "CONTEXT_RETIRE")
  | some id =>
    if c.life ≠ .retiring || !c.drained || s.exchanging c then .refused (.notEnabled "CONTEXT_RETIRE")
    else
      let now := s.now
      let s := ((s.slipped t k c.pc).flushProfile t k).updCtx t k fun c => { c.atEnd with life := .retired }
      let s := if c.saved then s else
        (s.unlockContext id c.pos (fieldFy c.field)).updLaunch id fun l =>
          { l with retired := l.retired ++ [(c.pos, fieldFy c.field)], lastRetire := now, dcrsum := l.dcrsum ||| c.codes }
      .next { s with agenda := (c.hashes.map fun h => .hashRecord t k (BitVec.ofNat 32 h.i)) ++ s.agenda }

/-- Every context that the launch placed on the die has retired. -/
def Launch.retiredOn (l : Launch) (die : Nat) : Bool :=
  (l.furrows.filter fun f => dieOf f.head = die).all fun f =>
    (List.range f.mem.length).all fun i => l.retired.contains (i, f.fy)

/-- The contexts of a launch leave the tiles of a die. -/
def State.freeOnDie (s : State) (id : LId) (die : Nat) : State :=
  let mine := (s.contexts id).filter fun x => dieOf x.1 = die
  let s := s.updLaunch id fun l => { l with dcrsum := mine.foldl (fun d x => d ||| (s.ctx x.1 x.2).codes) l.dcrsum }
  { s with tiles := s.tiles.map fun e => if dieOf e.1 = die then (e.1, e.2.freeLaunch id) else e }

def execRetirementReport (die : Nat) (q : BitVec 6) (i : BitVec 32) (s : State) : Host.Outcome State Fault Refusal :=
  match findLaunch s.ctd.launches ⟨q, i⟩ with
  | none => .refused (.notEnabled "RETIREMENT_REPORT")
  | some l =>
    if l.phase ≠ .running || l.reported.contains die || !l.furrowDies.contains die || !l.retiredOn die then
      .refused (.notEnabled "RETIREMENT_REPORT")
    else .next ((s.freeOnDie l.id die).updLaunch l.id fun l => { l with reported := l.reported ++ [die] })

/-- An arrival counter of the launch has counted its bytes and not yet performed its release (R222). -/
def State.owesRelease (s : State) (id : LId) : Bool :=
  let owes (m : SMap Arrival) : Bool := m.any fun e => e.2.own = id && e.2.due
  s.tiles.any (fun e => owes e.2.arr) || owes s.arrHbm || owes s.arrLpddr

/-- Every die has reported: the launch's bytes are visible, and its ending entry and completion record are written. -/
def execLaunchRetire (q : BitVec 6) (i : BitVec 32) (s : State) : Host.Outcome State Fault Refusal :=
  match findLaunch s.ctd.launches ⟨q, i⟩ with
  | none => .refused (.notEnabled "LAUNCH_RETIRE")
  | some l =>
    if l.phase ≠ .running || !l.started || !l.furrowDies.all (l.reported.contains ·) || s.owesRelease l.id then .refused (.notEnabled "LAUNCH_RETIRE")
    else .next (s.endLaunch l stOK 0 0)

/-! ### Kill and quiesce (R382) -/

/-- The context has something for a kill to stop. -/
def Ctx.alive (c : Ctx) : Bool :=
  c.life = .placed || c.life = .running || c.life = .retiring ||
    (c.life = .stopped && (List.range 4).any fun q => (c.queue q).run.isSome || !(c.queue q).ents.isEmpty)

/-- The context stops: its commands end without a completion action, its results in flight still land. -/
def Ctx.stop (c : Ctx) : Ctx :=
  { c with life := .stopped, hold := none, probe := none, path := [], got := none, resume := none, imgOp := false, imgHold := none
           chk := c.chk.map fun x => { x with until_ := none }
           xq := c.xq.map fun e => (e.1, { e.2 with ents := [], run := none }) }

def Tile.stopLaunch (x : Tile) (id : LId) : Tile :=
  let x := { x with decomp := match x.decomp with
    | some d => if (x.get d.k).launch = some id then none else x.decomp
    | none => none }
  allK.foldl (fun x k =>
    let c := x.get k
    if c.launch = some id && c.alive then x.set k c.stop else x) x

/-- A kill reaches a tile. -/
def execKillArrival (t : Nat) (q : BitVec 6) (i : BitVec 32) (s : State) : Host.Outcome State Fault Refusal :=
  let id : LId := ⟨q, i⟩
  match findLaunch s.ctd.launches id with
  | none => .refused (.notEnabled "KILL_ARRIVAL")
  | some l =>
    if l.phase ≠ .ending || !(allK.any fun k => (s.ctx t k).launch = some id && (s.ctx t k).alive) then
      .refused (.notEnabled "KILL_ARRIVAL")
    else .next (s.setTile t ((s.tile t).stopLaunch id))

/-- A launch whose last acknowledgement has come ends. -/
def State.tryEnd (s : State) (id : LId) : State :=
  match findLaunch s.ctd.launches id with
  | some l => if l.phase = .ending && l.toQuiesce.isEmpty then s.endLaunch l l.status l.fcause l.ftile else s
  | none => s

/-- Nothing of the launch moves on the die. -/
def State.quietOn (s : State) (id : LId) (die : Nat) : Bool :=
  (s.contexts id).all fun x => dieOf x.1 ≠ die || (!(s.ctx x.1 x.2).alive && (s.ctx x.1 x.2).inflight.isEmpty)

/-- A die's acknowledgement reaches the CTD: the launch's beats and adds to the die have been delivered or dropped. -/
def State.ackQuiesce (s : State) (id : LId) (die : Nat) : State :=
  let s : State := { s with ctd := { s.ctd with adds := s.ctd.adds.filter fun m => !(m.src = some id && dieOf m.t = die) } }
  (s.updLaunch id fun l => { l with toQuiesce := l.toQuiesce.filter (· ≠ die) }).tryEnd id

def execQuiesceAck (die : Nat) (q : BitVec 6) (i : BitVec 32) (s : State) : Host.Outcome State Fault Refusal :=
  let id : LId := ⟨q, i⟩
  match findLaunch s.ctd.launches id with
  | none => .refused (.notEnabled "QUIESCE_ACK")
  | some l =>
    if l.phase ≠ .ending || !l.toQuiesce.contains die || !s.quietOn id die || s.owesRelease id then .refused (.notEnabled "QUIESCE_ACK")
    else .next (s.ackQuiesce id die)

/-! ### The reset of a die (R386, R387) -/

/-- The northwest tile of a die. -/
def northWest (die : Nat) : Nat := 64 * (16 * (die / 4)) + 16 * (die % 4)

/-- The tiles of a die. -/
def dieTiles (die : Nat) : List Nat :=
  (List.range 16).flatMap fun y => (List.range 16).map fun x => northWest die + 64 * y + x

/-- The boundaries and ports on a die. -/
def dieLinks (die : Nat) : List Func :=
  ((List.range 12).filter fun n => (boundaries.getD n (8, 8)).1 = die || (boundaries.getD n (8, 8)).2 = die).map Func.boundary ++
    (if die = 3 then [.dv 0] else if die = 7 then [.dv 1] else [])

/-- The functions that stand on a die. -/
def dieFuncs (die : Nat) : List Func := .die die :: .hbm (2 * die) :: .hbm (2 * die + 1) :: (dieTiles die).map Func.tile

def State.clearReady (s : State) (fs : List Func) : State :=
  { s with ctd := { s.ctd with ready := fs.foldl (fun r f => r.set f false) s.ctd.ready } }

def State.dieState (s : State) (die : Nat) : DieState := SMap.get .up s.ctd.dies die

/-- The dies that a launch uses: those of its contexts, and those on which a region record of its contexts names a tile, a frame or a
counter (R386). Before its contexts have been loaded, its own records and furrows stand for theirs. -/
def State.diesOf (s : State) (l : Launch) : List Nat :=
  let cs := s.contexts l.id
  let recs := (if cs.isEmpty then l.regions.map (·.2) else []) ++
    cs.flatMap fun x => let c := s.ctx x.1 x.2; c.locked.map (·.2) ++ c.itab.map (·.2) ++ c.ttab.map (·.2)
  (cs.map (fun x => dieOf x.1) ++ l.toPlace ++ (recs.flatMap Region.dies).filter (· < 8)).eraseDups

/-- Every started command off a die whose route passes it, with its tile, context and queue. -/
def State.passing (s : State) (die : Nat) : List (Nat × BitVec 2 × Nat × Started) :=
  s.tiles.flatMap fun e => if dieOf e.1 = die then [] else allK.flatMap fun k => (List.range 4).filterMap fun q =>
    match ((e.2.get k).queue q).run with
    | some r => if r.route.contains die then some (e.1, k, q, r) else none
    | none => none

/-- A command has beats in a draining die, or an add on its way there. -/
def Started.within (r : Started) (die : Nat) : Bool :=
  match r.held with
  | some (d, n) => d = die && (n < r.beats.length || r.acting)
  | none => false

/-- The drain begins: from here the die takes no new beat. How many of the beats of a command that passes it are in it is the
hardware's choice (R387). -/
def State.beginDrain (s : State) (die : Nat) : State :=
  (s.passing die).foldl (fun s x =>
    let (t, k, q, r) := x
    let (n, s) := s.choose
    s.setRun t k q (some { r with held := some (die, n % (r.beats.length + 1)) })) s

/-- Steps 1 and 2 of R387: the die's bits are cleared, the reset journalled, the launches that use the die faulted, and the
detour routes installed. -/
def State.requestReset (s : State) (die : Nat) : State :=
  match s.dieState die with
  | .draining _ => s
  | _ =>
    let s := (s.clearReady (dieFuncs die)).journal { kind := 5, arg0 := BitVec.ofNat 64 die }
    let s := (s.ctd.launches.filter fun l => !l.holds && (s.diesOf l).contains die).foldl
      (fun s l => s.failLaunch l.id cDIER (northWest die)) s
    let s := s.beginDrain die
    { s with ctd := { s.ctd with
      detours := s.ctd.detours.filter (· ≠ die) ++ [die]
      dies := s.ctd.dies.put die (.draining (s.now + 12000)) } }

/-- Step 5: the die is reset and wiped; what it still had to acknowledge is answered. The windows of correctable errors are the
control die's, and outlast the reset (DESIGN CHOICE, log entry 95). -/
def State.resetDieNow (s : State) (die : Nat) : State :=
  let lo := 2 * die * (36 * 2 ^ 30)
  let hi := lo + 2 * (36 * 2 ^ 30)
  let gone := dieFuncs die ++ dieLinks die
  let s := s.clearReady (dieLinks die)
  let s : State := { s with
    tiles := s.tiles.filter fun (e : Nat × Tile) => dieOf e.1 ≠ die
    hbm := s.hbm.filter fun (e : Nat × Byte) => e.1 < lo || hi ≤ e.1
    badHbm := s.badHbm.filter fun b => 64 * b < lo || hi ≤ 64 * b
    arrHbm := s.arrHbm.filter fun (e : Nat × Arrival) => e.1 / 128 ≠ die
    cur := s.cur.filter fun u => dieOf u.t ≠ die
    ctd := { s.ctd with
      retired := s.ctd.retired.filter fun f => !gone.contains f
      dies := s.ctd.dies.put die .resetting
      dieAt := s.ctd.dieAt.put die s.now } }
  s.ctd.launches.foldl (fun s l => if l.phase = .ending && l.toQuiesce.contains die then s.ackQuiesce l.id die else s) s

/-- Firmware resets a compute die. -/
def execDieReset (n : Nat) (s : State) : Host.Outcome State Fault Refusal :=
  match s.dieState n with
  | .draining _ => .refused (.notEnabled "DIE_RESET")
  | _ => if n < 8 then .next (s.requestReset n) else .refused (.notEnabled "DIE_RESET")

/-- No beat remains in the die, or on its links. -/
def execDrainEnd (n : Nat) (s : State) : Host.Outcome State Fault Refusal :=
  match s.dieState n with
  | .draining d => if s.now < d && !(s.passing n).any (fun x => x.2.2.2.within n) then .next (s.resetDieNow n)
    else .refused (.notEnabled "DRAIN_END")
  | _ => .refused (.notEnabled "DRAIN_END")

/-- Fencing: a started command with beats in the die loses them, and ends in XLOSS. -/
def State.fence (s : State) (die : Nat) : State :=
  ((s.passing die).filter fun x => x.2.2.2.within die).foldl (fun s x => s.failRun x.1 x.2.1 x.2.2.1 cXLOSS 0 0 0) s

/-- The drain has not ended by its deadline. -/
def execDrainDeadline (n : Nat) (s : State) : Host.Outcome State Fault Refusal :=
  match s.dieState n with
  | .draining d => if d ≤ s.now then .next ((s.fence n).resetDieNow n) else .refused (.notEnabled "DRAIN_DEADLINE")
  | _ => .refused (.notEnabled "DRAIN_DEADLINE")

/-- A die has not acknowledged a quiesce within 50 microseconds: the launch ends with a die reset (Table 19.1). -/
def execQuiesceTimeout (die : Nat) (q : BitVec 6) (i : BitVec 32) (s : State) : Host.Outcome State Fault Refusal :=
  let id : LId := ⟨q, i⟩
  match findLaunch s.ctd.launches id, s.dieState die with
  | some l, .up =>
    if l.phase ≠ .ending || !l.toQuiesce.contains die || s.now < l.deadline then .refused (.notEnabled "QUIESCE_TIMEOUT")
    else
      let s := s.updLaunch id fun l => { l with status := stFAULT, fcause := cDIER, ftile := northWest die }
      .next (s.requestReset die)
  | _, _ => .refused (.notEnabled "QUIESCE_TIMEOUT")

end Sys2Proof.Machine
end

