-- ==== Sys2Proof/Machine/Image.lean ====
section
/-! DEFINITION. Context images: the request, the save and the restore (R121, R218, R357, R372, R376-R381, R392, R399, R416,
R417). -/

namespace Sys2Proof.Machine

/-! ### The request (R372) -/

/-- The CTD writes PREQ in every context of the furrow; a member's slots follow its headland's (log entry 44). -/
def execPreemptRequest (t : Nat) (k : BitVec 2) (sslot rslot : BitVec 16) (s : State) : Host.Outcome State Fault Refusal :=
  if (s.ctx t k).life ≠ .running then .refused (.notEnabled "PREEMPT_REQUEST")
  else
    let now := s.now
    .next ((s.furrow t k).foldl (fun s x => s.updCtx x.1 x.2 fun c =>
      let p : BitVec 16 := BitVec.ofNat 16 c.pos
      let r := if rslot = 0xFFFF then rslot else rslot + p
      { c with
        preq := (c.preq &&& (0xF#64 <<< 59)) ||| (1#64 <<< 63) ||| ((sslot + p).setWidth 64 <<< 40) |||
          (r.setWidth 64 <<< 24)
        reqAt := now + 2 }) s)

def Ctx.sslot (c : Ctx) : Nat := ((c.preq >>> 40).setWidth 16).toNat
def Ctx.rslot (c : Ctx) : Nat := ((c.preq >>> 24).setWidth 16).toNat

/-- PREQ with OP and ST as given. -/
def Ctx.setImageOp (c : Ctx) (op st : Nat) : Ctx :=
  { c with preq := (c.preq &&& ~~~(0xF#64 <<< 59)) ||| (BitVec.ofNat 64 op <<< 61) ||| (BitVec.ofNat 64 st <<< 59) }

/-- An image operation begins: ST is 1, and no bundle issues until it ends (R376). -/
def State.beginImage (s : State) (t : Nat) (k : BitVec 2) (op : Nat) : State :=
  let (n, s) := s.choose
  let now := s.now
  s.updCtx t k fun c => { c.setImageOp op 1 with imgOp := true, imgAt := now + n, imgHold := none }

/-- A SYSW of PREQ has written this OP, and no operation is under way. The write issued in supervisor mode, for in user mode it traps;
the mode may have changed before it lands (R376). -/
def Ctx.asks (c : Ctx) (op : Nat) : Bool :=
  c.life = .running && !c.imgOp && (preqOp c.preq).toNat = op

def execPreqSave (t : Nat) (k : BitVec 2) (s : State) : Host.Outcome State Fault Refusal :=
  if !(s.ctx t k).asks 1 then .refused (.notEnabled "PREQ_SAVE") else .next (s.beginImage t k 1)

def execPreqRestore (t : Nat) (k : BitVec 2) (s : State) : Host.Outcome State Fault Refusal :=
  if !(s.ctx t k).asks 2 then .refused (.notEnabled "PREQ_RESTORE") else .next (s.beginImage t k 2)

/-! ### The image (R379, R380) -/

def wordBytes (ws : List Word) : List Byte := ws.flatMap fun w => leBytes 8 w.toNat

def vecBytes (vs : List Vec) : List Byte := vs.flatMap fun v => leBytes 256 v.toNat

/-- A FIFO's state word (Table 14.1). -/
def Fifo.word (f : Fifo) : Word :=
  (f.wr.setWidth 64 <<< 36) ||| (f.rd.setWidth 64 <<< 32) ||| (f.tkn.setWidth 64 <<< 16) ||| f.avl.setWidth 64

def Fifo.ofWord (w : Word) (ent : SMap Vec) : Fifo :=
  { ent, wr := (w >>> 36).setWidth 4, rd := (w >>> 32).setWidth 4, tkn := (w >>> 16).setWidth 16, avl := w.setWidth 16 }

/-- MXS (Table 14.2). -/
def Regs.mxs (r : Regs) : Word :=
  (r.qx.setWidth 64 <<< 32) ||| (r.fp.setWidth 64 <<< 25) ||| ((BitVec.ofBool r.act).setWidth 64 <<< 24) |||
    (r.tag1.setWidth 64 <<< 8) ||| (r.tag0.setWidth 64 <<< 4)

/-- An entry of the stream log (Table 18.4). -/
def LogEntry.num (e : LogEntry) : Nat :=
  e.count.toNat * 2 ^ 96 + e.tgt.toNat * 2 ^ 64 + e.off.toNat * 2 ^ 48 + e.nop.toNat * 16 + e.pop.toNat * 8 + e.push.toNat * 4 +
    e.annul.toNat * 2 + e.xfer.toNat

def LogEntry.ofNum (n : Nat) : LogEntry :=
  { count := BitVec.ofNat 32 (n / 2 ^ 96), tgt := BitVec.ofNat 16 (n / 2 ^ 64), off := BitVec.ofNat 16 (n / 2 ^ 48)
    nop := n.testBit 4, pop := n.testBit 3, push := n.testBit 2, annul := n.testBit 1, xfer := n.testBit 0 }

/-- A region record (Table 6.6). The manual gives no layout of a resolved target; this one is the model's. -/
def Region.bytes (r : Region) : List Byte :=
  let flags := r.valid.toNat + 2 * r.locked.toNat + 4 * r.dyn.toNat + 8 * r.qloc.toNat
  let tail : List Byte := match r.cls.toNat with
    | 4 | 5 => leBytes 2 (tileWord r.tile) ++ leBytes 1 r.k.toNat ++
        (match r.owner with | some id => leBytes 1 (id.q.toNat + 64) ++ leBytes 4 id.i.toNat | none => leBytes 5 0) ++
        leBytes 8 r.off ++ leBytes 8 r.gen ++ leBytes 24 0
    | 7 => leBytes 2 r.window ++ leBytes 1 r.port ++ leBytes 5 0 ++ leBytes 8 r.off ++ leBytes 32 0
    | _ => (List.range 8).flatMap fun i => match r.ext[i]? with
        | some (f, n) => leBytes 6 (f * 2 ^ 16 + n)
        | none => leBytes 6 0
  leBytes 1 r.cls.toNat ++ leBytes 1 r.rights.toNat ++ leBytes 1 flags ++ leBytes 1 r.ext.length ++ leBytes 4 r.rowb.toNat ++
    leBytes 4 r.nrow.toNat ++ leBytes 4 r.stride.toNat ++ tail

/-- The tile of a tile word. -/
def tileOfWord (n : Nat) : Nat := n / 32 % 64 + 64 * (n % 32)

def Region.ofBytes (b : List Byte) : Region :=
  let f := le b 2 1
  let r : Region :=
    { cls := BitVec.ofNat 8 (le b 0 1), rights := BitVec.ofNat 8 (le b 1 1), valid := f.testBit 0, locked := f.testBit 1
      dyn := f.testBit 2, qloc := f.testBit 3, rowb := BitVec.ofNat 32 (le b 4 4), nrow := BitVec.ofNat 32 (le b 8 4)
      stride := BitVec.ofNat 32 (le b 0x0C 4) }
  match le b 0 1 with
  | 4 | 5 =>
    { r with
      tile := tileOfWord (le b 0x10 2), k := BitVec.ofNat 2 (le b 0x12 1)
      owner := if 64 ≤ le b 0x13 1 then some ⟨BitVec.ofNat 6 (le b 0x13 1), BitVec.ofNat 32 (le b 0x14 4)⟩ else none
      off := le b 0x18 8, gen := le b 0x20 8 }
  | 7 => { r with window := le b 0x10 2, port := le b 0x12 1, off := le b 0x18 8 }
  | _ => { r with ext := (List.range (le b 3 1)).map fun i => (le b (0x12 + 6 * i) 4, le b (0x10 + 6 * i) 2) }

/-- The registers that are stored, in ascending order (R380). -/
def Core.stored (c : Core) : List Nat :=
  (List.range 256).filter fun j => ((List.range 4).any fun n => c.inView n j) && !c.allFallow j

/-- The fixed part (Table 18.8); `cnt` are the tile's counters. -/
def Ctx.fixedPart (c : Ctx) (cnt : SMap Word) : List Byte :=
  let r := c.toRegs
  wordBytes [c.epc, c.ept, c.ecause, c.eslot, c.edone, c.einfo] ++
    wordBytes ((List.range 6).flatMap fun n => [(c.toCore.level n).lo, (c.toCore.level n).hi]) ++
    wordBytes ((List.range 4).map fun n => SMap.get 0 c.sscr n) ++
    wordBytes [c.qtrap, c.cyc, r.key, r.step, r.morig, c.shn] ++
    wordBytes ((List.range 4).map c.toCore.view) ++
    leBytes 8 ((r.p ||| 1).toNat + 256 * c.psc) ++ leBytes 8 c.bars.toNat ++
    wordBytes [r.mxs, c.fa.word, c.fb.word] ++ leBytes 8 c.tpos ++
    leBytes 16 r.ascale.toNat ++
    wordBytes ((List.range 32).map fun n => r.sreg (BitVec.ofNat 5 n)) ++
    ((List.range 8).flatMap fun n => leBytes 16 (r.mask (BitVec.ofNat 3 n)).toNat) ++
    wordBytes ((List.range 32).map fun n => SMap.get 0 c.dhist n) ++
    leBytes 128 r.flga.toNat ++ leBytes 128 r.flgb.toNat ++
    wordBytes ((List.range 4).flatMap fun q => [(c.queue q).stat, (c.queue q).det]) ++
    ((List.range 64).flatMap fun n => leBytes 1 ((c.counter n).getD 0)) ++
    wordBytes ((List.range 64).map fun n => match c.counter n with | some p => SMap.get 0 cnt p | none => 0) ++
    ((List.range 4).flatMap fun n => leBytes 64 (SMap.get 0 r.vq n).toNat) ++
    vecBytes ((List.range 4).map fun n => SMap.get 0 r.latch n) ++
    vecBytes ((List.range 16).map fun n => SMap.get 0 r.opf n) ++
    ((List.range 32).flatMap fun n => leBytes 16 (match c.slog[n]? with | some e => e.num | none => 0)) ++
    ((List.range 16).flatMap fun n => (SMap.get {} c.ttab (48 + n) : Region).bytes) ++
    leBytes 384 0 ++
    vecBytes ((List.range 256).map fun n => SMap.get 0 r.plane n) ++
    vecBytes ((List.range 16).map fun n => SMap.get 0 r.bscale n) ++
    vecBytes ((List.range 16).map fun n => SMap.get 0 c.fa.ent n) ++
    vecBytes ((List.range 16).map fun n => SMap.get 0 c.fb.ent n)

/-- The record of an unstarted entry. -/
def XEntry.bytes (e : XEntry) : List Byte :=
  leBytes 8 e.word.toNat ++ wordBytes ((List.range 4).map fun n => e.vals.getD n 0) ++ leBytes 2 e.idx.toNat ++
    leBytes 1 e.recs.length ++ leBytes 21 0 ++
    ((List.range 3).flatMap fun n => leBytes 128 (e.recs.getD n 0).toNat) ++ leBytes 64 0

/-- The variable part (Table 18.9). -/
def Ctx.variablePart (c : Ctx) : List Byte :=
  vecBytes (c.toCore.stored.map fun j => SMap.get 0 c.space j) ++
    ((List.range c.qrows).flatMap fun n => (List.range 128).flatMap fun j => leBytes 64 (c.toRegs.rowQuire n j).toNat) ++
    (List.range 4).flatMap fun q => (c.queue q).ents.flatMap XEntry.bytes

/-- The whole image (Tables 18.7 to 18.9). -/
def Ctx.image (c : Ctx) (cnt : SMap Word) : List Byte :=
  let live := c.toCore.stored
  let body := c.fixedPart cnt ++ c.variablePart
  let mode := c.timed.toNat + 2 * c.checked.toNat + (if c.leads then 4 else 8)
  leBytes 4 0x47494358 ++ leBytes 2 1 ++ leBytes 1 mode ++ leBytes 1 c.reserve.toNat ++ leBytes 4 (64 + body.length) ++
    leBytes 4 (crc32c body).toNat ++ leBytes 2 c.spacing ++ leBytes 1 c.qrows ++ leBytes 1 c.counters ++
    leBytes 4 (0x15400 + 256 * live.length + 8192 * c.qrows) ++
    ((List.range 4).flatMap fun q => leBytes 1 (c.queue q).ents.length) ++ leBytes 2 live.length ++ leBytes 1 c.slog.length ++
    leBytes 1 c.prio ++ leBytes 32 (live.foldl (fun m j => m + 2 ^ j) 0) ++ body

/-- Bytes 0xF_FE00 to 0xF_FFFF of the slot: DCR:0-31, and DSUM with 252 zero bytes (R392). -/
def Core.imageTail (c : Core) : List Byte :=
  wordBytes ((List.range 32).map fun n => SMap.get 0 c.dcr n) ++ leBytes 4 c.dsum.toNat ++ leBytes 252 0

/-! ### The save (R377, R392, R416) -/

/-- The save has its image: it goes to slot SSLOT, with the events of the present cycle recorded (R392), and the context is saved. What a
stepped bundle has kept is discarded (R402). -/
def State.save (s : State) (t : Nat) (k : BitVec 2) : State :=
  let s := s.updCtx t k fun c => { c.recordEvents with kept := none, keptFifo := none }
  let c := s.ctx t k
  match c.launch with
  | none => s
  | some id =>
    let w : SavedCtx := { id, fx := c.pos, fy := fieldFy c.field }
    let img : Image := { id, fx := w.fx, fy := w.fy, was := { c with prof := [] }, bytes := c.image (s.tile t).cnt, tail := c.imageTail }
    let s := { s with ctd := { s.ctd with images := s.ctd.images.put c.sslot (some img) } }
    -- a context already saved holds no locks any more (R121)
    if c.saved then s
    else
      let s := s.flushProfile t k
      let s := (s.unlockContext id w.fx w.fy).updLaunch id fun l => { l with dcrsum := l.dcrsum ||| c.codes }
      let s := s.updCtx t k fun c =>
        { c with saved := true, cmap := [], itab := [], xq := c.xq.map fun e => (e.1, { e.2 with ents := [] }) }
      { s with ctd := { s.ctd with savedAt := s.ctd.savedAt.filter (· ≠ w) ++ [w] } }

/-! ### The restore (R378, R416) -/

/-- The checks before anything changes. -/
def imageValid (bs : List Byte) : Bool :=
  0x15400 ≤ bs.length && le bs 0 4 = 0x47494358 && le bs 4 2 = 1 && le bs 8 4 = bs.length &&
    le bs 0x0C 4 = (crc32c (bs.drop 64)).toNat

def imageWord (bs : List Byte) (off : Nat) : Word := BitVec.ofNat 64 (le bs off 8)

/-- A table of `n` words from an offset. -/
def imageWords (bs : List Byte) (off n : Nat) : SMap Word :=
  (List.range n).foldl (fun m i => SMap.set 0 m i (imageWord bs (off + 8 * i))) []

def imageVecs (bs : List Byte) (off n : Nat) : SMap Vec :=
  (List.range n).foldl (fun m i => SMap.set 0 m i (BitVec.ofNat 2048 (le bs (off + 256 * i) 256))) []

/-- The registers, quires and planes of an image; a register not stored holds a free value (R380). -/
def imageRegs (bs : List Byte) (ctr : Nat) : Regs :=
  let livemap := le bs 0x20 32
  let live := (List.range 256).filter fun j => livemap.testBit j
  let qrows := le bs 0x12 1
  let qoff := 0x15400 + 256 * live.length
  let mxs := imageWord bs 0x150
  { s := (imageWords bs 0x180 32).erase 0
    p := BitVec.ofNat 8 (le bs 0x140 1)
    m := (List.range 7).foldl (fun m i => SMap.set 0 m (i + 1) (BitVec.ofNat 128 (le bs (0x290 + 16 * i) 16))) []
    space := (List.range 256).foldl (fun m j => SMap.set 0 m j (match live.idxOf? j with
      | some i => BitVec.ofNat 2048 (le bs (0x15400 + 256 * i) 256)
      | none => Config.freeVec (ctr + j))) []
    opf := imageVecs bs 0xC80 16
    latch := imageVecs bs 0x880 4
    vq := (List.range 4).foldl (fun m i => SMap.set 0 m i (BitVec.ofNat 512 (le bs (0x780 + 64 * i) 64))) []
    key := imageWord bs 0x100
    step := imageWord bs 0x108
    morig := imageWord bs 0x110
    flga := BitVec.ofNat 1024 (le bs 0x400 128)
    flgb := BitVec.ofNat 1024 (le bs 0x480 128)
    quires := (List.range (128 * qrows)).foldl (fun m i => SMap.set 0 m i (BitVec.ofNat 512 (le bs (qoff + 64 * i) 64))) []
    qx := (mxs >>> 32).setWidth 32
    plane := imageVecs bs 0x2400 256
    tag0 := (mxs >>> 4).setWidth 4
    tag1 := (mxs >>> 8).setWidth 4
    bscale := imageVecs bs 0x12400 16
    act := mxs.getLsbD 24
    fill := !mxs.getLsbD 24
    fp := (mxs >>> 25).setWidth 7
    ascale := BitVec.ofNat 128 (le bs 0x170 16) }

/-- The rest of the resumable state: the live SQPC and the pending transfers stay the handler's, TVEC the tile's. -/
def imageCore (bs tail : List Byte) (cur was : Core) (ctr : Nat) : Core :=
  { was with
    toRegs := imageRegs bs ctr
    sup := cur.sup, pc := cur.pc, ldep := cur.ldep, pend := cur.pend, nulls := cur.nulls, tvec := cur.tvec, vwNew := 0
    ls := (List.range 6).foldl (fun m i =>
      SMap.set {} m i ((({} : Level).setLo (imageWord bs (0x70 + 16 * i))).setHi (imageWord bs (0x78 + 16 * i)))) []
    fa := Fifo.ofWord (imageWord bs 0x158) (imageVecs bs 0x13400 16)
    fb := Fifo.ofWord (imageWord bs 0x160) (imageVecs bs 0x14400 16)
    vw := imageWords bs 0x120 4
    qtrap := imageWord bs 0xF0, cyc := imageWord bs 0xF8, shn := imageWord bs 0x118
    epc := imageWord bs 0x40, ept := imageWord bs 0x48, ecause := imageWord bs 0x50, eslot := imageWord bs 0x58
    edone := imageWord bs 0x60, einfo := imageWord bs 0x68
    sscr := imageWords bs 0xD0 4
    dcr := imageWords tail 0 32, dsum := BitVec.ofNat 32 (le tail 256 4)
    dhist := imageWords bs 0x300 32
    bars := BitVec.ofNat 8 (le bs 0x148 1)
    psc := le bs 0x141 2 % 512
    tpos := le bs 0x168 8
    slog := (List.range (le bs 0x1E 1)).map fun i => LogEntry.ofNum (le bs (0x1C80 + 16 * i) 16)
    inflight := [], resume := none, point := false }

/-- An unstarted entry of an image; what its record does not hold stands as it did when the context was saved. -/
def imageEntry (bs : List Byte) (off : Nat) (was : List XEntry) (now : Nat) : XEntry :=
  let idx : BitVec 16 := BitVec.ofNat 16 (le bs (off + 0x28) 2)
  let e := (was.find? fun e => e.idx = idx).getD
    { word := 0, vals := [], idx, recs := [], off := 0, at_ := now, key := imageWord bs 0x100, step := imageWord bs 0x108 }
  { e with
    word := BitVec.ofNat 64 (le bs off 8), at_ := now
    vals := (List.range e.vals.length).map fun n => imageWord bs (off + 8 + 8 * n)
    recs := (List.range (le bs (off + 0x2A) 1)).map fun n => BitVec.ofNat 1024 (le bs (off + 0x40 + 128 * n) 128) }

/-- A queue of an image: QSTAT, QDET and the entries, `skip` records after XEOFF. -/
def imageQueue (bs : List Byte) (q skip now : Nat) (was : XQueue) : XQueue :=
  let st := imageWord bs (0x500 + 16 * q)
  let det := imageWord bs (0x508 + 16 * q)
  { was with
    issued := (st >>> 48).setWidth 16, done := (st >>> 32).setWidth 16, qs := (st >>> 8).setWidth 2, ecode := st.setWidth 8
    d0 := det.setWidth 32, d1 := (det >>> 32).setWidth 32, run := none, prev := (0, 0)
    ents := (List.range (le bs (0x18 + q) 1)).map fun n => imageEntry bs (le bs 0x14 4 + 512 * (skip + n)) was.ents now }

/-- The physical counters of a restore, in ascending order of n: the recorded one where no other context maps it (`others`), else the
lowest one that no context maps (`all`) and that this restore has not yet assigned (R416). -/
def assignCounters (others all : List Nat) : List Nat → List Nat → List Nat
  | _, [] => []
  | given, p :: ps =>
    let q := if others.contains p then ((List.range 256).find? fun x => !all.contains x && !given.contains x).getD p else p
    q :: assignCounters others all (given ++ [q]) ps

/-- The frames of a record, in order. -/
def Region.frames (r : Region) : List Nat := r.ext.flatMap fun x => (List.range x.2).map fun i => x.1 + i

/-- Where a run of frames begins in a list of them; `i` frames have gone before. -/
def runAt (fs : List Nat) : List Nat → Nat → Option Nat
  | [], _ => none
  | g :: gs, i => if fs.isPrefixOf (g :: gs) then some i else runAt fs gs (i + 1)

/-- The record of a walk that a dynamic record was made from, and at which of its frames: one of the same class and memory that holds
the frames in that order (R256, R422). -/
def Region.parent (old : SMap Region) (r : Region) : Option (Nat × Nat) :=
  old.findSome? fun x =>
    if x.2.cls ≠ r.cls || x.2.space ≠ r.space then none else (runAt r.frames x.2.frames 0).map fun i => (x.1, i)

/-- A dynamic record on the frames of the new walk, in the memory that its parent has there (R121). -/
def Region.rebase (old new_ : SMap Region) (r : Region) : Region :=
  if r.space.isNone || r.ext.isEmpty then r
  else
    match r.parent old with
    | some (n, i) =>
      let p : Region := SMap.get {} new_ n
      { r with qloc := p.qloc, ext := extents ((p.frames.drop i).take r.frames.length) }
    | none => r

/-- The context of an image, on this tile and context number (R378). `rs` is the region list's new walk. -/
def State.restored (s : State) (cur : Ctx) (t : Nat) (k : BitVec 2) (img : Image) (l : Launch) (rs : SMap Region) (phys : List Nat) :
    Ctx :=
  let now := s.now
  let bs := img.bytes
  let was := img.was
  let n (q : Nat) : Nat := ((List.range q).map fun i => le bs (0x18 + i) 1).sum
  let mode := le bs 6 1
  let c : Ctx :=
    { was with
      toCore := imageCore bs img.tail cur.toCore was.toCore s.freeCtr
      launch := some img.id, life := .running, saved := false
      timed := mode.testBit 0, checked := mode.testBit 1
      head := t - was.pos, headK := if was.span = 1 then k else cur.headK
      spacing := le bs 0x10 2, reserve := BitVec.ofNat 8 (le bs 7 1), qrows := le bs 0x12 1, counters := le bs 0x13 1
      prio := le bs 0x1F 1
      foot := cur.foot, wbase := cur.wbase
      field := fieldWord l.hdr (if l.hdr.checked then 0 else img.fx) img.fy t k
      preq := cur.preq, reqAt := cur.reqAt
      cmap := (List.range phys.length).map fun i => (i, phys[i]?)
      locked := rs
      ttab := (List.range 16).foldl (fun m i =>
        SMap.set {} m (48 + i) ((Region.ofBytes ((bs.drop (0x1E80 + 64 * i)).take 64)).rebase was.locked rs)) []
      xq := (List.range 4).map fun q => (q, imageQueue bs q (n q) now (was.queue q))
      tcache := []
      readyAt := now, age := 0, hold := none, probe := none, path := [], got := none, fstop := cur.fstop, mute := cur.mute
      stall := 0, imgOp := false, imgHold := none, second := false, lag := cur.lag
      serial := cur.serial, lastIssue := cur.lastIssue, sent := was.sent, past := []
      prof := cur.prof, events := cur.events, trace := cur.trace }
  let c := c.rebuildItab
  let v := c.xview t k c.itab
  { c with
    xq := c.xq.map fun x => (x.1, { x.2 with ents := x.2.ents.map fun e =>
      (match decSlot 6 e.word with
      | .op i => s.fillEntry v i e
      | _ => e) })
    -- an image holds no shadow: that of a checked tile is formed afresh (log entry 126)
    chk := c.chk.map fun y => { y with shadow := some c.shadow, sets := [], passed := [], until_ := none, markAt := now } }

/-- The walk of a launch's region list for a context that resumes (R121). -/
def State.walkAgain (s : State) (l : Launch) : Walked :=
  s.walkOn walkFuel { l with regions := [], frames := [], wentry := 0, wpages := [], wnode := none, imgDone := true }

/-- The held adds and barrier releases of a context that has been restored are applied last. -/
def State.applyHeld (s : State) (t : Nat) (k : BitVec 2) (w : SavedCtx) : State :=
  let mine := s.ctd.heldAdds.filter fun a => a.1 = w.id && a.2.1 = w.fx && a.2.2.1 = w.fy
  let rels := s.ctd.heldRels.filter fun r => r.1 = w.id && r.2.1 = w.fy && w.fx = 0
  let s : State := { s with ctd := { s.ctd with
    heldAdds := s.ctd.heldAdds.filter fun a => !(a.1 = w.id && a.2.1 = w.fx && a.2.2.1 = w.fy)
    heldRels := s.ctd.heldRels.filter fun r => !(r.1 = w.id && r.2.1 = w.fy && w.fx = 0) } }
  let s := mine.foldl (fun s a => match (s.ctx t k).counter a.2.2.2.1 with
    | some p => s.setTile t ((s.tile t).addCounter none p a.2.2.2.2)
    | none => s) s
  rels.foldl (fun s r => s.deliverRelease w.id r.2.2 w.fy) s

/-- The image is loaded. What the context held before is gone, its locks included where it had not been saved (DEDUCED, log entry
112). -/
def State.load (s : State) (t : Nat) (k : BitVec 2) (img : Image) (l new_ : Launch) : State :=
  let w : SavedCtx := { id := img.id, fx := img.fx, fy := img.fy }
  let rs : SMap Region := (rentries l.image l.hdr).foldl
    (fun m e => SMap.put m e.num (s.resolveTarget l e (SMap.get {} m e.num))) new_.regions
  let x := s.tile t
  let cur := x.get k
  let os := s.occupants t
  let phys := assignCounters ((os.filter fun o => o.k ≠ k).flatMap (·.cnts)) (os.flatMap (·.cnts)) []
    ((List.range (le img.bytes 0x13 1)).map fun n => le img.bytes (0x540 + n) 1)
  let c := s.restored cur t k img l rs phys
  let s := match cur.launch with
    | some id =>
      let s := if cur.saved then s else s.unlockContext id cur.pos (fieldFy cur.field)
      s.updLaunch id fun l => { l with dcrsum := l.dcrsum ||| cur.codes }
    | none => s
  let cnt := (phys.zip (List.range phys.length)).foldl (fun m p => SMap.set 0 m p.1 (imageWord img.bytes (0x580 + 8 * p.2))) x.cnt
  let s := s.setTile t (({ x with cnt, ecnt := x.ecnt.filter fun n => !phys.contains n }.dropHolder k).set k c)
  let s := (s.lockContext l.id w.fx w.fy new_.frames).updLaunch l.id fun l =>
    { l with regions := rs, frames := new_.frames
             dies := (l.dies ++ dieOf t :: (rs.flatMap fun e => e.2.dies).filter (· < 8)).eraseDups }
  let s : State := { s with freeCtr := s.freeCtr + 256
                            ctd := { s.ctd with savedAt := s.ctd.savedAt.filter (· ≠ w) } }
  s.applyHeld t k w

/-- What a restore comes to in this cycle: a failure, a hold of its walk, or the loaded state. -/
inductive Restore where
  /-- with the place of a bad block that its walk met -/
  | fail (bad : Option Place := none)
  | hold
  | done (s : State)
  deriving DecidableEq, Repr

/-- A restore reads the image of RSLOT, which stays there for another (R378; DEDUCED, log entry 114). -/
def State.restore (s : State) (t : Nat) (k : BitVec 2) : Restore :=
  let slot := (s.ctx t k).rslot
  match SMap.get none s.ctd.images slot with
  | some img =>
    if slot = 0xFFFF || s.ctd.ready.lpd ≠ 0xFF || !imageValid img.bytes then .fail none
    else
      match findLaunch s.ctd.launches img.id with
      | none => .fail none
      | some l =>
        match s.walkAgain l with
        | .done l' | .more l' => .done (s.load t k img l l')
        | .hold _ => .hold
        | .fail _ _ bad => .fail bad
  | none => .fail none

/-! ### The end of an image operation -/

/-- Started commands have ended, and results in flight have landed. -/
def Ctx.settled (c : Ctx) : Bool := c.inflight.isEmpty && (List.range 4).all fun q => (c.queue q).run.isNone

/-- ST tells how the operation ended, and the next bundle may issue. -/
def Ctx.imageDone (c : Ctx) (now st : Nat) : Ctx := { c.setImageOp 0 st with imgOp := false, imgHold := none, readyAt := now }

/-- The walk of a restore has been held for 10 ms (R121). -/
def Ctx.holdOver (c : Ctx) (now : Nat) : Bool := match c.imgHold with | some h => decide (h + 6000000 ≤ now) | none => false

/-- An image operation ends; a restore whose walk is held reads again after 50 microseconds, and fails at its deadline (R121). -/
def execImageOperationEnd (t : Nat) (k : BitVec 2) (s : State) : Host.Outcome State Fault Refusal :=
  let c := s.ctx t k
  let now := s.now
  let finish (s : State) (st : Nat) : Host.Outcome State Fault Refusal := .next (s.updCtx t k fun c => c.imageDone now st)
  if !c.imgOp || c.life ≠ .running || now < c.imgAt || !c.settled then .refused (.notEnabled "IMAGE_OPERATION_END")
  else if (preqOp c.preq).toNat = 1 then
    if s.ctd.ready.lpd = 0xFF then finish (s.save t k) 2 else finish s 3
  else if c.holdOver now then finish s 3
  else
    match s.restore t k with
    | .done s => finish s 2
    | .fail bad => finish (s.retireMet bad) 3
    | .hold =>
      let h := c.imgHold.getD now
      .next (s.setCtx t k { c with imgAt := min (now + 30000) (h + 6000000), imgHold := some h })

end Sys2Proof.Machine
end

