-- ==== Sys2Proof/Machine/Power.lean ====
section
/-! DEFINITION. Reset and bring-up, lasting faults, stretches, clock steps and the hard trip (R21-R24, R28-R30, R35, R36,
R141, R166-R168, R388). -/

namespace Sys2Proof

/-- The function exists. -/
def Func.exists_ : Func → Bool
  | .tile t => t < 2048
  | .hbm n => n < 16
  | .lpddr n => n < 8
  | .die n => n < 8
  | .boundary n => n < 12
  | .dv n => n < 4
  | .mgmt n => n < 4
  | .pf => true

/-- The bound of Table 2.1 in cycles of 600 MHz; the manual gives none for a dispatcher. -/
def Func.bound : Func → Option Nat
  | .tile _ => some 1200000
  | .hbm _ => some 24000000
  | .lpddr _ => some 1800000000
  | .boundary _ | .dv _ => some 3000000
  | .mgmt _ | .pf => some 120000000
  | .die _ => none

/-- The step of bring-up in which a function comes up (R22): 2, 3, or 4 for the steps that run concurrently. -/
def Func.step : Func → Nat
  | .mgmt _ | .pf => 2
  | .lpddr _ => 3
  | _ => 4

/-- The compute dies a function stands on. -/
def Func.dies : Func → List Nat
  | .tile t => [Machine.dieOf t]
  | .hbm n => [n / 2]
  | .die n => [n]
  | .boundary n => let (a, b) := Machine.boundaries.getD n (8, 8); [a, b].filter (· < 8)
  | .dv 0 => [3]
  | .dv 1 => [7]
  | _ => []

/-- The function whose readiness bit a unit's lasting fault clears. -/
def EccUnit.func : EccUnit → Func
  | .scratch t | .quire t | .regs t => .tile t
  | .hbm n => .hbm n
  | .lpddr n => .lpddr n
  | .boundary n => .boundary n

end Sys2Proof

namespace Sys2Proof.Machine

/-! ### Bring-up (R22, R23) -/

/-- The cycle in which a function's reset was last released: with the module reset, or when bring-up came to its step, or when its
die left a reset of its own; none before that (R22, R23). -/
def State.releasedAt (s : State) (f : Func) : Option Nat :=
  match f.step with
  | 2 => some 0
  | 3 => s.ctd.lpdAt
  | _ => s.ctd.upAt.map fun n => (f.dies.map fun d => SMap.get 0 s.ctd.dieAt d).foldl max n

/-- Every function of a step has reported ready, or has been given up (DEDUCED, log entry 117). -/
def State.stepDone (s : State) (fs : List Func) : Bool := fs.all fun f => s.ctd.ready.bit f || s.ctd.retired.contains f

/-- Bring-up goes on to the packages of LPDDR6 once the management cores and PCIe are up, and to the dies once the tier is (R22). -/
def State.nextStep (s : State) : State :=
  let c := s.ctd
  if c.recovery then s
  else if c.lpdAt.isNone then
    (if s.stepDone (.pf :: (List.range 4).map Func.mgmt) then { s with ctd := { c with lpdAt := some s.now } } else s)
  else if c.upAt.isNone then
    (if s.stepDone ((List.range 8).map Func.lpddr) then { s with ctd := { c with upAt := some s.now } } else s)
  else s

/-- A die of the function is draining towards its reset. -/
def State.drains (s : State) (f : Func) : Bool :=
  f.dies.any fun d => match s.dieState d with | .draining _ => true | _ => false

/-- The function may yet report ready: firmware is verified, and its reset has been released (R22, R30). -/
def State.pendingReady (s : State) (f : Func) : Bool :=
  f.exists_ && !s.ctd.ready.bit f && !s.ctd.retired.contains f && !s.drains f && !s.ctd.recovery && (s.releasedAt f).isSome

/-- The function's bound has passed (R23). -/
def State.pastBound (s : State) (f : Func) : Bool :=
  match f.bound, s.releasedAt f with
  | some b, some n => decide (n + b < s.now)
  | _, _ => false

/-- A function reports ready. With its DIE bit a die takes the zone count, and the detour routes go (R141, R387). -/
def execFunctionReady (f : Func) (s : State) : Host.Outcome State Fault Refusal :=
  if !s.pendingReady f || s.pastBound f then .refused (.notEnabled "FUNCTION_READY")
  else
    let c := s.ctd
    let c := { c with ready := c.ready.set f true }
    .next { s with ctd := match f with
      | .die n => { c with detours := c.detours.filter (· ≠ n), dies := c.dies.put n .up }
      | _ => c }

/-- A function has not reported ready by its bound: firmware records a lasting fault. -/
def execReadyTimeout (f : Func) (s : State) : Host.Outcome State Fault Refusal :=
  if !s.pendingReady f || !s.pastBound f then .refused (.notEnabled "READY_TIMEOUT") else .next (s.retireFunc f)

/-! ### Lasting faults (R36) -/

/-- A correctable event is counted in the sliding second; the sixteenth retires the unit. -/
def execEccCorrectable (u : EccUnit) (s : State) : Host.Outcome State Fault Refusal :=
  if !u.func.exists_ then .refused (.notEnabled "ECC_CORRECTABLE")
  else
    let es := (s.ctd.ecc.filter fun e => s.now ≤ e.2 + 600000000) ++ [(u, s.now)]
    let s : State := { s with ctd := { s.ctd with ecc := es } }
    .next (if (es.filter fun e => e.1 = u).length ≥ 16 then s.retireFunc u.func else s)

/-! ### Stretches (R166, R167) -/

/-- The least notice of a stretch: max Lat[8][n] + 8. -/
def stretchNotice : Nat := ((List.range 8).map (lat 8)).foldl max 0 + 8

/-- S of a stretch that starts in a cycle. -/
def Stretch.length (x : Stretch) (start : Nat) : Nat :=
  let held := start - x.since
  if held < 6000000 then 256 else if held < 12000000 then 512 else 768

/-- Announce a stretch for a window that starts in a cycle. -/
def Stretch.announce (x : Stretch) (start : Nat) : Stretch := { x with sched := x.sched ++ [(start, x.length start)] }

/-- The condition of Table 2.5 arises: the first stretch is announced. -/
def execStretchCondition (s : State) : Host.Outcome State Fault Refusal :=
  let x := s.ctd.stretch
  if x.cond then .refused (.notEnabled "STRETCH_CONDITION")
  else
    let (n, s) := s.choose
    let start := (x.sched.map fun y => y.1 + 1024).foldl max (s.now + stretchNotice + n)
    .next { s with ctd := { s.ctd with stretch := ({ x with cond := true, since := s.now } : Stretch).announce start } }

/-- A running context records S cycles of stretch. -/
def State.recordStretch (s : State) (n : Nat) : State :=
  { s with tiles := s.tiles.map fun (e : Nat × Tile) => (e.1, { e.2 with
      ctx := e.2.ctx.map fun (x : Nat × Ctx) => (x.1, if x.2.life = .running then x.2.event s.now dcrSTRETCH 0 0 n else x.2) }) }

/-- An announced stretch begins; while the condition holds, that of the next window is announced. -/
def execStretch (n : Nat) (s : State) : Host.Outcome State Fault Refusal :=
  let x := s.ctd.stretch
  match x.sched.find? fun y => x.begun < y.1 && y.1 ≤ s.now && s.now < y.1 + y.2 && y.2 = n with
  | none => .refused (.notEnabled "STRETCH")
  | some y =>
    let x' : Stretch := { x with begun := y.1 }
    let x' := if x.cond then x'.announce (y.1 + 1024) else x'
    .next (({ s with ctd := { s.ctd with stretch := x' } } : State).recordStretch n)

/-- The cycles of a stretch have run out. -/
def execStretchEnd (s : State) : Host.Outcome State Fault Refusal :=
  let x := s.ctd.stretch
  if !(x.sched.any fun y => y.1 + y.2 ≤ s.now) then .refused (.notEnabled "STRETCH_END")
  else .next { s with ctd := { s.ctd with stretch := { x with sched := x.sched.filter fun y => s.now < y.1 + y.2 } } }

/-- Temperatures and power are back below their lower limits. -/
def execStretchConditionClear (s : State) : Host.Outcome State Fault Refusal :=
  if !s.ctd.stretch.cond then .refused (.notEnabled "STRETCH_CONDITION_CLEAR")
  else .next { s with ctd := { s.ctd with stretch := { s.ctd.stretch with cond := false } } }

/-! ### Clock steps (R168) -/

/-- A launch has contexts that run. -/
def Launch.runs (l : Launch) : Bool := l.phase = .running || l.phase = .ending

/-- The headland stands at a REALIGN whose cycle has not come. -/
def State.realigning (s : State) (t : Nat) (k : BitVec 2) : Bool :=
  match s.next t k, (s.ctx t k).hold with
  | some n, some h => !h.met && (match (s.ctx t k).activeWait n with | some (.realign _ _ _) => true | _ => false)
  | _, _ => false

/-- Every context of the launch that issues stands at a REALIGN. -/
def State.allRealigning (s : State) (l : Launch) : Bool :=
  l.started && (s.contexts l.id).all fun x =>
    let c := s.ctx x.1 x.2
    !c.leads || c.life ≠ .running || s.realigning x.1 x.2

/-- The moment allows the change. -/
def State.mayStep (s : State) (mhz : Nat) : Bool :=
  let timed := s.ctd.launches.filter fun l => l.runs && l.hdr.timed
  (mhz = 600 || mhz = 480 || mhz = 360) && mhz ≠ s.ctd.clockMHz && s.ctd.clockUntil.isNone &&
    (mhz < s.ctd.clockMHz || timed.isEmpty) && timed.all s.allRealigning

/-- The tile clock of the whole module begins to change. -/
def execClockStep (mhz : Nat) (s : State) : Host.Outcome State Fault Refusal :=
  if !s.mayStep mhz then .refused (.notEnabled "CLOCK_STEP")
  else .next (({ s with ctd := { s.ctd with clockUntil := some (s.now + 4096), clockTo := mhz } } : State).recordStretch 4096)

def execClockStepEnd (s : State) : Host.Outcome State Fault Refusal :=
  match s.ctd.clockUntil with
  | none => .refused (.notEnabled "CLOCK_STEP_END")
  | some u =>
    if s.now < u then .refused (.notEnabled "CLOCK_STEP_END")
    else .next { s with ctd := { s.ctd with clockUntil := none, clockMHz := s.ctd.clockTo } }

/-! ### Module resets (R21, R22, R28, R30) -/

/-- The three tests of the boot ROM. -/
def accepts (digest : List Byte) (svn : BitVec 32) (image : List Byte) : Bool :=
  Config.sha384 (Config.imageKey image) = digest &&
    Config.ecdsaVerify (Config.imageKey image) (Config.sha384 (Config.imageBody image)) (Config.imageSig image) &&
    decide (svn.toNat ≤ (Config.imageSvn image).toNat)

/-- The boot ROM tries the two slots in turn; a higher SVN is burnt, and with no good image the CTD stays in recovery. The mark of
R32 holds for one reset. -/
def Ctd.boot (c : Ctd) : Ctd :=
  let a := accepts c.keyDigest c.fuseSvn c.slotA
  let b := accepts c.keyDigest c.fuseSvn c.slotB
  if !a && !b then { c with firstB := false, recovery := true, firmware := [], svn := 0 }
  else
    let useB := if c.firstB then b else !a
    let img := if useB then c.slotB else c.slotA
    { c with firstB := false, recovery := false, runB := useB, firmware := img, svn := Config.imageSvn img, fuseSvn := Config.imageSvn img }

/-- The module after a reset: fuses, flash, host and peer memory, and what has been sent to the host, outlast it. -/
def State.afterReset (s : State) (life : BitVec 2) (journal : SMap (List Byte)) (jseq : Nat) : State :=
  let c := s.ctd
  let c' : Ctd :=
    { lifeCycle := life, fuseSvn := c.fuseSvn, keyDigest := c.keyDigest, slotA := c.slotA, slotB := c.slotB, firstB := c.firstB, keyGen := c.keyGen
      journal, jseq, fwTvec := c.fwTvec, msix := c.msix, reads := c.reads, mbox := { nchal := c.mbox.nchal } }
  { ctd := c'.boot, host := s.host, peer := s.peer, inbox := s.inbox, freeCtr := s.freeCtr, choiceCtr := s.choiceCtr }

/-- A module reset that is no transition: the journal starts with an entry of kind die reset for each die. -/
def State.resetModule (s : State) : State := s.afterReset s.ctd.lifeCycle resetJournal 8

/-- The reset of a life-cycle transition: one entry of kind life-cycle change, with the old and new states. A module that enters the
provisioned state generates an attestation key (R31). -/
def State.transition (s : State) (dest : BitVec 2) : State :=
  let s : State := if dest = 1 then { s with ctd := { s.ctd with keyGen := s.ctd.keyGen + 1 } } else s
  let e : JEntry := { kind := 7, arg0 := s.ctd.lifeCycle.setWidth 64, arg1 := dest.setWidth 64 }
  s.afterReset dest [(0, e.bytes 0 0)] 1

/-- A limit of the hard trip is passed: the module halts, and every launch ends as by a die reset. R386 names a tile for one die only:
here FTILE is the north-west tile of the first die that the launch uses, and 0 where it uses none (DESIGN CHOICE, log entry 125). -/
def execHardTrip (_c : TripCause) (s : State) : Host.Outcome State Fault Refusal :=
  if s.ctd.tripped then .refused (.notEnabled "HARD_TRIP")
  else
    let s := s.ctd.launches.foldl (fun s l =>
      match findLaunch s.ctd.launches l.id with
      | some l => s.endLaunch l stFAULT cDIER (match l.dies with | d :: _ => northWest d | [] => 0)
      | none => s) s
    .next { s with ctd := { s.ctd with tripped := true }, cur := none, agenda := [.moduleReset .hardTrip] }

def execModuleReset (c : ResetCause) (s : State) : Host.Outcome State Fault Refusal :=
  if c = .hardTrip && !s.ctd.tripped then .refused (.notEnabled "MODULE_RESET") else .next s.resetModule

end Sys2Proof.Machine
end

