-- ==== Sys2Proof/Machine/Mailbox.lean ====
section
/-! DEFINITION. The management mailbox: attestation, life-cycle commands, firmware load and die reset (R27-R33, Tables 2.4 to
2.8). A command performs its action as it starts, and the CTD ends it in a later cycle. -/

namespace Sys2Proof.Machine

/-- CODE (Table 2.6). -/
def mbOK : BitVec 8 := 0
def mbBADCMD : BitVec 8 := 1
def mbBADLEN : BitVec 8 := 2
def mbBADSIG : BitVec 8 := 3
def mbBADSTATE : BitVec 8 := 4
def mbDMAERR : BitVec 8 := 5

/-- The bytes of MBREQ once the host has written some. -/
def Mailbox.written (m : Mailbox) (req : List Byte) : Mailbox := { m with req := (req ++ m.req.drop req.length).take 1024 }

/-- The host has written a request and MBCMD: the command runs, and will end with a code and a response. -/
def Mailbox.answer (m : Mailbox) (cmd : BitVec 8) (rqlen : BitVec 16) (req : List Byte) (code : BitVec 8) (rsp : List Byte) :
    Mailbox :=
  { m.written req with cmd, rqlen, busy := true, done := false, staged := some (code, rsp) }

/-- The command ends: its response, RSLEN and CODE are written, BUSY is cleared and DONE set (R32). -/
def Mailbox.ended (m : Mailbox) : Mailbox :=
  match m.staged with
  | none => m
  | some (code, rsp) => { m with
      code, rslen := BitVec.ofNat 16 rsp.length, rsp := rsp ++ m.rsp.drop rsp.length, busy := false, done := true, staged := none }

/-- What the CTD does for the mailbox in a cycle, when it chooses: it ends the command, and then makes an accepted transition. -/
def State.mailboxTurn (s : State) : State :=
  let m := s.ctd.mbox
  if !m.busy && m.trans.isNone then s
  else
    let (n, s) := s.choose
    if n % 2 = 1 then s
    else if m.busy then { s with ctd := { s.ctd with mbox := m.ended } }
    else match m.trans with
      | some d => s.transition d
      | none => s

def State.mailbox (s : State) (cmd : BitVec 8) (rqlen : BitVec 16) (req : List Byte) (code : BitVec 8) (rsp : List Byte := []) :
    State :=
  { s with ctd := { s.ctd with mbox := s.ctd.mbox.answer cmd rqlen req code rsp } }

/-- The mailbox answers: the physical function is ready, or the CTD is in recovery. -/
def State.mailboxOpen (s : State) : Bool := s.ctd.ready.pf || s.ctd.recovery

/-- A write of MBCMD: it is ignored while BUSY is 1. -/
def State.command (s : State) (row : String) (req : List Byte) (run : State) : Host.Outcome State Fault Refusal :=
  if !s.mailboxOpen then .refused (.notEnabled row)
  else if s.ctd.mbox.busy then .next { s with ctd := { s.ctd with mbox := s.ctd.mbox.written req } }
  else .next run

/-- The request the CTD reads. -/
def Mailbox.request (m : Mailbox) (rqlen : BitVec 16) (req : List Byte) : List Byte :=
  ((req ++ m.req.drop req.length) ++ List.replicate 1024 0).take rqlen.toNat

/-! ### ATTEST (R31) -/

/-- The words of the readiness map, folded: RDYT by XOR, then RDYM and RDYL. -/
def Ready.report (r : Ready) : List Byte :=
  let fold := (List.range 32).foldl (fun w y => w ^^^ SMap.get 0 r.tile y) (0 : Word)
  leBytes 8 fold.toNat ++ leBytes 8 r.rdym.toNat ++ leBytes 8 r.rdyl.toNat ++ leBytes 64 0

/-- A byte string brought to a length. -/
def fit (n : Nat) (bs : List Byte) : List Byte := (bs ++ List.replicate n 0).take n

/-- The report of Table 2.4 with its signature. -/
def Ctd.attestation (c : Ctd) (nonce : List Byte) : List Byte :=
  let b := leBytes 2 0x4741 ++ leBytes 2 1 ++ leBytes 4 c.lifeCycle.toNat ++ leBytes 4 c.svn.toNat ++ leBytes 4 0 ++
    fit 16 Config.deviceId ++ fit 48 (Config.sha384 c.firmware) ++ fit 48 (Config.sha384 Config.fuseConfig) ++ fit 48 nonce ++
    leBytes 8 c.ready.gen.toNat ++ c.ready.report
  b ++ fit 96 (Config.attestSign c.keyGen (Config.sha384 b))

def execAttest (rqlen : BitVec 16) (req : List (BitVec 8)) (s : State) : Host.Outcome State Fault Refusal :=
  let end_ (code : BitVec 8) (rsp : List Byte) : State := s.mailbox 1 rqlen req code rsp
  s.command "ATTEST" req
    (if s.ctd.recovery then end_ mbBADSTATE []
     else if rqlen ≠ 48 then end_ mbBADLEN []
     else if s.ctd.lifeCycle = 0 then end_ mbBADSTATE []
     else end_ mbOK (s.ctd.attestation (s.ctd.mbox.request rqlen req)))

/-! ### LCCHAL and LCTRANS (R32, R33) -/

def execLcchal (rqlen : BitVec 16) (s : State) : Host.Outcome State Fault Refusal :=
  s.command "LCCHAL" []
    (if s.ctd.recovery then s.mailbox 2 rqlen [] mbBADSTATE
     else if rqlen ≠ 0 then s.mailbox 2 rqlen [] mbBADLEN
     else
      let ch := fit 32 (Config.challenge s.ctd.mbox.nchal)
      let s := s.mailbox 2 rqlen [] mbOK ch
      { s with ctd := { s.ctd with mbox := { s.ctd.mbox with chal := some ch, nchal := s.ctd.mbox.nchal + 1 } } })

/-- The transitions of Table 2.3. -/
def lifeNext (from_ dest : Nat) : Bool :=
  match from_, dest with
  | 0, 1 | 1, 2 | 1, 3 | 2, 3 | 3, 0 => true
  | _, _ => false

/-- The code of a life-cycle command, in the order of R33. -/
def Ctd.lifeCode (c : Ctd) (b : List Byte) : BitVec 8 :=
  if le b 0 2 ≠ 0x4C43 || !zeros b 4 4 || !zeros b 0x38 16 then mbBADLEN
  else if le b 2 1 ≠ c.lifeCycle.toNat || !lifeNext (le b 2 1) (le b 3 1) then mbBADSTATE
  else if (b.drop 8).take 16 ≠ fit 16 Config.deviceId || some ((b.drop 0x18).take 32) ≠ c.mbox.chal then mbBADSIG
  else if !Config.ecdsaVerify (Config.imageKey c.firmware) (Config.sha384 (b.take 0x48)) ((b.drop 0x48).take 96) then mbBADSIG
  else mbOK

/-- Every LCTRANS consumes the challenge; an accepted one ends with OK, and the transition, with its module reset, follows. -/
def execLctrans (rqlen : BitVec 16) (req : List (BitVec 8)) (s : State) : Host.Outcome State Fault Refusal :=
  let end_ (code : BitVec 8) (trans : Option (BitVec 2)) : State :=
    let s := s.mailbox 3 rqlen req code
    { s with ctd := { s.ctd with mbox := { s.ctd.mbox with chal := none, trans } } }
  s.command "LCTRANS" req
    (if s.ctd.recovery then end_ mbBADSTATE s.ctd.mbox.trans
     else if rqlen ≠ 168 then end_ mbBADLEN s.ctd.mbox.trans
     else
      let b := s.ctd.mbox.request rqlen req
      let code := s.ctd.lifeCode b
      end_ code (if code = mbOK then some (BitVec.ofNat 2 (le b 3 1)) else s.ctd.mbox.trans))

/-! ### FWLOAD and DIERESET (R32) -/

/-- The image goes to the slot that is not running, and that slot is tried first at the next module reset. -/
def Ctd.flash (c : Ctd) (img : List Byte) : Ctd :=
  if c.recovery || c.runB then { c with slotA := img, firstB := false } else { c with slotB := img, firstB := true }

def execFwload (rqlen : BitVec 16) (req : List (BitVec 8)) (s : State) : Host.Outcome State Fault Refusal :=
  let end_ (code : BitVec 8) : State := s.mailbox 4 rqlen req code
  s.command "FWLOAD" req
    (if rqlen ≠ 16 then end_ mbBADLEN
     else
      let b := s.ctd.mbox.request rqlen req
      let a := le b 0 8
      let n := le b 8 8
      if a % 64 ≠ 0 || n > 64 * 2 ^ 20 || a + n > 2 ^ 64 then end_ mbDMAERR
      else
        let img := s.host.read a n
        if accepts s.ctd.keyDigest s.ctd.fuseSvn img then
          let s' := end_ mbOK
          { s' with ctd := s'.ctd.flash img }
        else end_ mbBADSIG)

def execDiereset (rqlen : BitVec 16) (req : List (BitVec 8)) (s : State) : Host.Outcome State Fault Refusal :=
  s.command "DIERESET" req
    (if s.ctd.recovery then s.mailbox 5 rqlen req mbBADSTATE
     else if rqlen ≠ 1 then s.mailbox 5 rqlen req mbBADLEN
     else
      let n := le (s.ctd.mbox.request rqlen req) 0 1
      if n ≥ 8 then s.mailbox 5 rqlen req mbBADLEN
      else (s.mailbox 5 rqlen req mbOK).requestReset n)

/-- A nonzero CMD outside Table 2.7. -/
def execMailboxBadcmd (cmd : BitVec 8) (rqlen : BitVec 16) (s : State) : Host.Outcome State Fault Refusal :=
  if cmd.toNat ≤ 5 then .refused (.notEnabled "MAILBOX_BADCMD")
  else s.command "MAILBOX_BADCMD" [] (s.mailbox cmd rqlen [] mbBADCMD)

end Sys2Proof.Machine
end

