-- ==== Sys2Proof/Machine/HostPort.lean ====
section
/-! DEFINITION. Reads and writes of the host, and writes of other packages (R37, R64, R221, R334, R346-R348, R422). -/

namespace Sys2Proof.Machine

/-- The range lies within its memory. -/
def inSpace (sp : Space) (a n : Nat) : Bool := a + n ≤ spaceSize sp

/-- The unit of an address is ready; host memory always is. -/
def State.spaceReady (s : State) (sp : Space) (a : Nat) : Bool :=
  match (Place.mem sp a).unit with
  | some f => s.ctd.ready.bit f
  | none => true

/-- One beat: the bytes up to the next 64-byte boundary. A partial write of a block with an uncorrectable error is not
performed. -/
def State.portBeat (s : State) (p : Place) (bs : List Byte) : State :=
  match s.put none p (allOn bs) with
  | .ok s => s
  | .error b => s.retireAt b

/-- Bytes written in 64-byte-aligned beats, in order. -/
def State.portWrite (s : State) (sp : Space) : Nat → Nat → List Byte → State
  | 0, _, _ => s
  | fuel + 1, a, bs =>
    if bs.isEmpty then s
    else
      let n := 64 - a % 64
      (s.portBeat (.mem sp a) (bs.take n)).portWrite sp fuel (a + n) (bs.drop n)

/-- A host write through a memory window, or of the host's own memory. -/
def execHostWrite (sp : Space) (addr : Nat) (bytes : List (BitVec 8)) (s : State) : Host.Outcome State Fault Refusal :=
  if !inSpace sp addr bytes.length then .fault (.noSuchAddress sp addr)
  else if sp ≠ .host && !(s.ctd.ready.pf && s.spaceReady sp addr) then .refused (.notEnabled "HOST_WRITE")
  else .next (s.portWrite sp (bytes.length + 1) addr bytes)

/-! ### Registers that the host reads -/

/-- The words of a queue's configuration block (Table 6.1). -/
def State.queueWord (s : State) (q : BitVec 6) (n : Nat) : Word :=
  let x := s.lq q
  match n with
  | 0 => x.base
  | 1 => x.cfg
  | 2 => x.ptr
  | 3 => x.cq
  | 4 => x.count.setWidth 64
  | 5 => x.tail.setWidth 64
  | 6 => ((BitVec.ofBool x.ovf).setWidth 64 <<< 2) ||| ((BitVec.ofBool (s.busyQueue q)).setWidth 64 <<< 1) |||
      (BitVec.ofBool x.err).setWidth 64
  | _ => 0

/-- The words of a queue's debug block (Table 19.4). -/
def Queue.debugWord (x : Queue) (n : Nat) : Word := [x.dbgctl, x.slbase, x.trbase, x.hrbase, x.prbase, x.dbgsz, x.bp0, x.bp1].getD n 0

def Mailbox.cmdWord (m : Mailbox) : Word := (m.rqlen.setWidth 64 <<< 16) ||| m.cmd.setWidth 64

/-- MBSTAT (Table 2.6). -/
def Mailbox.stat (m : Mailbox) : Word :=
  (m.rslen.setWidth 64 <<< 16) ||| (m.code.setWidth 64 <<< 8) ||| ((BitVec.ofBool m.busy).setWidth 64 <<< 1) |||
    (BitVec.ofBool m.done).setWidth 64

/-- A byte of the registers of BAR0: the readiness map, the die-pair latency table, JSEQ, the queues' configuration and debug
blocks, and the mailbox; none where the manual gives nothing to read (R24, R32, R106, R126, R142, R393). -/
def State.bar0 (s : State) (a : Nat) : Option Byte :=
  let word (w : Word) : Option Byte := some (BitVec.ofNat 8 (w.toNat / 256 ^ (a % 8)))
  if 0x2000 ≤ a ∧ a < 0x2100 then word (SMap.get 0 s.ctd.ready.tile ((a - 0x2000) / 8))
  else if 0x2100 ≤ a ∧ a < 0x2108 then word s.ctd.ready.rdym
  else if 0x2108 ≤ a ∧ a < 0x2110 then word s.ctd.ready.rdyl
  else if 0x2110 ≤ a ∧ a < 0x2118 then word s.ctd.ready.gen
  else if 0x2118 ≤ a ∧ a < 0x2120 then some 0
  else if 0x2200 ≤ a ∧ a < 0x22A2 then
    let n := (a - 0x2200) / 2
    some (BitVec.ofNat 8 (lat (n / 9) (n % 9) / 256 ^ (a % 2)))
  else if 0x3000 ≤ a ∧ a < 0x3008 then word (BitVec.ofNat 64 s.ctd.jseq)
  else if 0x4000 ≤ a ∧ a < 0x5000 then word (s.queueWord (BitVec.ofNat 6 ((a - 0x4000) / 64)) (a % 64 / 8))
  else if 0x5000 ≤ a ∧ a < 0x6000 then word ((s.lq (BitVec.ofNat 6 ((a - 0x5000) / 64))).debugWord (a % 64 / 8))
  else if 0x6000 ≤ a ∧ a < 0x6008 then word s.ctd.mbox.cmdWord
  else if 0x6008 ≤ a ∧ a < 0x6010 then word s.ctd.mbox.stat
  else if 0x6400 ≤ a ∧ a < 0x6800 then some (s.ctd.mbox.req.getD (a - 0x6400) 0)
  else if 0x6800 ≤ a ∧ a < 0x6C00 then some (s.ctd.mbox.rsp.getD (a - 0x6800) 0)
  else none

/-- A byte of the doorbell pages of BAR2: a tail register reads 0 while any LPD bit is clear, and the rest of its page reads as zero
(R25, R106). -/
def State.bar2 (s : State) (a : Nat) : Option Byte :=
  if a < 0x1000 * 64 then
    some (if a % 0x1000 < 8 ∧ s.ctd.ready.lpd = 0xFF then
      BitVec.ofNat 8 ((s.lq (BitVec.ofNat 6 (a / 0x1000))).tail.toNat / 256 ^ (a % 0x1000)) else 0)
  else none

/-- A byte of the journal window of BAR4; the journal cannot be read before the tier is ready (R24, R126). -/
def State.bar4 (s : State) (a : Nat) : Option Byte :=
  if a < 64 * 65536 ∧ s.ctd.ready.lpd = 0xFF then some ((SMap.get [] s.ctd.journal (a / 64)).getD (a % 64) 0) else none

/-- A byte that the physical function answers; in recovery it answers the readiness map and the mailbox alone (R30). -/
def State.regByte (s : State) (w : HostWin) (a : Nat) : Option Byte :=
  match w with
  | .bar0 =>
    if s.ctd.ready.pf || (s.ctd.recovery && (a < 0x2120 || 0x6000 ≤ a)) then s.bar0 a else none
  | .bar2 => if s.ctd.ready.pf then s.bar2 a else none
  | .bar4 => if s.ctd.ready.pf then s.bar4 a else none
  | .mem _ => none

/-- A host read: the visible bytes, or a Completer Abort where a block of memory has an uncorrectable error; and the registers of
the physical function. An offset that no rule gives a register is not read (DESIGN CHOICE, log entry 115). -/
def execHostRead (win : HostWin) (addr : Nat) (n : Nat) (s : State) : Host.Outcome State Fault Refusal :=
  match win with
  | .mem sp =>
    if !inSpace sp addr n then .fault (.noSuchAddress sp addr)
    else if sp ≠ .host && !(s.ctd.ready.pf && s.spaceReady sp addr) then .refused (.notEnabled "HOST_READ")
    else
      let p := Place.mem sp addr
      (match s.badIn p (List.replicate n (0, false)) with
       | some b =>
        let s := s.retireAt (p.at (64 * b))
        .next { s with ctd := { s.ctd with reads := s.ctd.reads ++ [none] } }
       | none => .next { s with ctd := { s.ctd with reads := s.ctd.reads ++ [some (s.readPlace p n)] } })
  | w =>
    match (List.range n).mapM fun i => s.regByte w (addr + i) with
    | none => .refused (.notEnabled "HOST_READ")
    | some bs => .next { s with ctd := { s.ctd with reads := s.ctd.reads ++ [some bs] } }

/-- The addend that bytes from another package give, and how many they are: a quire, or an element of the FP set (R64, R246). -/
def peerAddend (op : PeerOp) (bytes : List Byte) : Option (Addend × Nat) :=
  match op with
  | .write => none
  | .quire => some (addendOf .t16e1 true (ofLe bytes), 64)
  | .elem f => some (addendOf f false (ofLe bytes % 2 ^ f.width), (f.width + 7) / 8)

/-- The form is one that another package can send. -/
def peerOk (op : PeerOp) (addr : Nat) (bytes : List Byte) : Bool :=
  match peerAddend op bytes with
  | none => true
  | some (_, n) => addr % 128 = 0 && bytes.length = n && (match op with | .elem f => FmtSet.fp.has f | _ => true)

/-- A write, or the addend of a quire cell, from another package. -/
def execPeerWrite (port : Nat) (sp : Space) (addr : Nat) (bytes : List (BitVec 8)) (op : PeerOp) (s : State) :
    Host.Outcome State Fault Refusal :=
  let n := if op = .write then bytes.length else 128
  if !inSpace sp addr n then .fault (.noSuchAddress sp addr)
  else if port ≥ 4 || !s.ctd.ready.dv.getLsbD port || !s.spaceReady sp addr || !peerOk op addr bytes then
    .refused (.notEnabled "PEER_WRITE")
  else
    match peerAddend op bytes with
    | none => .next (s.portWrite sp (bytes.length + 1) addr bytes)
    | some (x, _) =>
      let p := Place.mem sp addr
      match s.badIn p (List.replicate 128 (0, false)) with
      | some b => .next (s.retireAt (p.at (64 * b)))
      | none => .next (s.landBytes none p (allOn ((Cell.ofBytes (s.readPlace p 128)).add x).bytes))

end Sys2Proof.Machine
end

