-- ==== Sys2Proof/Machine/Cycle.lean ====
section
/-! DEFINITION. The turn of the zone cycle: what counts down, what the cycle brings in which order, and what the hardware may
put off (R141, R147, R152, R157, R159, R163, R166, R207, R234, R391). -/

namespace Sys2Proof.Machine

/-! ### Counting down -/

/-- A cycle of a stretch counts in no latency: what counts from an earlier cycle, or waits for a later one, moves with it (R166). -/
def Ctx.stretchTick (c : Ctx) (now : Nat) : Ctx :=
  let on (n : Nat) : Nat := if now ≤ n then n + 1 else n
  { c with
    lastIssue := c.lastIssue + 1
    reqAt := on c.reqAt
    probe := c.probe.map fun p => { p with
      sent := p.sent + 1, nat0 := p.nat0.map (· + 1), ready := p.ready.map fun x => (x.1, on x.2) }
    fstop := c.fstop.map fun f => { f with until_ := on f.until_, floor := on f.floor, last := f.last.map fun x => (x.1, x.2 + 1) }
    chk := c.chk.map fun x => { x with until_ := x.until_.map on } }

/-- One cycle passes for a context. In a held cycle its results wait, and its padded completions move (R152, R166). -/
def Ctx.tick (c : Ctx) (held stretched : Bool) (now : Nat) : Ctx :=
  let c : Ctx := { c with vwNew := 0, probe := c.probe.map fun p => if held && !stretched then { p with froz := p.froz + 1 } else p }
  let c : Ctx := if stretched then c.stretchTick now else { c with path := c.path.map fun (p : PathItem) => { p with left := p.left - 1 } }
  if c.life = .free then c
  else if held then c.later now now
  else { c with inflight := c.inflight.map fun (l : Landing) => { l with left := l.left - 1 } }

/-- The started command of a queue will complete in its declared cycle, which is this one: all that is left to it are FIFO entries whose
bytes have been moved, or the last raw bytes of a stream. -/
def Ctx.onTime (c : Ctx) (x : Tile) (k : BitVec 2) (q : Nat) (r : Started) : Bool :=
  let i := match decSlot 6 r.e.word with | .op i => some i | _ => none
  let freed (f : FS) : Nat :=
    (c.inflight.filter fun l => l.left = 0 && match l.w with | .fifoFree g _ => g = f | _ => false).length
  let fills : Bool := match i.bind fillTarget with
    | some f => r.staged.length ≤ 2 && r.staged.length ≤ (c.toCore.fifo f).free + freed f
    | none => true
  let serving : Bool := match x.decomp with
    | some d => d.k = k && d.xq = q && (d.busy || (match i with | some (.xdec o) => if o.cmd.getLsbD 1 then 256 else 448 | _ => 0) < d.staged.length)
    | none => false
  r.beats.isEmpty && !r.acting && r.decoded && fills && !serving

/-- A padded completion of a timed furrow's context cannot come by its declared cycle (R152, R160). -/
def Ctx.stuckIn (c : Ctx) (x : Tile) (k : BitVec 2) (now : Nat) : Bool :=
  c.timed && c.span ≥ 2 && (c.life = .running || c.life = .retiring) && (List.range 4).any fun q =>
    let u := c.queue q
    let behind (e : XEntry) : Bool := match e.due with | some d => decide (d ≤ now) | none => false
    u.qs = 0 && (u.ents.any behind || match u.run with
      | some r => behind r.e && !(r.e.due = some now && c.onTime x k q r)
      | none => false)

/-- One cycle passes for a tile. -/
def Tile.tick (x : Tile) (stretched : Bool) (now : Nat) : Tile :=
  let freeze := if stretched then x.freeze.map fun f => if now ≤ f.1 then (f.1 + 1, f.2) else f else x.freeze
  let held := stretched || x.frozen now
  let decomp := x.decomp.map fun d => { d with left := d.left - 1 }
  let y : Tile := { x with ctx := x.ctx.map fun e => (e.1, e.2.tick held stretched now), decomp }
  let ctx := y.ctx.map fun e => (e.1, { e.2 with stuck := e.2.stuckIn y (BitVec.ofNat 2 e.1) now })
  { x with
    ctx
    freeze := freeze.filter fun f => now < f.1 + f.2
    decomp
    undo := x.undo.filter fun u => now < u.1 + 2
    added := [], fresh := [], moved := ({ x with ctx } : Tile).reserved }

/-- A cycle of a stretch passes for the barriers of a launch (R166, R358). -/
def Launch.stretchTick (l : Launch) : Launch :=
  { l with barWay := l.barWay.map fun x => (x.1, x.2.1 + 1, x.2.2), barAt := l.barAt.map fun x => (x.1, x.2 + 1) }

/-- What the cycle that ends has recorded is written out, and the zone counters advance. -/
def State.advance (s : State) : State :=
  let s := { s with tiles := s.tiles.map fun (e : Nat × Tile) => (e.1, { e.2 with
      ctx := e.2.ctx.map fun (y : Nat × Ctx) => (y.1, y.2.recordEvents) }) }
  let s := s.flushDebug
  let s := { s with zone := s.zone + 1 }
  let stretched := s.stretched
  let now := s.now
  ({ s with
    tiles := s.tiles.map fun (e : Nat × Tile) => (e.1, e.2.tick stretched now)
    ctd := if stretched then { s.ctd with launches := s.ctd.launches.map Launch.stretchTick } else s.ctd } : State).barrierDelivery

/-- The age of the bytes that a fetch reads: at most two cycles, as the hardware chooses (R147). -/
def State.drawLag (s : State) (t : Nat) (k : BitVec 2) : State :=
  let c := s.ctx t k
  if c.life = .running && c.leads then
    let (n, s) := s.choose
    s.setCtx t k { s.ctx t k with lag := n % 3 }
  else s

/-! ### What may be put off -/

/-- Each event comes now, or the hardware puts it off for a cycle. -/
def State.putOff (s : State) : List Instr → List Instr × State
  | [] => ([], s)
  | i :: is =>
    let (n, s) := s.choose
    let (js, s) := State.putOff s is
    (if n % 2 = 1 then js else i :: js, s)

/-- Every context of every tile, with its tile and number. -/
def State.everyCtx (s : State) : List (Nat × BitVec 2 × Ctx) :=
  s.tiles.flatMap fun e => allK.filterMap fun k =>
    let c := e.2.get k
    if c.life = .free then none else some (e.1, k, c)

/-! ### The engines (R206, R207, R234) -/

/-- The started commands of a tile that have beats to land, by context and queue. -/
def Tile.moving (x : Tile) : List (BitVec 2 × Nat × Started) :=
  allK.flatMap fun k => (List.range 4).filterMap fun q =>
    match ((x.get k).queue q).run with
    | some r => if r.beats.isEmpty then none else some (k, q, r)
    | none => none

/-- The bytes that a started command still moves; the rows of an XCSR may bring as many entries as its CAP allows. -/
def Started.bytesLeft (r : Started) : Nat :=
  match decSlot 6 r.e.word with
  | .op i =>
    let n := (r.beats.map (Beat.size i)).sum
    (match i with
     | .xcsr o => (let a := csrOf r.e.recs r.e.vals o.en; n + 8 * a.nrows + (4 + 2 ^ a.esz) * a.cap)
     | _ => n)
  | _ => 0

/-- Events enough to move what the engine can in one cycle. -/
def Started.events (r : Started) : Nat :=
  if r.beats.any fun b => match b with | .csrRow _ => true | _ => false then 128
  else min r.beats.length 512

def beatEvent (t n : Nat) (x : BitVec 2 × Nat × Started) : Instr :=
  .xeBeatLand t x.1 (BitVec.ofNat 2 x.2.1) (n % x.2.2.beats.length)

/-- The commands that share what exclusive contexts leave of a cycle, by context and queue: those with beats to land, and the XDEC that
holds the decompressor, whose releases are its beats (R207). -/
def Tile.sharing (x : Tile) : List (BitVec 2 × Nat × Option Started) :=
  (allK.filter fun k => !(x.get k).exclusive).flatMap fun k => (List.range 4).filterMap fun q =>
    let dec : Bool := match x.decomp with | some d => d.k = k && d.xq = q | none => false
    if dec then some (k, q, none)
    else match ((x.get k).queue q).run with
      | some r => if r.beats.isEmpty then none else some (k, q, some r)
      | none => none

def sharedEvent (t n : Nat) (x : BitVec 2 × Nat × Option Started) : Instr :=
  match x.2.2 with
  | some r => beatEvent t n (x.1, x.2.1, r)
  | none => .decompRelease t

/-- The commands in the order of the round-robin, from the one numbered `rr` onward. -/
def roundFrom (rr : Nat) (xs : List (BitVec 2 × Nat × Option Started)) : List (BitVec 2 × Nat × Option Started) :=
  (xs.filter fun x => rr ≤ 4 * x.1.toNat + x.2.1) ++ xs.filter fun x => 4 * x.1.toNat + x.2.1 < rr

def Started.fills (r : Started) : Bool := match r.beats with | .entry _ _ :: _ => true | _ => false

/-- The last cycle before that in which entry `n` of those still to be moved is due, for the beats of a FIFO; before the declared
completion for others. -/
def Started.deadline (r : Started) (n : Nat) : Nat :=
  (if r.fills then r.e.fifoDue + (r.napp + r.staged.length + n) / 2 else r.e.due.getD 0) - 1

/-- The bytes that a timed command has still to move by a cycle (R234). -/
def Started.bytesBy (r : Started) (d : Nat) : Nat :=
  if r.fills then 256 * ((List.range r.beats.length).filter fun n => r.deadline n ≤ d).length
  else if r.deadline 0 ≤ d then r.bytesLeft else 0

/-- By deadline, the earliest first. -/
def insertRun (x : BitVec 2 × Nat × Started) : List (BitVec 2 × Nat × Started) → List (BitVec 2 × Nat × Started)
  | [] => [x]
  | y :: ys => if x.2.2.deadline 0 < y.2.2.deadline 0 then x :: y :: ys else y :: insertRun x ys

/-- The FIFO entries that wait for their cycles. -/
def Tile.stagedEvents (x : Tile) (t : Nat) : List Instr :=
  allK.flatMap fun k => (List.range 4).flatMap fun q =>
    match ((x.get k).queue q).run with
    | some r => if r.staged.isEmpty then [] else List.replicate 2 (.xeBeatLand t k (BitVec.ofNat 2 q) r.beats.length)
    | none => []

/-- The beats of timed commands that may not wait: where the bytes due by some cycle leave no slack at what one cycle may move, every
beat, the earliest deadline first (R234). -/
def Tile.mustBeats (x : Tile) (t now : Nat) (xs : List (BitVec 2 × Nat × Started)) : List Instr :=
  let timed := (xs.filter fun y => y.2.2.e.due.isSome).foldr insertRun []
  let tight : Bool := timed.any fun y =>
    let d := y.2.2.deadline (y.2.2.beats.length - 1)
    d ≤ now || y.2.2.deadline 0 ≤ now || 448 * (d - now) < ((timed.map fun z => z.2.2.bytesBy d).sum)
  if tight || x.decomp.isSome then
    timed.flatMap fun y => List.replicate (if y.2.2.fills then 2 else y.2.2.events) (beatEvent t 0 y)
  else []

/-- The beats of a tile in this cycle, as many as the hardware chooses: those of timed commands that may not wait, then an exclusive
context's; the others one at a time in turn. -/
def State.beatEvents (s : State) (t : Nat) : (List Instr × List Instr) × State :=
  let x := s.tile t
  let xs := x.moving
  let late := x.stagedEvents t
  if xs.isEmpty && x.sharing.isEmpty then ((late, []), s)
  else
    let (n, s) := s.choose
    let (m, s) := s.choose
    let room := 64 - n % 65
    let first := ((xs.filter fun y => (x.get y.1).exclusive).flatMap fun y =>
      List.replicate (min room y.2.2.beats.length) (beatEvent t m y)).take room
    let ring := roundFrom x.rr x.sharing
    let left := if ring.isEmpty then 0 else room - first.length
    let rest := (List.range left).filterMap fun i => (ring[i % ring.length]?).map (sharedEvent t m)
    ((late ++ x.mustBeats t s.now xs ++ first, rest), s)

/-- The queues of a tile that may complete, or start, a command. -/
def State.queueEvents (s : State) (t : Nat) (ev : BitVec 2 → BitVec 2 → Instr) (may : BitVec 2 → Nat → Bool) :
    List Instr × State :=
  let x := s.tile t
  let ks := (allK.filter fun k => (x.get k).exclusive) ++ allK.filter fun k => !(x.get k).exclusive
  let all := ks.flatMap fun k => (List.range 4).filterMap fun q =>
    if may k q then some (k, ev k (BitVec.ofNat 2 q)) else none
  let (xs, s) := s.putOff ((all.filter fun e => !(s.ctx t e.1).timed).map (·.2))
  (((all.filter fun e => (s.ctx t e.1).timed).map (·.2)) ++ xs, s)

/-- The decompressor of a tile: a block done, and what it releases to an exclusive context; another's releases are beats in turn. -/
def State.decompEvents (s : State) (t : Nat) : List Instr × State :=
  let x := s.tile t
  match x.decomp with
  | none => if x.moving.isEmpty && (x.ctx.all fun e => e.2.life = .free) then ([], s) else ([.decompRelease t], s)
  | some d =>
    let c := x.get d.k
    let all : List Instr := .decompBlockDone t :: (if c.exclusive then List.replicate 9 (.decompRelease t) else [])
    if c.timed then (all, s) else s.putOff all

/-- Starts once more for each XJOIN of the timed contexts: each completes in the cycle of the last command it joins (R251). -/
def State.joinRounds (s : State) (t : Nat) (starts : List Instr) : List Instr :=
  let joins := (allK.filter fun k => (s.ctx t k).timed).flatMap fun k => (List.range 4).flatMap fun q =>
    ((s.ctx t k).queue q).ents.filter fun e => match decSlot 6 e.word with | .op (.xjoin _ _ _) => true | _ => false
  (joins.map fun _ => starts).flatten

/-- The engine of one tile: the decompressor and the beats, completions and starts. What an exclusive context's commands move comes
first (R207). -/
def State.engineEvents (s : State) (t : Nat) : List Instr × State :=
  let ((a, a'), s) := s.beatEvents t
  let (d, s) := s.decompEvents t
  let run (k : BitVec 2) (q : Nat) : Bool := (((s.ctx t k).queue q).run).isSome
  let held (k : BitVec 2) (q : Nat) : Bool := !((s.ctx t k).queue q).ents.isEmpty
  let (b, s) := s.queueEvents t (.xeCommandComplete t) run
  let (c, s) := s.queueEvents t (.xeCommandStart t) held
  (d ++ a ++ a' ++ b ++ c ++ s.joinRounds t c, s)

/-- Every tile's engine. -/
def State.allEngines (s : State) : List Nat → List Instr × State
  | [] => ([], s)
  | t :: ts =>
    let (a, s) := s.engineEvents t
    let (b, s) := State.allEngines s ts
    (a ++ b, s)

/-- Adds on their way, arrival counters that have counted their bytes, and barriers that every furrow has reached. -/
def State.messages (s : State) : List Instr :=
  let adds := s.ctd.adds.map fun m => Instr.remoteAddArrival m.id.q m.id.i m.t m.k (BitVec.ofNat 6 m.ctr) m.amt
  let at_ (l : ArrLoc) : List Instr := (s.arrivals l).filterMap fun e => if e.2.due then some (.arrivalRelease l e.1) else none
  adds ++ (s.tiles.flatMap fun e => at_ (.tile e.1)) ++ ((s.arrHbm.map fun e => e.1 / 64).eraseDups.flatMap fun n => at_ (.hbm n)) ++
    at_ .lpddr

def Launch.barriers (l : Launch) : List Instr :=
  ((l.barArr.map (·.1)).eraseDups.filter l.complete).map fun b => .barrierRelease l.id.q l.id.i (BitVec.ofNat 3 b)

/-! ### The control die -/

/-- What may come of a queue's next record. -/
def State.recordEvent (s : State) (q : BitVec 6) : List Instr :=
  match s.nextRecord q with
  | none => []
  | some (i, bs) => [if !s.passes q i then .launchRecord q else if kindOf bs = 2 then .killRecord q else .migrateRecord q]

/-- What may come of a launch. -/
def State.launchEvents (s : State) (l : Launch) : List Instr :=
  let q := l.id.q
  let i := l.id.i
  match l.phase with
  | .deps => [.launchWalk q i]
  | .walk => if l.holdAt.isNone then [.launchWalk q i] else []
  | .admitting => [.launchAdmission q i]
  | .loading => (l.toPlace.map fun d => .launchPacketPlace d q i) ++ l.toAck.map fun d => .loadAck d q i
  | .parked => []
  | .running =>
    if !l.started then []
    else (l.furrowDies.filter fun d => !l.reported.contains d).map (fun d => .retirementReport d q i) ++ [.launchRetire q i]
  | .ending =>
    (((s.contexts l.id).filter fun x => (s.ctx x.1 x.2).alive).map (·.1)).eraseDups.map (fun t => .killArrival t q i) ++
      l.toQuiesce.map fun d => .quiesceAck d q i

/-- What a launch must come to in this cycle: its start, and its deadlines. -/
def State.launchDue (s : State) (l : Launch) : List Instr :=
  let q := l.id.q
  let i := l.id.i
  match l.phase with
  | .walk => if l.holdAt.isNone then [] else (if 6000000 ≤ l.heldFor s.now then [.pttime q i] else []) ++
      (if l.reread ≤ s.now then [.walkReread q i] else [])
  | .running => if l.started then [] else [.contextStart q i]
  | .ending => if s.now < l.deadline then [] else l.toQuiesce.map fun d => .quiesceTimeout d q i
  | _ => []

def State.dieEvents (s : State) : List Instr :=
  s.ctd.dies.flatMap fun e => match e.2 with
    | .draining d => if s.now < d then [.drainEnd e.1] else [.drainDeadline e.1]
    | _ => []

/-- Every function of the readiness map. -/
def allFuncs : List Func :=
  .pf :: (List.range 4).map Func.mgmt ++ (List.range 8).map Func.lpddr ++ (List.range 8).map Func.die ++
    (List.range 16).map Func.hbm ++ (List.range 12).map Func.boundary ++ (List.range 4).map Func.dv ++ (List.range 2048).map Func.tile

/-- Bring-up goes on: one function may report ready, and one past its bound is given up (R23). -/
def State.bringUp (s : State) : List Instr × State :=
  let fs := allFuncs.filter s.pendingReady
  if fs.isEmpty then ([], s)
  else
    let (n, s) := s.choose
    let up : List Instr := match fs[n % (fs.length + 1)]? with | some f => [.functionReady f] | none => []
    (((fs.filter s.pastBound).map Instr.readyTimeout) ++ up, s)

/-- Stretches and clock steps begin and end in their cycles. -/
def State.clockEvents (s : State) : List Instr :=
  let x := s.ctd.stretch
  (if x.sched.any fun y => y.1 + y.2 ≤ s.now then [.stretchEnd] else []) ++
    ((x.sched.filter fun y => x.begun < y.1 && y.1 ≤ s.now && s.now < y.1 + y.2).map fun y => .stretch y.2) ++
    (match s.ctd.clockUntil with | some u => if u ≤ s.now then [.clockStepEnd] else [] | none => [])

/-! ### Contexts -/

/-- Landings of the cycle: those of contexts with a secondary's results first, so that a primary's store prevails (R203). -/
def State.landEvents (s : State) : List Instr :=
  let xs := s.everyCtx.filter fun x => x.2.2.inflight.any fun l => l.left = 0
  let second (x : Nat × BitVec 2 × Ctx) : Bool := x.2.2.inflight.any fun l => l.left = 0 && l.second
  ((xs.filter second) ++ xs.filter fun x => !second x).map fun x => .resultLand x.1 x.2.1

/-- What comes of contexts before the merge stage. -/
def State.ctxEvents (s : State) : List Instr :=
  s.everyCtx.flatMap fun x =>
    let (t, k, c) := x
    (if c.life = .retiring then [Instr.contextRetire t k] else []) ++
      (c.hashes.map fun h => .hashRecord t k (BitVec.ofNat 32 h.i)) ++
      (if c.leads && c.exchanging then [.digestExchange t k] else []) ++
      (if c.imgOp && c.imgAt ≤ s.now then [.imageOperationEnd t k] else [])

/-- Furrows: stops, deliveries and probes; then the waits; then the merge stage of each tile. -/
def State.issueEvents (s : State) : List Instr :=
  let xs := s.everyCtx
  let fs := xs.filter fun x => x.2.2.span ≥ 2
  (fs.map fun x => .furr x.1 x.2.1) ++
    ((fs.filter fun x => !x.2.2.path.isEmpty).map fun x => .furrowBundleDelivery x.1 x.2.1) ++
    ((fs.filter fun x => x.2.2.leads).map fun x => .waitProbe x.1 x.2.1) ++
    ((xs.filter fun x => x.2.2.hold.isSome).map fun x => .waitConditionMet x.1 x.2.1) ++
    ((xs.filter fun x => x.2.2.life = .running || x.2.2.life = .placed).map (·.1)).eraseDups.map fun t => .mergeStageChoice t

/-! ### The turn -/

/-- The cycle turns: the counters advance, and the events of the new cycle stand in the agenda in their order: results land before
the engines move bytes and before adds arrive (R189, R300, R337, R421). -/
def State.turn (s : State) : State :=
  let s := s.advance.mailboxTurn.nextStep
  let s := s.everyCtx.foldl (fun s x => s.drawLag x.1 x.2.1) s
  let due := s.inbox.filter fun e => e.1 ≤ s.now
  let s := { s with inbox := s.inbox.filter fun e => s.now < e.1 }
  let clock := s.clockEvents
  let (up, s) := s.bringUp
  let (eng, s) := s.allEngines (s.tiles.map (·.1))
  let (msg, s) := s.putOff (s.messages ++ (s.ctd.launches.filter fun l => !l.hdr.timed).flatMap Launch.barriers)
  let bars := (s.ctd.launches.filter fun l => l.hdr.timed).flatMap Launch.barriers
  let must := s.ctd.launches.flatMap s.launchDue
  let may := (s.ctd.queues.flatMap fun e => s.recordEvent (BitVec.ofNat 6 e.1)) ++
    (s.ctd.migrations.map fun m => .migrateComplete m.id.q m.id.i) ++ s.ctd.launches.flatMap s.launchEvents ++
    (s.ctd.sideMsgs.map fun m => .sidingRelease m.1 m.2) ++ s.dieEvents
  let (ctd, s) := s.putOff may
  { s with agenda := s.landEvents ++ clock ++ due.map (·.2) ++ up ++ eng ++ msg ++ bars ++ must ++ ctd ++ s.ctxEvents ++ s.issueEvents }

/-! ### Where a program stands for a single step -/

/-- Bytes of a slot word as the hardware lays a bundle out. -/
def bundleBytes (w : Nat) : List Byte := leBytes 64 w

/-- The elastic user context of FLEN 1 that holds the tile alone, with its window at the start of the scratchpad. -/
def probeCtx : Ctx :=
  let core : Core := { vw := (List.range 4).map fun n => (n, 0x40000FF00#64) }
  { toCore := core, launch := some ⟨0, 0⟩, life := .running, qrows := 32, counters := 64, foot := 0x10000
    cmap := (List.range 64).map fun n => (n, some n) }

/-- The tile with a bundle at offset 0 of the context's window. -/
def probeTile (w : Nat) : Tile :=
  { scratch := Mem.write (Mem.write [] 0 (bundleBytes w)) 0x2C0008 (leBytes 8 0x10000), ctx := [(0, probeCtx)] }

end Sys2Proof.Machine
end

