-- ==== Sys2Proof/Machine/Control.lean ====
section
/-! DEFINITION. Control transfers, hardware loops, traps, returns and exits (R149, R177-R186, R190-R193). -/

namespace Sys2Proof.Machine

/-- Take a transfer to the offset `t`, or trap with BND (R177). -/
def Op.jump (o : Op) (t : Int) (annul ret : Bool) : Op :=
  if t < 0 || t ≥ 2 ^ 22 || t % 64 ≠ 0 then o.raise cBND (ea32 t)
  else { o with u := { o.u with xfer := some (.off (BitVec.ofInt 16 (t / 64))), annul, isRet := ret } }

/-- The offset of the bundle that holds the operation. -/
def Op.here (o : Op) : Int := 64 * (o.u.off.toNat : Int)

/-- The transfer was refused. -/
def Op.trapped (o : Op) : Bool := o.u.raised.any fun r => r.slot = o.slot

/-- The link value: the offset after the two delay bundles (R177). -/
def Op.link (o : Op) (sd : BitVec 5) : Op :=
  if o.trapped then o else o.land 1 (.sreg sd.toNat (BitVec.ofInt 64 (o.here + 192)))

/-- BR: at a member it does nothing (R149). -/
def execBr (p : Pred) (disp : BitVec 20) (s : State) : Host.Outcome State Fault Refusal :=
  slotStep 0 (.br p disp) p (fun o => if o.c.leads then o.jump (o.here + 64 * disp.toInt) false false else o) s

def execBri (p : Pred) (sa : BitVec 5) (disp : BitVec 20) (s : State) : Host.Outcome State Fault Refusal :=
  slotStep 0 (.bri p sa disp) p
    (fun o => if o.c.leads then o.jump ((o.regs.sreg sa).toInt + 64 * disp.toInt) false false else o) s

/-- CALL: a member writes the link under its own predicate (R149). -/
def execCall (p : Pred) (sd : BitVec 5) (base : CallBase) (disp : BitVec 20) (s : State) :
    Host.Outcome State Fault Refusal :=
  slotStep 0 (.call p sd base disp) p
    (fun o =>
      let t := match base with
        | .rel => o.here + 64 * disp.toInt
        | .reg sa => (o.regs.sreg sa).toInt + 64 * disp.toInt
      (if o.c.leads then o.jump t false false else o).link sd) s

def execRet (p : Pred) (sa : BitVec 5) (s : State) : Host.Outcome State Fault Refusal :=
  slotStep 0 (.ret p sa) p (fun o => if o.c.leads then o.jump (o.regs.sreg sa).toInt false true else o) s

/-- LOOP (R181, R182, R185). -/
def Op.loop (o : Op) (a : LoopArgs) : Op :=
  let count : BitVec 32 := match a.n with
    | .reg r => (o.regs.sreg r).setWidth 32
    | .imm n => n.setWidth 32
  let start : BitVec 16 := o.u.off + 1
  if count = 0 then o.jump (64 * ((start.toNat + a.len.toNat : Nat) : Int)) true false
  else if o.c.ldep ≥ 6 then o.raise cLSTK
  else
    { o with
      c := { o.c with toCore := o.c.toCore.pushLevel { count, idx := 0, len := a.len, start, rt := a.rt, pe := a.pe } }
      u := { o.u with pushed := some count } }

def execLoop (a : LoopArgs) (s : State) : Host.Outcome State Fault Refusal :=
  slotStep 0 (.loop a) a.p (fun o => if o.c.leads then o.loop a else o) s

/-- LOOPX (R184, R185). -/
def Op.loopx (o : Op) : Op :=
  if o.c.ldep = 0 then o.raise cLSTK
  else
    let l := o.c.toCore.level (o.c.ldep - 1)
    let o' := o.jump (64 * ((l.start.toNat + l.len.toNat : Nat) : Int)) false false
    if o'.trapped then o'
    else { o' with c := { o'.c with toCore := o'.c.toCore.popLevel }, u := { o'.u with popped := true } }

def execLoopx (p : Pred) (s : State) : Host.Outcome State Fault Refusal :=
  slotStep 0 (.loopx p) p (fun o => if o.c.leads then o.loopx else o) s

/-- LIDX (R186); at a member the index comes from the stream tag (R149). -/
def execLidx (p : Pred) (sd : BitVec 5) (d : BitVec 3) (s : State) : Host.Outcome State Fault Refusal :=
  slotStep 0 (.lidx p sd d) p
    (fun o =>
      let i : BitVec 32 :=
        if o.c.leads then
          (if d.toNat ≥ o.c.ldep then 0 else (o.c.toCore.level (o.c.ldep - 1 - d.toNat)).idx)
        else o.u.idx.getD d.toNat 0
      o.land 1 (.sreg sd.toNat (i.setWidth 64))) s

/-- TRAP (R190). -/
def execTrap (p : Pred) (imm : BitVec 16) (s : State) : Host.Outcome State Fault Refusal :=
  slotStep 0 (.trap p imm) p (fun o => o.raise cTRAPI (imm.setWidth 64)) s

/-- TRET (R192): the sequencer is loaded two bundles later; a transfer of the handler still pending is discarded. -/
def execTret (p : Pred) (s : State) : Host.Outcome State Fault Refusal :=
  slotStep 0 (.tret p) p
    (fun o => { o with c := { o.c with pend := [] }, u := { o.u with xfer := some .tret } }) s

/-- EXIT (R193). -/
def execExit (p : Pred) (s : State) : Host.Outcome State Fault Refusal :=
  slotStep 0 (.exit p) p (fun o => { o with u := { o.u with exit := true } }) s

end Sys2Proof.Machine
end

