-- ==== Sys2Proof/Machine/Convert.lean ====
section
/-! DEFINITION. Conversions and packing (R57, R278-R281). -/

namespace Sys2Proof.Machine

/-- The source element of destination element `e` in a conversion from width `ws` to `wd` with part `p` (R278). -/
def cvtSource (ws wd p e : Nat) : Option Nat :=
  if ws = wd then some e
  else if wd < ws then
    (let ns := 2048 / ws
     if p * ns ≤ e && e < p * ns + ns then some (e - p * ns) else none)
  else some (p * (2048 / wd) + e)

/-- The lanes of the destination elements a conversion maps. -/
def cvtLanes (ws wd p : Nat) : Mask :=
  (List.range 128).foldl (fun (acc : Mask) l =>
    if (cvtSource ws wd p (16 * l / wd)).isSome then acc ||| (1#128 <<< l) else acc) 0

/-- The common form of a conversion. -/
def Op.vconv (o : Op) (a : VArgs) (ws wd : Nat) (f : BitVec 32 → Nat → Nat × Flags) : Op :=
  let (x, o) := o.readF ws a.a
  let o := o.srEntry a
  o.emitElems a 3 wd (lanesOf (o.mask a) wd &&& cvtLanes ws wd a.cvtPart) fun e =>
    match cvtSource ws wd a.cvtPart e with
    | some i => f (o.drawAt e) (elem x ws i)
    | none => (0, 0)

/-- VCVT of one element (R279). -/
def cvtElem (sf df : Fmt) (sat u : Bool) (rm : RM) (d : BitVec 32) (x : Nat) : Nat × Flags :=
  if sf.isInt then
    (let z := intOf u sf.width x
     if df.isInt then (modW df.width (if sat then clampInt u df.width z else z), 0)
     else roundF rm df d false ⟨z, 1⟩)
  else if sf = df then
    -- every value is unchanged; a NaN becomes the canonical one (R52)
    match decodeF sf x with
    | .nan q => (qNaN df, if q then 0 else flagNV)
    | .nar => (x, flagNR)
    | _ => (x, 0)
  else roundVal rm df d (decodeF sf x)

def execVcvt (a : VArgs) (s : State) : Host.Outcome State Fault Refusal :=
  slotStep (unitSlot a.u) (.vcvt a) a.p
    (fun o => o.vconv a a.sfmt.width a.fmt.width
      (cvtElem a.sfmt a.fmt (a.var.getLsbD 1) (a.var.getLsbD 0) a.rm)) s

/-- VCVTI (R280). -/
def execVcvti (a : VArgs) (s : State) : Host.Outcome State Fault Refusal :=
  slotStep (unitSlot a.u) (.vcvti a) a.p
    (fun o =>
      let wd := dwBits (a.imm.extractLsb' 0 2).toNat
      o.vconv a a.fmt.width wd (fun d x => toIntW a.rm (a.var.getLsbD 0) wd d (decodeF a.fmt x))) s

/-- VPACK (R281). -/
def execVpack (a : VArgs) (s : State) : Host.Outcome State Fault Refusal :=
  slotStep (unitSlot a.u) (.vpack a) a.p
    (fun o =>
      let w := a.fmt.width
      let (x, o) := o.readF (2 * w) a.a
      let (y, o) := o.readF (2 * w) a.b
      let h := 1024 / w
      o.emitElems a 3 w (lanesOf (o.mask a) w) fun e =>
        (if e < h then elem x (2 * w) e % 2 ^ w else elem y (2 * w) (e - h) % 2 ^ w, 0)) s

/-- VUNPK (R281): the destination elements, and their enables, have width 2w. -/
def execVunpk (a : VArgs) (s : State) : Host.Outcome State Fault Refusal :=
  slotStep (unitSlot a.u) (.vunpk a) a.p
    (fun o =>
      let w := a.fmt.width
      let (x, o) := o.readF w a.a
      let part := (a.imm.extractLsb' 4 1).toNat
      o.emitElems a 3 (2 * w) (lanesOf (o.mask a) (2 * w)) fun e =>
        (modW (2 * w) (intOf (a.var.getLsbD 0) w (elem x w (part * (1024 / w) + e))), 0)) s

end Sys2Proof.Machine
end

