-- ==== Sys2Proof/Machine/Scalar.lean ====
section
/-! DEFINITION. Scalar arithmetic, selection, compares and predicate logic (R40, R56, R169-R176). -/

namespace Sys2Proof.Machine

/-- alu (R169): `f x y a b w` is the exact result before reduction. -/
def Op.alu (o : Op) (a : AluArgs) (latency : Nat) (f : Int → Int → Nat → Nat → Nat → Int) : Op :=
  let w := a.w.bits
  let x := (o.regs.sreg a.sa).toNat % 2 ^ w
  let y := srcB o.regs w a.u a.b
  o.land latency (.sreg a.sd.toNat (extRes a.u w (modW w (f (intOf a.u w x) (intOf a.u w y) x y w))))

/-- Scalar division (R56): the quotient. -/
def quotient (x y : Int) : Int := if y = 0 then -1 else x.tdiv y

/-- The remainder. -/
def remainder (x y : Int) : Int := if y = 0 then x else x.tmod y

/-- Leading zeros of a `w`-bit natural. -/
def leadingZeros (w a : Nat) : Nat := if a = 0 then w else w - 1 - Nat.log2 a

/-- Bits set among the low `n` bits. -/
def onesBelow (a : Nat) : Nat → Nat
  | 0 => 0
  | n + 1 => onesBelow a n + (if a.testBit n then 1 else 0)

def execAdd (o : AluArgs) (s : State) : Host.Outcome State Fault Refusal :=
  slotStep 0 (.add o) o.p (fun op => op.alu o 1 fun x y _ _ _ => x + y) s

def execSub (o : AluArgs) (s : State) : Host.Outcome State Fault Refusal :=
  slotStep 0 (.sub o) o.p (fun op => op.alu o 1 fun x y _ _ _ => x - y) s

def execMul (o : AluArgs) (s : State) : Host.Outcome State Fault Refusal :=
  slotStep 0 (.mul o) o.p (fun op => op.alu o 3 fun x y _ _ _ => x * y) s

def execMulh (o : AluArgs) (s : State) : Host.Outcome State Fault Refusal :=
  slotStep 0 (.mulh o) o.p (fun op => op.alu o 3 fun x y _ _ w => (x * y).fdiv (2 ^ w)) s

def execDiv (o : AluArgs) (s : State) : Host.Outcome State Fault Refusal :=
  slotStep 0 (.div o) o.p (fun op => op.alu o 16 fun x y _ _ _ => quotient x y) s

def execRem (o : AluArgs) (s : State) : Host.Outcome State Fault Refusal :=
  slotStep 0 (.rem o) o.p (fun op => op.alu o 16 fun x y _ _ _ => remainder x y) s

def execAnd (o : AluArgs) (s : State) : Host.Outcome State Fault Refusal :=
  slotStep 0 (.and o) o.p (fun op => op.alu o 1 fun _ _ a b _ => ((a &&& b : Nat) : Int)) s

def execOr (o : AluArgs) (s : State) : Host.Outcome State Fault Refusal :=
  slotStep 0 (.or o) o.p (fun op => op.alu o 1 fun _ _ a b _ => ((a ||| b : Nat) : Int)) s

def execXor (o : AluArgs) (s : State) : Host.Outcome State Fault Refusal :=
  slotStep 0 (.xor o) o.p (fun op => op.alu o 1 fun _ _ a b _ => ((a ^^^ b : Nat) : Int)) s

/-- The amount of a shift is `b mod 256`. -/
def execShl (o : AluArgs) (s : State) : Host.Outcome State Fault Refusal :=
  slotStep 0 (.shl o) o.p
    (fun op => op.alu o 1 fun _ _ a b w => if b % 256 ≥ w then 0 else ((a * 2 ^ (b % 256) : Nat) : Int)) s

def execShr (o : AluArgs) (s : State) : Host.Outcome State Fault Refusal :=
  slotStep 0 (.shr o) o.p
    (fun op => op.alu o 1 fun _ _ a b w => if b % 256 ≥ w then 0 else ((a / 2 ^ (b % 256) : Nat) : Int)) s

/-- SRA shifts x as an integer: the signed reading, or with U the unsigned one. -/
def execSra (o : AluArgs) (s : State) : Host.Outcome State Fault Refusal :=
  slotStep 0 (.sra o) o.p
    (fun op => op.alu o 1 fun x _ _ b w =>
      if b % 256 ≥ w then (if x < 0 then -1 else 0) else x.fdiv (2 ^ (b % 256))) s

def execMin (o : AluArgs) (s : State) : Host.Outcome State Fault Refusal :=
  slotStep 0 (.min o) o.p (fun op => op.alu o 1 fun x y _ _ _ => if x ≤ y then x else y) s

def execMax (o : AluArgs) (s : State) : Host.Outcome State Fault Refusal :=
  slotStep 0 (.max o) o.p (fun op => op.alu o 1 fun x y _ _ _ => if x ≤ y then y else x) s

def execClz (o : AluArgs) (s : State) : Host.Outcome State Fault Refusal :=
  slotStep 0 (.clz o) o.p (fun op => op.alu o 1 fun _ _ a _ w => (leadingZeros w a : Int)) s

def execPopc (o : AluArgs) (s : State) : Host.Outcome State Fault Refusal :=
  slotStep 0 (.popc o) o.p (fun op => op.alu o 1 fun _ _ a _ w => (onesBelow a w : Int)) s

def execMovi (o : AluArgs) (s : State) : Host.Outcome State Fault Refusal :=
  slotStep 0 (.movi o) o.p
    (fun op => op.alu o 1 fun _ _ a b _ => match o.b with | .imm _ => (b : Int) | .reg _ => (a : Int)) s

/-- MOVHI (R173). -/
def execMovhi (o : MovhiArgs) (s : State) : Host.Outcome State Fault Refusal :=
  slotStep 0 (.movhi o) o.p
    (fun op => op.land 1 (.sreg o.sd.toNat (o.imm ++ (op.regs.sreg o.sa).setWidth 36))) s

/-- SEL (R174). -/
def execSel (o : SelArgs) (s : State) : Host.Outcome State Fault Refusal :=
  slotStep 0 (.sel o) o.p
    (fun op =>
      let w := o.w.bits
      let a := (op.regs.sreg o.sa).toNat % 2 ^ w
      let b := srcB32 op.regs w o.u o.b
      op.land 1 (.sreg o.sd.toNat (extRes o.u w (if op.regs.pred o.ps != o.psn then a else b)))) s

/-- CMP (R175). -/
def execCmp (o : CmpArgs) (s : State) : Host.Outcome State Fault Refusal :=
  slotStep 0 (.cmp o) o.p
    (fun op =>
      let w := o.w.bits
      let a := (op.regs.sreg o.sa).toNat % 2 ^ w
      let b := srcB32 op.regs w o.u o.b
      op.land 1 (.preg o.pd.toNat (condTest o.cond (intOf o.u w a) (intOf o.u w b) a b))) s

/-- PLOG (R176). -/
def execPlog (o : PlogArgs) (s : State) : Host.Outcome State Fault Refusal :=
  slotStep 0 (.plog o) o.p
    (fun op => op.land 1 (.preg o.pd.toNat (ttBit o.tt (op.regs.pred o.pa) (op.regs.pred o.pb)))) s

end Sys2Proof.Machine
end

