-- ==== Sys2Proof/Machine/MaskFlag.lean ====
section
/-! DEFINITION. FIFO pushes, draws, flags and masks (R294-R297). -/

namespace Sys2Proof.Machine

/-- VPUSHF (R294): a member without a free entry traps; elsewhere the bundle has waited for one. -/
def execVpushf (a : VArgs) (s : State) : Host.Outcome State Fault Refusal :=
  slotStep (unitSlot a.u) (.vpushf a) a.p
    (fun o =>
      let fs := FS.ofBit (a.var.getLsbD 0)
      let f := o.c.toCore.fifo fs
      if f.free = 0 then o.raise cFOVF ((BitVec.ofBool fs.toBit).setWidth 64)
      else
        let (x, o) := o.readF 64 a.a
        let (e, f) := f.take
        ({ o with c := o.c.setFifo fs f }).land 2 (.fifoFill fs e (blend (o.mask a) x 0))) s

/-- VRAND (R295). -/
def execVrand (a : VArgs) (s : State) : Host.Outcome State Fault Refusal :=
  slotStep (unitSlot a.u) (.vrand a) a.p
    (fun o =>
      let o := o.drawEntry
      o.emitElems a 4 32 (lanesOf (o.mask a) 32) fun e => ((o.drawAt e).toNat, 0)) s

/-- The flags of the operation's own unit. -/
def Op.flg (o : Op) (u : VUnit) : FlgVec :=
  match u with
  | .va => o.regs.flga
  | .vb => o.regs.flgb

/-- VFLG (R296). -/
def execVflg (a : VArgs) (s : State) : Host.Outcome State Fault Refusal :=
  slotStep (unitSlot a.u) (.vflg a) a.p
    (fun o =>
      let bits : Flags := (a.imm.extractLsb' 0 6).setWidth 8
      let f := o.flg a.u
      let lane (l : Nat) : Nat := (f.extractLsb' (8 * l) 8).toNat
      match a.var.toNat with
      | 0 => o.land 2 (.flagClear a.u (flagsIn (o.mask a) bits))
      | 1 => o.emitElems a 2 16 (o.mask a) fun l => (lane l, 0)
      | _ => o.land 2 (.mreg (fieldM a.d).toNat (laneMask 16 (o.mask a) fun l => lane l &&& bits.toNat != 0))) s

/-- MLOG (R297). -/
def execMlog (a : VArgs) (s : State) : Host.Outcome State Fault Refusal :=
  slotStep (unitSlot a.u) (.mlog a) a.p
    (fun o =>
      o.land 2 (.mreg (fieldM a.d).toNat
        (ttBits (a.imm.extractLsb' 0 4) (o.regs.mask (fieldM a.a)) (o.regs.mask (fieldM a.b))))) s

/-- MCNT (R297). -/
def execMcnt (a : VArgs) (s : State) : Host.Outcome State Fault Refusal :=
  slotStep (unitSlot a.u) (.mcnt a) a.p
    (fun o =>
      let m := o.regs.mask (fieldM a.a) &&& o.mask a
      o.land 2 (.sreg (fieldS a.d).toNat (BitVec.ofNat 64 (onesBelow m.toNat 128)))) s

/-- MFIRST (R297). -/
def execMfirst (a : VArgs) (s : State) : Host.Outcome State Fault Refusal :=
  slotStep (unitSlot a.u) (.mfirst a) a.p
    (fun o =>
      let m := o.regs.mask (fieldM a.a) &&& o.mask a
      let first := ((List.range 128).find? fun l => m.getLsbD l).getD 128
      o.land 2 (.sreg (fieldS a.d).toNat (BitVec.ofNat 64 first))) s

end Sys2Proof.Machine
end

