-- ==== Sys2Proof/Machine/Dispatch.lean ====
section
/-! DEFINITION. The meaning of every row of the table: one arm for each constructor. -/

namespace Sys2Proof.Machine

def exec (i : Instr) (s : State) : Host.Outcome State Fault Refusal :=
  match i with
  | .add o => Sys2Proof.Machine.execAdd o s
  | .sub o => Sys2Proof.Machine.execSub o s
  | .mul o => Sys2Proof.Machine.execMul o s
  | .mulh o => Sys2Proof.Machine.execMulh o s
  | .div o => Sys2Proof.Machine.execDiv o s
  | .rem o => Sys2Proof.Machine.execRem o s
  | .and o => Sys2Proof.Machine.execAnd o s
  | .or o => Sys2Proof.Machine.execOr o s
  | .xor o => Sys2Proof.Machine.execXor o s
  | .shl o => Sys2Proof.Machine.execShl o s
  | .shr o => Sys2Proof.Machine.execShr o s
  | .sra o => Sys2Proof.Machine.execSra o s
  | .min o => Sys2Proof.Machine.execMin o s
  | .max o => Sys2Proof.Machine.execMax o s
  | .clz o => Sys2Proof.Machine.execClz o s
  | .popc o => Sys2Proof.Machine.execPopc o s
  | .movi o => Sys2Proof.Machine.execMovi o s
  | .movhi o => Sys2Proof.Machine.execMovhi o s
  | .sel o => Sys2Proof.Machine.execSel o s
  | .cmp o => Sys2Proof.Machine.execCmp o s
  | .plog o => Sys2Proof.Machine.execPlog o s
  | .br p disp => Sys2Proof.Machine.execBr p disp s
  | .bri p sa disp => Sys2Proof.Machine.execBri p sa disp s
  | .call p sd base disp => Sys2Proof.Machine.execCall p sd base disp s
  | .ret p sa => Sys2Proof.Machine.execRet p sa s
  | .loop o => Sys2Proof.Machine.execLoop o s
  | .loopx p => Sys2Proof.Machine.execLoopx p s
  | .lidx p sd d => Sys2Proof.Machine.execLidx p sd d s
  | .sysr p sd num => Sys2Proof.Machine.execSysr p sd num s
  | .sysw p sa num => Sys2Proof.Machine.execSysw p sa num s
  | .keyWrite p sa => Sys2Proof.Machine.execKeyWrite p sa s
  | .cmapWrite p sa n => Sys2Proof.Machine.execCmapWrite p sa n s
  | .cntWrite p sa n => Sys2Proof.Machine.execCntWrite p sa n s
  | .preqSave t k => Sys2Proof.Machine.execPreqSave t k s
  | .preqRestore t k => Sys2Proof.Machine.execPreqRestore t k s
  | .imageOperationEnd t k => Sys2Proof.Machine.execImageOperationEnd t k s
  | .trap p imm => Sys2Proof.Machine.execTrap p imm s
  | .tret p => Sys2Proof.Machine.execTret p s
  | .exit p => Sys2Proof.Machine.execExit p s
  | .vadd o => Sys2Proof.Machine.execVadd o s
  | .vsub o => Sys2Proof.Machine.execVsub o s
  | .vmul o => Sys2Proof.Machine.execVmul o s
  | .vmulh o => Sys2Proof.Machine.execVmulh o s
  | .vmin o => Sys2Proof.Machine.execVmin o s
  | .vmax o => Sys2Proof.Machine.execVmax o s
  | .vabs o => Sys2Proof.Machine.execVabs o s
  | .vlog o => Sys2Proof.Machine.execVlog o s
  | .vsh o => Sys2Proof.Machine.execVsh o s
  | .vcmp o => Sys2Proof.Machine.execVcmp o s
  | .vsel o => Sys2Proof.Machine.execVsel o s
  | .vmov o => Sys2Proof.Machine.execVmov o s
  | .vbcast o => Sys2Proof.Machine.execVbcast o s
  | .viota o => Sys2Proof.Machine.execViota o s
  | .vfadd o => Sys2Proof.Machine.execVfadd o s
  | .vfsub o => Sys2Proof.Machine.execVfsub o s
  | .vfmul o => Sys2Proof.Machine.execVfmul o s
  | .vfma o => Sys2Proof.Machine.execVfma o s
  | .vfneg o => Sys2Proof.Machine.execVfneg o s
  | .vfabs o => Sys2Proof.Machine.execVfabs o s
  | .vfmin o => Sys2Proof.Machine.execVfmin o s
  | .vfmax o => Sys2Proof.Machine.execVfmax o s
  | .vfdiv o => Sys2Proof.Machine.execVfdiv o s
  | .vfsqrt o => Sys2Proof.Machine.execVfsqrt o s
  | .vfspec o => Sys2Proof.Machine.execVfspec o s
  | .vfcmp o => Sys2Proof.Machine.execVfcmp o s
  | .vfscalb o => Sys2Proof.Machine.execVfscalb o s
  | .vcvt o => Sys2Proof.Machine.execVcvt o s
  | .vcvti o => Sys2Proof.Machine.execVcvti o s
  | .vpack o => Sys2Proof.Machine.execVpack o s
  | .vunpk o => Sys2Proof.Machine.execVunpk o s
  | .vperm o => Sys2Proof.Machine.execVperm o s
  | .vrot o => Sys2Proof.Machine.execVrot o s
  | .vred o => Sys2Proof.Machine.execVred o s
  | .vargmax o => Sys2Proof.Machine.execVargmax o s
  | .vscan o => Sys2Proof.Machine.execVscan o s
  | .vsortk o => Sys2Proof.Machine.execVsortk o s
  | .vcomp o => Sys2Proof.Machine.execVcomp o s
  | .vqclr o => Sys2Proof.Machine.execVqclr o s
  | .vqdot o => Sys2Proof.Machine.execVqdot o s
  | .vqsum o => Sys2Proof.Machine.execVqsum o s
  | .vqrnd o => Sys2Proof.Machine.execVqrnd o s
  | .vqmov o => Sys2Proof.Machine.execVqmov o s
  | .vqscale o => Sys2Proof.Machine.execVqscale o s
  | .vqraw o => Sys2Proof.Machine.execVqraw o s
  | .vpushf o => Sys2Proof.Machine.execVpushf o s
  | .vrand o => Sys2Proof.Machine.execVrand o s
  | .vflg o => Sys2Proof.Machine.execVflg o s
  | .mlog o => Sys2Proof.Machine.execMlog o s
  | .mcnt o => Sys2Proof.Machine.execMcnt o s
  | .mfirst o => Sys2Proof.Machine.execMfirst o s
  | .mpush o => Sys2Proof.Machine.execMpush o s
  | .mshift o => Sys2Proof.Machine.execMshift o s
  | .macc o => Sys2Proof.Machine.execMacc o s
  | .mdrain o => Sys2Proof.Machine.execMdrain o s
  | .mqadd o => Sys2Proof.Machine.execMqadd o s
  | .mqscale o => Sys2Proof.Machine.execMqscale o s
  | .mqneg o => Sys2Proof.Machine.execMqneg o s
  | .mqclr o => Sys2Proof.Machine.execMqclr o s
  | .mqcopy o => Sys2Proof.Machine.execMqcopy o s
  | .mqspill o => Sys2Proof.Machine.execMqspill o s
  | .mqfill o => Sys2Proof.Machine.execMqfill o s
  | .morig o => Sys2Proof.Machine.execMorig o s
  | .mnop hint val => Sys2Proof.Machine.execMnop hint val s
  | .ldv o => Sys2Proof.Machine.execLdv o s
  | .ldvb o => Sys2Proof.Machine.execLdvb o s
  | .lds o => Sys2Proof.Machine.execLds o s
  | .ldof o => Sys2Proof.Machine.execLdof o s
  | .ldq o => Sys2Proof.Machine.execLdq o s
  | .ldsclA o => Sys2Proof.Machine.execLdsclA o s
  | .ldsclB o => Sys2Proof.Machine.execLdsclB o s
  | .stv o => Sys2Proof.Machine.execStv o s
  | .stvm o => Sys2Proof.Machine.execStvm o s
  | .sts o => Sys2Proof.Machine.execSts o s
  | .stq o => Sys2Proof.Machine.execStq o s
  | .xcopy o => Sys2Proof.Machine.execXcopy o s
  | .xfill o => Sys2Proof.Machine.execXfill o s
  | .xgath o => Sys2Proof.Machine.execXgath o s
  | .xscat o => Sys2Proof.Machine.execXscat o s
  | .xcsr o => Sys2Proof.Machine.execXcsr o s
  | .xdec o => Sys2Proof.Machine.execXdec o s
  | .xatom o => Sys2Proof.Machine.execXatom o s
  | .xqadd o => Sys2Proof.Machine.execXqadd o s
  | .xqrd o => Sys2Proof.Machine.execXqrd o s
  | .xqclr o => Sys2Proof.Machine.execXqclr o s
  | .xsig o => Sys2Proof.Machine.execXsig o s
  | .xword o => Sys2Proof.Machine.execXword o s
  | .xjoin p xq jm => Sys2Proof.Machine.execXjoin p xq jm s
  | .xlrf p => Sys2Proof.Machine.execXlrf p s
  | .xrec o => Sys2Proof.Machine.execXrec o s
  | .xadv p nm1 => Sys2Proof.Machine.execXadv p nm1 s
  | .xarm o => Sys2Proof.Machine.execXarm o s
  | .xstat p xq sd sel => Sys2Proof.Machine.execXstat p xq sd sel s
  | .xcancel p cm sd => Sys2Proof.Machine.execXcancel p cm sd s
  | .xnop hint val => Sys2Proof.Machine.execXnop hint val s
  | .waitge p ctr sa imm form => Sys2Proof.Machine.execWaitge p ctr sa imm form s
  | .waitw p sb sa cond off form => Sys2Proof.Machine.execWaitw p sb sa cond off form s
  | .sig p ctr sa imm => Sys2Proof.Machine.execSig p ctr sa imm s
  | .barr p b dcl limit => Sys2Proof.Machine.execBarr p b dcl limit s
  | .realign p sa imm => Sys2Proof.Machine.execRealign p sa imm s
  | .fence p sc => Sys2Proof.Machine.execFence p sc s
  | .fadv p fs n => Sys2Proof.Machine.execFadv p fs n s
  | .fwait o => Sys2Proof.Machine.execFwait o s
  | .ffree o => Sys2Proof.Machine.execFfree o s
  | .mergeStageChoice t => Sys2Proof.Machine.execMergeStageChoice t s
  | .bundleFetch t k => Sys2Proof.Machine.execBundleFetch t k s
  | .resultLand t k => Sys2Proof.Machine.execResultLand t k s
  | .waitConditionMet t k => Sys2Proof.Machine.execWaitConditionMet t k s
  | .wto t k => Sys2Proof.Machine.execWto t k s
  | .waitProbe t k => Sys2Proof.Machine.execWaitProbe t k s
  | .furrowBundleDelivery t k => Sys2Proof.Machine.execFurrowBundleDelivery t k s
  | .slip t k slot cycles => Sys2Proof.Machine.execSlip t k slot cycles s
  | .stretchCondition => Sys2Proof.Machine.execStretchCondition s
  | .stretch cycles => Sys2Proof.Machine.execStretch cycles s
  | .clockStep mhz => Sys2Proof.Machine.execClockStep mhz s
  | .hardTrip c => Sys2Proof.Machine.execHardTrip c s
  | .moduleReset c => Sys2Proof.Machine.execModuleReset c s
  | .functionReady f => Sys2Proof.Machine.execFunctionReady f s
  | .readyTimeout f => Sys2Proof.Machine.execReadyTimeout f s
  | .eccCorrectable u => Sys2Proof.Machine.execEccCorrectable u s
  | .dieReset n => Sys2Proof.Machine.execDieReset n s
  | .drainEnd n => Sys2Proof.Machine.execDrainEnd n s
  | .drainDeadline n => Sys2Proof.Machine.execDrainDeadline n s
  | .attest rqlen req => Sys2Proof.Machine.execAttest rqlen req s
  | .lcchal rqlen => Sys2Proof.Machine.execLcchal rqlen s
  | .lctrans rqlen req => Sys2Proof.Machine.execLctrans rqlen req s
  | .fwload rqlen req => Sys2Proof.Machine.execFwload rqlen req s
  | .diereset rqlen req => Sys2Proof.Machine.execDiereset rqlen req s
  | .queueEnable q w => Sys2Proof.Machine.execQueueEnable q w s
  | .queueDisable q => Sys2Proof.Machine.execQueueDisable q s
  | .tailWrite q t => Sys2Proof.Machine.execTailWrite q t s
  | .wkick => Sys2Proof.Machine.execWkick s
  | .launchRecord q => Sys2Proof.Machine.execLaunchRecord q s
  | .killRecord q => Sys2Proof.Machine.execKillRecord q s
  | .migrateRecord q => Sys2Proof.Machine.execMigrateRecord q s
  | .migrateComplete q ix => Sys2Proof.Machine.execMigrateComplete q ix s
  | .launchWalk q ix => Sys2Proof.Machine.execLaunchWalk q ix s
  | .walkReread q ix => Sys2Proof.Machine.execWalkReread q ix s
  | .pttime q ix => Sys2Proof.Machine.execPttime q ix s
  | .launchAdmission q ix => Sys2Proof.Machine.execLaunchAdmission q ix s
  | .launchPacketPlace die q ix => Sys2Proof.Machine.execLaunchPacketPlace die q ix s
  | .loadAck die q ix => Sys2Proof.Machine.execLoadAck die q ix s
  | .contextStart q ix => Sys2Proof.Machine.execContextStart q ix s
  | .sidingRelease tenant slot => Sys2Proof.Machine.execSidingRelease tenant slot s
  | .contextRetire t k => Sys2Proof.Machine.execContextRetire t k s
  | .retirementReport die q ix => Sys2Proof.Machine.execRetirementReport die q ix s
  | .launchRetire q ix => Sys2Proof.Machine.execLaunchRetire q ix s
  | .killArrival t q ix => Sys2Proof.Machine.execKillArrival t q ix s
  | .quiesceAck die q ix => Sys2Proof.Machine.execQuiesceAck die q ix s
  | .quiesceTimeout die q ix => Sys2Proof.Machine.execQuiesceTimeout die q ix s
  | .remoteAddArrival q ix t k ctr amt => Sys2Proof.Machine.execRemoteAddArrival q ix t k ctr amt s
  | .barrierRelease q ix b => Sys2Proof.Machine.execBarrierRelease q ix b s
  | .xeCommandStart t k xq => Sys2Proof.Machine.execXeCommandStart t k xq s
  | .xeBeatLand t k xq n => Sys2Proof.Machine.execXeBeatLand t k xq n s
  | .xeCommandComplete t k xq => Sys2Proof.Machine.execXeCommandComplete t k xq s
  | .arrivalRelease loc idx => Sys2Proof.Machine.execArrivalRelease loc idx s
  | .decompBlockDone t => Sys2Proof.Machine.execDecompBlockDone t s
  | .decompRelease t => Sys2Proof.Machine.execDecompRelease t s
  | .preemptRequest t k sslot rslot => Sys2Proof.Machine.execPreemptRequest t k sslot rslot s
  | .preempt t k => Sys2Proof.Machine.execPreempt t k s
  | .space t k => Sys2Proof.Machine.execSpace t k s
  | .qovf t k => Sys2Proof.Machine.execQovf t k s
  | .brk t k => Sys2Proof.Machine.execBrk t k s
  | .furr t k => Sys2Proof.Machine.execFurr t k s
  | .checkedIntervalClose t k => Sys2Proof.Machine.execCheckedIntervalClose t k s
  | .digestExchange t k => Sys2Proof.Machine.execDigestExchange t k s
  | .pair t k => Sys2Proof.Machine.execPair t k s
  | .hashRecord t k ix => Sys2Proof.Machine.execHashRecord t k ix s
  | .hostWrite sp addr bytes => Sys2Proof.Machine.execHostWrite sp addr bytes s
  | .hostRead win addr n => Sys2Proof.Machine.execHostRead win addr n s
  | .stretchEnd => Sys2Proof.Machine.execStretchEnd s
  | .stretchConditionClear => Sys2Proof.Machine.execStretchConditionClear s
  | .clockStepEnd => Sys2Proof.Machine.execClockStepEnd s
  | .peerWrite port sp addr bytes op => Sys2Proof.Machine.execPeerWrite port sp addr bytes op s
  | .mailboxBadcmd cmd rqlen => Sys2Proof.Machine.execMailboxBadcmd cmd rqlen s

end Sys2Proof.Machine
end

