-- ==== Sys2Proof/Machine/Step.lean ====
section
/-! DEFINITION. One step of the module: the next event of the agenda with the bundle it lets issue, or the turn of the
cycle. -/

namespace Sys2Proof.Machine

/-- Perform the slots still to perform of the bundle that is issuing: at most eight. -/
def runSlots : Nat → State → Host.Outcome State Fault Refusal
  | 0, s => .next s
  | n + 1, s =>
    match s.cur with
    | none => .next s
    | some u =>
      match u.todo with
      | [] => .next s
      | x :: _ =>
        match exec x.2 s with
        | .next s' => runSlots n s'
        | r => r

/-- One event of the agenda. An event whose conditions have gone does not happen. -/
def runEvent (i : Instr) (s : State) : Host.Outcome State Fault Refusal :=
  match exec i s with
  | .next s' => runSlots 8 s'
  | .fault f => .fault f
  | .refused _ => .next s

/-- One step. -/
def step (s : State) : Host.Outcome State Fault Refusal :=
  if s.cur.isSome then runSlots 8 s
  else
    match s.agenda with
    | [] => .next s.turn
    | i :: rest => runEvent i { s with agenda := rest }

/-- The state with an instruction where the next step fetches it: a bundle at offset 0 of the window of context k0 of tile
(0, 0), which is the next to issue. -/
def State.withFetchWord (s : State) (_nbits w : Nat) : State :=
  { s with tiles := s.tiles.put 0 (probeTile w), cur := none, agenda := [.bundleFetch 0 0]
           ctd := { s.ctd with stretch := {}, clockUntil := none } }

end Sys2Proof.Machine
end

