-- ==== Sys2Proof/Safety.lean ====
section
/-! DEFINITION. What counts as a safe run, and the relations in which claims say what a step leaves alone: the memories and
counters of the module, and the data of a context that only landing results change (R163, R164). -/

namespace Sys2Proof

/-- A step from this state answers a next state. -/
def Safe (s : Machine.State) : Prop := ∃ t, Machine.step s = .next t

/-- `n` steps from this state all answer next states. -/
def SafeFor (n : Nat) (s : Machine.State) : Prop := ∃ t, core.run n s = .next t

namespace Machine

/-- Two cores hold the same registers, FIFOs, draw history, special registers and results in flight. The sequencer, the trap
registers and the records of debugging may differ, and where views rotate so may the register space, in which a register
that became live has undefined contents (R85). -/
structure Core.Same (c d : Core) : Prop where
  inflight : d.inflight = c.inflight
  regs : { d.toRegs with space := [] } = { c.toRegs with space := [] }
  rot : ∀ n, n < 4 → vwRot (d.view n) = vwRot (c.view n)
  space : (∀ n, n < 4 → vwRot (c.view n) = false) → d.space = c.space
  fa : d.fa = c.fa
  fb : d.fb = c.fb
  dhist : d.dhist = c.dhist
  qtrap : d.qtrap = c.qtrap
  shn : d.shn = c.shn
  tvec : d.tvec = c.tvec
  sscr : d.sscr = c.sscr
  dcr : d.dcr = c.dcr

/-- The same of two contexts, with the counters they map. -/
structure Ctx.Same (c d : Ctx) : Prop where
  core : c.toCore.Same d.toCore
  cmap : d.cmap = c.cmap

/-- Two states hold the same memories, counters and clock. -/
structure State.Still (s t : State) : Prop where
  zone : t.zone = s.zone
  hbm : t.hbm = s.hbm
  lpddr : t.lpddr = s.lpddr
  host : t.host = s.host
  peer : t.peer = s.peer
  arrHbm : t.arrHbm = s.arrHbm
  arrLpddr : t.arrLpddr = s.arrLpddr
  scratch : ∀ x, (t.tile x).scratch = (s.tile x).scratch
  cnt : ∀ x, (t.tile x).cnt = (s.tile x).cnt
  arr : ∀ x, (t.tile x).arr = (s.tile x).arr

/-- Nothing but sequencers, trap registers and records of debugging has changed. -/
structure State.Calm (s t : State) : Prop where
  still : s.Still t
  same : ∀ x k, (s.ctx x k).Same (t.ctx x k)

/-! ### What a slot operation leaves -/

/-- The context whose bundle is issuing. -/
abbrev State.own (s : State) (u : Cur) : Ctx := s.ctx u.t u.k

/-- The registers that the slots of the bundle read (R402). -/
def State.operands (s : State) (u : Cur) : Regs :=
  if u.sup then (s.own u).toRegs else (s.own u).kept.getD (s.own u).toRegs

/-- The bundle `u` stands at the operation `i` in `slot`, with `rest` still to perform after it. -/
structure State.Stands (s : State) (u : Cur) (slot : Nat) (i : Instr) (rest : List (Nat × Instr)) : Prop where
  cur : s.cur = some u
  todo : u.todo = (slot, i) :: rest

/-- The bundle stands at the operation, which is given no trap as it issues (R74) and whose condition is true (R73). -/
structure State.Issues (s : State) (u : Cur) (slot : Nat) (i : Instr) (p : Pred) (rest : List (Nat × Instr)) : Prop
    extends State.Stands s u slot i rest where
  free : issueFault (s.own u) u.sup i = none
  holds : (s.operands u).holds p = true

/-- The state with the bundle as `u` and its context as `c`; a bundle with no slot left closes. -/
def State.goOn (s : State) (u : Cur) (c : Ctx) : State :=
  let s' : State := { s.setCtx u.t u.k c with cur := some u }
  if u.todo = [] then s'.closeBundle else s'

/-- The context with other records of determinism causes in the present cycle. -/
def Ctx.withEvents (c : Ctx) (ev : List (Nat × Nat × BitVec 16 × Nat × Nat)) : Ctx := { c with events := ev }

/-- An operation has left the bundle as `u` and its context as `c`, but for the records of the determinism causes it adds, and
nothing else of the module changed: what more `t` holds is the close of the bundle. `still`, `other` and `own` are the frame. -/
structure State.Left (s t : State) (u : Cur) (c : Ctx) : Prop where
  whole : ∃ ev, t = s.goOn u (c.withEvents ev)
  still : s.Still t
  other : ∀ x k, ¬ (x = u.t ∧ k = u.k) → (s.ctx x k).Same (t.ctx x k)
  own : c.Same (t.own u)

/-- The bundle with `rest` still to perform. -/
abbrev Cur.past (u : Cur) (rest : List (Nat × Instr)) : Cur := { u with todo := rest }

/-- The context with results sent on their way by the bundle `u`, each with its latency (R4, R164). -/
def Ctx.send (c : Ctx) (u : Cur) (slot : Nat) (ws : List (Nat × Write)) : Ctx :=
  { c with inflight := c.inflight ++ ws.map fun x =>
      { left := x.1, serial := c.serial, slot, off := u.off, hash := c.hashIv, second := u.second, w := x.2 } }

/-- The context of the bundle with results sent. -/
def State.sent (s : State) (u : Cur) (slot : Nat) (ws : List (Nat × Write)) : Ctx := (s.own u).send u slot ws

/-- At every bundle that stands at it, issues it without a trap and meets its condition, the operation completes: it leaves
the bundle as `v`, with its own slot done, and the context as `c` with these results sent. -/
def State.GivesFrom (s : State) (u : Cur) (slot : Nat) (i : Instr) (p : Pred) (v : Cur) (c : Ctx) (ws : List (Nat × Write)) : Prop :=
  ∀ rest, s.Issues u slot i p rest → ∃ t, exec i s = .next t ∧ s.Left t (v.past rest) (c.send u slot ws)

/-- All it does is to send these results. -/
def State.Gives (s : State) (u : Cur) (slot : Nat) (i : Instr) (p : Pred) (ws : List (Nat × Write)) : Prop :=
  s.GivesFrom u slot i p u (s.own u) ws

/-- The bundle with a trap raised by the operation in a slot. -/
def Cur.trapped (u : Cur) (slot : Nat) (cause : BitVec 8) (einfo : Word) : Cur :=
  { u with raised := u.raised ++ [⟨slot, false, cause, einfo⟩] }

/-- The operation raises a trap, and does nothing else. -/
def State.Traps (s : State) (u : Cur) (slot : Nat) (i : Instr) (p : Pred) (cause : BitVec 8) (einfo : Word) : Prop :=
  s.GivesFrom u slot i p (u.trapped slot cause einfo) (s.own u) []

/-- The operation after the draw-history entry of the given coordinates (R326), or as it begins. -/
def State.drawn (s : State) (u : Cur) (slot : Nat) (draws : Bool) (row col : BitVec 32) : Op :=
  let o : Op := { s := s, c := s.own u, u, slot }
  let r := s.operands u
  if draws then o.history (r.morig.extractLsb' 48 16) (r.step.setWidth 32) row col else o

/-- The row and the column of MORIG. -/
def Regs.rowOf (r : Regs) : BitVec 32 := (r.morig.extractLsb' 24 24).setWidth 32
def Regs.colOf (r : Regs) : BitVec 32 := (r.morig.extractLsb' 0 24).setWidth 32

/-- The draw at a row and a column (R263, R321). -/
def Regs.drawOf (r : Regs) (row col : BitVec 32) : BitVec 32 :=
  draw r.key (r.morig.extractLsb' 48 16) (r.step.setWidth 32) row col

/-- The same of an operation that enters the draw history when `draws` holds. -/
def State.GivesDrawn (s : State) (u : Cur) (slot : Nat) (i : Instr) (p : Pred) (draws : Bool) (ws : List (Nat × Write)) : Prop :=
  let o := s.drawn u slot draws (s.operands u).rowOf (s.operands u).colOf
  s.GivesFrom u slot i p o.u o.c ws

/-! ### Vector results (R41, R76, R79, R262) -/

/-- A vector operand as the bundle reads it at width `w`. -/
def State.vsrc (s : State) (u : Cur) (w : Nat) (f : VField) : Vec :=
  match f with
  | .v x => (readV (s.own u).toCore (s.operands u) w x).1
  | _ => 0

/-- The lanes an operation with elements of width `w` writes. -/
def State.vlanes (s : State) (u : Cur) (a : VArgs) (w : Nat) : Mask := lanesOf ((s.operands u).mask a.m) w

/-- The result sent to a destination field: a register of a view, an operand-file entry, or nothing. -/
def State.toDest (s : State) (u : Cur) (latency : Nat) (d : VField) (v : Vec) (lanes : Mask) : List (Nat × Write) :=
  match d with
  | .v (.main n i) =>
    (match (s.own u).toCore.resolve n.toNat i.toNat with
     | some j => [(latency, .reg n.toNat j v lanes)]
     | none => [])
  | .v (.opf e) => [(latency, .opf e.toNat v lanes)]
  | _ => []

/-- The results of a vector operation: its destination, its unit's latch, and its flags unless Q is set (R66, R81). -/
def State.vresults (s : State) (u : Cur) (a : VArgs) (latency : Nat) (v : Vec) (lanes : Mask) (fl : FlgVec) : List (Nat × Write) :=
  s.toDest u latency a.d v lanes ++ [(latency, .latch (latchNo a.u) v lanes)] ++
    if a.q || fl = 0 then [] else [(latency, .flags a.u fl)]

/-- The vector whose enabled elements of width `w` are given by `f`, the others zero: said element by element. -/
def Elements (v : Vec) (w : Nat) (lanes : Mask) (f : Nat → Nat) : Prop :=
  ∀ e, e < 2048 / w → elem v w e = if enabled lanes w e then f e % 2 ^ w else 0

/-- The flags of an element-wise operation. -/
def elementFlags (w : Nat) (lanes : Mask) (f : Nat → Flags) : FlgVec :=
  flagsOf w ((List.range (2048 / w)).map fun e => (e, if enabled lanes w e then f e else 0))

/-- The vector operation completes, and sends the vector that `f` gives element by element with its flags; with `draws`, it
enters the draw history. -/
def State.GivesElements (s : State) (u : Cur) (i : Instr) (a : VArgs) (latency w : Nat) (lanes : Mask) (draws : Bool)
    (f : Nat → Nat × Flags) : Prop :=
  ∃ v, Elements v w lanes (fun e => (f e).1) ∧
    s.GivesDrawn u (unitSlot a.u) i a.p draws (s.vresults u a latency v lanes (elementFlags w lanes fun e => (f e).2))

end Machine

end Sys2Proof
end

