-- ==== Sys2Proof/Certificates/Slice0/Obligations.lean ====
section
/-! DEFINITION. The statements for the provers. The definitions of the namespace `Claims` are the words in which the manual's
rules are said. -/

open Sys2Proof Sys2Proof.Machine

namespace Sys2Proof.Claims

/-! ### Scalar operations (R40, R169) -/

/-- The first source of an operation of width `w`, reduced to its width. -/
def first (a : AluArgs) (r : Regs) : BitVec a.w.bits := (r.sreg a.sa).setWidth _

/-- The second source: a register, or an immediate extended by U and reduced. -/
def second (a : AluArgs) (r : Regs) : BitVec a.w.bits :=
  match a.b with
  | .reg n => (r.sreg n).setWidth _
  | .imm v => if a.u then v.setWidth _ else v.signExtend _

/-- A 32-bit immediate or a register as the second source of SEL and CMP (R174). -/
def second32 (w : IW) (u : Bool) (b : SrcB32) (r : Regs) : BitVec w.bits :=
  match b with
  | .reg n => (r.sreg n).setWidth _
  | .imm v => if u then v.setWidth _ else v.signExtend _

/-- A result extended to 64 bits: with zeros under U, with its sign otherwise. -/
def extend (u : Bool) {w : Nat} (x : BitVec w) : Word := if u then x.setWidth 64 else x.signExtend 64

/-- An ALU operation completes, and sends `f` of its sources, extended, to s[sd]. -/
def Alu (s : State) (u : Cur) (mk : AluArgs → Instr) (a : AluArgs) (latency : Nat)
    (f : BitVec a.w.bits → BitVec a.w.bits → BitVec a.w.bits) : Prop :=
  s.Gives u 0 (mk a) a.p
    [(latency, .sreg a.sd.toNat (extend a.u (f (first a (s.operands u)) (second a (s.operands u)))))]

/-- x is at most y in the reading that U chooses. -/
def atMost (u : Bool) {w : Nat} (x y : BitVec w) : Bool := if u then x.ule y else x.sle y

/-- The upper half of the exact product. -/
def highHalf (u : Bool) {w : Nat} (x y : BitVec w) : BitVec w :=
  ((if u then x.setWidth (2 * w) else x.signExtend (2 * w)) *
    (if u then y.setWidth (2 * w) else y.signExtend (2 * w))).extractLsb' w w

/-- Division toward zero, with a quotient of −1 for a divisor of 0 (R56). -/
def quot (u : Bool) {w : Nat} (x y : BitVec w) : BitVec w :=
  if y = 0 then BitVec.allOnes w else if u then x / y else x.sdiv y

/-- Its remainder, the dividend for a divisor of 0 (R56). -/
def rest (u : Bool) {w : Nat} (x y : BitVec w) : BitVec w :=
  if y = 0 then x else if u then x % y else x.srem y

end Sys2Proof.Claims

open Sys2Proof.Claims

/-- R169, R172, R56: ADD, SUB, MUL, MULH, DIV, REM, AND, OR and XOR and the shifts, of every width, signed or unsigned, with a
register or an immediate. A shift is by the second source modulo 256; by the width or more it leaves zeros, or copies of the
sign. -/
def Obligations.ScalarArithmetic : Prop :=
  ∀ (s : State) (u : Cur) (a : AluArgs),
    Alu s u .add a 1 (fun x y => x + y) ∧ Alu s u .sub a 1 (fun x y => x - y) ∧ Alu s u .mul a 3 (fun x y => x * y) ∧
    Alu s u .and a 1 (fun x y => x &&& y) ∧ Alu s u .or a 1 (fun x y => x ||| y) ∧ Alu s u .xor a 1 (fun x y => x ^^^ y) ∧
    Alu s u .shl a 1 (fun x y => x <<< (y.toNat % 256)) ∧ Alu s u .shr a 1 (fun x y => x >>> (y.toNat % 256)) ∧
    Alu s u .sra a 1 (fun x y => if a.u then x >>> (y.toNat % 256) else x.sshiftRight (y.toNat % 256)) ∧
    Alu s u .mulh a 3 (highHalf a.u) ∧ Alu s u .div a 16 (quot a.u) ∧ Alu s u .rem a 16 (rest a.u)

/-- R169: MIN, MAX, CLZ, POPC and MOVI. CLZ counts the zeros above the highest one of the first source. -/
def Obligations.ScalarSelection : Prop :=
  ∀ (s : State) (u : Cur) (a : AluArgs),
    Alu s u .min a 1 (fun x y => if atMost a.u x y then x else y) ∧
    Alu s u .max a 1 (fun x y => if atMost a.u x y then y else x) ∧
    (∃ n, n ≤ a.w.bits ∧ Alu s u .clz a 1 (fun _ _ => BitVec.ofNat _ n) ∧
      (∀ i, a.w.bits - n ≤ i → i < a.w.bits → (first a (s.operands u)).getLsbD i = false) ∧
      (n < a.w.bits → (first a (s.operands u)).getLsbD (a.w.bits - 1 - n) = true)) ∧
    Alu s u .popc a 1 (fun x _ => BitVec.ofNat _ ((List.range a.w.bits).filter x.getLsbD).length) ∧
    ((∀ v, a.b ≠ .imm v) ∨ Alu s u .movi a 1 (fun _ y => y)) ∧
    ((∀ n, a.b ≠ .reg n) ∨ Alu s u .movi a 1 (fun x _ => x))

/-- R173 to R176: MOVHI joins its immediate to the low 36 bits of sa, SEL chooses by a predicate, CMP compares, and PLOG
looks two predicates up in its table. -/
def Obligations.ScalarMovesAndCompares : Prop :=
  ∀ (s : State) (u : Cur),
    (∀ a : MovhiArgs, s.Gives u 0 (.movhi a) a.p
      [(1, .sreg a.sd.toNat (a.imm ++ ((s.operands u).sreg a.sa).extractLsb' 0 36))]) ∧
    (∀ a : SelArgs, s.Gives u 0 (.sel a) a.p
      [(1, .sreg a.sd.toNat (extend a.u (if (s.operands u).pred a.ps != a.psn then ((s.operands u).sreg a.sa).setWidth a.w.bits
        else second32 a.w a.u a.b (s.operands u))))]) ∧
    (∀ a : CmpArgs,
      let x : BitVec a.w.bits := ((s.operands u).sreg a.sa).setWidth _
      let y := second32 a.w a.u a.b (s.operands u)
      s.Gives u 0 (.cmp a) a.p [(1, .preg a.pd.toNat (match a.cond with
        | .eq => x == y
        | .ne => x != y
        | .lt => !atMost a.u y x
        | .ge => atMost a.u y x
        | .le => atMost a.u x y
        | .gt => !atMost a.u x y
        | .tst => x &&& y != 0
        | .ntst => x &&& y == 0))]) ∧
    (∀ a : PlogArgs, s.Gives u 0 (.plog a) a.p
      [(1, .preg a.pd.toNat (a.tt.getLsbD (2 * ((s.operands u).pred a.pa).toNat + ((s.operands u).pred a.pb).toNat)))])

namespace Sys2Proof.Claims

/-! ### Control (R177-R193) -/

/-- The event happens, and leaves a state of which `P` holds. -/
def Happens (s : State) (i : Instr) (P : State → Prop) : Prop := ∃ v, exec i s = .next v ∧ P v

/-- A target that R177 accepts. -/
def Legal (t : Int) : Prop := 0 ≤ t ∧ t < 2 ^ 22 ∧ t % 64 = 0

/-- Byte offset of the bundle. -/
def here (u : Cur) : Int := 64 * (u.off.toNat : Int)

/-- The bundle with a transfer taken. -/
def jumped (u : Cur) (t : Int) (annul ret : Bool) : Cur := { u with xfer := some (.off (BitVec.ofInt 16 (t / 64))), annul, isRet := ret }

/-- The bundle with a trap raised by the operation in slot 0. -/
def raised (u : Cur) (cause : BitVec 8) (einfo : Word) : Cur := { u with raised := u.raised ++ [⟨0, false, cause, einfo⟩] }

/-- A transfer at a headland: taken to a legal target, with its context left as `c`, and otherwise a BND with the offset. -/
def Transfer (s : State) (u : Cur) (i : Instr) (p : Pred) (t : Int) (ret : Bool) (c : Ctx) : Prop :=
  ∀ rest, s.Issues u 0 i p rest → (s.own u).pos = 0 → (∀ r ∈ u.raised, r.slot ≠ 0) →
    (Legal t → ∃ v, exec i s = .next v ∧ s.Left v (jumped (u.past rest) t false ret) c) ∧
    (¬ Legal t → ∃ v, exec i s = .next v ∧ s.Left v (raised (u.past rest) cBND (BitVec.ofInt 64 (t % 2 ^ 32))) (s.own u))

/-- A member does nothing for a transfer but what leaves its context as `c` (R149). -/
def Passed (s : State) (u : Cur) (i : Instr) (p : Pred) (c : Ctx) : Prop :=
  ∀ rest, s.Issues u 0 i p rest → (s.own u).pos ≠ 0 → (∀ r ∈ u.raised, r.slot ≠ 0) →
    ∃ v, exec i s = .next v ∧ s.Left v (u.past rest) c

/-- A bundle of a context of FLEN 1 that closes with no trap and no EXIT. -/
structure Closes (s : State) (u : Cur) : Prop where
  leads : (s.own u).pos = 0
  single : (s.own u).span = 1
  owed : (s.own u).nulls = 0
  raised : u.raised = []
  reuse : u.reuse = []
  exit : u.exit = false
  only : u.only = none
  nop : u.nop = false
  replay : u.replay = none
  skipped : u.skipped = false

/-- The same outside loops and with no transfer of its own: nothing but the sequencer step is left to do. -/
structure Plain (s : State) (u : Cur) : Prop extends Closes s u where
  flat : (s.own u).ldep = 0
  xfer : u.xfer = none
  annul : u.annul = false

/-- The bundle at offset `a` is the last of an iteration of level `l`. -/
def Ends (l : Level) (a : BitVec 16) : Prop := a.toNat + 1 = l.start.toNat + l.len.toNat

/-- The level has another iteration to run. -/
def Again (l : Level) : Prop := (l.idx + 1).toNat < l.count.toNat

/-- The sequencer after a bundle that ended an iteration: the next offset, the depth, and what the levels have become; of two
changes that name one level the first holds. -/
structure Iterated (c d : Ctx) (pc : BitVec 16) (depth : Nat) (ls : List (Nat × Level)) : Prop where
  pc : d.pc = pc
  depth : d.ldep = depth
  levels : ∀ n l, ls.find? (fun x => x.1 = n) = some (n, l) → d.toCore.level n = l
  others : ∀ n, (∀ x ∈ ls, x.1 ≠ n) → d.toCore.level n = c.toCore.level n

/-- RPOS has become (RPOS + 1) mod size in a rotating view, and every other bit is as it was (R84). -/
def Rotated (v w : Word) : Prop :=
  if vwRot v then vwRpos w = (vwRpos v + 1) % vwSize v ∧ ∀ i, i < 64 → ¬ (26 ≤ i ∧ i < 34) → w.getLsbD i = v.getLsbD i else w = v

/-- A context whose loop level `n` has become `l`, with another depth, and nothing else changed. -/
structure Pushed (c d : Ctx) (n : Nat) (l : Level) (depth : Nat) : Prop where
  frame : d = { c with ls := d.ls, ldep := depth }
  level : d.toCore.level n = l
  others : ∀ m, m ≠ n → d.toCore.level m = c.toCore.level m

end Sys2Proof.Claims

/-- R177, R149, R171: BR, BRI, CALL and RET at a headland go to their targets, or raise BND; CALL links. A member takes no
transfer, and writes the link of a CALL. -/
def Obligations.Transfers : Prop :=
  ∀ (s : State) (u : Cur) (p : Pred) (sd sa : BitVec 5) (disp : BitVec 20),
    let r (n : BitVec 5) : Int := ((s.operands u).sreg n).toInt
    let linked := s.sent u 0 [(1, .sreg sd.toNat (BitVec.ofInt 64 (here u + 192)))]
    Transfer s u (.br p disp) p (here u + 64 * disp.toInt) false (s.own u) ∧
    Transfer s u (.bri p sa disp) p (r sa + 64 * disp.toInt) false (s.own u) ∧
    Transfer s u (.ret p sa) p (r sa) true (s.own u) ∧
    Transfer s u (.call p sd .rel disp) p (here u + 64 * disp.toInt) false linked ∧
    Transfer s u (.call p sd (.reg sa) disp) p (r sa + 64 * disp.toInt) false linked ∧
    Passed s u (.br p disp) p (s.own u) ∧ Passed s u (.bri p sa disp) p (s.own u) ∧ Passed s u (.ret p sa) p (s.own u) ∧
    ∀ base, Passed s u (.call p sd base disp) p linked

/-- R178, R4: the sequencer step of a bundle with no transfer of its own and outside loops: a pending transfer comes due after
two more bundles, and replaces the next offset. The bundle ends in an MNOP, which itself does nothing (R104).
A BR that ends its bundle leaves its target two bundles ahead (R177). A bundle that took a transfer leaves it due after two more
bundles, and one that annuls owes two NOP bundles. The bundle that ends an iteration raises IDX and goes back to START, or pops the
level and tests the next one at the same offset; a level with RT rotates the views (R84, R183) but one that a SYSW writes in that
cycle (log entry 12), and one with PE makes a pre-emption point, unless the bundle had a transfer pending (R180). A NOP bundle does nothing but take its cycle and its sequencer
step, and pays one of those owed. -/
def Obligations.SequencerStep : Prop :=
  (∀ (s : State) (u : Cur) (hint : BitVec 4) (val : BitVec 56), Closes s u → s.Stands u 3 (.mnop hint val) [] → (s.own u).pend = [] →
    let c := s.own u
    let n := c.ldep
    let l := c.toCore.level (n - 1)
    let l' := c.toCore.level (n - 2)
    let next (k : Level) : Level := { k with idx := k.idx + 1 }
    let goes (P : Ctx → Prop) : Prop := ∃ t, exec (.mnop hint val) s = .next t ∧ t.cur = none ∧ P (t.own u)
    (∀ a, n = 0 → u.xfer = some (.off a) → goes fun d =>
      d.pc = u.off + 1 ∧ d.pend = [⟨2, .off a⟩] ∧ d.nulls = if u.annul then 2 else 0) ∧
    (n ≠ 0 → ¬ Ends l u.off → u.xfer = none → u.annul = false → goes fun d => Iterated c d (u.off + 1) n [] ∧ c.Same d ∧ d.vw = c.vw) ∧
    (n ≠ 0 → Ends l u.off → u.xfer = none → u.annul = false →
      (Again l → goes fun d => Iterated c d l.start n [(n - 1, next l)]) ∧
      (¬ Again l → (n = 1 ∨ ¬ Ends l' u.off) → goes fun d => Iterated c d (u.off + 1) (n - 1) [(n - 1, {})]) ∧
      (¬ Again l → 2 ≤ n → Ends l' u.off → Again l' → goes fun d =>
        Iterated c d l'.start (n - 1) [(n - 1, {}), (n - 2, next l')]) ∧
      (Again l ∨ n = 1 ∨ ¬ Ends l' u.off → goes fun d => d.pend = [] ∧
        (∀ v, v < 4 → if l.rt = true ∧ c.vwNew.getLsbD v = false then Rotated (c.toCore.view v) (d.toCore.view v)
          else d.toCore.view v = c.toCore.view v) ∧
        (l.rt = false → c.Same d) ∧
        (u.sup = false → l.pe = true → u.pend0 = [] → d.point = true ∧ d.psc = 0) ∧
        (u.sup = false → l.pe = true → u.pend0 ≠ [] → d.point = false ∧ d.deferred = true)))) ∧
  (∀ (s : State) (t : Nat) (k : BitVec 2) (n : Next) (m : Nat), s.cur = none → s.holdsStill t = false → s.next t k = some n →
    let c := s.ctx t k
    c.nulls = m + 1 → c.pos = 0 → c.span = 1 → c.ldep = 0 → c.resume = none → c.engineDue n = none → s.entryEvent t k n false = none →
    c.late s.now = false → c.stuck = false →
    n.off = c.pc ∧ n.slots = [] ∧ Happens s (.bundleFetch t k) fun v => v.cur = none ∧ s.Still v ∧
      let d := v.ctx t k
      d.nulls = m ∧ d.cyc = c.cyc + 1 ∧ c.Same d ∧
      (c.pend = [] → d.pc = c.pc + 1 ∧ d.pend = []) ∧
      (∀ a, c.pend = [⟨2, .off a⟩] → d.pc = c.pc + 1 ∧ d.pend = [⟨1, .off a⟩]) ∧
      (∀ a, c.pend = [⟨1, .off a⟩] → d.pc = a ∧ d.pend = [])) ∧
  ∀ (s : State) (u : Cur), Plain s u →
    (∀ (hint : BitVec 4) (val : BitVec 56), s.Stands u 3 (.mnop hint val) [] →
      ∃ t, exec (.mnop hint val) s = .next t ∧ s.Left t (u.past []) (s.own u) ∧ t.cur = none ∧
        (t.own u).cyc = (s.own u).cyc + 1 ∧
        ((s.own u).pend = [] → (t.own u).pc = u.off + 1 ∧ (t.own u).pend = []) ∧
        (∀ a, (s.own u).pend = [⟨2, .off a⟩] → (t.own u).pc = u.off + 1 ∧ (t.own u).pend = [⟨1, .off a⟩]) ∧
        (∀ a, (s.own u).pend = [⟨1, .off a⟩] → (t.own u).pc = a ∧ (t.own u).pend = []) ∧
        (∀ a b, (s.own u).pend = [⟨1, .off a⟩, ⟨2, .off b⟩] → (t.own u).pc = a ∧ (t.own u).pend = [⟨1, .off b⟩])) ∧
    ∀ (p : Pred) (disp : BitVec 20), s.Issues u 0 (.br p disp) p [] → Legal (here u + 64 * disp.toInt) → (s.own u).pend = [] →
      ∃ t, exec (.br p disp) s = .next t ∧ (t.own u).pc = u.off + 1 ∧
        (t.own u).pend = [⟨2, .off (BitVec.ofInt 16 (u.off.toNat + disp.toInt))⟩]

/-- R181, R182, R149: LOOP pushes its level, jumps over the body when its count is 0, and traps with LSTK at depth 6; a member does
nothing. R184, R186: LOOPX pops the innermost level and jumps past its body, or traps with LSTK; LIDX reads an index. That a LOOP
or LOOPX whose jump would pass 2^22 raises BND is the model's reading (DEDUCED, log entry 14). -/
def Obligations.Loops : Prop :=
  (∀ (s : State) (u : Cur) (a : LoopArgs) (rest : List (Nat × Instr)), s.Issues u 0 (.loop a) a.p rest →
    let c := s.own u
    let n : BitVec 32 := match a.n with | .reg r => ((s.operands u).sreg r).setWidth 32 | .imm v => v.setWidth 32
    let stop : Int := 64 * ((u.off + 1).toNat + a.len.toNat)
    (c.pos = 0 → n ≠ 0 → c.ldep < 6 → ∃ t d, exec (.loop a) s = .next t ∧ s.Left t { u.past rest with pushed := some n } d ∧
      Pushed c d c.ldep { count := n, idx := 0, len := a.len, start := u.off + 1, rt := a.rt, pe := a.pe } (c.ldep + 1)) ∧
    (c.pos = 0 → n ≠ 0 → 6 ≤ c.ldep → ∃ t, exec (.loop a) s = .next t ∧ s.Left t (raised (u.past rest) cLSTK 0) c) ∧
    (c.pos = 0 → n = 0 → stop < 2 ^ 22 → ∃ t, exec (.loop a) s = .next t ∧ s.Left t (jumped (u.past rest) stop true false) c) ∧
    (c.pos = 0 → n = 0 → 2 ^ 22 ≤ stop →
      ∃ t, exec (.loop a) s = .next t ∧ s.Left t (raised (u.past rest) cBND (BitVec.ofInt 64 stop)) c) ∧
    (c.pos ≠ 0 → ∃ t, exec (.loop a) s = .next t ∧ s.Left t (u.past rest) c)) ∧
  ∀ (s : State) (u : Cur) (p : Pred) (sd : BitVec 5) (d : BitVec 3) (rest : List (Nat × Instr)),
    let c := s.own u
    let l := c.toCore.level (c.ldep - 1)
    let past : Int := 64 * (l.start.toNat + l.len.toNat)
    (s.Issues u 0 (.loopx p) p rest → (∀ r ∈ u.raised, r.slot ≠ 0) →
      (c.pos = 0 → c.ldep ≠ 0 → past < 2 ^ 22 → ∃ t e, exec (.loopx p) s = .next t ∧
        s.Left t { jumped (u.past rest) past false false with popped := true } e ∧ Pushed c e (c.ldep - 1) {} (c.ldep - 1)) ∧
      (c.pos = 0 → c.ldep ≠ 0 → 2 ^ 22 ≤ past →
        ∃ t, exec (.loopx p) s = .next t ∧ s.Left t (raised (u.past rest) cBND (BitVec.ofInt 64 past)) c) ∧
      (c.pos = 0 → c.ldep = 0 → ∃ t, exec (.loopx p) s = .next t ∧ s.Left t (raised (u.past rest) cLSTK 0) c) ∧
      (c.pos ≠ 0 → ∃ t, exec (.loopx p) s = .next t ∧ s.Left t (u.past rest) c)) ∧
    s.Gives u 0 (.lidx p sd d) p [(1, .sreg sd.toNat (BitVec.setWidth 64
      (if c.pos = 0 then (if c.ldep ≤ d.toNat then 0 else (c.toCore.level (c.ldep - 1 - d.toNat)).idx) else u.idx.getD d.toNat 0)))]

/-- R190, R191, R363, R365: a TRAP raises TRAPI with its number, and one that ends a user-mode bundle of a context of FLEN 1 takes the trap. Every slot that was not
suppressed counts as done, the TRAP too, and the handler's first bundle issues three cycles later. -/
def Obligations.TrapEntry : Prop :=
  ∀ (s : State) (u : Cur) (p : Pred) (imm : BitVec 16),
    (∀ rest, s.Issues u 0 (.trap p imm) p rest →
      ∃ t, exec (.trap p imm) s = .next t ∧ s.Left t (raised (u.past rest) cTRAPI (imm.setWidth 64)) (s.own u)) ∧
    (s.Issues u 0 (.trap p imm) p [] → Plain s u → (s.own u).sup = false → ∃ t, exec (.trap p imm) s = .next t ∧
      let c := s.own u
      let d := t.own u
      d.sup = true ∧ d.ldep = 0 ∧ d.pend = [] ∧ d.nulls = 0 ∧ d.pc = (c.tvec >>> 6).setWidth 16 ∧ d.readyAt = s.now + 3 ∧
      d.epc = (u.off.setWidth 64 <<< 6) ∧ d.ept = eptWord u.pend0 u.nulls0 none false ∧
      d.ecause.setWidth 8 = 0x10#8 ∧ d.ecause.getLsbD 14 = false ∧ d.ecause.getLsbD 15 = false ∧
      d.ecause.getLsbD 16 = c.ecause.getLsbD 16 ∧ d.eslot = 0 ∧ d.einfo = imm.setWidth 64 ∧
      d.edone = (u.occ.setWidth 64 <<< 8) ||| ((u.occ &&& ~~~u.skip) ||| u.pre).setWidth 64 ∧
      d.life = c.life ∧ d.ls = c.ls ∧ t.cur = none ∧ s.Still t ∧ c.Same d ∧
      ∀ x k, ¬ (x = u.t ∧ k = u.k) → t.ctx x k = s.ctx x k)

/-- R366: the same TRAP in supervisor mode is final. SUPT is set beside the cause, the context stops, and its launch ends with FAULT.
That EPC, EPT, ESLOT, EDONE and EINFO keep their contents is the model's choice (DEDUCED, log entry 86). -/
def Obligations.FinalTrap : Prop :=
  ∀ (s : State) (u : Cur) (p : Pred) (imm : BitVec 16) (id : LId) (l : Launch),
    s.Issues u 0 (.trap p imm) p [] → Plain s u → (s.own u).sup = true → (s.own u).launch = some id →
    findLaunch s.ctd.launches id = some l → l.phase ≠ .ending →
    ∃ t m, exec (.trap p imm) s = .next t ∧
      let c := s.own u
      let d := t.own u
      d.ecause.setWidth 8 = 0x10#8 ∧ d.ecause.getLsbD 14 = true ∧ d.epc = c.epc ∧ d.ept = c.ept ∧ d.eslot = c.eslot ∧
      d.edone = c.edone ∧ d.einfo = c.einfo ∧ d.life = .stopped ∧ c.Same d ∧ s.Still t ∧
      findLaunch t.ctd.launches id = some m ∧ m.phase = .ending ∧ m.status = 1 ∧ m.ftile = u.t ∧
      m.fcause = d.ecause.setWidth 16

/-- R192: a TRET is a transfer of its own that discards the handler's pending one; when it comes due, the sequencer is that of
EPC and EPT as they read in the next cycle (DEDUCED, log entry 105), and the bundle at PC reissues with the slots of EDONE suppressed
and T3 as its transfer. In user mode it raises PRIV as it issues, whatever its condition, and has no other effect (R99, R74). R370, R368: of the
bundles that RSK counts, each is skipped whole. -/
def Obligations.TrapReturn : Prop :=
  (∀ (c : Core) (n : Nat) (old : Word), (∀ l ∈ c.inflight, l.left = 1 → ∀ v, l.w ≠ .sys n v) → c.nextSys n old = old) ∧
  (∀ (c : Core) (n : Nat) (old v : Word) (xs ys : List Landing) (l : Landing), c.inflight = xs ++ l :: ys → l.left = 1 → l.w = .sys n v →
    (∀ y ∈ ys, y.left = 1 → ∀ z, y.w ≠ .sys n z) → c.nextSys n old = v &&& sysMask n) ∧
  (∀ (s : State) (t : Nat) (k : BitVec 2) (n : Next) (r : Resume), s.cur = none → s.holdsStill t = false → s.next t k = some n →
    let c := s.ctx t k
    c.resume = some r → r.replay = [] → c.pos = 0 → c.span = 1 → c.nulls = 0 → c.ldep = 0 → c.pend = [] → c.shn.getLsbD 62 = false →
    n.fault = none → c.engineDue n = none → s.entryEvent t k n false = none → (s.offer t k).held t k n = none →
    (s.offer t k).expired t k n = false →
    (r.skip = 0 →
      let ops := (n.slots.filter fun x => !r.done.getLsbD x.1).filterMap fun x => match x.2 with | .op i => some (x.1, i) | _ => none
      ops ≠ [] → Happens s (.bundleFetch t k) fun v => ∃ u, v.cur = some u ∧ u.todo = ops ∧ u.pre = r.done ∧
        u.xfer = r.xfer.map .off ∧ u.annul = r.annul) ∧
    (r.skip ≠ 0 → Happens s (.bundleFetch t k) fun v => v.cur = none ∧ s.Still v ∧ c.Same (v.ctx t k) ∧
      (v.ctx t k).pc = c.pc + 1 ∧ (v.ctx t k).resume = some { r with skip := r.skip - 1 })) ∧
  ∀ (s : State) (u : Cur) (p : Pred) (rest : List (Nat × Instr)),
    (s.Issues u 0 (.tret p) p rest → ∃ t, exec (.tret p) s = .next t ∧
      s.Left t { u.past rest with xfer := some .tret } { s.own u with pend := [] }) ∧
    (∀ hint val, s.Stands u 3 (.mnop hint val) [] → Plain s u → (s.own u).pend = [⟨1, .tret⟩] →
      ∃ t r, exec (.mnop hint val) s = .next t ∧
        let c := (s.own u).toCore
        let epc := c.nextSys 0x020 c.epc
        let edone := c.nextSys 0x023 c.edone
        let ept := c.nextSys 0x025 c.ept
        let d := t.own u
        d.sup = epc.getLsbD 23 ∧ d.pc = epc.extractLsb' 6 16 ∧ d.ldep = (epc.extractLsb' 3 3).toNat ∧
        d.nulls = (ept.extractLsb' 52 2).toNat ∧
        d.pend = (if ept.getLsbD 48 then [⟨1, .off (ept.extractLsb' 0 16)⟩] else []) ++
          (if ept.getLsbD 49 then [⟨2, .off (ept.extractLsb' 16 16)⟩] else []) ∧
        d.resume = some r ∧ r.done = edone.extractLsb' 0 8 ∧ r.skip = (edone.extractLsb' 16 5).toNat ∧
        r.xfer = (if ept.getLsbD 50 then some (ept.extractLsb' 32 16) else none) ∧ r.annul = ept.getLsbD 51) ∧
    (s.Stands u 0 (.tret p) rest → u.sup = false → ∃ t, exec (.tret p) s = .next t ∧
      s.Left t { u.past rest with raised := u.raised ++ [⟨0, true, cPRIV, 0⟩] } (s.own u))

/-- R193, R366, R389: EXIT marks its bundle; as the bundle closes the context issues no more and begins to retire, and in supervisor
mode with FIN set it stops and its launch ends with FAULT, as it does for an engine fault that is still to be delivered. -/
def Obligations.ExitRetires : Prop :=
  ∀ (s : State) (u : Cur) (p : Pred) (rest : List (Nat × Instr)), s.Issues u 0 (.exit p) p rest →
    let c := s.own u
    let final : Bool := u.sup && c.ecause.getLsbD 16
    let fails (t : State) (cause : BitVec 16) : Prop :=
      ∀ id l, c.launch = some id → findLaunch s.ctd.launches id = some l → l.phase ≠ .ending →
        ∃ m, findLaunch t.ctd.launches id = some m ∧ m.phase = .ending ∧ m.status = 1 ∧ m.fcause = cause ∧ m.ftile = u.t
    (∃ t, exec (.exit p) s = .next t ∧ s.Left t { u.past rest with exit := true } c) ∧
    (rest = [] → Closes s u → ∃ t, exec (.exit p) s = .next t ∧ t.cur = none ∧ (t.own u).inflight = c.inflight ∧ (t.own u).xq = c.xq ∧
      (final = false → (t.own u).life = .retiring ∧
        (c.xq.all (fun x => x.2.qs ≠ 1) = true → ∀ id l, c.launch = some id → findLaunch s.ctd.launches id = some l →
          ∃ m, findLaunch t.ctd.launches id = some m ∧ m.phase = l.phase ∧ m.exited = l.exited ++ [fieldFy c.field]) ∧
        ∀ x, c.xq.find? (fun x => x.2.qs = 1) = some x → fails t (x.2.ecode.setWidth 16)) ∧
      (final = true → (t.own u).life = .stopped ∧ fails t (c.ecause.setWidth 16)))

/-! ### System registers (R186-R189, R327, R351, R376, Table 9.7) -/

/-- R188, R189, R73: what SYSR sends to s[sd] two cycles later, register by register; a register that some contexts cannot read
is read here wherever SYSR is issued without a trap. -/
def Obligations.SystemRegisterReads : Prop :=
  ∀ (s : State) (u : Cur) (p : Pred) (sd : BitVec 5),
    let c := s.own u
    let r := s.operands u
    let reads (num : Nat) (v : Word) : Prop := s.Gives u 0 (.sysr p sd (BitVec.ofNat 12 num)) p [(2, .sreg sd.toNat v)]
    reads 0x000 r.key ∧ reads 0x001 r.step ∧ reads 0x002 c.qtrap ∧ reads 0x003 c.cyc ∧ reads 0x004 s.zone ∧
    reads 0x005 c.field ∧ reads 0x006 r.morig ∧ reads 0x007 c.shn ∧ reads 0x020 c.epc ∧ reads 0x021 c.ecause ∧
    reads 0x022 c.eslot ∧ reads 0x023 c.edone ∧ reads 0x024 c.einfo ∧ reads 0x025 c.ept ∧ reads 0x026 c.tvec ∧
    reads 0x027 c.preq ∧
    (∀ n, n < 4 → reads (0x010 + n) (SMap.get 0 c.vw n) ∧ reads (0x028 + n) (SMap.get 0 c.sscr n)) ∧
    (∀ n, n < 32 → reads (0x030 + n) (SMap.get 0 c.dcr n) ∧ reads (0x120 + n) (SMap.get 0 c.dhist n)) ∧
    (∀ n, n < 6 → let l := c.toCore.level n
      reads (0x060 + 2 * n) (0#16 ++ l.len ++ l.start ++ 0#14 ++ BitVec.ofBool l.rt ++ BitVec.ofBool l.pe) ∧
      reads (0x061 + 2 * n) (l.count ++ l.idx)) ∧
    (∀ n phys, n < 64 → c.counter n = some phys → reads (0x080 + n) (BitVec.ofNat 64 phys) ∧
      reads (0x0C0 + n) (SMap.get 0 (s.tile u.t).cnt phys)) ∧
    (∀ n, n < 16 → reads (0x100 + n) (r.flga.extractLsb' (64 * n) 64) ∧ reads (0x110 + n) (r.flgb.extractLsb' (64 * n) 64))

/-- R163, R188, R351: SYSW sends its value to the register two cycles later. A view descriptor that is set and not valid, and OP 3 in
PREQ, raise ILL as they issue; the write of KEY, CNT and CMAP have rows of their own, and CMAP raises ILL for a counter that
another entry of the tile maps, or that a launch not yet loaded has been given there (DEDUCED, log entry 121). After a write of OP 1 or OP 2 to PREQ the next bundle waits for the image operation to begin as the
write lands (R376; log entry 80). -/
def Obligations.SystemRegisterWrites : Prop :=
  ∀ (s : State) (u : Cur) (p : Pred) (sa : BitVec 5) (num : BitVec 12) (n : BitVec 6),
    let v := (s.operands u).sreg sa
    let ill (i : Instr) : Prop := ∀ rest, s.Issues u 0 i p rest →
      ∃ t, exec i s = .next t ∧ s.Left t { u.past rest with raised := u.raised ++ [⟨0, true, cILL, 0⟩] } (s.own u)
    let bad : Prop := (0x010 ≤ num.toNat ∧ num.toNat ≤ 0x013 ∧ v.getLsbD 34 = true ∧
        ¬ ((v.extractLsb' 0 8).toNat + (v.extractLsb' 8 8).toNat + 1 ≤ 256 ∧
          (v.getLsbD 16 = true → 1 ≤ (v.extractLsb' 17 9).toNat ∧
            (v.extractLsb' 17 9).toNat ≤ (v.extractLsb' 8 8).toNat + 1))) ∨
      (num = 0x027 ∧ v.extractLsb' 61 2 = 3)
    let taken : Prop := ∃ k e, e ∈ ((s.tile u.t).get k).cmap ∧ ((s.tile u.t).get k).life ≠ .free ∧
        e.2 = some (v.extractLsb' 0 8).toNat ∧ ¬ (k = u.k ∧ e.1 = n.toNat) ∨
      (v.extractLsb' 0 8).toNat ∈ s.promised u.t
    (bad → ill (.sysw p sa num)) ∧
    (¬ bad → ¬ (num = 0x027 ∧ v.extractLsb' 61 2 ≠ 0) → s.Gives u 0 (.sysw p sa num) p [(2, .sys num.toNat v)]) ∧
    (¬ bad → num = 0x027 → v.extractLsb' 61 2 ≠ 0 →
      s.GivesFrom u 0 (.sysw p sa num) p u { s.own u with readyAt := s.now + 2 } [(2, .sys 0x027 v)]) ∧
    s.Gives u 0 (.keyWrite p sa) p [(2, .sys 0 v)] ∧
    (∀ phys, (s.own u).counter n.toNat = some phys → s.Gives u 0 (.cntWrite p sa n) p [(2, .cntSet phys v)]) ∧
    (taken → ill (.cmapWrite p sa n)) ∧
    (¬ taken → s.Gives u 0 (.cmapWrite p sa n) p [(2, .cmap n.toNat (v.extractLsb' 0 8).toNat)])

/-- R6, R188, R327: a register written by SYSW is read back in its defined bits (Table 9.7 as `sysMask`; log entry 78), in a context
that keeps no operands; a write of KEY also clears every VAL of the draw history. -/
def Obligations.SystemRegisterReadAfterWrite : Prop :=
  (∀ (s : State) (u : Cur) (p : Pred) (sd : BitVec 5) (num : BitVec 12) (c : Ctx) (w : Word),
    s.own u = c.sysWrite num.toNat w → c.kept = none →
    num.toNat ∈ [0x000, 0x001, 0x002, 0x003, 0x006, 0x007, 0x020, 0x021, 0x022, 0x023, 0x024, 0x025, 0x026] ++
      (List.range 4).map (0x010 + ·) ++ (List.range 4).map (0x028 + ·) ++ (List.range 32).map (0x030 + ·) ++
      (List.range 12).map (0x060 + ·) ++ (List.range 32).map (0x100 + ·) ++ (List.range 32).map (0x120 + ·) →
    s.Gives u 0 (.sysr p sd num) p [(2, .sreg sd.toNat (w &&& sysMask num.toNat))]) ∧
  (∀ (c : Ctx) (w : Word) (n : Nat), n < 16 → (SMap.get 0 (c.sysWrite 0 w).dhist (2 * n)).getLsbD 63 = false)

namespace Sys2Proof.Claims

/-! ### Vector operations (R260-R297) -/

/-- Element `e` of an operand of the bundle. -/
abbrev el (s : State) (u : Cur) (w : Nat) (f : VField) (e : Nat) : Nat := elem (s.vsrc u w f) w e

/-- An element as an integer, unsigned under U. -/
def int (u : Bool) (w x : Nat) : Int := if u then x else (BitVec.ofNat w x).toInt

/-- An integer reduced to an element. -/
def back (w : Nat) (z : Int) : Nat := (z % 2 ^ w).toNat

/-- An integer held in the range of the width (R55). -/
def held (u : Bool) (w : Nat) (z : Int) : Int :=
  if u then Max.max 0 (Min.min (2 ^ w - 1) z) else Max.max (-(2 ^ (w - 1))) (Min.min (2 ^ (w - 1) - 1) z)

/-- The same where the variant's SAT is set. -/
def sat (a : VArgs) (z : Int) : Int := if a.var.getLsbD 1 then held (a.var.getLsbD 0) a.fmt.width z else z

/-- The governing lanes of a vector operation with elements of its format. -/
abbrev on (s : State) (u : Cur) (a : VArgs) : Mask := s.vlanes u a a.fmt.width

/-- An element-wise operation of two cycles without flags. -/
def Each (s : State) (u : Cur) (i : Instr) (a : VArgs) (f : Nat → Nat) : Prop :=
  s.GivesElements u i a 2 a.fmt.width (on s u a) false fun e => (f e, 0)

/-- An integer operation on the elements of `a` and `b`. -/
def EachInt (s : State) (u : Cur) (i : Instr) (a : VArgs) (f : Int → Int → Int) : Prop :=
  let w := a.fmt.width
  Each s u i a fun e => back w (f (int (a.var.getLsbD 0) w (el s u w a.a e)) (int (a.var.getLsbD 0) w (el s u w a.b e)))

/-- The lane `l` and the element `e` share a bit. -/
def Shares (w l e : Nat) : Prop := 16 * l < w * (e + 1) ∧ w * e < 16 * (l + 1)

/-- The conditions of Table 9.3 on two elements, by their code. -/
def Meets (u : Bool) (w : Nat) (code : Nat) (x y : Nat) : Prop :=
  match code with
  | 0 => x = y
  | 1 => x ≠ y
  | 2 => int u w x < int u w y
  | 3 => int u w y ≤ int u w x
  | 4 => int u w x ≤ int u w y
  | 5 => int u w y < int u w x
  | 6 => x &&& y ≠ 0
  | _ => x &&& y = 0

/-- A mask result: one bit for each governing lane whose elements all meet a condition (R268). -/
def IsLaneMask (w : Nat) (lanes m : Mask) (P : Nat → Prop) : Prop :=
  ∀ l, l < 128 → (m.getLsbD l = true ↔ lanes.getLsbD l = true ∧ ∀ e, Shares w l e → P e)

end Sys2Proof.Claims

/-- R76, R262: the lanes that a mask enables at an element width, and the elements: bit 2e governs a 32-bit element, bit l the
elements of lane l at lesser widths. m0 is all ones (R75). -/
def Obligations.MaskLanes : Prop :=
  (∀ (m : Mask) (w l : Nat), l < 128 → (lanesOf m w).getLsbD l = if w = 32 then m.getLsbD (2 * (l / 2)) else m.getLsbD l) ∧
  (∀ (m : Mask) (e : Nat), enabled m 32 e = m.getLsbD (2 * e) ∧ enabled m 16 e = m.getLsbD e ∧
    enabled m 8 e = m.getLsbD (e / 2) ∧ enabled m 4 e = m.getLsbD (e / 4)) ∧
  (∀ r : Regs, r.mask 0 = BitVec.allOnes 128 ∧ r.sreg 0 = 0 ∧ r.pred 0 = true)

/-- R265: VADD, VSUB, VMUL, VMULH, VMIN, VMAX and VABS, element by element, with SAT where the operation has it. -/
def Obligations.VectorIntegers : Prop :=
  ∀ (s : State) (u : Cur) (a : VArgs),
    EachInt s u (.vadd a) a (fun x y => sat a (x + y)) ∧ EachInt s u (.vsub a) a (fun x y => sat a (x - y)) ∧
    EachInt s u (.vmul a) a (fun x y => sat a (x * y)) ∧ EachInt s u (.vmulh a) a (fun x y => x * y / 2 ^ a.fmt.width) ∧
    EachInt s u (.vmin a) a (fun x y => if x ≤ y then x else y) ∧ EachInt s u (.vmax a) a (fun x y => if x ≤ y then y else x) ∧
    EachInt s u (.vabs a) a (fun x _ => sat a (if x < 0 then -x else x))

/-- R266, R267: VLOG applies its truth table to every bit, and VSH shifts or rotates by the low 8 bits of each element of b. R268:
VCMP writes a mask, zero in the lanes that do not govern. R269: VSEL, VMOV, VBCAST and VIOTA. -/
def Obligations.VectorBitsAndMoves : Prop :=
  ∀ (s : State) (u : Cur) (a : VArgs),
    let w := a.fmt.width
    (∃ v : Vec, (∀ i, i < 2048 → v.getLsbD i = a.imm.getLsbD
        (2 * ((s.vsrc u w a.a).getLsbD i).toNat + ((s.vsrc u w a.b).getLsbD i).toNat)) ∧
      s.Gives u (unitSlot a.u) (.vlog a) a.p (s.vresults u a 2 v (on s u a) 0)) ∧
    Each s u (.vsh a) a (fun e =>
      let x : BitVec w := BitVec.ofNat w (el s u w a.a e)
      let n := el s u w a.b e % 256
      (match a.var.toNat with
        | 0 => x <<< n
        | 1 => x >>> n
        | 2 => x.sshiftRight n
        | _ => x.rotateLeft n).toNat) ∧
    (∃ m : Mask, (IsLaneMask w (on s u a) m fun e =>
        Meets (a.var.getLsbD 0) w (a.imm.extractLsb' 0 3).toNat (el s u w a.a e) (el s u w a.b e)) ∧
      s.Gives u (unitSlot a.u) (.vcmp a) a.p [(2, .mreg (fieldM a.d).toNat m)]) ∧
    Each s u (.vsel a) a (fun e => if enabled ((s.operands u).mask (a.imm.extractLsb' 0 3)) w e then el s u w a.a e else el s u w a.b e) ∧
    s.Gives u (unitSlot a.u) (.vmov a) a.p (s.vresults u a 2 (s.vsrc u w a.a) (on s u a) 0) ∧
    Each s u (.vbcast a) a (fun _ => el s u w a.a (a.imm.extractLsb' 0 9).toNat) ∧
    Each s u (.viota a) a (fun e => (el s u w a.a e + e) % 2 ^ w)

namespace Sys2Proof.Claims

/-- The draw for output element `e` of a vector operation (R263). -/
def drawFor (s : State) (u : Cur) (e : Nat) : BitVec 32 :=
  (s.operands u).drawOf (s.operands u).rowOf ((s.operands u).colOf + BitVec.ofNat 32 e)

/-- The value of an element in the format of the operation. -/
def valOf (s : State) (u : Cur) (a : VArgs) (f : VField) (e : Nat) : Val := decodeF a.fmt (el s u a.fmt.width f e)

/-- An operation that forms an exact result from its operands' values and rounds it once (R263, R270); with RM = SR it makes
a draw-history entry. -/
def EachFp (s : State) (u : Cur) (i : Instr) (a : VArgs) (latency : Nat) (f : Nat → Exact × Flags) : Prop :=
  s.GivesElements u i a latency a.fmt.width (on s u a) (a.rm = .sr) fun e =>
    (f e).1.round a.rm a.fmt (drawFor s u e) (f e).2

/-- A value with its sign inverted where `b` holds. -/
def negIf (b : Bool) (x : Val) : Val := if b then x.neg else x

/-- The word and flags of VFSPEC for function `n` (Table 13.3, R275): NaR for NaR, for LOG2 and RSQRT of a real that is not positive and
for RCP of zero; the rounding of 2^k for EXP2 of an integer k, of k for LOG2 of 2^k, of 1/r for RCP, of 2^k for RSQRT of 4^-k, zero
for TANH of zero and the rounding of 1/2 for SIGM of zero; and otherwise the word to which both of the model's bounds round at the
first precision where they agree, or the free value of log entry 20 with NX. -/
def IsSpecial (n : Nat) (f : Fmt) (rm : RM) (d : BitVec 32) (x : Nat) (y : Nat × Flags) : Prop :=
  let fn := SpecFn.ofCode n
  let word (r : Rat2) : Nat × Flags := roundF rm f d false r
  let agree (P : Nat) (r : Rat2) : Prop := word (specBounds fn P r).1 = word (specBounds fn P r).2
  (decodeF f x = .nar → y = (narWord f, flagNR)) ∧
  ∀ r, decodeF f x = .real r →
    ((fn = .log2 ∨ fn = .rsqrt) → r.num ≤ 0 → y = (narWord f, flagNV)) ∧
    (fn = .rcp → r.num = 0 → y = (narWord f, flagNV)) ∧
    (∀ k : Int, fn = .exp2 → r.num = k * r.den → y = word (pow2 k)) ∧
    (∀ k : Int, fn = .log2 → (pow2 k).eq r = true → y = word ⟨k, 1⟩) ∧
    (fn = .rcp → r.num ≠ 0 → y = word ((⟨1, 1⟩ : Rat2).div r)) ∧
    (∀ k : Int, fn = .rsqrt → (pow2 (-2 * k)).eq r = true → y = word (pow2 k)) ∧
    (fn = .tanh → r.num = 0 → y = (0, 0)) ∧
    (fn = .sigm → r.num = 0 → y = word ⟨1, 2⟩) ∧
    (¬ ((fn = .log2 ∨ fn = .rsqrt) ∧ r.num ≤ 0) → ¬ (fn = .rcp ∧ r.num = 0) →
      (agree 128 r → y = word (specBounds fn 128 r).1) ∧
      (¬ agree 128 r → agree 256 r → y = word (specBounds fn 256 r).1) ∧
      (¬ agree 128 r → ¬ agree 256 r → agree 512 r → y = word (specBounds fn 512 r).1) ∧
      (¬ agree 128 r → ¬ agree 256 r → ¬ agree 512 r → y = (Config.specFallback n x % 2 ^ f.width, flagNX)))

end Sys2Proof.Claims

/-- R263, R264, R270, R272: VFADD, VFSUB, VFMUL, VFDIV, VFSQRT, VFMA and VFSCALB form their exact result and round it once. The
invalid flag of 0 × ∞ with a quiet NaN addend is the free value of log entry 21. -/
def Obligations.VectorFloats : Prop :=
  ∀ (s : State) (u : Cur) (a : VArgs),
    let x (e : Nat) : Val := valOf s u a a.a e
    let y (e : Nat) : Val := valOf s u a a.b e
    let z (e : Nat) : Val := valOf s u a a.c e
    EachFp s u (.vfadd a) a 4 (fun e => withNaN [x e, y e] (exactAdd (x e) (y e), 0)) ∧
    EachFp s u (.vfsub a) a 4 (fun e => withNaN [x e, y e] (exactAdd (x e) (y e).neg, 0)) ∧
    EachFp s u (.vfmul a) a 4 (fun e => withNaN [x e, y e] (exactMul (x e) (y e), 0)) ∧
    EachFp s u (.vfdiv a) a 12 (fun e => withNaN [x e, y e] (exactDiv a.fmt.isTapered (x e) (y e))) ∧
    EachFp s u (.vfsqrt a) a 12 (fun e => withNaN [x e] (exactSqrt (x e), 0)) ∧
    EachFp s u (.vfma a) a 4 (fun e =>
      let r := withNaN [x e, y e, z e] (exactFma (negIf (a.var.getLsbD 1) (x e)) (y e) (negIf (a.var.getLsbD 0) (z e)), 0)
      (r.1, r.2 ||| (if (z e).isNaN then fmaOpenFlag (x e) (y e) else 0))) ∧
    EachFp s u (.vfscalb a) a 4 (fun e =>
      let k := (BitVec.ofNat a.fmt.width (el s u a.fmt.width a.b e)).toInt
      withNaN [x e] (match x e with
        | .inf n => .inf n
        | v => .real (v.rat.scale (Max.max (-1000) (Min.min 1000 k))) v.sign, 0))

namespace Sys2Proof.Claims

/-- The magnitude of a real, and the word of a magnitude with the real's sign. -/
def absOf (v : Rat2) : Rat2 := ⟨v.num.natAbs, v.den⟩
def taperWord (f : Fmt) (v : Rat2) (m : Nat) : Nat := if v.num < 0 then 2 ^ f.width - m else m
def ieeeWord (f : Fmt) (v : Rat2) (m : Nat) : Nat := if v.num < 0 then 2 ^ (f.width - 1) + m else m

/-- SR between the neighbours of a real: the upper one where the draw is below the floor of 2^32 times its place in the gap (R50). -/
def drawsUp (d : BitVec 32) (v lo hi : Rat2) : Bool :=
  !((v.sub lo).scale 32).lt ((hi.sub lo).mul ⟨d.toNat + 1, 1⟩)

/-- The choice between the magnitudes `m` and `m + 1`, of the reals `x` and `y`: down under RZ, by the point `mid` and the even word
under RNE, and by the draw under SR, on the signed value. -/
def Chooses (rm : RM) (d : BitVec 32) (v : Rat2) (m : Nat) (x mid y : Rat2) : Nat :=
  match rm with
  | .rz => m
  | .rne => if mid.lt (absOf v) || (mid.eq (absOf v) && m % 2 == 1) then m + 1 else m
  | .sr => if v.num < 0 then (if drawsUp d v y.neg x.neg then m else m + 1) else (if drawsUp d v x y then m + 1 else m)

/-- The real of a magnitude of F32 or B16; one beyond the largest finite value stands for 2^128. -/
def ieeeReal (f : Fmt) (m : Nat) : Rat2 :=
  match decodeF f m with
  | .real r => r
  | _ => pow2 128

end Sys2Proof.Claims

/-- R59, R270, R272: what the exact results of `VectorFloats` are. Of reals they are the real sum, product, quotient and fused
sum; a product of 0 and ∞, a difference of infinities and a root of a negative number are NaNs with NV. R274, R276: which word VFMIN and VFMAX keep, and the conditions of VFCMP; a NaN or NaR
makes only NE and UN true. R48 to R53: how a real rounds. A tapered magnitude between two words takes one of them by the mode, and RNE
decides by the word of one more bit between them; beyond maxpos and below minpos it is clamped. An IEEE magnitude takes one of
two neighbours, RNE by their middle. A magnitude above the largest finite one gives an infinity under SR, and under RNE where IEEE 754
does so (log entry 97). -/
def Obligations.ExactResultsAndOrder : Prop :=
  (∀ a b c : Rat2, (∃ z, exactAdd (.real a) (.real b) = .real (a.add b) z) ∧
    (∃ z, exactMul (.real a) (.real b) = .real (a.mul b) z) ∧
    (∃ z, exactFma (.real a) (.real b) (.real c) = .real ((a.mul b).add c) z) ∧
    (b.num ≠ 0 → ∀ t, ∃ z, exactDiv t (.real a) (.real b) = (.real (a.div b) z, 0)) ∧
    (b.num = 0 → exactDiv true (.real a) (.real b) = (.bad flagNV, 0)) ∧
    (b.num = 0 → a.num ≠ 0 → exactDiv false (.real a) (.real b) = (.inf (a.num < 0), flagNV)) ∧
    (a.num < 0 → exactSqrt (.real a) = .bad flagNV)) ∧
  (∀ n : Bool, exactMul (.inf n) (.real ⟨0, 1⟩) = .bad flagNV ∧ exactAdd (.inf n) (.inf !n) = .bad flagNV ∧
    exactAdd (.inf n) (.inf n) = .inf n) ∧
  (∀ (f : Fmt) (rm : RM) (d : BitVec 32) (fl : Flags), (Exact.bad fl).round rm f d 0 = (narWord f, fl)) ∧
  (∀ xs : List Val, Val.nar ∈ xs → ∀ y, ∃ fl, withNaN xs y = (.bad 0, fl) ∧ fl.getLsbD 4 = true) ∧
  (∀ (f : Fmt) (g : Bool) (x y : Nat), pickWord f g x y = x ∨ pickWord f g x y = y) ∧
  (∀ (f : Fmt) (x y : Nat), orderKey f (pickWord f false x y) = Min.min (orderKey f x) (orderKey f y) ∧
    orderKey f (pickWord f true x y) = Max.max (orderKey f x) (orderKey f y)) ∧
  (∀ (c : Nat) (x y : Val), c < 8 → (x.isNaN || y.isNaN) = true → (fcond c x y = true ↔ c = 1 ∨ c = 6)) ∧
  (∀ x y : Rat2, (fcond 0 (.real x) (.real y) = true ↔ x.num * y.den = y.num * x.den) ∧
    (fcond 2 (.real x) (.real y) = true ↔ x.num * y.den < y.num * x.den) ∧
    fcond 1 (.real x) (.real y) = !fcond 0 (.real x) (.real y) ∧ fcond 3 (.real x) (.real y) = !fcond 2 (.real x) (.real y) ∧
    fcond 4 (.real x) (.real y) = fcond 3 (.real y) (.real x) ∧ fcond 5 (.real x) (.real y) = fcond 2 (.real y) (.real x) ∧
    fcond 7 (.real x) (.real y) = true) ∧
  fcond 0 .negZero (.real ⟨0, 1⟩) = true ∧
  (∀ (f : Fmt) (rm : RM) (d : BitVec 32) (z : Bool) (v : Rat2), f.isTapered = true → 0 < v.den →
    let top := 2 ^ (f.width - 1) - 1
    let real (m : Nat) : Rat2 := taperReal m f.width f.es
    let y := roundF rm f d z v
    (v.num = 0 → y = (0, 0)) ∧
    ((real top).lt (absOf v) = true → y = (taperWord f v top, flagSATH ||| flagNX)) ∧
    (v.num ≠ 0 → (absOf v).lt (real 1) = true → y = (taperWord f v 1, flagSATL ||| flagNX)) ∧
    (∀ m, 1 ≤ m → m ≤ top → (real m).eq (absOf v) = true → y = (taperWord f v m, 0)) ∧
    ∀ m, 1 ≤ m → m < top → (real m).lt (absOf v) = true → (absOf v).lt (real (m + 1)) = true →
      y = (taperWord f v (Chooses rm d v m (real m) (taperReal (2 * m + 1) (f.width + 1) f.es) (real (m + 1))), flagNX)) ∧
  ∀ (f : Fmt) (rm : RM) (d : BitVec 32) (z : Bool) (v : Rat2), f.isIeee = true → 0 < v.den →
    let one := 2 ^ ieeeFrac f
    let inf := 255 * one
    let real : Nat → Rat2 := ieeeReal f
    let y := roundF rm f d z v
    (v.num = 0 → y = (if z then 2 ^ (f.width - 1) else 0, 0)) ∧
    ((absOf v).lt (pow2 128) = false →
      y = (ieeeWord f v (if rm = .rz then inf - 1 else inf), flagSATH ||| flagNX)) ∧
    (∀ m, 1 ≤ m → m < inf → (real m).eq (absOf v) = true → y = (ieeeWord f v m, 0)) ∧
    (∀ m, m < inf → (real m).lt (absOf v) = true → (absOf v).lt (real (m + 1)) = true →
      let n := if m + 1 = inf ∧ rm = .sr then inf
        else Chooses rm d v m (real m) (((real m).add (real (m + 1))).scale (-1)) (real (m + 1))
      y.1 = ieeeWord f v n ∧ (n = inf → y.2 = flagSATH ||| flagNX) ∧ (n ≠ inf → one ≤ m → y.2 = flagNX) ∧
      (m + 1 < one → y.2 = flagSATL ||| flagNX) ∧ (m + 1 = one → y.2 = flagNX ∨ y.2 = flagSATL ||| flagNX))

/-- R44, R45, R48 to R51, R59, R61, for the formats of 4 and 8 bits: every word but NaR rounds to itself in every mode, and sets
no flag; the reals stand in the order of the words as two's-complement integers; and every real, and every product of two, is
an exact number of units of 2^-240. -/
def Obligations.NarrowTaperedWords : Prop :=
  ∀ f ∈ [Fmt.t4e0, .t4e1, .t8e0, .t8e1, .t8e2, .t8e3], ∀ b c : Nat, b < 2 ^ f.width → c < 2 ^ f.width →
    b ≠ 2 ^ (f.width - 1) → c ≠ 2 ^ (f.width - 1) →
    (∀ (rm : RM) (d : BitVec 32), ∃ r, decodeF f b = .real r ∧ roundF rm f d false r = (b, 0)) ∧
    ((BitVec.ofNat f.width b).toInt < (BitVec.ofNat f.width c).toInt →
      (taperReal b f.width f.es).lt (taperReal c f.width f.es) = true) ∧
    (quireUnits (taperReal b f.width f.es)).2 = false ∧
    (quireUnits ((taperReal b f.width f.es).mul (taperReal c f.width f.es))).2 = false

/-- R273, R274, R276: VFNEG, VFABS, VFMIN, VFMAX and VFCMP. R275: VFSPEC gives the NaR cases of Table 13.3, and at the points where
the function is a real that the model represents its one rounding. Elsewhere the model bounds the exact value by intervals at
rising precision (DEDUCED, log entry 20): where both bounds round alike the element is that word, and one whose bounds never agree
takes a free value with NX. -/
def Obligations.VectorSignsAndCompares : Prop :=
  ∀ (s : State) (u : Cur) (a : VArgs),
    let f := a.fmt
    let w := f.width
    let n (w x : Nat) : Nat := (-(BitVec.ofNat w x)).toNat
    let neg (abs : Bool) (x : Nat) : Nat × Flags :=
      if f.isTapered then
        (if x = 2 ^ (w - 1) then (x, flagNR) else if abs && decide (x < 2 ^ (w - 1)) then (x, 0) else (n w x, 0))
      else match decodeF f x with
        | .nan q => (narWord f, if q then 0 else flagNV)
        | _ => ((if abs then BitVec.ofNat w x &&& ~~~BitVec.twoPow w (w - 1) else BitVec.ofNat w x ^^^ BitVec.twoPow w (w - 1)).toNat, 0)
    let two (e : Nat) : List Val := [valOf s u a a.a e, valOf s u a a.b e]
    let pick (g : Bool) (e : Nat) : Nat × Flags :=
      if (two e).any Val.isNaN then (narWord f, nanFlags (two e)) else (pickWord f g (el s u w a.a e) (el s u w a.b e), 0)
    (a.fmt.isTapered ∨ a.fmt.isIeee →
      s.GivesElements u (.vfneg a) a 2 w (on s u a) false (fun e => neg false (el s u w a.a e)) ∧
      s.GivesElements u (.vfabs a) a 2 w (on s u a) false (fun e => neg true (el s u w a.a e))) ∧
    s.GivesElements u (.vfmin a) a 4 w (on s u a) false (pick false) ∧
    s.GivesElements u (.vfmax a) a 4 w (on s u a) false (pick true) ∧
    (f.isTapered → ∃ g : Nat → Nat × Flags,
      s.GivesElements u (.vfspec a) a 8 w (on s u a) (a.rm = .sr) g ∧
      ∀ e, e < 2048 / w → IsSpecial (a.imm.extractLsb' 0 3).toNat f a.rm (drawFor s u e) (el s u w a.a e) (g e)) ∧
    ∃ (m : Mask) (fl : FlgVec),
      IsLaneMask w (on s u a) m (fun e => fcond (a.imm.extractLsb' 0 3).toNat (valOf s u a a.a e) (valOf s u a a.b e) = true) ∧
      fl = flagsOf w ((List.range (2048 / w)).filterMap fun e => if enabled (on s u a) w e then
        some (e, fcondFlags (a.imm.extractLsb' 0 3).toNat (valOf s u a a.a e) (valOf s u a a.b e)) else none) ∧
      s.Gives u (unitSlot a.u) (.vfcmp a) a.p
        ((4, .mreg (fieldM a.d).toNat m) :: if a.q || fl = 0 then [] else [(4, .flags a.u fl)])

/-- R278 to R281: the conversions take their source element from the part, leave the elements outside it unwritten, and VCVT
and VCVTI round or hold the value; VPACK and VUNPK move bits. The first clause says which source element a conversion
gives a destination element. That a VCVT between equal formats still makes a NaN canonical and sets the flags of a NaN or NaR is the
model's reading (DEDUCED, log entry 22). -/
def Obligations.Conversions : Prop :=
  (∀ ws wd p e : Nat,
    (ws = wd → cvtSource ws wd p e = some e) ∧
    (ws < wd → cvtSource ws wd p e = some (p * (2048 / wd) + e)) ∧
    (wd < ws → ∀ j, j < 2048 / ws → cvtSource ws wd p (p * (2048 / ws) + j) = some j) ∧
    (wd < ws → (∀ j, j < 2048 / ws → e ≠ p * (2048 / ws) + j) → cvtSource ws wd p e = none)) ∧
  ∀ (s : State) (u : Cur) (a : VArgs),
    let w := a.fmt.width
    let ws := a.sfmt.width
    let wi := dwBits (a.imm.extractLsb' 0 2).toNat
    let conv (i : Instr) (ws wd : Nat) (f : BitVec 32 → Nat → Nat × Flags) : Prop := ∃ lanes : Mask,
      (∀ l, l < 128 → lanes.getLsbD l = ((s.vlanes u a wd).getLsbD l && (cvtSource ws wd a.cvtPart (16 * l / wd)).isSome)) ∧
      s.GivesElements u i a 3 wd lanes (a.rm = .sr) (fun e => match cvtSource ws wd a.cvtPart e with
        | some j => f (drawFor s u e) (el s u ws a.a j)
        | none => (0, 0))
    conv (.vcvt a) ws w (fun d x =>
      if a.sfmt.isInt then
        (let z := int (a.var.getLsbD 0) ws x
         if a.fmt.isInt then (back w (if a.var.getLsbD 1 then held (a.var.getLsbD 0) w z else z), 0)
         else roundF a.rm a.fmt d false ⟨z, 1⟩)
      else if a.sfmt = a.fmt then (match decodeF a.fmt x with
        | .nan q => (narWord a.fmt, if q then 0 else flagNV)
        | .nar => (x, flagNR)
        | _ => (x, 0))
      else roundVal a.rm a.fmt d (decodeF a.sfmt x)) ∧
    conv (.vcvti a) w wi (fun d x => toIntW a.rm (a.var.getLsbD 0) wi d (decodeF a.fmt x)) ∧
    s.GivesElements u (.vpack a) a 3 w (on s u a) false (fun e =>
      (if e < 1024 / w then el s u (2 * w) a.a e % 2 ^ w else el s u (2 * w) a.b (e - 1024 / w) % 2 ^ w, 0)) ∧
    s.GivesElements u (.vunpk a) a 3 (2 * w) (s.vlanes u a (2 * w)) false (fun e =>
      (back (2 * w) (int (a.var.getLsbD 0) w (el s u w a.a ((a.imm.extractLsb' 4 1).toNat * (1024 / w) + e))), 0))

namespace Sys2Proof.Claims

/-- The enabled elements of a vector operation's first source, with their numbers, in ascending order. -/
abbrev elems (s : State) (u : Cur) (a : VArgs) (w : Nat) : List (Nat × Nat) :=
  enabledElems ((s.operands u).mask a.m) w (s.vsrc u w a.a)

/-- The exact sum of real words, as a real. -/
def sumOf (f : Fmt) (xs : List Nat) : Rat2 :=
  (⟨(xs.map fun x => match decodeF f x with | .real r => (quireUnits r).1 | _ => 0).sum, 1⟩ : Rat2).scale (-240)

end Sys2Proof.Claims

/-- R282, R283, R288: VPERM, VROT and VCOMP. -/
def Obligations.LaneMoves : Prop :=
  ∀ (s : State) (u : Cur) (a : VArgs),
    let w := a.fmt.width
    let n := 2048 / w
    let p := 128 * a.var.toNat
    (∃ lanes : Mask, (∀ l, l < 128 → lanes.getLsbD l =
        ((on s u a).getLsbD l && decide (p ≤ 16 * l / w) && decide (16 * l / w < p + Min.min 128 n))) ∧
      s.GivesElements u (.vperm a) a 4 w lanes false (fun e =>
        let i := el s u 16 a.b (e - p)
        (if i < n then el s u w a.a i else 0, 0))) ∧
    s.GivesElements u (.vrot a) a 4 w (on s u a) false (fun e => (el s u w a.a ((e + (a.imm.extractLsb' 0 9).toNat) % n), 0)) ∧
    ∃ v : Vec, (∀ e, e < n → elem v w e = (((elems s u a w).map (·.2))[e]?).getD 0) ∧
      s.Gives u (unitSlot a.u) (.vcomp a) a.p (s.vresults u a 4 v (BitVec.allOnes 128) 0)

/-- R284, R286: VRED and VSCAN. Integers are summed exactly, and reals exactly with one rounding. -/
def Obligations.Reductions : Prop :=
  ∀ (s : State) (u : Cur) (a : VArgs),
    let f := a.fmt
    let w := f.width
    let xs := (elems s u a w).map (·.2)
    let zs := xs.map (int (a.imm.getLsbD 0) w)
    let before (e : Nat) : List Nat := ((elems s u a w).filter fun x => x.1 ≤ e).map (·.2)
    (xs = [] → s.GivesDrawn u (unitSlot a.u) (.vred a) a.p (a.rm = .sr) []) ∧
    (xs ≠ [] → ∃ (r : Nat) (fl : Flags),
      (f.isInt → fl = 0 ∧ (a.var = 0 → r = back w zs.sum) ∧
        (a.var = 1 → ∃ z ∈ zs, r = back w z ∧ ∀ y ∈ zs, z ≤ y) ∧ (a.var = 2 → ∃ z ∈ zs, r = back w z ∧ ∀ y ∈ zs, y ≤ z)) ∧
      (f.isInt = false → (∀ x ∈ xs, ∃ q, decodeF f x = .real q) →
        (a.var = 0 → (r, fl) = roundF a.rm f (drawFor s u 0) false (sumOf f xs)) ∧
        (a.var = 1 → fl = 0 ∧ r ∈ xs ∧ ∀ y ∈ xs, orderKey f r ≤ orderKey f y) ∧
        (a.var = 2 → fl = 0 ∧ r ∈ xs ∧ ∀ y ∈ xs, orderKey f y ≤ orderKey f r)) ∧
      (f.isInt = false → (∃ x ∈ xs, (decodeF f x).isNaN = true) → r = narWord f) ∧
      s.GivesDrawn u (unitSlot a.u) (.vred a) a.p (a.rm = .sr)
        (s.vresults u a 4 (replicate w (BitVec.ofNat 64 r)) (on s u a) (flagsIn (on s u a) fl))) ∧
    ∃ g : Nat → Nat × Flags,
      (f.isInt → ∀ e, enabled (on s u a) w e = true → e < 2048 / w →
        g e = (back w (sat a ((before e).map (int (a.var.getLsbD 0) w)).sum), 0)) ∧
      (f.isInt = false → ∀ e, enabled (on s u a) w e = true → e < 2048 / w → (∀ x ∈ before e, ∃ q, decodeF f x = .real q) →
        g e = roundF a.rm f (drawFor s u e) false (sumOf f (before e))) ∧
      (f.isInt = false → ∀ e, enabled (on s u a) w e = true → e < 2048 / w → (∃ x ∈ before e, (decodeF f x).isNaN = true) →
        (g e).1 = narWord f ∧ (g e).2.getLsbD 4 = true) ∧
      s.GivesElements u (.vscan a) a 6 w (on s u a) (a.rm = .sr) g

/-- R285, R287: VARGMAX answers the index of the first greatest element that takes part, and VSORTK a stable descending order of
the enabled elements before the others. Its keys order integers as such, tapered words as signed integers, and B16 by value with a
NaN below every other. -/
def Obligations.Sorting : Prop :=
  (∀ (f : Fmt) (un : Bool) (x y : Nat), f.width = 16 → x < 2 ^ 16 → y < 2 ^ 16 →
    let less : Prop := sortKey f un x < sortKey f un y
    (f.isInt = true → (less ↔ int un 16 x < int un 16 y)) ∧ (f.isTapered = true → (less ↔ int false 16 x < int false 16 y)) ∧
    (f.isIeee = true → (decodeF f x).isNaN = false → (decodeF f y).isNaN = false → (less ↔ (decodeF f x).lt (decodeF f y) = true)) ∧
    (f.isIeee = true → (decodeF f x).isNaN = true → (less ↔ (decodeF f y).isNaN = false) ∧ ¬ sortKey f un y < sortKey f un x)) ∧
  ∀ (s : State) (u : Cur) (a : VArgs),
    let f := a.fmt
    let w := f.width
    let es := (elems s u a w).filter fun e => f.isInt || !(decodeF f e.2).isNaN
    let less (x y : Nat) : Bool := if f.isInt then decide (int (a.imm.getLsbD 0) w x < int (a.imm.getLsbD 0) w y)
      else (decodeF f x).lt (decodeF f y)
    let key (e : Nat × Nat) : Int := sortKey f (a.var.getLsbD 0) e.2
    (∃ (i : Nat) (fl : FlgVec), (es = [] → i = 0xFFFF) ∧
      (es ≠ [] → ∃ x, (i, x) ∈ es ∧ (∀ y ∈ es, less x y.2 = false) ∧ ∀ y ∈ es, less y.2 x = true ∨ i ≤ y.1) ∧
      (f.isInt = true → fl = 0) ∧
      s.Gives u (unitSlot a.u) (.vargmax a) a.p (s.vresults u a 4 (replicate 16 (BitVec.ofNat 64 i)) ((s.operands u).mask a.m) fl)) ∧
    ∃ top : List (Nat × Nat), top.Perm (elems s u a 16) ∧
      top.Pairwise (fun x y => key y < key x ∨ (key x = key y ∧ x.1 < y.1)) ∧
      (let all := top ++ enabledElems (~~~((s.operands u).mask a.m)) 16 (s.vsrc u 16 a.a)
       s.Gives u (unitSlot a.u) (.vsortk a) a.p
        (s.toDest u 10 a.b (ofElems 16 (all.map (·.1))) (BitVec.allOnes 128) ++
          s.vresults u a 10 (ofElems 16 (all.map (·.2))) (BitVec.allOnes 128) 0))

namespace Sys2Proof.Claims

/-! ### Quires (R58-R62) -/

/-- quire_add (R59): the exact sum where it lies in range, NaR from a NaR, NaR with QG beyond. `lost` says that the addend was
floored. -/
def quireAdd (q : Quire) (t : Option Int) (lost : Bool) : QRes :=
  match t with
  | none => { q := nar512, f := flagNR }
  | some x =>
    if q = nar512 then { q := nar512, f := flagNR }
    else if -(2 ^ 511 - 1) ≤ q.toInt + x ∧ q.toInt + x ≤ 2 ^ 511 - 1 then { q := BitVec.ofInt 512 (q.toInt + x), qx := lost }
    else { q := nar512, qx := lost, qg := true }

/-- A quire times 2^n (R292, R312): exact to the left, floored to the right. -/
def quireShift (q : Quire) (n : Int) : QRes :=
  if q = nar512 then { q := nar512, f := flagNR }
  else if n < 0 then { q := q.sshiftRight (-n).toNat, qx := q.toInt % 2 ^ (-n).toNat ≠ 0 }
  else if -(2 ^ 511 - 1) ≤ q.toInt * 2 ^ n.toNat ∧ q.toInt * 2 ^ n.toNat ≤ 2 ^ 511 - 1 then { q := q <<< n.toNat }
  else { q := nar512, qg := true }

/-- Flags that a vector operation raises in its unit, unless Q is set. -/
def raisesFlags (a : VArgs) (latency : Nat) (fl : FlgVec) : List (Nat × Write) :=
  if a.q || fl = 0 then [] else [(latency, .flags a.u fl)]

/-- EINFO of QOVF (Table 18.1). -/
def overflowAt (u : Cur) (slot row lane : Nat) : Word :=
  (u.off.setWidth 64 <<< 22) ||| (BitVec.ofNat 64 slot <<< 16) ||| (BitVec.ofNat 64 row <<< 8) ||| BitVec.ofNat 64 lane

/-- What an operation sends to a vector quire: its contents, its flags in lane 0, and a quire overflow. -/
def quireSends (u : Cur) (a : VArgs) (r : QRes) (fl : Flags) : List (Nat × Write) :=
  (4, .vq (fieldQ a.d).toNat r.q) :: raisesFlags a 4 ((r.f ||| (if r.qg then flagQG else 0) ||| fl).setWidth 1024) ++
    if r.qg then [(4, .overflow (overflowAt u (unitSlot a.u) (fieldQ a.d).toNat 0))] else []

/-- Vector quire `n` as the bundle reads it. -/
def vqOf (s : State) (u : Cur) (n : BitVec 2) : Quire := SMap.get 0 (s.operands u).vq n.toNat

/-- The sum of exact addends in units of 2^-240, none where one of them is NaR. -/
def addends (vs : List Val) : Option Int :=
  if vs.any (fun v => match v with | .real _ => false | _ => true) then none
  else some ((vs.map fun v => (quireUnits v.rat).1).sum)

end Sys2Proof.Claims

/-- R289 to R293: the operations on vector quires. VQDOT and VQSUM take tapered elements, VQRND gives tapered or IEEE ones, and the
others take no format. A VQSCALE that leaves the range overflows like any other operation (DEDUCED, log entry 16). -/
def Obligations.VectorQuires : Prop :=
  ∀ (s : State) (u : Cur) (a : VArgs),
    let w := a.fmt.width
    let d := fieldQ a.d
    let src := vqOf s u (fieldQ a.a)
    let n := (a.imm.extractLsb' 0 9).toInt
    let p := (a.imm.extractLsb' 0 2).toNat
    let g (i : Instr) (ws : List (Nat × Write)) : Prop := s.Gives u (unitSlot a.u) i a.p ws
    let x (e : Nat × Nat) : Val := decodeF a.fmt e.2
    let y (e : Nat × Nat) : Val := decodeF a.fmt (el s u w a.b e.1)
    let prod (e : Nat × Nat) : Val := match x e, y e with | .real v, .real z => .real (v.mul z) | _, _ => .nar
    g (.vqclr a) [(4, .vq d.toNat 0)] ∧
    (a.fmt.isTapered = true → g (.vqdot a) (quireSends u a (quireAdd (vqOf s u d) (addends ((elems s u a w).map prod)) false) 0)) ∧
    (a.fmt.isTapered = true → g (.vqsum a) (quireSends u a (quireAdd (vqOf s u d) (addends ((elems s u a w).map x)) false) 0)) ∧
    (a.fmt.isTapered = true ∨ a.fmt.isIeee = true → let r := roundVal a.rm a.fmt (drawFor s u 0) (if src = nar512 then .nar else .real ((⟨src.toInt, 1⟩ : Rat2).scale (-240)))
     s.GivesDrawn u (unitSlot a.u) (.vqrnd a) a.p (a.rm = .sr)
      (s.vresults u a 6 (replicate w (BitVec.ofNat 64 r.1)) (on s u a) (flagsIn (on s u a) r.2) ++
        if a.var.getLsbD 0 then [(6, .vq (fieldQ a.a).toNat 0)] else [])) ∧
    (a.var.getLsbD 0 = false → g (.vqmov a) (quireSends u a { q := src, f := if src = nar512 then flagNR else 0 } 0)) ∧
    (a.var.getLsbD 0 = true →
      g (.vqmov a) (quireSends u a (quireAdd (vqOf s u d) (if src = nar512 then none else some src.toInt) false) 0)) ∧
    (let r := quireShift src n
     g (.vqscale a) (quireSends u a r (if r.qx then flagNX else 0))) ∧
    (a.var.getLsbD 0 = true → g (.vqraw a) [(4, .vq d.toNat ((s.vsrc u 64 a.a).extractLsb' (512 * p) 512))]) ∧
    (a.var.getLsbD 0 = false → ∃ lanes : Mask, (∀ l, l < 128 → lanes.getLsbD l = decide (l / 32 = p)) ∧
      g (.vqraw a) (s.vresults u a 4 (src.setWidth 2048 <<< (512 * p)) lanes 0))

namespace Sys2Proof.Claims

/-- The flag bytes of one lane each, given by `f`. -/
def IsFlags (v : FlgVec) (f : Nat → Flags) : Prop := ∀ l, l < 128 → v.extractLsb' (8 * l) 8 = f l

end Sys2Proof.Claims

/-- R294: VPUSHF takes the next free entry of its FIFO and fills it two cycles later, with zeros outside the mask; with none
free it raises FOVF. -/
def Obligations.FifoPush : Prop :=
  ∀ (s : State) (u : Cur) (a : VArgs),
    let fs := FS.ofBit (a.var.getLsbD 0)
    let f := (s.own u).toCore.fifo fs
    (f.free = 0 → s.Traps u (unitSlot a.u) (.vpushf a) a.p cFOVF (if fs = .fb then 1 else 0)) ∧
    (f.free ≠ 0 → ∃ v : Vec,
      (∀ l, l < 128 → v.extractLsb' (16 * l) 16 = if ((s.operands u).mask a.m).getLsbD l then (s.vsrc u 64 a.a).extractLsb' (16 * l) 16 else 0) ∧
      s.GivesFrom u (unitSlot a.u) (.vpushf a) a.p u
        ((s.own u).setFifo fs { f with tkn := f.tkn ||| (1#16 <<< f.wr.toNat), wr := f.wr + 1 }) [(2, .fifoFill fs f.wr.toNat v)])

/-- R295 to R297: VRAND, VFLG, MLOG, MCNT and MFIRST. -/
def Obligations.DrawsFlagsMasks : Prop :=
  ∀ (s : State) (u : Cur) (a : VArgs),
    let m := (s.operands u).mask a.m
    let ma := (s.operands u).mask (fieldM a.a)
    let mb := (s.operands u).mask (fieldM a.b)
    let fl (l : Nat) : Flags := (match a.u with | .va => (s.operands u).flga | .vb => (s.operands u).flgb).extractLsb' (8 * l) 8
    let bits : Flags := (a.imm.extractLsb' 0 6).setWidth 8
    let g (i : Instr) (w : Write) : Prop := s.Gives u (unitSlot a.u) i a.p [(2, w)]
    s.GivesElements u (.vrand a) a 4 32 (s.vlanes u a 32) true (fun e => ((drawFor s u e).toNat, 0)) ∧
    (a.var = 0 → ∃ f, IsFlags f (fun l => if m.getLsbD l then bits else 0) ∧ g (.vflg a) (.flagClear a.u f)) ∧
    (a.var = 1 → s.GivesElements u (.vflg a) a 2 16 m false (fun l => ((fl l).toNat, 0))) ∧
    (a.var = 2 → ∃ r : Mask, (∀ l, l < 128 → r.getLsbD l = (m.getLsbD l && fl l &&& bits != 0)) ∧
      g (.vflg a) (.mreg (fieldM a.d).toNat r)) ∧
    (∃ r : Mask, (∀ l, l < 128 → r.getLsbD l = a.imm.getLsbD (2 * (ma.getLsbD l).toNat + (mb.getLsbD l).toNat)) ∧
      g (.mlog a) (.mreg (fieldM a.d).toNat r)) ∧
    g (.mcnt a) (.sreg (fieldS a.d).toNat (BitVec.ofNat 64 ((List.range 128).filter fun l => ma.getLsbD l && m.getLsbD l).length)) ∧
    ∃ n, n ≤ 128 ∧ (∀ l, l < n → (ma.getLsbD l && m.getLsbD l) = false) ∧ (n < 128 → (ma.getLsbD n && m.getLsbD n) = true) ∧
      g (.mfirst a) (.sreg (fieldS a.d).toNat (BitVec.ofNat 64 n))

/-- R331: the draws of Table 15.4. R326, R327: an SR operation's draw-history entry. A valid entry with the same coordinates is a key reuse, which the bundle
records; otherwise the entry is pushed before the others, the sixteenth dropped. -/
def Obligations.Draws : Prop :=
  (draw 0x0 0 0 0 0 = 0x00000000 ∧ draw 0x0 0 1 0 0 = 0xE3114B20 ∧ draw 0x0 1 0x00010001 0 0 = 0xE3114B20 ∧
    draw 0x0000000100000000 0 1 0 0 = 0xB70F4E29) ∧
  ∀ (s : State) (u : Cur) (slot : Nat) (row col : BitVec 32),
    let c := s.own u
    let r := s.operands u
    let w0 : Word := 0x8000#16 ++ r.morig.extractLsb' 48 16 ++ r.step.extractLsb' 0 32
    let w1 : Word := row ++ col
    let o := s.drawn u slot true row col
    let h (d : SMap Word) (n : Nat) : Word := SMap.get 0 d n
    ((∃ n, n < 16 ∧ h c.dhist (2 * n) = w0 ∧ h c.dhist (2 * n + 1) = w1) →
      ∃ n, n < 16 ∧ h c.dhist (2 * n) = w0 ∧ h c.dhist (2 * n + 1) = w1 ∧ o.c = c ∧ o.u = { u with reuse := u.reuse ++ [(slot, n)] }) ∧
    ((∀ n, n < 16 → h c.dhist (2 * n) = w0 → h c.dhist (2 * n + 1) ≠ w1) →
      o.u = u ∧ o.c = { c with dhist := o.c.dhist } ∧ h o.c.dhist 0 = w0 ∧ h o.c.dhist 1 = w1 ∧
      ∀ n, n < 30 → h o.c.dhist (n + 2) = h c.dhist n)

namespace Sys2Proof.Claims

/-! ### The matrix engine (R298-R318) -/

/-- The columns of a row operation: those whose lane the mask enables. -/
def columns (s : State) (u : Cur) (a : MxArgs) (lane : Nat → Nat) : List Nat :=
  (List.range 128).filter fun j => ((s.operands u).mask a.m).getLsbD (lane j)

/-- Flags in FLGA, unless Q is set. -/
def mxFlags (a : MxArgs) (latency : Nat) (fl : FlgVec) : List (Nat × Write) :=
  if a.q || fl = 0 then [] else [(latency, .flags .va fl)]

/-- What a row operation sends: the quires of its columns with QX, which it sets anew when `fresh` and every column is enabled
(R303), the flags of each lane, and the first overflow. -/
def rowSends (s : State) (u : Cur) (a : MxArgs) (lane : Nat → Nat) (fresh : Bool) (f : Nat → QRes) : List (Nat × Write) :=
  let js := columns s u a lane
  let qx := js.any fun j => (f j).qx
  (4, .row a.row.toNat (js.map fun j => (j, (f j).q)) (if fresh && js.length = 128 then .set qx else .orWith qx)) ::
    mxFlags a 4 (flagsOf 16 (js.map fun j => (lane j, (f j).f ||| (if (f j).qg then flagQG else 0)))) ++
    (match js.find? fun j => (f j).qg with
     | some j => [(4, .overflow (overflowAt u 3 a.row.toNat (lane j)))]
     | none => [])

/-- Quire `j` of the row. -/
def quireAt (s : State) (u : Cur) (n : BitVec 5) (j : Nat) : Quire := SMap.get 0 (s.operands u).quires (128 * n.toNat + j)

/-- The vector element of column `j` under a part, and its lane (R304). -/
def partOf (a : MxArgs) (j : Nat) : Nat := 128 * a.var.toNat + j
def laneFor (a : MxArgs) (j : Nat) : Nat := a.fmt.width * partOf a j / 16

/-- A wide register as the bundle reads it; a fallow one reads zero (R85). -/
def wideOf (s : State) (u : Cur) (view : BitVec 2) (idx : BitVec 8) : Vec :=
  match (s.own u).toCore.resolve view.toNat idx.toNat with
  | some j => if (s.own u).toCore.fallow view.toNat j then 0 else SMap.get 0 (s.operands u).space j
  | none => 0

/-- The real of a tapered word times 2^120, an integer, or none for NaR. -/
def units (f : Fmt) (x : Nat) : Option Int :=
  match decodeF f x with
  | .real r => some (r.scale 120).floor
  | _ => none

/-- Element `k` of the A entry, and element `k`, `j` of the compute plane (R299). -/
def aElem (s : State) (u : Cur) (a : MxArgs) (k : Nat) : Option Int :=
  units a.fmt (elem (SMap.get 0 (s.own u).fa.ent (s.own u).fa.rd.toNat) a.fmt.width k)

def bElem (s : State) (u : Cur) (tag : Fmt) (k j : Nat) : Option Int :=
  let rho := 16 / tag.width
  units tag (elem (SMap.get 0 (s.operands u).plane (128 * (s.operands u).act.toNat + k / rho)) tag.width (k % rho * 128 + j))

/-- The scale of element `k` in column `j` under S (R200, R201). -/
def scaleFor (s : State) (u : Cur) (sf : Bool) (k j : Nat) : Int :=
  let r := s.operands u
  let b := k / 32
  if sf then (r.ascale.extractLsb' (8 * b) 8).toInt +
    ((SMap.get 0 r.bscale (8 * r.act.toNat + b / 2)).extractLsb' (8 * (128 * (b % 2) + j)) 8).toInt
  else 0

/-- The exact dot product of the entry with column `j`, in units of 2^-496; none where an element of either is NaR. -/
def dot (s : State) (u : Cur) (a : MxArgs) (tag : Fmt) (j : Nat) : Option Int :=
  let ks := List.range (2048 / a.fmt.width)
  if ks.any fun k => (aElem s u a k).isNone || (bElem s u tag k j).isNone then none
  else some ((ks.map fun k =>
    (aElem s u a k).getD 0 * (bElem s u tag k j).getD 0 * 2 ^ (scaleFor s u a.s k j + 256).toNat).sum)

end Sys2Proof.Claims

/-- R307, R308: MPUSH writes the next plane slot from the next entry of fb, with FUND on an empty FIFO, and MSHIFT exchanges the
roles of the planes, with Z clearing the former compute plane, which is the one that is not the fill plane as the MSHIFT issues
(DEDUCED, log entry 13). R318, R104: MORIG forms its whole value at issue, and MNOP and XNOP do nothing. -/
def Obligations.PlaneLoads : Prop :=
  ∀ (s : State) (u : Cur) (a : MxArgs),
    let c := s.own u
    (c.fb.filled = 0 → s.Traps u 3 (.mpush a) a.p cFUND 1) ∧
    (c.fb.filled ≠ 0 → s.GivesFrom u 3 (.mpush a) a.p (if a.k then u else { u with consumedB := u.consumedB + 1 })
      { c with fp := c.fp + 1, fb := if a.k then c.fb else { c.fb with rd := c.fb.rd + 1 } }
      ((1, .planeSlot c.fill c.fp.toNat (SMap.get 0 c.fb.ent c.fb.rd.toNat) a.fmt.code) ::
        if a.k then [] else [(1, .fifoFree .fb c.fb.rd.toNat)])) ∧
    s.Gives u 3 (.mshift a) a.p ([(1, .fillRole), (2, .computeRole)] ++ if a.z then [(2, .planeClear (!c.fill))] else []) ∧
    (let x := (s.operands u).sreg a.sr
     s.Gives u 3 (.morig a) a.p [(1, .morig ((if a.var.getLsbD 0 then (s.operands u).morig.extractLsb' 48 16 else a.imm) ++
       x.extractLsb' 0 48))]) ∧
    ∀ hint val, s.Gives u 3 (.mnop hint val) ⟨false, 0⟩ [] ∧ s.Gives u 6 (.xnop hint val) ⟨false, 0⟩ []

/-- R309 to R311: MACC raises MWID on a plane of another width and FUND on an empty FIFO; otherwise each enabled column's quire
takes the exact dot product in one addition with one floor. -/
def Obligations.Accumulation : Prop :=
  ∀ (s : State) (u : Cur) (a : MxArgs), a.fmt.isTapered = true →
    let c := s.own u
    let tag := if (s.operands u).act then (s.operands u).tag1 else (s.operands u).tag0
    let tf := Fmt.ofCode tag
    (tag = 0 ∨ tf.width ≠ a.fmt.width →
      s.Traps u 3 (.macc a) a.p cMWID ((a.fmt.code.setWidth 64 <<< 4) ||| tag.setWidth 64)) ∧
    (tag ≠ 0 → tf.width = a.fmt.width → c.fa.filled = 0 → s.Traps u 3 (.macc a) a.p cFUND 0) ∧
    (tag ≠ 0 → tf.width = a.fmt.width → tf.isTapered = true → c.fa.filled ≠ 0 →
      s.GivesFrom u 3 (.macc a) a.p (if a.k then u else { u with consumedA := u.consumedA + 1 })
      { c with fa := if a.k then c.fa else { c.fa with rd := c.fa.rd + 1 } }
      (rowSends s u a id a.z (fun j =>
        let x := dot s u a tf j
        quireAdd (if a.z then 0 else quireAt s u a.row j) (x.map (· / 2 ^ 256)) (x.any (· % 2 ^ 256 ≠ 0))) ++
        if a.k then [] else [(1, .fifoFree .fa c.fa.rd.toNat)]))

/-- R312, R303: the row operations. An MQSCALE that leaves the range overflows like any other (DEDUCED, log entry 16). -/
def Obligations.RowOperations : Prop :=
  ∀ (s : State) (u : Cur) (a : MxArgs),
    let q (j : Nat) : Quire := quireAt s u a.row j
    let g (i : Instr) (ws : List (Nat × Write)) : Prop := s.Gives u 3 i a.p ws
    let js := columns s u a id
    let src := (s.operands u).qx.getLsbD a.sr.toNat
    (a.fmt.isTapered = true → g (.mqadd a) (rowSends s u a (laneFor a) false fun j =>
      quireAdd (q j) (match decodeF a.fmt (elem (wideOf s u a.view a.idx) a.fmt.width (partOf a j)) with
        | .real r => some (quireUnits r).1
        | _ => none) false)) ∧
    g (.mqscale a) (rowSends s u a id false fun j => quireShift (q j) a.imm.toInt) ∧
    g (.mqneg a) (rowSends s u a id false fun j =>
      if q j = nar512 then { q := nar512, f := flagNR } else { q := BitVec.ofInt 512 (-(q j).toInt) }) ∧
    g (.mqclr a) (rowSends s u a id true fun _ => { q := 0 }) ∧
    g (.mqcopy a) [(4, .row a.row.toNat (js.map fun j => (j, quireAt s u a.sr j)) (if js.length = 128 then .set src else .orWith src))]

/-- R313, R314: MDRAIN rounds each enabled column of its row once into its register and %mx, marks inexact rows, and clears them
under C; with SR it enters the draw history of its own row. -/
def Obligations.Drain : Prop :=
  ∀ (s : State) (u : Cur) (a : MxArgs) (jr : Nat), a.fmt.isTapered = true →
    (s.own u).toCore.resolve a.view.toNat a.idx.toNat = some jr →
    let r := s.operands u
    let w := a.fmt.width
    let row := r.rowOf + BitVec.ofNat 32 a.row.toNat
    let js := columns s u a (laneFor a)
    let res (j : Nat) : Nat × Flags := roundVal a.rm a.fmt (r.drawOf row (r.colOf + BitVec.ofNat 32 j))
      (if quireAt s u a.row j = nar512 then .nar else .real ((⟨(quireAt s u a.row j).toInt, 1⟩ : Rat2).scale (-240)))
    let o := s.drawn u 3 (a.rm = .sr) row r.colOf
    ∃ (v : Vec) (lanes : Mask),
      (∀ j, j < 128 → partOf a j < 2048 / w → elem v w (partOf a j) = if j ∈ js then (res j).1 % 2 ^ w else 0) ∧
      (∀ l, l < 128 → (lanes.getLsbD l = true ↔ ∃ j ∈ js, laneFor a j = l)) ∧
      s.GivesFrom u 3 (.mdrain a) a.p o.u o.c
        ([(6, .reg a.view.toNat jr v lanes), (6, .latch 2 v lanes)] ++
          mxFlags a 6 (flagsOf 16 (js.map fun j => (laneFor a j, (res j).2 ||| (if r.qx.getLsbD a.row.toNat then flagNX else 0)))) ++
          if a.c then [(4, .row a.row.toNat (js.map fun j => (j, 0)) (if js.length = 128 then .set false else .keep))] else [])

namespace Sys2Proof.Claims

/-! ### Loads, stores, spills and fills (R195-R204, R315, R316) -/

/-- The offset lies in the range of the mode (R195). -/
def InRange (s : State) (u : Cur) (ea : Int) (size : Nat) : Prop :=
  0 ≤ ea ∧ ea + size ≤ if u.sup then 0x300000 else (Min.min (s.own u).foot (0x300000 - (s.own u).wbase) : Nat)

/-- The physical offset of the tile. -/
def physOf (s : State) (u : Cur) (ea : Int) : Nat := if u.sup then ea.toNat else (s.own u).wbase + ea.toNat

/-- A block of 64 bytes that holds an uncorrectable error is read, or written in part: of its bytes the access takes some, and does
not write all (R196, R348). `en` says which bytes a store writes; a load has none. -/
def Spoiled (s : State) (u : Cur) (a size : Nat) (en : Option (Nat → Bool)) : Prop :=
  ∃ b ∈ (s.tile u.t).bad,
    let takes (x : Nat) : Prop := a ≤ x ∧ x < a + size ∧ match en with | none => True | some f => f (x - a) = true
    (∃ j, j < 64 ∧ takes (64 * b + j)) ∧ ¬ (en.isSome = true ∧ ∀ j, j < 64 → takes (64 * b + j))

/-- An access at an offset: ALGN, BND and XMEM in this order, each with the offset's low 32 bits, XMEM retiring the tile as
well, and otherwise the results `ws` of its physical offset (R197, R196, R37). What it touches is kept for the commands that the
bundle issues (R338). -/
def Accesses (s : State) (u : Cur) (slot : Nat) (i : Instr) (p : Pred) (ea : Int) (size align : Nat) (en : Option (Nat → Bool))
    (ws : Nat → List (Nat × Write)) : Prop :=
  let info : Word := BitVec.ofInt 64 (ea % 2 ^ 32)
  (ea % align ≠ 0 → s.Traps u slot i p cALGN info) ∧
  (ea % align = 0 → ¬ InRange s u ea size → s.Traps u slot i p cBND info) ∧
  (ea % align = 0 → InRange s u ea size → Spoiled s u (physOf s u ea) size en →
    ∀ rest, s.Issues u slot i p rest → ∃ t, exec i s = .next t ∧
      (s.retireFunc (.tile u.t)).Left t ((u.past rest).trapped slot cXMEM info) (s.own u)) ∧
  (ea % align = 0 → InRange s u ea size → ¬ Spoiled s u (physOf s u ea) size en →
    ∃ kept, s.GivesFrom u slot i p { u with touched := kept } (s.own u) (ws (physOf s u ea)))

/-- The effective offset of a load or store (R197). -/
def lsOffset (s : State) (u : Cur) (a : LsArgs) : Int :=
  ((s.operands u).sreg a.sb).toInt + ((s.operands u).sreg a.si).toInt *
    (match a.sc with | 0 => 1 | 1 => 8 | 2 => 64 | _ => 256) + a.imm.toInt

/-- Bytes of the scratchpad as the context reads them. -/
def bytesAt (s : State) (u : Cur) (a n : Nat) : List Byte := (s.own u).sees (s.tile u.t).scratch a n

/-- Every byte of a value with its enable, lowest first. -/
def storing {n : Nat} (size : Nat) (v : BitVec n) (en : Nat → Bool) : List (Byte × Bool) :=
  (List.range size).map fun i => (v.extractLsb' (8 * i) 8, en i)

end Sys2Proof.Claims

/-- R197 to R201: the loads. LDV also writes %ld, and LDSCL.B the fill plane of its issue. -/
def Obligations.Loads : Prop :=
  ∀ (s : State) (u : Cur) (a : LsArgs) (j : Nat),
    let m := (s.operands u).mask a.m
    let ea := lsOffset s u a
    let b := a.w.bits / 8
    let val (q n : Nat) : Nat := ofLe (bytesAt s u q n)
    let load (i : Instr) (size align : Nat) (ws : Nat → List (Nat × Write)) : Prop := Accesses s u 4 i a.p ea size align none ws
    (∀ view idx, a.data = .wide view idx → (s.own u).toCore.resolve view.toNat idx.toNat = some j →
      load (.ldv a) 256 64 (fun q => [(3, .reg view.toNat j (BitVec.ofNat 2048 (val q 256)) m), (3, .latch 3 (BitVec.ofNat 2048 (val q 256)) m)]) ∧
      load (.ldvb a) b b (fun q => [(3, .reg view.toNat j (replicate a.w.bits (BitVec.ofNat 64 (val q b))) m)])) ∧
    (∀ sd, a.data = .sreg sd → load (.lds a) b b fun q => [(3, .sreg sd.toNat (extend a.u (BitVec.ofNat a.w.bits (val q b))))]) ∧
    (∀ e, a.data = .opf e → load (.ldof a) 256 64 fun q => [(3, .opf e.toNat (BitVec.ofNat 2048 (val q 256)) m)]) ∧
    (∀ n, a.data = .vq n → load (.ldq a) 64 64 fun q => [(4, .vq n.toNat (BitVec.ofNat 512 (val q 64)))]) ∧
    load (.ldsclA a) 16 16 (fun q => [(3, .ascale (BitVec.ofNat 128 (val q 16)))]) ∧
    (∀ n, a.data = .part n → load (.ldsclB a) 256 64 fun q => [(3, .bscale (s.own u).fill n.toNat (BitVec.ofNat 2048 (val q 256)))])

/-- R202, R203: the stores send their bytes, which land two cycles later. A store that writes part of a block with an uncorrectable
error raises XMEM; one whose mask enables all of the block, or none of it, does not (R196, R348). -/
def Obligations.Stores : Prop :=
  ∀ (s : State) (u : Cur) (a : LsArgs),
    let m := (s.operands u).mask a.m
    let b := a.w.bits / 8
    let store {n : Nat} (i : Instr) (size align : Nat) (v : BitVec n) (en : Nat → Bool) : Prop :=
      Accesses s u 5 i a.p (lsOffset s u a) size align (some en) fun q => [(2, .store q (storing size v en))]
    (∀ view idx, a.data = .wide view idx → store (.stv a) 256 64 (wideOf s u view idx) (fun _ => true) ∧
      store (.stvm a) 256 64 (wideOf s u view idx) fun i => m.getLsbD (i / 2)) ∧
    (∀ sa, a.data = .sreg sa → store (.sts a) b b ((s.operands u).sreg sa) fun _ => true) ∧
    (∀ n, a.data = .vq n → store (.stq a) 64 64 (vqOf s u n) fun _ => true)

/-- R315, R316: spills and fills, of a row or of QX, twelve cycles long. -/
def Obligations.SpillsAndFills : Prop :=
  ∀ (s : State) (u : Cur) (a : MxArgs),
    let ea := ((s.operands u).sreg a.sr).toInt + 64 * a.imm.toInt
    let quire (q j : Nat) : Quire := BitVec.ofNat 512 (ofLe (((bytesAt s u q 8192).drop (64 * j)).take 64))
    (a.var.getLsbD 0 = false →
      Accesses s u 3 (.mqspill a) a.p ea 8192 64 (some fun _ => true) (fun q => [(12, .store q ((List.range 128).flatMap fun j =>
        storing 64 (quireAt s u a.row j) fun _ => true))]) ∧
      Accesses s u 3 (.mqfill a) a.p ea 8192 64 none (fun q => [(12, .row a.row.toNat ((List.range 128).map fun j => (j, quire q j)) (.set false))])) ∧
    (a.var.getLsbD 0 = true →
      Accesses s u 3 (.mqspill a) a.p ea 64 64 (some fun _ => true) (fun q => [(12, .store q (storing 64 ((s.operands u).qx.setWidth 512) fun _ => true))]) ∧
      Accesses s u 3 (.mqfill a) a.p ea 64 64 none (fun q => [(12, .qxAll (BitVec.ofNat 32 (ofLe (bytesAt s u q 4) % 2 ^ (s.own u).qrows)))]))

namespace Sys2Proof.Claims

/-! ### Results land (R163-R166) -/

/-- One result of a context is due, on a tile whose pipelines run. -/
structure Lands (s : State) (t : Nat) (k : BitVec 2) (l : Landing) : Prop where
  runs : s.holdsStill t = false
  lives : (s.ctx t k).life ≠ .free
  due : (s.ctx t k).inflight.filter (fun x => x.left = 0) = [l]

/-- The result lands, and the state becomes one that `P` holds of: its context, with the result gone from those on their way,
and no other context changed. -/
def LandsTo (s : State) (t : Nat) (k : BitVec 2) (P : State → Ctx → Prop) : Prop :=
  ∃ v, exec (.resultLand t k) s = .next v ∧ (v.ctx t k).inflight = (s.ctx t k).inflight.filter (fun x => x.left ≠ 0) ∧ P v (v.ctx t k)

/-- The memories of the module but for one tile's scratchpad. -/
def MemoriesBut (t : Nat) (s v : State) : Prop :=
  v.hbm = s.hbm ∧ v.lpddr = s.lpddr ∧ v.host = s.host ∧ v.peer = s.peer ∧ ∀ x, x ≠ t → (v.tile x).scratch = (s.tile x).scratch

/-- Only the registers change, and they become `r`. -/
def Becomes (s : State) (t : Nat) (k : BitVec 2) (r : Regs) : Prop :=
  LandsTo s t k fun v d => s.Still v ∧ d.toRegs = r ∧ d.vw = (s.ctx t k).vw ∧ d.dhist = (s.ctx t k).dhist ∧
    d.fa = (s.ctx t k).fa ∧ d.fb = (s.ctx t k).fb ∧ ∀ x j, ¬ (x = t ∧ j = k) → v.ctx x j = s.ctx x j

/-- The last of the due results that writes scalar register `n`. -/
def lastScalar (ds : List Landing) (n : Nat) : Option Word :=
  ds.reverse.findSome? fun l => match l.w with | .sreg m v => if m = n then some v else none | _ => none

/-- The last of the due results that writes lane `x` of register `j` of the register space. -/
def lastLane (ds : List Landing) (j x : Nat) : Option Vec :=
  ds.reverse.findSome? fun l => match l.w with | .reg _ i v lanes => if i = j ∧ lanes.getLsbD x = true then some v else none | _ => none

end Sys2Proof.Claims

/-- R75, R76, R163: scalar, predicate, mask and vector results land: s0, p0 and m0 discard writes, and a vector result changes
only its lanes. A write to a fallow register is discarded (R85). R165: of results that land on one register in one cycle the later
issued is kept, lane by lane (DEDUCED, log entry 118), and two of one bundle record a write collision at the higher slot. -/
def Obligations.RegisterResultsLand : Prop :=
  (∀ (s : State) (t : Nat) (k : BitVec 2) (ds : List Landing), s.holdsStill t = false → ds ≠ [] →
    let c := s.ctx t k
    c.life ≠ .free → c.inflight.filter (fun x => x.left = 0) = ds →
    ((∀ l ∈ ds, ∃ n v, l.w = .sreg n v) → ∃ v, exec (.resultLand t k) s = .next v ∧ ∀ m : BitVec 5,
      (v.ctx t k).toRegs.sreg m = if m = 0 then 0 else (lastScalar ds m.toNat).getD (c.toRegs.sreg m)) ∧
    ((∀ l ∈ ds, ∃ n j v lanes, l.w = .reg n j v lanes ∧ c.toCore.fallow n j = false) → ∃ v, exec (.resultLand t k) s = .next v ∧
      ∀ j x, x < 128 → (SMap.get 0 (v.ctx t k).space j).extractLsb' (16 * x) 16 =
        ((lastLane ds j x).getD (SMap.get 0 c.space j)).extractLsb' (16 * x) 16) ∧
    (∀ l1 l2 n v1 v2, ds = [l1, l2] → l1.w = .sreg n v1 → l2.w = .sreg n v2 → n ≠ 0 →
      ∃ v, exec (.resultLand t k) s = .next v ∧ (v.ctx t k).events = c.events ++
        if l1.serial = l2.serial then [(l2.slot, dcrWCOL, l2.off, 1, s.now - c.t0)] else [])) ∧
  ∀ (s : State) (t : Nat) (k : BitVec 2) (l : Landing), Lands s t k l →
    let c := s.ctx t k
    let r := c.toRegs
    (∀ n v, l.w = .sreg n v → ∃ r' : Regs, Becomes s t k r' ∧ { r' with s := r.s } = r ∧
      ∀ m : BitVec 5, r'.sreg m = if m.toNat = n ∧ n ≠ 0 then v else r.sreg m) ∧
    (∀ n v, l.w = .preg n v → n < 8 → ∃ r' : Regs, Becomes s t k r' ∧ { r' with p := r.p } = r ∧
      ∀ m : BitVec 3, r'.pred m = if m.toNat = n ∧ n ≠ 0 then v else r.pred m) ∧
    (∀ n v, l.w = .mreg n v → ∃ r' : Regs, Becomes s t k r' ∧ { r' with m := r.m } = r ∧
      ∀ m : BitVec 3, r'.mask m = if m.toNat = n ∧ n ≠ 0 then v else r.mask m) ∧
    (∀ n j v lanes, l.w = .reg n j v lanes → c.toCore.fallow n j = false → ∃ r' : Regs, Becomes s t k r' ∧ { r' with space := r.space } = r ∧
      (∀ i, i ≠ j → SMap.get 0 r'.space i = SMap.get 0 r.space i) ∧
      ∀ x, x < 128 → (SMap.get 0 r'.space j).extractLsb' (16 * x) 16 =
        (if lanes.getLsbD x then v else SMap.get 0 r.space j).extractLsb' (16 * x) 16) ∧
    (∀ n j v lanes, l.w = .reg n j v lanes → c.toCore.fallow n j = true → Becomes s t k r) ∧
    (∀ e v lanes, l.w = .opf e v lanes → ∃ r' : Regs, Becomes s t k r' ∧ { r' with opf := r.opf } = r ∧
      (∀ i, i ≠ e → SMap.get 0 r'.opf i = SMap.get 0 r.opf i) ∧
      ∀ x, x < 128 → (SMap.get 0 r'.opf e).extractLsb' (16 * x) 16 = (if lanes.getLsbD x then v else SMap.get 0 r.opf e).extractLsb' (16 * x) 16) ∧
    (∀ n v lanes, l.w = .latch n v lanes → ∃ r' : Regs, Becomes s t k r' ∧ { r' with latch := r.latch } = r ∧
      (∀ i, i ≠ n → SMap.get 0 r'.latch i = SMap.get 0 r.latch i) ∧
      ∀ x, x < 128 → (SMap.get 0 r'.latch n).extractLsb' (16 * x) 16 = (if lanes.getLsbD x then v else SMap.get 0 r.latch n).extractLsb' (16 * x) 16) ∧
    (∀ n v, l.w = .vq n v → ∃ r' : Regs, Becomes s t k r' ∧ { r' with vq := r.vq } = r ∧
      ∀ i, SMap.get 0 r'.vq i = if i = n then v else SMap.get 0 r.vq i) ∧
    (∀ f, (l.w = .flags .va f → Becomes s t k { r with flga := r.flga ||| f }) ∧ (l.w = .flags .vb f → Becomes s t k { r with flgb := r.flgb ||| f }) ∧
      (l.w = .flagClear .va f → Becomes s t k { r with flga := r.flga &&& ~~~f }) ∧
      (l.w = .flagClear .vb f → Becomes s t k { r with flgb := r.flgb &&& ~~~f }))

/-- R201, R303, R307, R308, R316, R318: results of the matrix engine and of the scale loads land. -/
def Obligations.MatrixResultsLand : Prop :=
  ∀ (s : State) (t : Nat) (k : BitVec 2) (l : Landing), Lands s t k l →
    let r := (s.ctx t k).toRegs
    (∀ n qs up, l.w = .row n qs up → n < 32 → (∀ x ∈ qs, x.1 < 128) → qs.Pairwise (fun x y => x.1 ≠ y.1) →
      ∃ r' : Regs, Becomes s t k r' ∧ { r' with quires := r.quires, qx := r.qx } = r ∧
      (∀ j q, (j, q) ∈ qs → SMap.get 0 r'.quires (128 * n + j) = q) ∧
      (∀ i, (∀ x ∈ qs, i ≠ 128 * n + x.1) → SMap.get 0 r'.quires i = SMap.get 0 r.quires i) ∧
      ∀ m, m < 32 → r'.qx.getLsbD m = if m ≠ n then r.qx.getLsbD m else match up with
        | .keep => r.qx.getLsbD m
        | .orWith b => r.qx.getLsbD m || b
        | .set b => b) ∧
    (∀ v, l.w = .qxAll v → Becomes s t k { r with qx := v }) ∧
    (∀ pl slot v tag, l.w = .planeSlot pl slot v tag → ∃ r' : Regs, Becomes s t k r' ∧
      { r' with plane := r.plane, tag0 := r.tag0, tag1 := r.tag1 } = r ∧
      (∀ i, SMap.get 0 r'.plane i = if i = 128 * pl.toNat + slot then v else SMap.get 0 r.plane i) ∧
      r'.tag0 = (if pl then r.tag0 else tag) ∧ r'.tag1 = if pl then tag else r.tag1) ∧
    (l.w = .fillRole → Becomes s t k { r with fill := !r.fill, fp := 0 }) ∧
    (l.w = .computeRole → Becomes s t k { r with act := !r.act }) ∧
    (∀ pl, l.w = .planeClear pl → ∃ r' : Regs, Becomes s t k r' ∧
      { r' with plane := r.plane, bscale := r.bscale, tag0 := r.tag0, tag1 := r.tag1 } = r ∧
      (∀ i, SMap.get 0 r'.plane i = if i / 128 = pl.toNat then 0 else SMap.get 0 r.plane i) ∧
      (∀ i, SMap.get 0 r'.bscale i = if i / 8 = pl.toNat then 0 else SMap.get 0 r.bscale i) ∧
      r'.tag0 = (if pl then r.tag0 else 0) ∧ r'.tag1 = if pl then 0 else r.tag1) ∧
    (∀ v, l.w = .ascale v → Becomes s t k { r with ascale := v }) ∧
    (∀ pl part v, l.w = .bscale pl part v → ∃ r' : Regs, Becomes s t k r' ∧ { r' with bscale := r.bscale } = r ∧
      ∀ i, SMap.get 0 r'.bscale i = if i = 8 * pl.toNat + part then v else SMap.get 0 r.bscale i) ∧
    (∀ v, l.w = .morig v → Becomes s t k { r with morig := v })

/-- R203, R384: the bytes of a store land at the offset it was issued with, and no other byte of any memory changes; a store of
a checked pair is gated, but for one of an interval that has closed. -/
def Obligations.StoresLand : Prop :=
  ∀ (s : State) (t : Nat) (k : BitVec 2) (l : Landing) (p : Nat) (bs : List (Byte × Bool)), Lands s t k l → l.w = .store p bs →
    ((s.ctx t k).chk = none ∨ l.counted = true → LandsTo s t k fun v d => MemoriesBut t s v ∧ d.toRegs = (s.ctx t k).toRegs ∧
      ∀ a, (v.tile t).scratch.byte a = match (if p ≤ a then bs[a - p]? else none) with
        | some (b, true) => b
        | _ => (s.tile t).scratch.byte a) ∧
    (∀ x, (s.ctx t k).chk = some x → l.counted = false → LandsTo s t k fun v d => s.Still v ∧ d.toRegs = (s.ctx t k).toRegs ∧
      ∃ y, d.chk = some y ∧ y.gate = x.gate ++ [.store p bs])

/-- R189, R300, R350, R351, R367: writes of system registers and counters, of the counter map and of FIFO entries land, and a
quire overflow becomes pending where QTRAP enables it. A SYSW of a counter gives it the value written plus every addition of the
cycle (R189). A view descriptor that makes fallow registers live leaves those free (R85). A PREQ whose OP is 1 or 2 has its image
operation come next, in the model's agenda (R376; log entries 6 and 80). -/
def Obligations.OtherResultsLand : Prop :=
  ∀ (s : State) (t : Nat) (k : BitVec 2) (l : Landing), Lands s t k l →
    let c := s.ctx t k
    let cnt (v : State) (n : Nat) : Word := SMap.get 0 (v.tile t).cnt n
    (∀ n v, l.w = .sys n v → LandsTo s t k fun z d => s.Still z ∧
      z.agenda = (if n = 0x027 ∧ v.extractLsb' 61 2 = 1 then [.preqSave t k]
        else if n = 0x027 ∧ v.extractLsb' 61 2 = 2 then [.preqRestore t k] else []) ++ s.agenda ∧
      (c.chk = none → l.hash = none →
        let e := c.sysWrite n v
        d = { e with inflight := d.inflight, space := d.space } ∧
        ∀ j, SMap.get 0 d.space j = SMap.get 0 c.space j ∨
          (0x010 ≤ n ∧ n ≤ 0x013 ∧ c.toCore.allFallow j = true ∧ e.toCore.allFallow j = false))) ∧
    (∀ n v, l.w = .cntSet n v → LandsTo s t k fun z d => d.toRegs = c.toRegs ∧
      ∀ m, cnt z m = if m = n then v + SMap.get 0 (s.tile t).added n else cnt s m) ∧
    (∀ n v, l.w = .cntAdd n v → LandsTo s t k fun z d => d.toRegs = c.toRegs ∧ ∀ m, cnt z m = if m = n then cnt s m + v else cnt s m) ∧
    (∀ n phys, l.w = .cmap n phys → LandsTo s t k fun z d => s.Still z ∧ d.toRegs = c.toRegs ∧
      ∀ m, d.counter m = if m = n then some phys else c.counter m) ∧
    (∀ f e v, l.w = .fifoFill f e v → e < 16 → LandsTo s t k fun z d => s.Still z ∧ d.toRegs = c.toRegs ∧
      let x := c.toCore.fifo f
      let y := d.toCore.fifo f
      y.rd = x.rd ∧ y.wr = x.wr ∧ (∀ i, SMap.get 0 y.ent i = if i = e then v else SMap.get 0 x.ent i) ∧
      (∀ i, i < 16 → y.avl.getLsbD i = (x.avl.getLsbD i || decide (i = e)) ∧ y.tkn.getLsbD i = (x.tkn.getLsbD i && decide (i ≠ e)))) ∧
    (∀ f e, l.w = .fifoFree f e → e < 16 → LandsTo s t k fun z d => s.Still z ∧ d.toRegs = c.toRegs ∧
      let x := c.toCore.fifo f
      let y := d.toCore.fifo f
      y.rd = x.rd ∧ y.wr = x.wr ∧ y.ent = x.ent ∧ y.tkn = x.tkn ∧ ∀ i, i < 16 → y.avl.getLsbD i = (x.avl.getLsbD i && decide (i ≠ e))) ∧
    (∀ e, l.w = .overflow e → LandsTo s t k fun z d => s.Still z ∧ d.toRegs = c.toRegs ∧
      d.qovf = if c.qtrap.getLsbD 0 = true ∧ c.qovf = none then some e else c.qovf)

namespace Sys2Proof.Claims

/-! ### Transfer commands (R205-R258) -/

/-- The operation at work in slot 6 of the bundle. -/
def xeOp (s : State) (u : Cur) (rest : List (Nat × Instr)) : Op := { s := s, c := s.own u, u := u.past rest, slot := 6 }

/-- The entry of a queued operation before its reach, blocks and declared cycles are filled in. -/
def entryOf (s : State) (u : Cur) (o : Op) (i : Instr) (q : BitVec 2) (recs : List (BitVec 1024)) (vals : List Word) : XEntry :=
  { word := ((encode i).map (·.2)).getD 0, vals, idx := o.c.nextIdx q.toNat, recs, off := u.off, at_ := s.now,
    key := (s.operands u).key, step := (s.operands u).step, sup := u.sup, ord := o.c.nextOrd
    after := o.c.fence.filter fun n => !o.c.endedOrd n }

/-- The cause and EINFO of a template error (Table 18.1). -/
def errorOf (n : Nat) : XErr → BitVec 8 × Nat
  | .xtpl => (cXTPL, n)
  | .rgn h => (cRGN, h)
  | .bnd => (cBND, n)

/-- A queued operation (R205): XQF on a full queue; BND for a record outside the range; XMEM, which also retires the tile, for one
that meets an uncorrectable error (R37); the error of the template's check; and otherwise the command appended with what it
captured, the memories and every datum but the draw history unchanged. -/
def Queues (s : State) (u : Cur) (i : Instr) (p : Pred) (q : BitVec 2) (tix : Option (Nat × Bool)) (vals : List Word) : Prop :=
  ∀ rest, s.Issues u 6 i p rest →
    let c := s.own u
    let n := (tix.map (·.1)).getD 0
    let found := match tix with
      | some (n, tensor) => (xeOp s u rest).template n tensor
      | none => .ok ([], xeOp s u rest)
    (64 ≤ c.depth q.toNat → ∃ t, exec i s = .next t ∧ s.Left t ((u.past rest).trapped 6 cXQF (q.setWidth 64)) c) ∧
    (c.depth q.toNat < 64 → found = .error .range →
      ∃ t, exec i s = .next t ∧ s.Left t ((u.past rest).trapped 6 cBND (BitVec.ofNat 64 n)) c) ∧
    (∀ a, c.depth q.toNat < 64 → found = .error (.mem a) →
      ∃ t, exec i s = .next t ∧ (s.retireFunc (.tile u.t)).Left t ((u.past rest).trapped 6 cXMEM (BitVec.ofNat 64 a)) c) ∧
    (∀ recs o, c.depth q.toNat < 64 → found = .ok (recs, o) →
      let v := o.c.xview u.t u.k o.c.itab
      let e := entryOf s u o i q recs vals
      let f : XEntry := { s.fillEntry v i e with rel := s.relEntries v i e }
      (∀ err, v.check i e = some err → ∃ t, exec i s = .next t ∧
        s.Left t ((u.past rest).trapped 6 (errorOf n err).1 (BitVec.ofNat 64 (errorOf n err).2)) o.c) ∧
      (v.check i e = none → ∃ t d w, exec i s = .next t ∧ s.Left t w d ∧ w.raised = u.raised ∧ w.xfer = u.xfer ∧ w.exit = u.exit ∧
        d.itab = c.installed c.itab f ∧ d.nextOrd = c.nextOrd + 1 ∧ d.inflight = c.inflight ∧ d.toRegs = c.toRegs ∧ d.fa = c.fa ∧ d.fb = c.fb ∧
        (c.chk = none → ∀ r, r < 4 → d.queue r = if r = q.toNat then
          { c.queue r with issued := (c.queue r).issued + 1, ents := (c.queue r).ents ++ [f] } else c.queue r) ∧
        (∀ x, c.chk = some x → d.xq = c.xq ∧ ∃ y, d.chk = some y ∧ y.gate = x.gate ++ [.xe q.toNat f])))

end Sys2Proof.Claims

/-- R205, R208, R237, R247: the twelve operations with a template are queued; a template in a bad block traps XMEM (DEDUCED, log entry
107). R249 to R251: XSIG, XWORD and XJOIN are queued with their register values; XJOIN captures the
counts of its queues. -/
def Obligations.EngineCommands : Prop :=
  (∀ (s : State) (u : Cur) (a : XeArgs),
    let vals := [(0, a.r0), (1, a.r1), (2, a.r2), (3, a.r3)].map fun x => if a.en.getLsbD x.1 then (s.operands u).sreg x.2 else 0
    let q (i : Instr) (tensor : Bool) : Prop := Queues s u i a.p a.xq (some (a.tix.toNat, tensor)) vals
    q (.xcopy a) true ∧ q (.xfill a) true ∧ q (.xgath a) true ∧ q (.xscat a) true ∧ q (.xcsr a) false ∧ q (.xdec a) true ∧
    q (.xatom a) false ∧ q (.xqadd a) true ∧ q (.xqrd a) true ∧ q (.xqclr a) true ∧ q (.xrec a) false ∧ q (.xarm a) false) ∧
  ∀ (s : State) (u : Cur) (a : XsigArgs) (b : XwordArgs) (p : Pred) (q : BitVec 2) (jm : BitVec 4),
    Queues s u (.xsig a) a.p a.xq none [(s.operands u).sreg a.sa] ∧
    Queues s u (.xword b) b.p b.xq none [(s.operands u).sreg b.sa, (s.operands u).sreg b.sb] ∧
    Queues s u (.xjoin p q jm) p q none
      ((List.range 4).map fun r => if jm.getLsbD r then ((s.own u).nextIdx r).setWidth 64 else 0)

/-- R252 to R254, Tables 11.1 and 11.2: XLRF empties the template cache, XSTAT reads a queue's words or the timetable position,
and XCANCEL discards the commands that have not started and counts them. R216, R257: XADV issues the next entries of the copy timetable in order; an entry that
traps stays the next, and past the end nothing happens. A slot that traps makes no entry in the draw history and finds no reuse
(R326). -/
def Obligations.QueueControl : Prop :=
  (∀ (s : State) (u : Cur) (p : Pred) (q : BitVec 2) (sd : BitVec 5) (cm : BitVec 4),
    let c := s.own u
    let x := c.queue q.toNat
    let reads (sel : BitVec 2) (v : Word) : Prop := s.Gives u 6 (.xstat p q sd sel) p [(2, .sreg sd.toNat v)]
    s.GivesFrom u 6 (.xlrf p) p u { c with tcache := [] } [] ∧
    (¬ (x.prev.1 = s.now ∧ x.prev.2 ≠ 0) → x.open_.length < 2 ^ 16 →
      reads 0 (x.issued ++ x.done ++ BitVec.ofNat 16 x.open_.length ++ 0#6 ++ x.qs ++ x.ecode)) ∧
    (x.prev.1 = s.now → x.prev.2 ≠ 0 → reads 0 x.prev.2) ∧
    reads 1 (x.d1 ++ x.d0) ∧ reads 2 (BitVec.ofNat 64 c.tpos) ∧
    ∃ d : Ctx, (c.chk = none → ∀ r, r < 4 → d.queue r = if cm.getLsbD r then { c.queue r with ents := [] } else c.queue r) ∧
      d.toCore = c.toCore ∧
      s.GivesFrom u 6 (.xcancel p cm sd) p u d [(2, .sreg sd.toNat (BitVec.ofNat 64 (((List.range 4).filter fun r => cm.getLsbD r).map fun r =>
        c.depth r - if (c.queue r).run.isSome then 1 else 0).sum))]) ∧
  (∀ (s : State) (u : Cur) (p : Pred) (n : BitVec 4) (rest : List (Nat × Instr)), s.Issues u 6 (.xadv p n) p rest →
    let o := (xeOp s u rest).advance (n.toNat + 1)
    (o.u.raised.length = u.raised.length → ∃ t, exec (.xadv p n) s = .next t ∧ o.s.Left t o.u o.c) ∧
    (o.u.raised.length ≠ u.raised.length → ∃ t, exec (.xadv p n) s = .next t ∧
      o.s.Left t { o.u with reuse := u.reuse } { o.c with dhist := (s.own u).dhist })) ∧
  ∀ (o : Op) (n : Nat),
    o.advance 0 = o ∧ (o.c.timetable[o.c.tpos]? = none → o.advance (n + 1) = o) ∧
    ∀ w i, o.c.timetable[o.c.tpos]? = some w → decSlot 6 w = .op i →
      ((o.issueXe i).2 = false → o.advance (n + 1) = (o.issueXe i).1) ∧
      ((o.issueXe i).2 = true → o.advance (n + 1) =
        Op.advance { (o.issueXe i).1 with c := { (o.issueXe i).1.c with tpos := (o.issueXe i).1.c.tpos + 1 } } n)

namespace Sys2Proof.Claims

/-! ### The SY slot (R349-R361, R394, R395) -/

/-- The state after the sync event of a SY operation, which the headland alone makes (R394). -/
def logs (s : State) (u : Cur) (i : Instr) (v : Word) : State :=
  match syncKind i with
  | some (kind, obj) => if (s.own u).pos = 0 then s.syncEvent u.t u.k kind obj v u.off 7 else s
  | none => s

/-- The result of a test, or the one that a forced replay has logged (R395). -/
def answer (s : State) (u : Cur) (i : Instr) (b : Bool) : Bool :=
  match syncKind i with
  | some (kind, obj) => if (s.own u).pos = 0 then
      (match s.forced (s.own u) kind obj u.t u.k with | .go w | .later w => decide (w ≠ 0) | _ => b) else b
  | none => b

/-- A waiting form as its bundle issues: WTO with the EINFO found where its limit expired, and otherwise only its sync event. -/
def WaitEnds (s : State) (u : Cur) (i : Instr) (p : Pred) : Prop :=
  (∀ e, u.expired = some e → s.Traps u 7 i p cWTO e) ∧
  (u.expired = none → ∀ rest, s.Issues u 7 i p rest →
    let s' := logs s u i (u.wait.getD ((s.operands u).holdOf s.now i)).value
    ∃ t, exec i s = .next t ∧ s'.Left t (u.past rest) (s'.own u))

/-- A test form writes its predicate one cycle later. -/
def Tests (s : State) (u : Cur) (i : Instr) (p : Pred) (pd : BitVec 3) (b : Bool) : Prop :=
  ∀ rest, s.Issues u 7 i p rest →
    let b' := answer s u i b
    let s' := logs s u i (if b' then 1 else 0)
    ∃ t, exec i s = .next t ∧ s'.Left t (u.past rest) ((s'.own u).send u 7 [(1, .preg pd.toNat b')])

end Sys2Proof.Claims

/-- R349, R352 to R354: WAITGE compares a counter with s[sa] + imm, and WAITW a word of the scratchpad; a form with a limit waits,
and one without tests. An illegal address of WAITW traps, as does one that meets an uncorrectable error (R37; DEDUCED, log entry
108). -/
def Obligations.Waits : Prop :=
  ∀ (s : State) (u : Cur) (p : Pred) (n : BitVec 6) (sb sa : BitVec 5) (imm : BitVec 9) (w : WCond) (off : BitVec 8) (f : WaitForm)
    (phys : Nat),
    let r := s.operands u
    let c := s.own u
    let i := Instr.waitge p n sa imm f
    let j := Instr.waitw p sb sa w off f
    let ea := (u.wait.getD (r.holdOf s.now j)).ea
    let info : Word := BitVec.ofInt 64 (ea % 2 ^ 32)
    let x : Word := BitVec.ofNat 64 (ofLe (bytesAt s u (c.phys c.sup ea) 8))
    let y := (u.wait.getD (r.holdOf s.now j)).target
    (f.limit ≠ 0 → WaitEnds s u i p) ∧
    (f.limit = 0 → c.counter n.toNat = some phys →
      Tests s u i p f.pd (decide ((r.sreg sa + imm.setWidth 64).toNat ≤ (SMap.get 0 (s.tile u.t).cnt phys).toNat))) ∧
    (r.holdOf s.now j).ea = (r.sreg sb).toInt + 8 * (off.toNat : Int) ∧ (r.holdOf s.now j).target = r.sreg sa ∧
    (ea % 8 ≠ 0 → s.Traps u 7 j p cALGN info) ∧
    (ea % 8 = 0 → ¬ InRange s u ea 8 → s.Traps u 7 j p cBND info) ∧
    (ea % 8 = 0 → InRange s u ea 8 → Spoiled s u (physOf s u ea) 8 none → ∀ rest, s.Issues u 7 j p rest →
      ∃ t, exec j s = .next t ∧ (s.retireFunc (.tile u.t)).Left t ((u.past rest).trapped 7 cXMEM info) c) ∧
    (ea % 8 = 0 → InRange s u ea 8 → ¬ Spoiled s u (physOf s u ea) 8 none → f.limit ≠ 0 → WaitEnds s u j p) ∧
    (ea % 8 = 0 → InRange s u ea 8 → ¬ Spoiled s u (physOf s u ea) 8 none → c.sup = u.sup → f.limit = 0 → Tests s u j p f.pd (match w with
      | .ge => decide (y.toNat ≤ x.toNat)
      | .eq => decide (x = y)
      | .ne => decide (x ≠ y)))

/-- R361, R349: FWAIT and FFREE wait for, or test, the filled and the free entries of a FIFO as they stood before the bundle;
FADV discards filled entries, or raises FUND where fewer are left than the bundle's own consumers leave it. -/
def Obligations.FifoWaits : Prop :=
  ∀ (s : State) (u : Cur) (a : FifoArgs) (p : Pred) (fs : FS) (n : BitVec 5),
    let f := (s.own u).toCore.fifo fs
    let of (x : Nat × Nat) : Nat := match a.fs with | .fa => x.1 | .fb => x.2
    (a.form.limit ≠ 0 → WaitEnds s u (.fwait a) a.p ∧ WaitEnds s u (.ffree a) a.p) ∧
    (a.form.limit = 0 → Tests s u (.fwait a) a.p a.form.pd (decide (a.n.toNat ≤ of u.fill0)) ∧
      Tests s u (.ffree a) a.p a.form.pd (decide (a.n.toNat ≤ of u.free0))) ∧
    let left : Nat := match fs with | .fa => u.fill0.1 - u.consumedA | .fb => u.fill0.2 - u.consumedB
    let used : Cur := match fs with
      | .fa => { u with consumedA := u.consumedA + n.toNat }
      | .fb => { u with consumedB := u.consumedB + n.toNat }
    (left < n.toNat → s.Traps u 7 (.fadv p fs n) p cFUND (if fs = .fb then 1 else 0)) ∧
    (n.toNat ≤ left → s.GivesFrom u 7 (.fadv p fs n) p used ((s.own u).setFifo fs { f with rd := f.rd + BitVec.ofNat 4 n.toNat })
      ((List.range n.toNat).map fun j => (1, .fifoFree fs (f.rd + BitVec.ofNat 4 j).toNat)))

/-- R356, R357, R359, R360, R342: SIG adds to a counter one cycle later, or is gated; BARR at the headland takes its release, which a
checked pair remembers until its mark (log entry 126);
REALIGN records a target that had passed; and FENCE holds later commands for the earlier ones within its scope. -/
def Obligations.SignalsAndBarriers : Prop :=
  ∀ (s : State) (u : Cur) (p : Pred) (n : BitVec 6) (sa : BitVec 5) (imm20 lim : BitVec 20) (imm32 : BitVec 32) (b : BitVec 3)
    (dcl : Bool) (sc : Scope) (phys : Nat),
    let c := s.own u
    let r := s.operands u
    let v := r.sreg sa + imm20.setWidth 64
    let bi := Instr.barr p b dcl lim
    let ri := Instr.realign p sa imm32
    (c.counter n.toNat = some phys →
      (c.chk = none → s.Gives u 7 (.sig p n sa imm20) p [(1, .cntAdd phys v)]) ∧
      (∀ x, c.chk = some x → s.GivesFrom u 7 (.sig p n sa imm20) p u { c with chk := some { x with gate := x.gate ++ [.sig phys v] } } [])) ∧
    (∀ e, u.expired = some e → s.Traps u 7 bi p cWTO e) ∧
    (u.expired = none → ∀ rest, s.Issues u 7 bi p rest →
      let s1 := logs s u bi (u.wait.getD (r.holdOf s.now bi)).value
      let gone (x : Nat × Nat) : Bool := x ≠ (b.toNat, fieldFy c.field)
      let s2 := match c.launch with
        | some id => if c.pos = 0 then s1.updLaunch id fun l => { l with barRel := l.barRel.filter gone, barArr := l.barArr.filter gone } else s1
        | none => s1
      let d := s1.own u
      ∃ t, exec bi s = .next t ∧ s2.Left t (u.past rest) (if c.pos = 0 ∧ c.launch ≠ none then
        { d with chk := d.chk.map fun x => { x with passed := x.passed ++ [b.toNat] } } else d)) ∧
    (let h := u.wait.getD (r.holdOf s.now ri)
     let miss : Bool := if c.pos = 0 then decide (h.target.toNat < h.c0 - c.t0) else (match u.item with | some x => x.rmiss | none => false)
     s.GivesFrom u 7 ri p { u with rmiss := u.rmiss || miss } c []) ∧
    ∃ d : Ctx, d = { c with fence := d.fence } ∧
      (∀ n, n ∈ d.fence ↔ c.endedOrd n = false ∧ (n ∈ c.fence ∨ (∃ x ∈ c.commands, x.2.reach ≤ scopeRank sc ∧ x.2.ord = n) ∨
        ∃ q, q < 4 ∧ (c.queue q).bad.isSome = true ∧ (c.queue q).qs ≠ 0 ∧ (c.queue q).ecode ≠ cXOVC ∧
          (c.queue q).badReach ≤ scopeRank sc ∧ (c.queue q).badOrd = n)) ∧
      s.GivesFrom u 7 (.fence p sc) p u d []

namespace Sys2Proof.Claims

/-! ### Whole machine -/

/-- The predicate of a slot word (Tables 4.2 and 4.3). -/
def condition (slot : Nat) (w : BitVec 64) : Pred :=
  if slot = 7 then { pn := w.getLsbD 47, pr := w.extractLsb' 44 3 } else { pn := w.getLsbD 55, pr := w.extractLsb' 52 3 }

/-- Every memory of a module is in canonical form. -/
structure MemoriesWf (s : State) : Prop where
  hbm : Memory.wf s.hbm
  lpddr : Memory.wf s.lpddr
  host : Memory.wf s.host
  peer : ∀ e ∈ s.peer, Memory.wf e.2
  scratch : ∀ e ∈ s.tiles, Memory.wf e.2.scratch

end Sys2Proof.Claims

/-- R73, R74, for every operation that a bundle encodes: a trap that it is given as it issues is raised whatever its condition;
with a false condition it does nothing; and after the last operation of a bundle no bundle is at issue. -/
def Obligations.ConditionsAndIssueTraps : Prop :=
  ∀ (s : State) (u : Cur) (i : Instr) (slot : Nat) (w : BitVec 64) (rest : List (Nat × Instr)),
    encode i = some (slot, w) → s.Stands u slot i rest →
    (∀ cause, issueFault (s.own u) u.sup i = some cause → ∃ t, exec i s = .next t ∧
      s.Left t { u.past rest with raised := u.raised ++ [⟨slot, true, cause, 0⟩] } (s.own u)) ∧
    (issueFault (s.own u) u.sup i = none → (s.operands u).holds (condition slot w) = false →
      ∃ t, exec i s = .next t ∧ s.Left t (u.past rest) (s.own u)) ∧
    (∀ t, exec i s = .next t → rest = [] → t.cur = none)

/-- R164, R203, for every operation that a bundle encodes: as it issues it changes no byte of any memory and no counter, and no
register or result in flight of any other context; a destination is written when its result lands. -/
def Obligations.SlotOperationsTouchNoMemory : Prop :=
  ∀ (s t : State) (u : Cur) (i : Instr) (slot : Nat) (w : BitVec 64) (rest : List (Nat × Instr)),
    encode i = some (slot, w) → s.Stands u slot i rest → exec i s = .next t →
    s.Still t ∧ ∀ x k, ¬ (x = u.t ∧ k = u.k) → (s.ctx x k).Same (t.ctx x k)

/-- Every step keeps the canonical form of every memory: of the scratchpads, HBM, LPDDR, host and peer memory. The form is the
model's, not the manual's. -/
def Obligations.MemoriesStayCanonical : Prop :=
  ∀ s t : State, step s = .next t → MemoriesWf s → MemoriesWf t

/-- R21, R22, R28, R29: reset leaves the journal with one entry of kind die reset for each compute die, no function ready, no
context resident, queues, launches and retired functions empty and the zone count at 0. That memory lists nothing, and so reads
as the model's fill (log entry 3), and the canonical form are the model's. -/
def Obligations.ResetState : Prop :=
  MemoriesWf State.reset ∧ State.reset.ctd.journal = resetJournal ∧ State.reset.ctd.jseq = 8 ∧ State.reset.ctd.ready = {} ∧
    State.reset.ctd.launches = [] ∧ State.reset.ctd.queues = [] ∧ State.reset.ctd.retired = [] ∧ State.reset.zone = 0 ∧
    State.reset.cur = none ∧ (∀ t k, (State.reset.ctx t k).life = .free) ∧
    ∃ t, step State.reset = .next t ∧ t.zone = 1 ∧ (∀ x k, (t.ctx x k).life = .free)

/-- Decode and encode agree: decoding the word that `encode` gives a well-formed operation gives the operation back, in its
slot, with every operand at every value the encoding admits. -/
def Obligations.DecodeOfEncode : Prop :=
  ∀ (i : Instr) (slot : Nat) (w : BitVec 64), i.wf = true → encode i = some (slot, w) → decSlot slot w = .op i

/-- Words that the manual writes out: ADD.I32 s3, s4, #-5 (after R171); LDV w1:12, [s3 + s4*64 + #-128], m2 (after Table 10.2);
XFILL xq2, fb, #0x40, d1=s9 (after R235); (!p3) VFMA.T16E1.SR.Q.B w1:12, o3, %mx, w0:63, m2 (after R92); VCVT.T8E2.SR.B w2:5, w0:9,
T16E1, #1, m3 (after R281); (p2) MACC.Z.S.T8E2.Q qr5, m3 (after R316); WAITGE c12, s5, #3, #1000; MNOP #3, #1; two unassigned opcodes
and two NOPs (after R105). -/
def Obligations.DecodesWords : Prop :=
  let p (pn : Bool) (pr : BitVec 3) : Pred := { pn, pr }
  decSlot 0 0x0101864FFFFFFFFB = .op (.add { p := p false 0, w := .w32, u := false, sd := 3, sa := 4, b := .imm (-5) }) ∧
  decSlot 4 0x010043064BFF8008 = .op (.ldv { p := p false 0, w := .w64, data := .wide 1 12, sb := 3, si := 4, sc := 2, imm := -128, m := 2, u := false }) ∧
  decSlot 6 0x0200802001200101 = .op (.xfill { p := p false 0, fmt := .i32, xq := 2, tix := 0x40, r0 := 0, r1 := 9, r2 := 0, r3 := 0, en := 2, cmd := 1 }) ∧
  decSlot 2 0x23BB131038083F68 = .op (.vfma { u := .vb, p := p true 3, fmt := .t16e1, d := .v (.main 1 12), a := .v (.opf 3), b := .v (.latch 2), c := .v (.main 0 63), imm := 0, rm := .sr, q := true, m := 2, var := 0 }) ∧
  decSlot 2 0x4009214090001B4C = .op (.vcvt { u := .vb, p := p false 0, fmt := .t8e2, d := .v (.main 2 5), a := .v (.main 0 9), b := .nil, c := .nil, imm := 0x1B, rm := .sr, q := false, m := 3, var := 0 }) ∧
  decSlot 3 0x0329280000000A2C = .op (.macc { p := p false 2, fmt := .t8e2, row := 5, view := 0, idx := 0, sr := 0, imm := 0, z := true, k := false, s := true, c := false, rm := .rne, q := true, m := 3, var := 0 }) ∧
  decSlot 7 0x0001030A007D0003 = .op (.waitge (p false 0) 12 5 3 { limit := 1000, dcl := false, pd := 0 }) ∧
  decSlot 3 0xF3A5000000000001 = .op (.mnop 3 0xA5000000000001) ∧
  decSlot 0 0x1570000000000000 = .ill ∧ decSlot 6 0x0700000000000000 = .ill ∧ decSlot 7 0x8000000000000000 = .nop ∧ decSlot 1 0 = .nop

namespace Sys2Proof.Claims

/-- The operations of a bundle are performed one after the other, in this order. -/
def performs : List (Nat × Instr) → State → Host.Outcome State Fault Refusal
  | [], s => .next s
  | x :: xs, s => match exec x.2 s with
    | .next v => performs xs v
    | r => r

/-- The bundle has at most eight operations left, each one that a slot word encodes. -/
def Slots (u : Cur) : Prop := u.todo.length ≤ 8 ∧ ∀ x ∈ u.todo, ∃ w, encode x.2 = some (x.1, w)

/-- Every function of a step of bring-up has reported ready, or has been given up (R22, R23). -/
def StepOver (s : State) (n : Nat) : Prop := ∀ f : Func, f.step = n → f.exists_ = true → s.ctd.ready.bit f = true ∨ f ∈ s.ctd.retired

/-- The zone cycle turns (R4, R22, R166): every result in flight comes one cycle nearer, on a tile that holds still none does, the
agenda of the new cycle begins with the landing of the results that are then due, and bring-up goes on to its next step when every
function of the present one is ready or given up, as a package of LPDDR6 also is once output for debugging meets a bad block of it. -/
structure Turns (s t : State) : Prop where
  zone : t.zone = s.zone + 1
  cur : t.cur = none
  flight : ∀ x k, (s.ctx x k).life ≠ .free → (t.ctx x k).inflight =
    if t.stretched || (s.tile x).frozen t.now then (s.ctx x k).inflight
    else (s.ctx x k).inflight.map fun (l : Landing) => { l with left := l.left - 1 }
  core : ∀ x k, (t.ctx x k).toRegs = (s.ctx x k).toRegs ∧ (t.ctx x k).fa = (s.ctx x k).fa ∧ (t.ctx x k).fb = (s.ctx x k).fb ∧
    (t.ctx x k).pc = (s.ctx x k).pc ∧ (t.ctx x k).life = (s.ctx x k).life
  still : t.hbm = s.hbm ∧ t.host = s.host ∧ t.peer = s.peer ∧
    ∀ x, (t.tile x).scratch = (s.tile x).scratch ∧ (t.tile x).cnt = (s.tile x).cnt
  tier : s.ctd.recovery = false → s.ctd.lpdAt = none →
    (StepOver s 2 → t.ctd.lpdAt = some t.now) ∧ (¬ StepOver s 2 → t.ctd.lpdAt = none)
  dies : s.ctd.recovery = false → s.ctd.lpdAt ≠ none → s.ctd.upAt = none →
    (StepOver s 3 → t.ctd.upAt = some t.now) ∧ (¬ StepOver s 3 → s.badLpddr = [] → t.ctd.upAt = none)
  lands : ∃ now later, t.agenda = now ++ later ∧ (∀ i ∈ now, ∃ x k, i = .resultLand x k) ∧
    ∀ x k, (t.ctx x k).life ≠ .free → ((t.ctx x k).inflight.any fun l => l.left = 0) = true → Instr.resultLand x k ∈ now
  merges : ∀ x k, (t.ctx x k).life = .running → Instr.mergeStageChoice x ∈ t.agenda

end Sys2Proof.Claims

/-- R67, R146: when the bytes at the PC of a context of FLEN 1 decode to operations, the fetch of its bundle lets exactly them
issue, in slot order; a step performs the fetch and the operations of the bundle, or, where a bundle is already at issue, goes
on with it. Where the agenda of the cycle is empty, the step turns the clock (R4). The agenda and the bundle at issue are the model's
own fields (log entry 6). -/
def Obligations.StepRunsDecoded : Prop :=
  (∀ (s : State) (t : Nat) (k : BitVec 2) (n : Next), s.cur = none → s.holdsStill t = false → s.next t k = some n →
    n.fault = none → (s.ctx t k).engineDue n = none → s.entryEvent t k n false = none →
    (s.offer t k).held t k n = none → (s.offer t k).expired t k n = false →
    let ops := ((s.offer t k).ctx t k).work n |>.filterMap fun x => match x.2 with | .op i => some (x.1, i) | _ => none
    Happens s (.bundleFetch t k) fun v =>
      (ops = [] → v.cur = none) ∧
      (ops ≠ [] → ∃ u, v.cur = some u ∧ u.t = t ∧ u.k = k ∧ u.off = n.off ∧ u.sup = (s.ctx t k).sup ∧ u.todo = ops ∧
        s.Still v)) ∧
  (∀ (s : State) (t : Nat) (k : BitVec 2), (s.ctx t k).pos = 0 → (s.ctx t k).life = .running → (s.ctx t k).saved = false →
    (s.ctx t k).imgOp = false → (s.ctx t k).t0 ≤ s.now → (s.ctx t k).readyAt ≤ s.now → (s.ctx t k).chk = none →
    (s.ctx t k).fstop = none → (s.ctx t k).nulls = 0 → (s.ctx t k).resume = none → (s.ctx t k).shn.getLsbD 62 = false →
    (s.tile t).bad = [] → (s.tile t).undo = [] →
    let c := s.ctx t k
    let a := 64 * c.pc.toNat
    a + 64 ≤ (if c.sup then 0x300000 else Min.min c.foot (0x300000 - c.wbase)) →
    let b := bundleOfBytes ((s.tile t).scratch.read ((if c.sup then 0 else c.wbase) + a) 64)
    ∃ n, s.next t k = some n ∧ n.fault = none ∧ n.off = c.pc ∧
      c.work n = ((List.range 8).map fun i => (i, decSlot i (b.slot i))).filter fun x => x.2 ≠ .nop) ∧
  (∀ (s : State) (i : Instr) (rest : List Instr), s.cur = none → s.agenda = i :: rest →
    let s' := { s with agenda := rest }
    (∀ v, exec i s' = .next v → v.cur = none → step s = .next v) ∧
    (∀ v u, exec i s' = .next v → v.cur = some u → Slots u → step s = performs u.todo v) ∧
    (∀ f, exec i s' = .fault f → step s = .fault f) ∧ (∀ r, exec i s' = .refused r → step s = .next s')) ∧
  (∀ (s : State) (u : Cur), s.cur = some u → Slots u → step s = performs u.todo s) ∧
  ∀ s : State, s.cur = none → s.agenda = [] → s.ctd.mbox.trans = none → ∃ t, step s = .next t ∧ Turns s t

namespace Sys2Proof.Claims

/-! ### Events -/

/-- Operations of a list of decoded slots. -/
def opsOf (xs : List (Nat × SlotDec)) : List (Nat × Instr) :=
  xs.filterMap fun x => match x.2 with | .op i => some (x.1, i) | _ => none

/-- A user-mode context has taken a trap in place of its bundle: EDONE says that no slot was performed. In a context of FLEN 1
the handler's first bundle follows three cycles later, and nothing else changes (R191, R363, R365). -/
structure Entered (s v : State) (t : Nat) (k : BitVec 2) (cause : BitVec 8) (eng : Bool) (slot : Nat) (einfo : Word) : Prop where
  sup : (v.ctx t k).sup = true
  cause : (v.ctx t k).ecause = causeWord (s.ctx t k).ecause eng false cause
  eslot : (v.ctx t k).eslot = BitVec.ofNat 64 slot
  einfo : (v.ctx t k).einfo = einfo
  done : (v.ctx t k).edone.extractLsb' 0 8 = 0
  still : s.Still v
  alone : (s.ctx t k).pos = 0 → (s.ctx t k).span = 1 →
    (v.ctx t k).pc = ((s.ctx t k).tvec >>> 6).setWidth 16 ∧ (v.ctx t k).readyAt = s.now + 3 ∧
    (v.ctx t k).epc = sqpc false (s.ctx t k).pc (s.ctx t k).ldep ∧
    (v.ctx t k).ept = eptWord (s.ctx t k).pend (s.ctx t k).nulls none false ∧
    (v.ctx t k).ldep = 0 ∧ (v.ctx t k).pend = [] ∧ (v.ctx t k).nulls = 0 ∧ (v.ctx t k).toRegs = (s.ctx t k).toRegs ∧
    ∀ x j, ¬ (x = t ∧ j = k) → v.ctx x j = s.ctx x j

/-- A record of the launch queues has ended with a status: it counts as done, with a journal entry of its own. -/
def Ended (s v : State) (id : LId) (status : BitVec 16) : Prop := (id, status) ∈ v.ctd.doneRecs ∧ s.ctd.jseq < v.ctd.jseq

/-- A launch has become `l`, and every other one is as it was. -/
def LaunchIs (s v : State) (id : LId) (l : Launch) : Prop :=
  findLaunch v.ctd.launches id = some l ∧ ∀ x, x ≠ id → findLaunch v.ctd.launches x = findLaunch s.ctd.launches x

end Sys2Proof.Claims

/-- R146, R147, R150 to R155, R160, R353: the fetch that WTO lets issue, the condition of a held bundle found true, a wait probe,
the choice of the only context that can issue, the end of a slip, and a bundle that reaches a member of a furrow. -/
def Obligations.IssueEvents : Prop :=
  ∀ (s : State) (t : Nat) (k : BitVec 2) (n : Next), s.next t k = some n →
    let c := s.ctx t k
    (∀ i h, s.cur = none → s.holdsStill t = false → n.fault = none → s.entryEvent t k n false = none → s.held t k n = none →
      s.expired t k n = true → c.waitOp n = some i → c.hold = some h →
      let ops := opsOf ((c.work n).filter fun x => !(c.unmet n).getLsbD x.1)
      ops ≠ [] → Happens s (.wto t k) fun v => ∃ u, v.cur = some u ∧ u.t = t ∧ u.k = k ∧ u.off = n.off ∧ u.todo = ops ∧
        u.expired = some (wtoInfo i h.value h.target)) ∧
    (∀ i h x, c.hold = some h → c.waitOp n = some i → s.waitForced t k c i h = (x, true) → c.span < 2 →
      c.expiredAt s.now i h = false → Happens s (.waitConditionMet t k) fun v =>
        v = s.setCtx t k { c with hold := some { h with value := x, met := true, okAt := s.now } }) ∧
    (s.probes t k n = true → n.fault = none → s.stretched = false → (c.probe = none → s.holdsStill t = false) → Happens s (.waitProbe t k) fun v => s.Still v ∧
      ∃ p, (v.ctx t k).probe = some p ∧ p.c0 = (match c.probe with | some q => q.c0 | none => s.now)) ∧
    Happens s (.mergeStageChoice t) (fun v => s.Still v ∧ v.cur = s.cur ∧ (s.stretched = true → v.agenda = s.agenda) ∧
      let s' := s.offer t k
      (s.stretched = false → s'.holdsStill t = false → (∀ j, j ≠ k → s.next t j = none ∧ s'.next t j = none) →
        s'.next t k = some n → s'.held t k n = none → s'.entryEvent t k n false = none → s'.expired t k n = false →
        (s'.ctx t k).stall = 0 → (s'.ctx t k).probe = none → v.agenda = .bundleFetch t k :: s.agenda)) ∧
    (∀ slot cycles, c.timed = true → cycles ≠ 0 → c.stall = cycles → c.stallSlot = BitVec.toNat slot →
      Happens s (.slip t k slot cycles) fun v => s.Still v ∧ (v.ctx t k).stall = 0 ∧
        (c.pos = 0 → c.span = 1 → v.ctx t k = ({ c with stall := 0 } : Ctx).event s.now dcrSLIP n.off slot.toNat cycles)) ∧
    ∀ (m : Nat) (j : BitVec 2) (it : PathItem) (rest : List PathItem),
      let d := s.ctx m j
      d.path = it :: rest → d.pos ≠ 0 → d.life = .running → d.got = none → it.left = 0 → s.holdsStill m = false →
      Happens s (.furrowBundleDelivery m j) fun v => s.Still v ∧ (v.ctx m j).path = rest ∧
        (d.mute = true → it.sup = false → (v.ctx m j).got = none) ∧
        (¬ (d.mute = true ∧ it.sup = false) → (v.ctx m j).got = some it ∧ (v.ctx m j).mute = false ∧
          (it.sup = false → (v.ctx m j).sup = false))

/-- R232, R146, R367, R373, R374, R384, R385, R368, R401, R402, Table 18.3: the traps that are taken in place of a bundle. EDONE of BRK
(log entry 38), EINFO of a SPACE at a mark limit (40), and what PREEMPT and SPACE change in the other contexts of a furrow (41 and 104)
are the model's readings. -/
def Obligations.TrapsInPlaceOfABundle : Prop :=
  ∀ (s : State) (t : Nat) (k : BitVec 2),
    let c := s.ctx t k
    c.sup = false →
    (∀ n, s.next t k = some n →
      let stalled := (s.held t k n).isSome || c.age > 0
      (∀ q slot, s.cur = none → s.holdsStill t = false → c.engineDue n = some (q, slot) →
        Happens s (.bundleFetch t k) fun v => ((v.ctx t k).queue q).qs = 2 ∧
          Entered s v t k (c.queue q).ecode true slot ((c.queue q).faultInfo q)) ∧
      (∀ cause, s.cur = none → s.holdsStill t = false → c.engineDue n = none → s.entryEvent t k n false = none →
        n.fault = some cause → Happens s (.bundleFetch t k) fun v => Entered s v t k cause false 0 0) ∧
      (∀ e, c.qovf = some e → c.engineDue n = none →
        Happens s (.qovf t k) fun v => (v.ctx t k).qovf = none ∧ Entered s v t k cQOVF false 0 e) ∧
      (s.entryEvent t k n false = some (.brk t k) → c.stepped = true →
        Happens s (.brk t k) fun v => Entered s v t k cBRK false 0 0) ∧
      (∀ j slot, s.entryEvent t k n false = some (.brk t k) → c.stepped = false → s.breakAt c n = some (j, slot) →
        Happens s (.brk t k) fun v => Entered s v t k cBRK false 0 (BitVec.ofNat 64 (256 * j + slot)) ∧
          ((c.pos = 0 ∧ c.span = 1) → (v.ctx t k).edone.extractLsb' 8 8 = n.occ)) ∧
      (s.entryEvent t k n stalled = some (.preempt t k) →
        Happens s (.preempt t k) fun v => Entered s v t k cPREEMPT false 0 0 ∧
          ∀ x ∈ s.furrow t k, (v.ctx x.1 x.2).preq.getLsbD 63 = false) ∧
      (∀ limit mark, c.spaceDue n = some (limit, mark) → s.entryEvent t k n stalled = some (.space t k) →
        Happens s (.space t k) fun v =>
          Entered s v t k cSPACE false 0 (BitVec.ofNat 64 (limit % 2048 + if mark then 4096 else 0)) ∧
          (∀ x ∈ s.furrow t k, (v.ctx x.1 x.2).psc = 0) ∧
          v.agenda = (if mark then [.checkedIntervalClose t k] else []) ++ s.agenda) ∧
      (c.pairDue = true → c.engineDue n = none → c.qovf = none → Happens s (.pair t k) fun v =>
        let p := if c.pos = 0 then t + 1 else t - 1
        Entered s v t k cPAIR false 0 (BitVec.ofNat 64 (p % 64 + 256 * (p / 64))) ∧
        ∀ x, c.chk = some x → ∃ y, (v.ctx t k).chk = some y ∧ y.pair = false)) ∧
    ∀ f, (s.ctx c.head c.headK).fstop = some f → c.life = .running → 2 ≤ c.span → c.pairDue = false →
      let furr (v : State) : Prop := (v.ctx t k).sup = true ∧ (v.ctx t k).ecause = causeWord c.ecause false false cFURR ∧
        (v.ctx t k).einfo = BitVec.ofNat 64 (f.pos + 256 * f.cause.toNat) ∧ s.Still v
      (c.pos = 0 → f.last = none → c.quiet s.now = true → Happens s (.furr t k) fun v => furr v ∧
        (v.ctx t k).pc = (c.tvec >>> 6).setWidth 16 ∧ ∃ g, (v.ctx t k).fstop = some g ∧ g.last = some (c.sent, c.lastIssue)) ∧
      (∀ m tl, c.pos ≠ 0 → f.last = some (m, tl) → c.got = none → (∀ it ∈ c.path, it.sup = true) → tl + c.pos + 1 ≤ s.now →
        Happens s (.furr t k) furr)

/-- R376 to R378, R384, R385, R392, R398: a pre-emption request, the image operations, the close of a checked interval with its
digest exchange, and a record of the hash log. What a rollback restores beside the registers (log entry 126), what an image holds beside the bytes of the manual, the slots of a member's request
and the cycle in which an image operation begins are the model's choice (log entries 28, 43, 44, 45 and 80). A bad block that the walk of
a restore meets also retires its unit (119). -/
def Obligations.ImageAndCheckedEvents : Prop :=
  ∀ (s : State) (t : Nat) (k : BitVec 2),
    let c := s.ctx t k
    let ask (op : BitVec 2) : Prop := c.life = .running ∧ c.imgOp = false ∧ c.preq.extractLsb' 61 2 = op
    let begun (op : BitVec 2) (v : State) : Prop := (v.ctx t k).imgOp = true ∧ (v.ctx t k).preq.extractLsb' 61 2 = op ∧
      (v.ctx t k).preq.extractLsb' 59 2 = 1 ∧ s.now ≤ (v.ctx t k).imgAt ∧ s.Still v
    let ended (st : BitVec 2) (v : State) : Prop := (v.ctx t k).imgOp = false ∧ (v.ctx t k).preq.extractLsb' 61 2 = 0 ∧
      (v.ctx t k).preq.extractLsb' 59 2 = st
    (∀ a r : BitVec 16, c.life = .running → c.pos = 0 → c.span = 1 → Happens s (.preemptRequest t k a r) fun v =>
      (v.ctx t k).preq.getLsbD 63 = true ∧ (v.ctx t k).preq.extractLsb' 59 4 = c.preq.extractLsb' 59 4 ∧
      (v.ctx t k).preq.extractLsb' 40 16 = a ∧ (v.ctx t k).preq.extractLsb' 24 16 = r ∧ (v.ctx t k).reqAt = s.now + 2) ∧
    (ask 1 → Happens s (.preqSave t k) (begun 1)) ∧ (ask 2 → Happens s (.preqRestore t k) (begun 2)) ∧
    (c.imgOp = true → c.life = .running → c.imgAt ≤ s.now → c.settled = true →
      let at_ : Nat × Nat := (c.pos, fieldFy c.field)
      let goes (P : State → Prop) : Prop := Happens s (.imageOperationEnd t k) P
      let inTime : Prop := ∀ h, c.imgHold = some h → s.now < h + 6000000
      (c.preq.extractLsb' 61 2 = 1 → s.ctd.ready.lpd ≠ 0xFF → goes fun v => ended 3 v ∧ s.Still v) ∧
      (∀ id l, c.preq.extractLsb' 61 2 = 1 → s.ctd.ready.lpd = 0xFF → c.launch = some id → findLaunch s.ctd.launches id = some l →
        let e := c.recordEvents
        goes fun v => ended 2 v ∧ (v.ctx t k).saved = true ∧ (v.ctx t k).kept = none ∧
          (∃ x, SMap.get none v.ctd.images c.sslot = some x ∧ x.id = id ∧ (x.fx, x.fy) = at_ ∧ x.bytes = e.image (s.tile t).cnt ∧
            x.tail = ((List.range 32).flatMap fun n => leBytes 8 (SMap.get 0 e.dcr n).toNat) ++ leBytes 4 e.dsum.toNat ++
              leBytes 252 0) ∧
          (c.saved = true → v.ctd.locks = s.ctd.locks) ∧
          (c.saved = false → (v.ctx t k).cmap = [] ∧ (∀ q, q < 4 → ((v.ctx t k).queue q).ents = []) ∧
            ⟨id, at_.1, at_.2⟩ ∈ v.ctd.savedAt ∧
            v.ctd.locks = (match l.lockSets.find? fun x => x.1 = at_ with
              | some x => x.2.foldl (lockChange false) s.ctd.locks
              | none => s.ctd.locks) ∧
            ∃ m, findLaunch v.ctd.launches id = some m ∧ ∀ x ∈ m.lockSets, x.1 ≠ at_)) ∧
      (c.preq.extractLsb' 61 2 ≠ 1 →
        (∀ h, c.imgHold = some h → h + 6000000 ≤ s.now → goes fun v => ended 3 v ∧ s.Still v) ∧
        (∀ bad, inTime → s.restore t k = .fail bad → goes fun v => ended 3 v ∧ s.Still v) ∧
        (inTime → s.restore t k = .hold → goes fun v => s.Still v ∧ v.ctx t k =
          { c with imgAt := Min.min (s.now + 30000) (c.imgHold.getD s.now + 6000000), imgHold := some (c.imgHold.getD s.now) }) ∧
        ((∀ img, SMap.get none s.ctd.images c.rslot = some img → c.rslot ≠ 0xFFFF → s.ctd.ready.lpd = 0xFF →
          le img.bytes 0 4 = 0x47494358 → le img.bytes 4 2 = 1 → 0x15400 ≤ img.bytes.length → le img.bytes 8 4 = img.bytes.length →
          le img.bytes 12 4 ≠ (crc32c (img.bytes.drop 64)).toNat) → s.restore t k = .fail none) ∧
        ∀ s' img, inTime → s.restore t k = .done s' → SMap.get none s.ctd.images c.rslot = some img → goes fun v => ended 2 v ∧
          let d := v.ctx t k
          let word (off : Nat) : Word := BitVec.ofNat 64 (le img.bytes off 8)
          d.life = .running ∧ d.saved = false ∧ d.launch = some img.id ∧ d.sup = c.sup ∧ d.pc = c.pc ∧ d.pend = c.pend ∧
          d.epc = word 0x40 ∧ d.ept = word 0x48 ∧ d.ecause = word 0x50 ∧ d.edone = word 0x60 ∧ d.einfo = word 0x68 ∧
          d.qtrap = word 0xF0 ∧ d.cyc = word 0xF8 ∧ d.key = word 0x100 ∧ d.step = word 0x108 ∧ d.shn = word 0x118 ∧
          (∀ n : BitVec 5, n ≠ 0 → d.toRegs.sreg n = word (0x180 + 8 * n.toNat)) ∧
          (∀ n, n < 32 → SMap.get 0 d.dcr n = BitVec.ofNat 64 (le img.tail (8 * n) 8)))) ∧
    (∀ x, c.chk = some x → c.pos = 0 → c.life = .running → x.until_ = none → Happens s (.checkedIntervalClose t k) fun v =>
      v = s.setCtx t k { c with chk := some { x with until_ := some (s.now + 8) } }) ∧
    (∀ x w j, c.chk = some x → x.until_ = some w → w ≤ s.now → s.contextOf (t + 1) c.launch = some j →
      let m := s.ctx (t + 1) j
      m.path = [] → m.got = none → c.runs = true → m.runs = true →
      (c.digestAll s.now = m.digestAll s.now → Happens s (.digestExchange t k) fun v =>
        ∃ y, (v.ctx t k).chk = some y ∧ y.gate = [] ∧ y.n = 0 ∧ y.until_ = none ∧ y.markAt = s.now) ∧
      (c.digestAll s.now ≠ m.digestAll s.now → Happens s (.digestExchange t k) fun v =>
        (x.sets = [] → (∀ y, m.chk = some y → y.sets = []) → s.Still v) ∧
        (∀ n d, x.sets = [(n, d)] → SMap.get 0 (v.tile t).cnt n = SMap.get 0 (s.tile t).cnt n - d) ∧
        (∀ h, x.shadow = some h → (v.ctx t k).toCore = { h.toCore with bars := c.bars } ∧ (v.ctx t k).fstop = h.fstop ∧
          (v.ctx t k).mute = h.mute ∧ (v.ctx t k).sent = h.sent ∧ (v.ctx t k).cmap = h.cmap) ∧
        ∃ y, (v.ctx t k).chk = some y ∧ y.gate = [] ∧ y.n = 0 ∧ y.until_ = none ∧
          y.pair = (x.pair || decide (3 ≤ ((x.miss.filter fun z => s.now ≤ z + 60000000) ++ [s.now]).length)))) ∧
    ∀ (i : BitVec 32) (h : HashIv) (id : LId) (l : Launch), c.hashes.find? (fun h => h.i = i.toNat) = some h →
      c.launch = some id → s.launchRec c = some l → (∀ x ∈ c.inflight, x.hash ≠ some i.toNat) → c.intervalOver i.toNat = true →
      s.badLpddr = [] → Happens s (.hashRecord t k i) fun v => ((v.ctx t k).hashes = c.hashes.filter fun x => x.i ≠ i.toNat) ∧
        let base := l.dbg.hrbase.toNat / 4096 * 4096
        let size := 4096 * 2 ^ l.dbg.dbgSize 2
        v.lpddr.read (base + 16 * l.hrN % size) 16 =
          leBytes 8 h.crc.toNat ++ leBytes 4 i.toNat ++ leBytes 2 (tileWord t) ++ leBytes 1 k.toNat ++ leBytes 1 0 ∧
        ∃ m, findLaunch v.ctd.launches id = some m ∧ m.hrN = l.hrN + 1

/-- R21 to R23, R30, R32, R35, R36, R166 to R168, R386, R387, Tables 2.1 and 2.5: stretches, clock steps, the hard trip, module
reset with the choice of firmware, readiness, correctable errors, and the reset of a compute die. Both ends of the window of
correctable errors count (log entry 28), a module reset keeps what log entry 64 names, a stretch is announced as its condition arises
and at each stretch that follows (65), a hard trip is followed at once by a module reset, and in recovery no bound holds (66), and
microseconds are cycles of 600 MHz (75), and a step of bring-up is over when each of its functions is ready or given up (117): these
are the model's readings. -/
def Obligations.PowerAndResetEvents : Prop :=
  ∀ s : State,
    let x := s.ctd.stretch
    (x.cond = false → Happens s .stretchCondition fun v => v.ctd.stretch.cond = true ∧ v.ctd.stretch.since = s.now ∧
      ∃ a, v.ctd.stretch.sched = x.sched ++
          [(a, if a - s.now < 6000000 then 256 else if a - s.now < 12000000 then 512 else 768)] ∧
        (∀ n, n < 8 → s.now + lat 8 n + 8 ≤ a) ∧ ∀ y ∈ x.sched, y.1 + 1024 ≤ a) ∧
    (∀ at_ n, x.sched = [(at_, n)] → x.begun < at_ → at_ ≤ s.now → s.now < at_ + n → Happens s (.stretch n) fun v =>
      s.Still v ∧ v.ctd.stretch.begun = at_ ∧
      v.ctd.stretch.sched = x.sched ++ if x.cond then [(at_ + 1024, x.length (at_ + 1024))] else []) ∧
    ((∃ y ∈ x.sched, y.1 + y.2 ≤ s.now) → Happens s .stretchEnd fun v =>
      s.Still v ∧ v.ctd.stretch.sched = x.sched.filter fun y => s.now < y.1 + y.2) ∧
    (x.cond = true → Happens s .stretchConditionClear fun v => s.Still v ∧ v.ctd.stretch = { x with cond := false }) ∧
    (∀ mhz, s.mayStep mhz = true → Happens s (.clockStep mhz) fun v =>
      s.Still v ∧ v.ctd.clockUntil = some (s.now + 4096) ∧ v.ctd.clockTo = mhz) ∧
    (∀ u, s.ctd.clockUntil = some u → u ≤ s.now → Happens s .clockStepEnd fun v =>
      s.Still v ∧ v.ctd.clockUntil = none ∧ v.ctd.clockMHz = s.ctd.clockTo) ∧
    (∀ c, s.ctd.tripped = false → Happens s (.hardTrip c) fun v =>
      v.ctd.tripped = true ∧ v.cur = none ∧ v.agenda = [.moduleReset .hardTrip] ∧ v.ctd.launches = [] ∧
      ∀ l ∈ s.ctd.launches, (l.id, 1) ∈ v.ctd.doneRecs) ∧
    (∀ c, (c = .hardTrip → s.ctd.tripped = true) → Happens s (.moduleReset c) fun v =>
      v.tiles = [] ∧ v.hbm = [] ∧ v.lpddr = [] ∧ v.host = s.host ∧ v.ctd.launches = [] ∧ v.ctd.queues = [] ∧ v.ctd.ready = {} ∧
      v.ctd.journal = resetJournal ∧ v.ctd.lifeCycle = s.ctd.lifeCycle ∧ v.zone = 0 ∧ v.cur = none ∧ v.agenda = [] ∧
      v.ctd.slotA = s.ctd.slotA ∧ v.ctd.slotB = s.ctd.slotB ∧ v.ctd.firstB = false ∧
      let good (img : List Byte) : Bool := accepts s.ctd.keyDigest s.ctd.fuseSvn img
      let (one, other) := if s.ctd.firstB then (s.ctd.slotB, s.ctd.slotA) else (s.ctd.slotA, s.ctd.slotB)
      let boots (img : List Byte) : Prop :=
        v.ctd.recovery = false ∧ v.ctd.firmware = img ∧ v.ctd.svn = Config.imageSvn img ∧ v.ctd.fuseSvn = Config.imageSvn img
      if good one = true then boots one else if good other = true then boots other
      else v.ctd.recovery = true ∧ v.ctd.fuseSvn = s.ctd.fuseSvn) ∧
    (∀ f n, f.exists_ = true → s.ctd.ready.bit f = false → f ∉ s.ctd.retired → s.drains f = false → s.ctd.recovery = false →
      s.releasedAt f = some n →
      ((∀ b, f.bound = some b → s.now ≤ n + b) → Happens s (.functionReady f) fun v => s.Still v ∧ v.ctd.ready.bit f = true) ∧
      (∀ b, f.bound = some b → n + b < s.now →
        Happens s (.readyTimeout f) fun v => s.Still v ∧ f ∈ v.ctd.retired ∧ v.ctd.ready.bit f = false)) ∧
    (∀ u, u.func.exists_ = true →
      let es := (s.ctd.ecc.filter fun e => s.now ≤ e.2 + 600000000) ++ [(u, s.now)]
      Happens s (.eccCorrectable u) fun v => s.Still v ∧ v.ctd.ecc = es ∧
        (16 ≤ (es.filter fun e => e.1 = u).length → u.func ∈ v.ctd.retired) ∧
        ((es.filter fun e => e.1 = u).length < 16 → v.ctd.retired = s.ctd.retired)) ∧
    ∀ n,
      (n < 8 → (∀ d, s.dieState n ≠ .draining d) → Happens s (.dieReset n) fun v => s.Still v ∧
        v.dieState n = .draining (s.now + 12000) ∧ v.ctd.ready.bit (.die n) = false ∧ n ∈ v.ctd.detours ∧
        ∀ id l, findLaunch s.ctd.launches id = some l → l.holds = false → (s.diesOf l).contains n = true →
          ∃ m, findLaunch v.ctd.launches id = some m ∧ m.phase = .ending ∧ (l.phase ≠ .ending → m.status = 1 ∧ m.fcause = 0x30)) ∧
      (∀ d, s.dieState n = .draining d →
        let wiped (v : State) : Prop := v.dieState n = .resetting ∧ (∀ t, dieOf t = n → v.tile t = {}) ∧
          ∀ a, n * (72 * 2 ^ 30) ≤ a → a < (n + 1) * (72 * 2 ^ 30) → v.hbm.byte a = 0
        (s.now < d → (∀ x ∈ s.passing n, x.2.2.2.within n = false) → Happens s (.drainEnd n) wiped) ∧ (d ≤ s.now → Happens s (.drainDeadline n) wiped))

/-- R27, R30 to R33, Tables 2.3 to 2.8: the commands of the management mailbox end with the code of the first check that fails;
ATTEST and LCCHAL answer, LCTRANS consumes the challenge, and one that passes changes the state with a module reset after it has
ended. While a command runs, a write of MBCMD is ignored. That a command acts as it starts and ends in a later turn (log entry 67),
which of two codes comes first where the manual does not say (68), and the codes of a range outside the memory and of a die number of
8 or more (69) are the model's choice. Whether a signature verifies is a constant of Config with no value: both outcomes stand in the
conclusion. -/
def Obligations.MailboxCommands : Prop :=
  (∀ (s : State) (n : BitVec 16) (req : List (BitVec 8)), s.mailboxOpen = true → s.ctd.mbox.busy = false →
    let c := s.ctd
    let b := c.mbox.request n req
    let runs (cmd code : BitVec 8) (rsp : List Byte) (v : State) : Prop :=
      let m := v.ctd.mbox
      m.busy = true ∧ m.done = false ∧ m.cmd = cmd ∧ m.rqlen = n ∧ m.staged = some (code, rsp) ∧
      v.hbm = s.hbm ∧ v.lpddr = s.lpddr ∧ v.tiles = s.tiles
    let bad (i : Instr) (cmd code : BitVec 8) : Prop := Happens s i fun v =>
      runs cmd code [] v ∧ v.ctd.lifeCycle = c.lifeCycle ∧ v.ctd.slotA = c.slotA ∧ v.ctd.slotB = c.slotB ∧ v.ctd.dies = c.dies ∧
      v.ctd.mbox.trans = c.mbox.trans ∧ (cmd = 3 → v.ctd.mbox.chal = none) ∧ (cmd ≠ 3 → v.ctd.mbox.chal = c.mbox.chal)
    (∀ j, j < n.toNat → b.getD j 0 = if j < req.length then req.getD j 0 else c.mbox.req.getD j 0) ∧
    (c.recovery = true → bad (.attest n req) 1 4 ∧ bad (.lcchal n) 2 4 ∧ bad (.lctrans n req) 3 4 ∧ bad (.diereset n req) 5 4) ∧
    (c.recovery = false →
      (n ≠ 48 → bad (.attest n req) 1 2) ∧ (n = 48 → c.lifeCycle = 0 → bad (.attest n req) 1 4) ∧
      (n = 48 → c.lifeCycle ≠ 0 → Happens s (.attest n req) fun v => runs 1 0 (c.attestation b) v ∧ (c.attestation b).length = 368 ∧
        (c.attestation b).take 12 = leBytes 2 0x4741 ++ leBytes 2 1 ++ leBytes 4 c.lifeCycle.toNat ++ leBytes 4 c.svn.toNat) ∧
      (n ≠ 0 → bad (.lcchal n) 2 2) ∧
      (n = 0 → Happens s (.lcchal n) fun v => ∃ ch, ch.length = 32 ∧ runs 2 0 ch v ∧ v.ctd.mbox.chal = some ch) ∧
      (n ≠ 168 → bad (.lctrans n req) 3 2) ∧
      (n = 168 →
        let code : BitVec 8 :=
          if ¬ (le b 0 2 = 0x4C43 ∧ le b 4 4 = 0 ∧ le b 0x38 16 = 0) then 2
          else if ¬ (le b 2 1 = c.lifeCycle.toNat ∧ (le b 2 1, le b 3 1) ∈ [(0, 1), (1, 2), (1, 3), (2, 3), (3, 0)]) then 4
          else if ¬ ((b.drop 8).take 16 = fit 16 Config.deviceId ∧ c.mbox.chal = some ((b.drop 0x18).take 32)) then 3
          else if Config.ecdsaVerify (Config.imageKey c.firmware) (Config.sha384 (b.take 0x48)) ((b.drop 0x48).take 96) then 0 else 3
        Happens s (.lctrans n req) fun v => runs 3 code [] v ∧ v.ctd.mbox.chal = none ∧ v.ctd.lifeCycle = c.lifeCycle ∧
          v.ctd.mbox.trans = if code = 0 then some (BitVec.ofNat 2 (le b 3 1)) else c.mbox.trans) ∧
      (n ≠ 1 → bad (.diereset n req) 5 2) ∧ (n = 1 → 8 ≤ le b 0 1 → bad (.diereset n req) 5 2) ∧
      (n = 1 → le b 0 1 < 8 → Happens s (.diereset n req) fun v => runs 5 0 [] v ∧
        ((∀ d, s.dieState (le b 0 1) ≠ .draining d) → v.dieState (le b 0 1) = .draining (s.now + 12000)))) ∧
    (n ≠ 16 → bad (.fwload n req) 4 2) ∧
    (n = 16 →
      let a := le b 0 8
      let z := le b 8 8
      let img := s.host.read a z
      let dma : Prop := a % 64 ≠ 0 ∨ 2 ^ 26 < z ∨ 2 ^ 64 < a + z
      (dma → bad (.fwload n req) 4 5) ∧
      (¬ dma → Happens s (.fwload n req) fun v => v.ctd.fuseSvn = c.fuseSvn ∧
        if accepts c.keyDigest c.fuseSvn img = true then runs 4 0 [] v ∧
          (if c.recovery || c.runB then v.ctd.slotA = img ∧ v.ctd.slotB = c.slotB ∧ v.ctd.firstB = false
           else v.ctd.slotB = img ∧ v.ctd.slotA = c.slotA ∧ v.ctd.firstB = true)
        else runs 4 3 [] v ∧ v.ctd.slotA = c.slotA ∧ v.ctd.slotB = c.slotB ∧ v.ctd.firstB = c.firstB)) ∧
    ∀ cmd : BitVec 8, 5 < cmd.toNat → bad (.mailboxBadcmd cmd n) cmd 1) ∧
  (∀ (s : State) (cmd : BitVec 8) (n : BitVec 16) (req : List (BitVec 8)), s.mailboxOpen = true → s.ctd.mbox.busy = true →
    let ignored (i : Instr) : Prop := Happens s i fun v =>
      v = { s with ctd := { s.ctd with mbox := { s.ctd.mbox with req := v.ctd.mbox.req } } }
    ignored (.attest n req) ∧ ignored (.lcchal n) ∧ ignored (.lctrans n req) ∧ ignored (.fwload n req) ∧ ignored (.diereset n req) ∧
    (5 < cmd.toNat → ignored (.mailboxBadcmd cmd n))) ∧
  ∀ s : State, s.cur = none → s.agenda = [] →
    let m := s.ctd.mbox
    (∀ code rsp, m.busy = true → m.staged = some (code, rsp) → ∃ t, step s = .next t ∧ (t.ctd.mbox = m ∨
      let w := t.ctd.mbox
      w.busy = false ∧ w.done = true ∧ w.code = code ∧ w.rslen = BitVec.ofNat 16 rsp.length ∧ w.rsp.take rsp.length = rsp ∧
      w.rsp.drop rsp.length = m.rsp.drop rsp.length ∧ w.cmd = m.cmd ∧ w.req = m.req ∧ w.chal = m.chal ∧ w.trans = m.trans)) ∧
    ∀ d, m.busy = false → m.trans = some d → ∃ t, step s = .next t ∧ (t.ctd.mbox = m ∨
      (t.ctd.lifeCycle = d ∧ t.tiles = [] ∧ t.hbm = [] ∧ t.lpddr = [] ∧ t.ctd.mbox.chal = none ∧ t.ctd.mbox.trans = none ∧
        t.ctd.jseq = 1 ∧ t.ctd.keyGen = if d = 1 then s.ctd.keyGen + 1 else s.ctd.keyGen))

/-- R24, R25, R30, R32, R37, R64, R106, R126, R142, R334, R346 to R348: the host and other packages write and read memory by the
byte, and the host reads the registers of the physical function. A range outside its memory is no address; a read that meets an
uncorrectable error gives no bytes; and a written byte is read back. What becomes of an access outside a memory, of a unit that is
not ready, or of a bad block is the model's reading (DEDUCED, log entry 70). -/
def Obligations.HostAndPeerAccess : Prop :=
  (∀ (s : State) (sp : Space) (a : Nat),
    let memory (v : State) (x : Nat) : Byte := (v.mem sp).byte x
    let ready : Prop := sp = .host ∨ (s.ctd.ready.pf = true ∧ s.spaceReady sp a = true)
    (∀ bs : List (BitVec 8), spaceSize sp < a + bs.length →
      exec (.hostWrite sp a bs) s = .fault (.noSuchAddress sp a) ∧
      ∀ port, exec (.peerWrite port sp a bs .write) s = .fault (.noSuchAddress sp a)) ∧
    (∀ n, spaceSize sp < a + n → exec (.hostRead (.mem sp) a n) s = .fault (.noSuchAddress sp a)) ∧
    (∀ bs : List (BitVec 8), a + bs.length ≤ spaceSize sp → s.badBlocks (.mem sp a) = [] →
      let written (v : State) : Prop := (∀ x, memory v x = if a ≤ x ∧ x < a + bs.length then bs.getD (x - a) 0 else memory s x) ∧
        ∀ t, (v.tile t).scratch = (s.tile t).scratch
      (ready → Happens s (.hostWrite sp a bs) written) ∧
      (∀ port, port < 4 → s.ctd.ready.dv.getLsbD port = true → s.spaceReady sp a = true →
        Happens s (.peerWrite port sp a bs .write) written)) ∧
    (∀ n, a + n ≤ spaceSize sp → ready →
      (s.badIn (.mem sp a) (List.replicate n (0, false)) = none → Happens s (.hostRead (.mem sp) a n) fun v =>
        s.Still v ∧ v.ctd.reads = s.ctd.reads ++ [some ((List.range n).map fun j => memory s (a + j))]) ∧
      (∀ x, s.badIn (.mem sp a) (List.replicate n (0, false)) = some x → Happens s (.hostRead (.mem sp) a n) fun v =>
        s.Still v ∧ v.ctd.reads = s.ctd.reads ++ [none])) ∧
    ∀ (port : Nat) (op : PeerOp) (bs : List (BitVec 8)), a + 128 ≤ spaceSize sp → port < 4 → s.ctd.ready.dv.getLsbD port = true →
      s.spaceReady sp a = true → a % 128 = 0 →
      let adds (x : Addend) : Prop :=
        (s.badIn (.mem sp a) (List.replicate 128 (0, false)) = none → Happens s (.peerWrite port sp a bs op) fun v =>
          (∀ t, (v.tile t).scratch = (s.tile t).scratch) ∧
          ((List.range 128).map fun j => memory v (a + j)) =
            ((Cell.ofBytes ((List.range 128).map fun j => memory s (a + j))).add x).bytes ∧
          ∀ x, x < a ∨ a + 128 ≤ x → memory v x = memory s x) ∧
        (∀ z, s.badIn (.mem sp a) (List.replicate 128 (0, false)) = some z → Happens s (.peerWrite port sp a bs op) fun v => s.Still v)
      (op = .quire → bs.length = 64 → adds (addendOf .t16e1 true (ofLe bs))) ∧
      ∀ f, op = .elem f → FmtSet.fp.has f = true → bs.length = (f.width + 7) / 8 → adds (addendOf f false (ofLe bs % 2 ^ f.width))) ∧
  ∀ s : State,
    let c := s.ctd
    let r := c.ready
    let reads (win : HostWin) (a n : Nat) (bs : List Byte) : Prop := Happens s (.hostRead win a n) fun v =>
      s.Still v ∧ v.ctd.reads = c.reads ++ [some bs]
    let word (a : Nat) (w : Word) : Prop := reads .bar0 a 8 (leBytes 8 w.toNat)
    (r.pf = true ∨ c.recovery = true →
      (∀ y, y < 32 → word (0x2000 + 8 * y) (SMap.get 0 r.tile y)) ∧
      word 0x2100 (0#27 ++ BitVec.ofBool r.pf ++ r.mgmt ++ r.die ++ r.lpd ++ r.hbm) ∧
      word 0x2108 (0#48 ++ r.dv ++ r.bnd) ∧ word 0x2110 r.gen ∧
      word 0x6000 (0#32 ++ c.mbox.rqlen ++ 0#8 ++ c.mbox.cmd) ∧
      word 0x6008 (0#32 ++ c.mbox.rslen ++ c.mbox.code ++ 0#6 ++ BitVec.ofBool c.mbox.busy ++ BitVec.ofBool c.mbox.done) ∧
      ∀ j n, j + n ≤ 1024 → reads .bar0 (0x6800 + j) n ((List.range n).map fun i => c.mbox.rsp.getD (j + i) 0)) ∧
    (r.pf = true →
      (∀ a b, a < 9 → b < 9 → reads .bar0 (0x2200 + 2 * (9 * a + b)) 2 (leBytes 2 (lat a b))) ∧
      word 0x3000 (BitVec.ofNat 64 c.jseq) ∧
      (∀ q : BitVec 6, let x := s.lq q
        word (0x4000 + 64 * q.toNat) x.base ∧ word (0x4008 + 64 * q.toNat) x.cfg ∧ word (0x4010 + 64 * q.toNat) x.ptr ∧
        word (0x4018 + 64 * q.toNat) x.cq ∧ word (0x4020 + 64 * q.toNat) (x.count.setWidth 64) ∧
        word (0x4028 + 64 * q.toNat) (x.tail.setWidth 64) ∧
        word (0x4030 + 64 * q.toNat) (0#61 ++ BitVec.ofBool x.ovf ++ BitVec.ofBool (s.busyQueue q) ++ BitVec.ofBool x.err) ∧
        word (0x5000 + 64 * q.toNat) x.dbgctl ∧ word (0x5008 + 64 * q.toNat) x.slbase ∧
        reads .bar2 (0x1000 * q.toNat) 4 (leBytes 4 (if r.lpd = 0xFF then x.tail.toNat else 0))) ∧
      (r.lpd = 0xFF → ∀ e, e < 65536 → reads .bar4 (64 * e) 64 ((List.range 64).map fun i => (SMap.get [] c.journal e).getD i 0)))

/-- R25, R107 to R112, R122, R128, R382, R393, Tables 6.2 and 19.4: queue enable, disable and tail writes; the record that the CTD
takes next, be it a launch, kill or migrate record; and the end of a migration. That HEAD counts the records taken (log entry 50), that a
record whose name is still borne by a launch or a migration waits (51), that the checks of a migrate record come before PRIV (53),
that SRC, DST or PTE outside its memory is PTFAULT (100), that a launch is killed though its slot has been used again and a taken kill or
migrate record is no target (101), that 50 microseconds are 30 000 cycles (75), and what becomes of a record or a frame that an
uncorrectable error keeps from being read (119) are the model's readings. -/
def Obligations.QueueEvents : Prop :=
  ∀ (s : State) (q : BitVec 6),
    let x := s.lq q
    (s.ctd.ready.pf = true →
      (∀ w : QueueWords,
        let y : Queue := { base := w.base &&& ~~~0xFFF, cfg := w.cfg &&& 0x0007FFFF00F00FFF, ptr := w.ptr &&& ~~~0x3FF, cq := w.cq &&& ~~~0x3F }
        (x.en = false → y.configOk = true → Happens s (.queueEnable q w) fun v =>
          let z := v.lq q
          z.en = true ∧ z.base = y.base ∧ z.cfg = y.cfg ||| (1#64 <<< 63) ∧ z.ptr = y.ptr ∧ z.cq = y.cq ∧ z.head = 0 ∧ z.out = [] ∧
          z.tail = 0 ∧ z.err = false ∧ z.ovf = false ∧ z.slbase = w.slbase &&& ~~~0xFFF ∧ z.trbase = w.trbase &&& ~~~0xFFF ∧
          z.hrbase = w.hrbase &&& ~~~0xFFF ∧ z.prbase = w.prbase &&& ~~~0xFFF ∧ z.dbgsz = w.dbgsz &&& 0xFFFFFFFFFF ∧
          z.dbgctl = (x.dbgctl &&& 0xFFFFFFFF80000000) ||| (w.dbgctl &&& 0xF80) ∧
          z.bp0 = w.bp0 &&& 0xFF800000003FFFC0 ∧ z.bp1 = w.bp1 &&& 0xFF800000003FFFC0 ∧ ∀ r, r ≠ q → v.lq r = s.lq r) ∧
        (x.en = false → y.configOk = false → Happens s (.queueEnable q w) fun v => (v.lq q).en = false ∧ (v.lq q).err = true) ∧
        (x.en = true → Happens s (.queueEnable q w) fun v => (v.lq q).base = x.base ∧ (v.lq q).cfg = x.cfg ∧ (v.lq q).ptr = x.ptr ∧
          (v.lq q).cq = x.cq ∧ (v.lq q).head = x.head ∧ (v.lq q).tail = x.tail)) ∧
      Happens s (.queueDisable q) (fun v => (v.lq q).en = false ∧ (v.lq q).head = x.head ∧ (v.lq q).tail = x.tail ∧
        v.ctd.launches = s.ctd.launches ∧ ∀ r, r ≠ q → v.lq r = s.lq r) ∧
      ∀ t : BitVec 32,
        (x.en = false ∨ s.ctd.ready.lpd ≠ 0xFF → exec (.tailWrite q t) s = .next s) ∧
        (x.en = true → s.ctd.ready.lpd = 0xFF →
          ((t - x.tail).toNat < 2 ^ 31 ∧ (t - x.count).toNat ≤ x.size → Happens s (.tailWrite q t) fun v => v.lq q = { x with tail := t }) ∧
          (¬ ((t - x.tail).toNat < 2 ^ 31 ∧ (t - x.count).toNat ≤ x.size) →
            Happens s (.tailWrite q t) fun v => v.lq q = { x with ovf := true }))) ∧
    (∀ i, x.en = true →
      let free : Prop := (∀ l ∈ s.ctd.launches, l.id ≠ ⟨q, i⟩) ∧ ∀ m ∈ s.ctd.migrations, m.id ≠ ⟨q, i⟩
      let bytes := s.lpddr.read (x.base.toNat / 4096 * 4096 + 256 * (i.toNat % x.size)) 256
      (¬ free → ∀ bs, s.nextRecord q ≠ some (i, bs)) ∧
      (free → (∀ l ∈ s.ctd.launches, l.id.q = q → l.holds = false) → x.pending.head? = some i → s.nextRecord q = some (i, bytes)) ∧
      (free → (∃ l ∈ s.ctd.launches, l.id.q = q ∧ l.holds = true) →
        x.pending.find? (s.passes q) = some i → s.nextRecord q = some (i, bytes)) ∧
      (s.passes q i = true ↔ (kindOf (s.record q i) = 2 ∨ kindOf (s.record q i) = 3) ∧ s.recordBad q i = none)) ∧
    (∀ i bs p, s.nextRecord q = some (i, bs) → s.marked ⟨q, i⟩ = false → s.recordBad q i = some p →
      Happens s (.launchRecord q) fun v => Ended s v ⟨q, i⟩ stBADREC ∧ v.ctd.launches = s.ctd.launches) ∧
    (∀ i bs, s.nextRecord q = some (i, bs) → s.marked ⟨q, i⟩ = false → s.recordBad q i = none →
      let id : LId := ⟨q, i⟩
      let s' := s.setLq q (x.take i)
      let tag : Word := BitVec.ofNat 64 (le bs 8 8)
      (kindOf bs ≠ 2 → kindOf bs ≠ 3 →
        (∀ st, s'.recordStatus q bs = some st → Happens s (.launchRecord q) fun v =>
          Ended s v id st ∧ v.ctd.launches = s.ctd.launches ∧ (v.lq q).count = (x.take i).count) ∧
        (s'.recordStatus q bs = none → Happens s (.launchRecord q) fun v => (v.lq q) = x.take i ∧ s.Still v ∧
          ∃ l, v.ctd.launches = s.ctd.launches ++ [l] ∧ l.id = id ∧ l.tenant = x.tenant ∧ l.prio = le bs 2 1 ∧ l.phase = .deps ∧
            l.bytes = bs)) ∧
      (kindOf bs = 2 →
        let target : LId := ⟨BitVec.ofNat 6 (le bs 0x28 8 / 2 ^ 32), BitVec.ofNat 32 (le bs 0x28 8)⟩
        (killFieldsOk bs = false → Happens s (.killRecord q) fun v => Ended s v id stBADREC ∧ v.ctd.launches = s.ctd.launches) ∧
        (killFieldsOk bs = true → (s'.lq target.q).tenant ≠ x.tenant →
          Happens s (.killRecord q) fun v => Ended s v id stPRIV ∧ v.ctd.launches = s.ctd.launches) ∧
        (killFieldsOk bs = true → (s'.lq target.q).tenant = x.tenant →
          (∀ l, findLaunch s.ctd.launches target = some l → l.holds = false → l.phase ≠ .parked → l.phase ≠ .ending →
            Happens s (.killRecord q) fun v => LaunchIs s v target { l with
              phase := .ending, status := stKILLED, toQuiesce := l.dies, deadline := s.now + 30000, killers := l.killers ++ [(id, tag)] }) ∧
          (∀ l, findLaunch s.ctd.launches target = some l → (l.holds = true ∨ l.phase = .parked) →
            Happens s (.killRecord q) fun v => Ended s v id stOK ∧ Ended s v target stKILLED ∧ findLaunch v.ctd.launches target = none) ∧
          (findLaunch s.ctd.launches target = none → (s'.lq target.q).pending.contains target.i = false →
            Happens s (.killRecord q) fun v => Ended s v id stNOTARGET ∧ v.ctd.launches = s.ctd.launches) ∧
          (findLaunch s.ctd.launches target = none → (s'.lq target.q).pending.contains target.i = true →
            Happens s (.killRecord q) fun v => v.ctd.pendingKills = s.ctd.pendingKills ++ [(target, id, tag)] ∧ s.Still v))) ∧
      (kindOf bs = 3 →
        let src := le bs 0x10 8
        let dst := le bs 0x18 8
        let locs := le bs 0x28 8
        let lock := s'.locked (locs % 4) src || s'.locked (locs / 4 % 4) dst
        (∀ st, s'.migrateStatus bs x.tenant = some st → Happens s (.migrateRecord q) fun v => Ended s v id st) ∧
        (s'.migrateStatus bs x.tenant = none → lock = true → Happens s (.migrateRecord q) fun v => Ended s v id stLOCKED) ∧
        (s'.migrateStatus bs x.tenant = none → lock = false → Happens s (.migrateRecord q) fun v =>
          (v.pte (locs / 16 % 4) (le bs 0x20 8)).getLsbD 62 = true ∧ ∃ m, v.ctd.migrations = s.ctd.migrations ++ [m] ∧ m.id = id ∧
            m.src = src ∧ m.dst = dst ∧ m.pte = le bs 0x20 8))) ∧
    ∀ i m, s.ctd.migrations.find? (fun m => m.id = ⟨q, i⟩) = some m → m.locs.toNat % 4 ≠ 3 → m.locs.toNat / 4 % 4 ≠ 3 →
      let from_ := m.locs.toNat % 4
      let to_ := m.locs.toNat / 4 % 4
      let at_ := m.locs.toNat / 16 % 4
      ∀ sp, spaceOf from_ = some sp →
      (∀ p, s.badOver (.mem sp m.src) (2 ^ 21) = some p → Happens s (.migrateComplete q i) fun v => Ended s v ⟨q, i⟩ stFAULT ∧
        (v.ctd.migrations = s.ctd.migrations.filter fun x => x.id ≠ ⟨q, i⟩)) ∧
      (s.badOver (.mem sp m.src) (2 ^ 21) = none → s.badAt at_ m.pte 8 = none →
        Happens s (.migrateComplete q i) fun v => Ended s v ⟨q, i⟩ stOK ∧
          (v.ctd.migrations = s.ctd.migrations.filter fun x => x.id ≠ ⟨q, i⟩) ∧
          -- the page-table entry and the completion record in other memories than the frame
          ∀ sp', spaceOf to_ = some sp' → at_ ≠ to_ →
            (to_ ≠ 2 → ∀ j, j < 2 ^ 21 → (v.mem sp').byte (m.dst + j) = (s.mem sp).byte (m.src + j)) ∧
            (at_ < 2 → (v.pte at_ m.pte).getLsbD 62 = false ∧ pteLoc (v.pte at_ m.pte) = to_ ∧
              pteAddr (v.pte at_ m.pte) = m.dst % 2 ^ 53 / 4096 * 4096))

/-- R112 to R114, R118, R120, R121, R123, R125, R133, R136 to R144, R366, R382, R385, R388, R389: the life of a launch, from its
dependences through its walk, admission and placement to its retirement or its quiesce. A walk ends in a status, waits at the entry that
holds it, or leads to admission; WKICK reads every held entry again, those of resuming contexts among them. That T0 is counted from the
last acknowledgement (log entry 74), that times are cycles of 600 MHz (75), the order of the checks of one entry (55 and 94), what a
retired context gives back (93) and what an uncorrectable error does to a walk, a log and a load (119) are the model's readings. -/
def Obligations.LaunchLife : Prop :=
  ∀ (s : State) (q : BitVec 6) (i : BitVec 32) (l : Launch), findLaunch s.ctd.launches ⟨q, i⟩ = some l →
    let id : LId := ⟨q, i⟩
    let gone (v : State) (st : BitVec 16) : Prop := findLaunch v.ctd.launches id = none ∧ Ended s v id st
    let now' (v : State) (P : Launch → Prop) : Prop := ∃ m, findLaunch v.ctd.launches id = some m ∧ P m
    let others (v : State) : Prop := ∀ x, x ≠ id → findLaunch v.ctd.launches x = findLaunch s.ctd.launches x
    -- the walk goes on in a state
    let walks (ev : Instr) : Prop :=
      let waits (v : State) : Prop := others v ∧ now' v fun m => m.phase = .walk ∧ m.holdAt = some (l.holdAt.getD s.now) ∧ m.reread = s.now + 30000
      let admits (v : State) : Prop := others v ∧ now' v fun m => m.phase = .admitting ∧ s.now ≤ m.admitAt ∧ m.holdAt = none
      let (level, loc, node) := s.walkNode l
      let at_ (va : Nat) : Nat := node + 8 * levelIndex level va
      let fails (va : Nat) : Prop := beyond loc node 4096 = true ∨ (s.pte loc (at_ va)).getLsbD 0 = false ∨
        ∃ p, s.badAt loc (at_ va) 8 = some p
      let holds (va : Nat) : Prop := beyond loc node 4096 = false ∧ s.badAt loc (at_ va) 8 = none ∧ (s.pte loc (at_ va)).getLsbD 0 = true ∧
        (s.pte loc (at_ va)).extractLsb' 53 9 = 0 ∧ (s.pte loc (at_ va)).extractLsb' 6 6 = 0 ∧
        ((s.pte loc (at_ va)).getLsbD 63 = true ∨ (s.pte loc (at_ va)).getLsbD 62 = true)
      Happens s ev (fun v => (∃ st, gone v st) ∨ waits v ∨ admits v) ∧
      (l.imgDone = false →
        let need := if l.image.length < 256 then 256 else le l.image 0x18 4
        let va := l.imageVa + l.image.length
        (need ≤ l.image.length → imageOk l.image = false → Happens s ev (gone · stBADIMAGE)) ∧
        (l.image.length < need → va < 2 ^ 48 → (fails va → Happens s ev (gone · stPTFAULT)) ∧ (holds va → Happens s ev waits))) ∧
      (l.imgDone = true →
        ((rentries l.image l.hdr)[l.wentry]? = none → Happens s ev admits) ∧
        ∀ e, (rentries l.image l.hdr)[l.wentry]? = some e →
          let memory : Bool := e.cls ≤ 3 || e.cls = 6
          let va := l.entryVa e + l.wpages.length * 2 ^ 21
          (l.wpages = [] → l.wnode = none →
            (e.cls ≠ 5 → 64 * 2 ^ 30 < e.span → Happens s ev (gone · stEXTENTS)) ∧
            (e.span ≤ 64 * 2 ^ 30 → memory = true → l.entryVa e % 2 ^ 21 ≠ 0 → Happens s ev (gone · stPTFAULT)) ∧
            (e.span ≤ 64 * 2 ^ 30 → (e.cls = 4 ∨ e.cls = 5) → e.xl = true → s.targetOk l e = false → Happens s ev (gone · stNOTARGET)) ∧
            (e.span ≤ 64 * 2 ^ 30 → e.cls = 7 → (e.target / 2 ^ 48 % 4, e.target / 2 ^ 32 % 2 ^ 16) ∉ s.ctd.windows →
              Happens s ev (gone · stPTFAULT))) ∧
          (memory = true → l.wpages.length * 2 ^ 21 < e.span → (l.wpages = [] → l.wnode = none → s.entryStatus l e = none) →
            (fails va → Happens s ev (gone · stPTFAULT)) ∧ (holds va → Happens s ev waits)))
    (s.ctd.ready.pf = true → Happens s .wkick fun v => ∃ s' : State, s.Still s' ∧ s'.ctd = s.ctd ∧
      (∀ t k, s'.ctx t k = if (s.ctx t k).imgOp = true ∧ (s.ctx t k).imgHold.isSome = true then { s.ctx t k with imgAt := s.now } else s.ctx t k) ∧
      v = (s.ctd.launches.filter fun l => l.phase = .walk && l.holdAt.isSome).foldl (fun s l => s.walk l) s') ∧
    (∀ st, l.phase = .deps → s.deps l = .bad st → Happens s (.launchWalk q i) (gone · st)) ∧
    (l.phase = .deps → s.deps l = .met → exec (.launchWalk q i) s = .next (s.walk l) ∧ walks (.launchWalk q i)) ∧
    (l.phase = .walk → l.holdAt.isSome = true → l.reread ≤ s.now →
      exec (.walkReread q i) s = .next (s.walk l) ∧ walks (.walkReread q i)) ∧
    (l.phase = .walk → l.holdAt.isSome = true → 6000000 ≤ l.heldFor s.now → Happens s (.pttime q i) (gone · stPTTIME)) ∧
    (l.phase = .admitting → l.admitAt ≤ s.now → s.firstReady l = true →
      (∀ st, s.admission l = .bad st → Happens s (.launchAdmission q i) (gone · st)) ∧
      (∀ hs, s.admission l = .go hs → Happens s (.launchAdmission q i) fun v => now' v fun m =>
        m.phase = .loading ∧ m.accepted = true ∧ m.furrows.map (·.head) = hs ∧ m.toPlace = m.furrowDies ∧ m.toAck = m.furrowDies ∧
        m.imgLocked = true ∧ (s.badLpddr = [] → v.ctd.jseq = s.ctd.jseq + 1 ∧ m.accSeq = s.ctd.jseq))) ∧
    (∀ die p, l.phase = .loading → die ∈ l.toPlace → s.packetFirst l die = true → s.imageBad l = some p →
      Happens s (.launchPacketPlace die q i) fun v => now' v fun m =>
        m.phase = .ending ∧ m.status = stFAULT ∧ m.fcause = cXMEM.setWidth 16 ∧ m.toQuiesce = l.dies) ∧
    (∀ die, l.phase = .loading → die ∈ l.toPlace → s.packetFirst l die = true → s.imageBad l = none →
      Happens s (.launchPacketPlace die q i) fun v => (now' v fun m => m.toPlace = l.toPlace.filter (· ≠ die)) ∧
        ∀ f m t, l.furrows = [f] → dieOf f.head = die → f.mem = [m] → t = f.head →
          let c := v.ctx t m.k
          c.life = .placed ∧ c.launch = some id ∧ c.pos = 0 ∧ c.wbase = m.base ∧ c.pc = BitVec.ofNat 16 (l.hdr.entry / 64) ∧ c.sup = false ∧
          c.key = BitVec.ofNat 64 (le l.bytes 0x18 8) ∧ c.step = BitVec.ofNat 64 (le l.bytes 0x20 4) ∧
          (∀ n, n < 8 → c.toRegs.sreg (BitVec.ofNat 5 (24 + n)) = BitVec.ofNat 64 (le l.bytes (0x90 + 8 * n) 8)) ∧
          (∀ n, n < l.hdr.counters → c.counter n = m.phys[n]?) ∧ ∀ p ∈ m.phys, SMap.get 0 (v.tile t).cnt p = 0) ∧
    (∀ die, l.phase = .loading → die ∉ l.toPlace → die ∈ l.toAck →
      (l.toAck.filter (· ≠ die) ≠ [] → Happens s (.loadAck die q i) fun v =>
        LaunchIs s v id { l with toAck := l.toAck.filter (· ≠ die) }) ∧
      (l.toAck.filter (· ≠ die) = [] → Happens s (.loadAck die q i) fun v => now' v fun m => m.imgLocked = false ∧
        (l.side = none → m.phase = .running ∧ m.t0 = some (s.now + l.lead)) ∧
        (∀ slot, l.side = some slot → (l.tenant, slot) ∈ s.ctd.latches → m.phase = .running ∧ (l.tenant, slot) ∉ v.ctd.latches) ∧
        (∀ slot, l.side = some slot → (l.tenant, slot) ∉ s.ctd.latches → m.phase = .parked))) ∧
    (∀ t0, l.t0 = some t0 → l.phase = .running → l.started = false → t0 ≤ s.now → Happens s (.contextStart q i) fun v =>
      (now' v fun m => m.started = true) ∧
      ∀ t k, (s.ctx t k).launch = some id → (s.ctx t k).life = .placed → (v.ctx t k).life = .running ∧ (v.ctx t k).t0 = t0) ∧
    (∀ tenant slot, (tenant, slot) ∈ s.ctd.sideMsgs →
      (s.parked tenant slot = some l → Happens s (.sidingRelease tenant slot) fun v => now' v fun m =>
        m.phase = .running ∧ m.t0 = some (s.now + l.lead)) ∧
      (s.parked tenant slot = none → Happens s (.sidingRelease tenant slot) fun v =>
        (tenant, slot) ∈ v.ctd.latches ∧ v.ctd.launches = s.ctd.launches)) ∧
    (∀ t k, (s.ctx t k).launch = some id → (s.ctx t k).life = .retiring → (s.ctx t k).drained = true → (s.ctx t k).saved = false →
      s.exchanging (s.ctx t k) = false → Happens s (.contextRetire t k) fun v =>
      (v.ctx t k).life = .retired ∧ (v.ctx t k).slog = [] ∧ (v.ctx t k).plane = [] ∧ now' v fun m =>
        m.retired = l.retired ++ [((s.ctx t k).pos, fieldFy (s.ctx t k).field)] ∧ m.lastRetire = s.now ∧
        (∀ x ∈ m.lockSets, x.1 ≠ ((s.ctx t k).pos, fieldFy (s.ctx t k).field)) ∧ m.dcrsum = l.dcrsum ||| (s.ctx t k).codes) ∧
    (∀ die, l.phase = .running → die ∉ l.reported → die ∈ l.furrowDies → l.retiredOn die = true →
      Happens s (.retirementReport die q i) fun v => others v ∧
        (now' v fun m => m = { l with reported := l.reported ++ [die], dcrsum := m.dcrsum } ∧ m.dcrsum ||| l.dcrsum = m.dcrsum ∧
          ∀ t k, dieOf t = die → (s.ctx t k).launch = some id → (s.ctx t k).life ≠ .free → m.dcrsum ||| (s.ctx t k).codes = m.dcrsum) ∧
        ∀ t k, dieOf t = die → (s.ctx t k).launch = some id → (v.ctx t k).life = .free) ∧
    (l.phase = .running → l.started = true → (∀ d ∈ l.furrowDies, d ∈ l.reported) → s.owesRelease id = false →
      Happens s (.launchRetire q i) fun v => gone v stOK ∧ ∀ t ∈ l.faulty, .tile t ∈ v.ctd.retired) ∧
    (∀ t k, l.phase = .ending → (s.ctx t k).launch = some id → (s.ctx t k).alive = true →
      Happens s (.killArrival t q i) fun v => s.Still v ∧ (v.ctx t k).life = .stopped ∧ (v.ctx t k).imgOp = false ∧ ∀ r, r < 4 →
        ((v.ctx t k).queue r).ents = [] ∧ ((v.ctx t k).queue r).run = none) ∧
    ∀ die, l.phase = .ending → die ∈ l.toQuiesce →
      (s.quietOn id die = true → s.owesRelease id = false →
        (l.toQuiesce.filter (· ≠ die) = [] → Happens s (.quiesceAck die q i) (gone · l.status)) ∧
        (l.toQuiesce.filter (· ≠ die) ≠ [] → Happens s (.quiesceAck die q i) fun v =>
          LaunchIs s v id { l with toQuiesce := l.toQuiesce.filter (· ≠ die) })) ∧
      (s.dieState die = .up → l.deadline ≤ s.now → Happens s (.quiesceTimeout die q i) fun v =>
        v.dieState die = .draining (s.now + 12000) ∧ now' v fun m => m.status = stFAULT ∧ m.fcause = cDIER ∧ m.ftile = northWest die)

namespace Sys2Proof.Claims

/-- The byte at a place. -/
def byteAt (v : State) (p : Place) : Byte := (v.readPlace p 1).getD 0 0

/-- No block of any memory has an uncorrectable error, and no store has written in the present cycle (R203, R348). -/
structure Clear (s : State) : Prop where
  bad : ∀ p, s.badBlocks p = []
  fresh : ∀ t, (s.tile t).fresh = []

/-- The places are distinct. -/
def Apart (ps : List (Option Place)) : Prop := ∀ (i j : Nat) (p : Place), ps[i]? = some (some p) → ps[j]? = some (some p) → i = j

/-- The bytes stand at the places, in order, and every other byte is as it was. -/
structure Wrote (s v : State) (ps : List (Option Place)) (bs : List Byte) : Prop where
  bytes : ∀ (j : Nat) (p : Place), ps[j]? = some (some p) → byteAt v p = bs.getD j 0
  others : ∀ p : Place, some p ∉ ps → byteAt v p = byteAt s p

/-- `n` bytes from a place upward. -/
def bytesFrom (p : Place) (n : Nat) : List (Option Place) := (List.range n).map fun j => some (p.plus j)

/-- `n` bytes of a side, from an offset upward. -/
def alongside (x : XView) (d : Side) (off n : Nat) : List (Option Place) := (List.range n).map fun j => x.place d (off + j)

/-- A source byte as a command reads it: as its block stood when it was first read, or as it stands (R337). -/
def sourceByte (s : State) (r : Started) : Source → Byte
  | .pad b => b
  | .byte p => match r.cap.find? fun x => x.1 = p.block with | some x => x.2.getD (p.addr % 64) 0 | none => byteAt s p

/-- What an XATOM makes of the word `x` with its operands, none for a failed comparison (R244). -/
def atomicResult (op : Nat) {w : Nat} (x a b : BitVec w) : Option (BitVec w) :=
  match op with
  | 0 => some (x + a)
  | 1 => some (if x.sle a then x else a)
  | 2 => some (if x.sle a then a else x)
  | 3 => some (x &&& a)
  | 4 => some (x ||| a)
  | 5 => some (x ^^^ a)
  | 6 => some a
  | _ => if x = b then some a else none

end Sys2Proof.Claims

/-- R64, R206, R207, R217, R218, R222, R228, R229, R231, R239, R244, R246, R248 to R251, R255, R357, R389: a transfer command starts,
its beats land, and it completes, each with the bytes that it writes; adds, arrival releases and barrier releases; and the
decompressor. That an elastic barrier may be released at once (log entry 73), that a retired context drops an add without a fault (106),
that reach and blocks are those of the start (110), the place of an XATOM in its cycle (111), what a beat counts against the bytes
of its cycle (116), which launch counts as retired (120), that a release precedes the acknowledgement of its bytes (122) and that an
XATOM records no SRCW on itself (123) are the model's readings. -/
def Obligations.EngineEvents : Prop :=
  (∀ (c : Cell) (x : Addend), let d := c.add x
    d.adds = (if c.adds = BitVec.allOnes 32 then c.adds else c.adds + 1) ∧ d.lim = (c.lim || d.adds = BitVec.allOnes 32) ∧
    (∀ n, x = .units n → d.a = c.a + BitVec.ofInt 544 n) ∧ ((∀ n, x ≠ .units n) → d.a = c.a) ∧
    d.nars = (c.nars || x = .nar) ∧ d.nans = (c.nans || x = .nan) ∧ d.infs = (c.infs || x = .inf) ∧
    d.ovf = (decide (quireLimit < d.a.toInt) || decide (d.a.toInt < -quireLimit))) ∧
  ∀ (s : State) (t : Nat) (k xq : BitVec 2),
    let c := s.ctx t k
    let x := c.queue xq.toNat
    let runs (v : State) : Option Started := ((v.ctx t k).queue xq.toNat).run
    let ended (v : State) : Prop := runs v = none ∧ ((v.ctx t k).queue xq.toNat).done = x.done + 1
    (∀ e i, s.startable t k xq.toNat = some (e, i) →
      let s1 := s.setCtx t k (c.setQueue xq.toNat { x with ents := x.ents.tail })
      let xv := c.xview t k c.ttab
      let goes (P : State → Prop) : Prop := Happens s (.xeCommandStart t k xq) P
      let begun (v : State) : Prop := ((v.ctx t k).queue xq.toNat).ents = x.ents.tail ∧ ((v.ctx t k).queue xq.toNat).done = x.done ∧
        ∃ r, runs v = some r ∧ r.e.word = e.word ∧ r.e.vals = e.vals ∧ r.e.recs = e.recs
      (∀ cause, s1.startErr xv i e = some cause → goes fun v =>
        ((v.ctx t k).queue xq.toNat).qs = 1 ∧ ((v.ctx t k).queue xq.toNat).ecode = cause ∧
        ((v.ctx t k).queue xq.toNat).ents = x.ents.tail ∧ ((v.ctx t k).queue xq.toNat).done = x.done) ∧
      (s1.startErr xv i e = none →
        (∀ p r m, i = .xjoin p r m → goes ended) ∧
        (∀ o, i = .xrec o → c.timed = false → goes fun v => ended v ∧ (v.ctx t k).ttab = c.installed c.ttab e) ∧
        (∀ o, (i = .xcopy o ∨ i = .xfill o ∨ i = .xqadd o ∨ i = .xqrd o ∨ i = .xqclr o ∨ i = .xcsr o) → goes fun v => s.Still v ∧ begun v) ∧
        (∀ o, i = .xsig o → goes fun v => s.Still v ∧ begun v) ∧ (∀ o, i = .xword o → goes fun v => s.Still v ∧ begun v) ∧
        -- XCOPY moves each byte of each element, and nothing else
        (∀ o, i = .xcopy o → goes fun v => ∃ r, runs v = some r ∧
          let tn := tensorOf e.recs e.vals o.en
          let pairs := (tn.els none).flatMap fun y => xv.elBytes tn (xv.side tn.farh) (xv.near i tn) y
          (∀ p bs j y, .move p bs ∈ r.beats → bs[j]? = some (some y) → (some (p.plus j), y) ∈ pairs) ∧
          ∀ d y, (some d, y) ∈ pairs → ∃ bs, .move d.block bs ∈ r.beats ∧ (bs.getD (d.addr % 64) none).isSome = true) ∧
        (∀ o, i = .xatom o → Clear s →
          let a := atomOf e.recs e.vals o.en
          let n := if o.cmd.getLsbD 3 then 8 else 4
          let target := alongside xv (xv.side a.tgth) a.toff n
          let result := alongside xv .win a.roff 8
          let old : BitVec (8 * n) := BitVec.ofNat _ (ofLe (target.map fun p => match p with | some p => byteAt s p | none => 0))
          Apart (target ++ result) → goes fun v => begun v ∧
            match atomicResult (o.cmd.toNat % 8) old (BitVec.ofNat _ a.opa.toNat) (BitVec.ofNat _ a.opb.toNat) with
            | some z => Wrote s v (target ++ result) (leBytes n z.toNat ++ leBytes 8 old.toNat)
            | none => Wrote s v result (leBytes 8 old.toNat)) ∧
        (∀ o p l id, i = .xarm o →
          let a := armOf e.recs
          xv.place (xv.side a.rgnh) a.spoff = some p → p.counters = some l → c.launch = some id → (∀ n, l = .hbm n → a.idx < 64) →
          let y := s.arrival l a.idx
          (y.st = 0 ∨ y.own = id → goes fun v => begun v ∧ let z := v.arrival l a.idx
            z.st = 1 ∧ z.own = id ∧ z.gen = y.gen + 1 ∧ z.count = 0 ∧ z.base = p.addr ∧ z.len = a.splen ∧ z.total = a.total ∧
            z.rel = e.rel ∧ z.due = false) ∧
          (y.st ≠ 0 → y.own ≠ id → goes fun v => s.Still v ∧ runs v = none ∧ ((v.ctx t k).queue xq.toNat).qs = 1 ∧
            ((v.ctx t k).queue xq.toNat).ecode = cXARMD)) ∧
        exec (.xeCommandStart t k xq) s = .next (s1.started t k xq.toNat e i))) ∧
    -- a timed entry whose cycle has not come, or that follows one which waits, waits too; then its turn comes
    (∀ r y ys o, x.run = some r → r.staged = y :: ys → decSlot 6 r.e.word = .op (.xfill o) → c.life ≠ .stopped → c.life ≠ .free →
      c.mayFill s.now (FS.ofBit (o.cmd.getLsbD 0)) r.e r.napp = true → Happens s (.xeBeatLand t k xq r.beats.length) fun v =>
        s.Still v ∧ runs v = some { r with staged := ys, napp := r.napp + 1 } ∧
        (c.life ≠ .retiring → c.timed = true → SMap.get 0 ((v.ctx t k).toCore.fifo (FS.ofBit (o.cmd.getLsbD 0))).ent
          (c.toCore.fifo (FS.ofBit (o.cmd.getLsbD 0))).wr.toNat = y)) ∧
    (∀ r n, x.run = some r → r.mayLand n = true → s.reachable r = true → (s.tile t).mayMove (r.sizeAt n) = true →
      c.life ≠ .stopped → c.life ≠ .free →
      (∀ f bs, r.beats[n]? = some (.entry f bs) → r.e.due.isSome = true ∨ c.mayFill s.now f r.e r.napp = true) →
      let moved := s.countMoved t (r.sizeAt n)
      let turn := if c.exclusive then moved else moved.setTile t { moved.tile t with rr := 4 * k.toNat + xq.toNat + 1 }
      exec (.xeBeatLand t k xq n) s = .next (turn.landBeat t k xq.toNat r n) ∧
      (Clear s → ∀ i, decSlot 6 r.e.word = .op i →
        let lands (P : State → Prop) : Prop := Happens s (.xeBeatLand t k xq n) fun v =>
          (∃ r', runs v = some r' ∧ r'.beats = r.beats.eraseIdx n) ∧ P v
        (∀ p bs, r.beats[n]? = some (.move p bs) → lands fun v =>
          Wrote s v ((List.range bs.length).map fun j => if (bs.getD j none).isSome then some (p.plus j) else none)
            (bs.map fun y => match y with | some y => sourceByte s r y | none => 0)) ∧
        (∀ cell near nib o, r.beats[n]? = some (.addend cell near nib) → i = .xqadd o → lands fun v =>
          let z := ofLe (near.map fun p => sourceByte s r (.byte p))
          let z := match nib with | some true => z / 16 | some false => z % 16 | none => z
          Wrote s v (bytesFrom cell 128) ((Cell.ofBytes ((List.range 128).map fun j => byteAt s (cell.plus j))).add
            (addendOf o.fmt (o.cmd.getLsbD 0) z)).bytes) ∧
        (∀ cell, r.beats[n]? = some (.clear cell) → lands fun v => Wrote s v (bytesFrom cell 128) (List.replicate 128 0)) ∧
        (∀ f bs, r.beats[n]? = some (.entry f bs) → lands fun v => s.Still v ∧
          let y := vecOf (bs.map (sourceByte s r))
          let fifo := c.toCore.fifo f
          let taken : Fifo := { fifo with wr := fifo.wr + 1, tkn := fifo.tkn ||| (1#16 <<< fifo.wr.toNat) }
          let at_ : Prop := r.staged = [] ∧ c.mayFill s.now f r.e r.napp = true
          (r.e.due.isSome = true → ¬at_ → (v.ctx t k).toCore.fifo f = fifo ∧ ∃ r', runs v = some r' ∧ r'.staged = r.staged ++ [y]) ∧
          ((r.e.due.isSome = true → at_) → (c.life = .retiring → (v.ctx t k).toCore.fifo f = fifo) ∧
          (c.life ≠ .retiring → c.timed = true → (v.ctx t k).toCore.fifo f = taken.fill fifo.wr.toNat y) ∧
          (c.life ≠ .retiring → c.timed = false → (v.ctx t k).toCore.fifo f = taken ∧
            ∃ l : Landing, (v.ctx t k).inflight = c.inflight ++ [l] ∧ l.left = 1 ∧ l.w = .fifoFill f fifo.wr.toNat y))))) ∧
    (∀ r i, x.run = some r → s.mayComplete t k xq.toNat = true → decSlot 6 r.e.word = .op i →
      let xv := c.xview t k r.regs
      let a := actionOf i r.e
      let goes (P : State → Prop) : Prop := Happens s (.xeCommandComplete t k xq) P
      let plain : Prop := (∀ o, i ≠ .xsig o) ∧ ∀ o, i ≠ .xword o
      let adds (phys : Nat) (amt : Word) (v : State) : Prop :=
        SMap.get 0 (v.tile t).cnt phys = SMap.get 0 (s.tile t).cnt phys + amt
      -- bytes that bring an arrival counter to its total hold the completion back until that counter has released
      let done (v : State) : Prop := (v.dueSince s = [] → ended v) ∧ (v.dueSince s ≠ [] →
        ∃ r', runs v = some r' ∧ r'.wrote = true ∧ (∀ y ∈ v.dueSince s, y ∈ r'.owed) ∧ ((v.ctx t k).queue xq.toNat).done = x.done)
      (r.wrote = true → goes fun v => ended v ∧ s.Still v) ∧
      (∀ o phys, r.wrote = false → i = .xsig o → o.l = true → c.counter o.ctr.toNat = some phys → goes fun v =>
        ended v ∧ adds phys (r.e.vals.getD 0 0 + o.imm.setWidth 64) v) ∧
      (∀ o, r.wrote = false → i = .xword o → Clear s →
        let off := ((r.e.vals.getD 1 0).toInt + 8 * (o.imm.toNat : Int)).toNat
        let ps := alongside xv (if o.l then .win else .rgn o.h.toNat (xv.region o.h.toNat)) off 8
        Apart ps → goes fun v => done v ∧ Wrote s v ps (leBytes 8 (r.e.vals.getD 0 0).toNat)) ∧
      (plain → a.cact = 0 → goes fun v => ended v ∧ s.Still v) ∧
      (∀ phys, r.wrote = false → plain → a.cact = 1 → a.chdl.getLsbD 7 = true → c.counter a.cctr = some phys → goes fun v =>
        ended v ∧ adds phys (BitVec.ofNat 64 a.cval) v) ∧
      (r.wrote = false → plain → a.cact = 2 → Clear s → let ps := alongside xv (xv.side a.chdl) a.cwoff 8
        Apart ps → goes fun v => done v ∧ Wrote s v ps (leBytes 8 a.cval)) ∧
      exec (.xeCommandComplete t k xq) s = .next (s.complete t k xq.toNat r i)) ∧
    (∀ (q : BitVec 6) (i : BitVec 32) (ctr : BitVec 6) (amt : BitVec 64) (m : AddMsg),
      s.ctd.adds.find? (fun m => m.id = ⟨q, i⟩ && m.t = t && m.k = k && m.ctr = ctr.toNat && m.amt = amt) = some m →
      Happens s (.remoteAddArrival q i t k ctr amt) fun v => v.ctd.adds = s.ctd.adds.erase m ∧
        (∀ t2 k2 phys, s.locate ⟨q, i⟩ m.gen t = .at t2 k2 → (s.ctx t2 k2).counter ctr.toNat = some phys →
          SMap.get 0 (v.tile t2).cnt phys = SMap.get 0 (s.tile t2).cnt phys + amt) ∧
        (∀ fx fy, s.locate ⟨q, i⟩ m.gen t = .saved fx fy → s.Still v ∧
          v.ctd.heldAdds = s.ctd.heldAdds ++ [(⟨q, i⟩, fx, fy, ctr.toNat, amt)]) ∧
        (s.locate ⟨q, i⟩ m.gen t = .retired → s.Still v)) ∧
    (∀ (q : BitVec 6) (i : BitVec 32) (b : BitVec 3) (l : Launch), findLaunch s.ctd.launches ⟨q, i⟩ = some l →
      l.complete b.toNat = true → Happens s (.barrierRelease q i b) fun v => s.Still v ∧
        ∃ at_, LaunchIs s v ⟨q, i⟩ { l with
          barWay := l.barWay ++ (l.barArr.filter fun x => x.1 = b.toNat).map fun x => (b.toNat, at_, x.2)
          barArr := l.barArr.filter fun x => x.1 ≠ b.toNat
          barCount := SMap.set 0 l.barCount b.toNat (SMap.get 0 l.barCount b.toNat + 1) } ∧
          (l.hdr.timed = true → at_ = SMap.get 0 l.barAt b.toNat + l.barrierLatency) ∧ (l.hdr.timed = false → s.now < at_)) ∧
    (∀ (loc : ArrLoc) (idx : Nat), let a := s.arrival loc idx
      a.due = true → a.st = 1 → (∀ l, findLaunch s.ctd.launches a.own = some l → l.force = none) →
      Happens s (.arrivalRelease loc idx) fun v =>
        (v.arrival loc idx).st = 2 ∧ (v.arrival loc idx).due = false ∧ (v.arrival loc idx).count = a.count ∧
        (a.side = true → (a.ownt, a.slot) ∈ v.ctd.sideMsgs) ∧
        ∀ t2 phys, SMap.get 0 (v.tile t2).cnt phys = SMap.get 0 (s.tile t2).cnt phys +
          ((a.rel.filter fun y => match s.locateAt y.id y.gen y.fx y.fy with
            | .at t3 k3 => decide (t3 = t2 ∧ (s.ctx t3 k3).counter y.ctr = some phys)
            | _ => false).map fun y => BitVec.ofNat 64 y.amt).sum) ∧
    (∀ d r o, (s.tile t).decomp = some d → ((s.ctx t d.k).queue d.xq).run = some r → decSlot 6 r.e.word = .op (.xdec o) →
      (d.busy = true → d.left = 0 → (s.ctx t d.k).life ≠ .stopped → Happens s (.decompBlockDone t) fun v => s.Still v ∧
        ((∃ e raw, (v.tile t).decomp = some e ∧ e.busy = false ∧ e.staged = raw ∧
          ∃ r', ((v.ctx t d.k).queue d.xq).run = some r' ∧ r'.dblk = r.dblk + 1 ∧ r'.dout = r.dout) ∨
        (((v.ctx t d.k).queue d.xq).run = none ∧ (v.tile t).decomp = none))) ∧
      (d.busy = false → (s.ctx t d.k).life ≠ .stopped →
        let n := s.rawBeat t d r o
        let moved := s.countMoved t n
        let turn := if (s.ctx t d.k).exclusive then moved else moved.setTile t { moved.tile t with rr := 4 * d.k.toNat + d.xq + 1 }
        n ≠ 0 → (s.tile t).mayMove n = true →
        (∀ v, turn.releaseRaw t d r o n = some v → exec (.decompRelease t) s = .next v) ∧
        (o.cmd.getLsbD 1 = false → Clear s → Happens s (.decompRelease t) fun v =>
          Wrote s v (alongside ((s.ctx t d.k).xview t d.k r.regs) .win ((tensorOf r.e.recs r.e.vals o.en).noff + r.dout) n)
            (d.staged.take n)) ∧
        (o.cmd.getLsbD 1 = true → (s.ctx t d.k).timed = true → (s.ctx t d.k).life ≠ .retiring →
          let f := FS.ofBit (o.cmd.getLsbD 0)
          (s.ctx t d.k).mayFill s.now f r.e r.napp = true → d.fed ≠ some s.now → Happens s (.decompRelease t) fun v =>
            SMap.get 0 ((v.ctx t d.k).toCore.fifo f).ent ((s.ctx t d.k).toCore.fifo f).wr.toNat = vecOf (d.staged.take 256)))) ∧
    ∀ v, (s.tile t).decomp = none → s.regrant t = some v → exec (.decompRelease t) s = .next v
end

