-- ==== Sys2Proof/Laws/Decode.lean ====
section
/-! SUPPORT. Fields of concatenated words, and the codes that decoding reads back. -/

namespace Sys2Proof

/-! ### Fields of a concatenation -/

theorem ext_skip {a b : Nat} (x : BitVec a) (y : BitVec b) (lo n : Nat) (h : b ≤ lo) :
    (x ++ y).extractLsb' lo n = x.extractLsb' (lo - b) n := by
  apply BitVec.eq_of_getLsbD_eq
  intro i hi
  simp only [BitVec.getLsbD_extractLsb', BitVec.getLsbD_append]
  have h1 : ¬ lo + i < b := by omega
  have h2 : lo + i - b = lo - b + i := by omega
  simp [h1, h2]

theorem ext_low {a b : Nat} (x : BitVec a) (y : BitVec b) (lo n : Nat) (h : lo + n ≤ b) :
    (x ++ y).extractLsb' lo n = y.extractLsb' lo n := by
  apply BitVec.eq_of_getLsbD_eq
  intro i hi
  simp only [BitVec.getLsbD_extractLsb', BitVec.getLsbD_append]
  have h1 : lo + i < b := by omega
  simp [h1]

theorem ext_all {n : Nat} (x : BitVec n) : x.extractLsb' 0 n = x := by
  apply BitVec.eq_of_getLsbD_eq
  intro i hi
  simp [hi]

/-- A field that starts in the low part and ends in the high one. -/
theorem ext_split {a b : Nat} (x : BitVec a) (y : BitVec b) (n : Nat) :
    (x ++ y).extractLsb' 0 (n + b) = x.extractLsb' 0 n ++ y := by
  apply BitVec.eq_of_getLsbD_eq
  intro i hi
  simp only [BitVec.getLsbD_extractLsb', BitVec.getLsbD_append, Nat.zero_add, hi, decide_true, Bool.true_and]
  split
  · rfl
  · have : i - b < n := by omega
    simp [this]

theorem bit_skip {a b : Nat} (x : BitVec a) (y : BitVec b) (i : Nat) (h : b ≤ i) : (x ++ y).getLsbD i = x.getLsbD (i - b) := by
  simp only [BitVec.getLsbD_append]
  have : ¬ i < b := by omega
  simp [this]

theorem bit_low {a b : Nat} (x : BitVec a) (y : BitVec b) (i : Nat) (h : i < b) : (x ++ y).getLsbD i = y.getLsbD i := by
  simp [BitVec.getLsbD_append, h]

theorem bit_ofBool (b : Bool) : (BitVec.ofBool b).getLsbD 0 = b := by cases b <;> rfl

theorem ext_zero (a lo n : Nat) : (0#a).extractLsb' lo n = 0#n := by
  apply BitVec.eq_of_getLsbD_eq
  intro i hi
  simp

/-! ### Codes -/

@[simp] theorem Fmt.ofCode_code (f : Fmt) : Fmt.ofCode f.code = f := by cases f <;> rfl
@[simp] theorem RM.ofCode_code (r : RM) : RM.ofCode r.code = some r := by cases r <;> rfl
@[simp] theorem IW.ofCode_code (r : IW) : IW.ofCode r.code = some r := by cases r <;> rfl
@[simp] theorem Cond.ofCode_code (c : Cond) : Cond.ofCode c.code = some c := by cases c <;> rfl
@[simp] theorem WCond.ofCode_code (c : WCond) : WCond.ofCode c.code = some c := by cases c <;> rfl
@[simp] theorem Scope.ofCode_code (c : Scope) : Scope.ofCode c.code = some c := by cases c <;> rfl
@[simp] theorem FS.ofBit_toBit (f : FS) : FS.ofBit f.toBit = f := by cases f <;> rfl

theorem decVOp_encVOp (o : VOp) : decVOp (encVOp o) = some o := by
  cases o with
  | main v i =>
    have h1 : (0#2 ++ v ++ i).extractLsb' 8 2 = 0#2 := by
      rw [ext_skip _ _ _ _ (by decide), ext_skip _ _ _ _ (by decide)]; exact ext_all _
    have h2 : (0#2 ++ v ++ i).extractLsb' 6 2 = v := by
      rw [ext_skip _ _ _ _ (by decide), ext_low _ _ _ _ (by decide)]; exact ext_all _
    have h3 : (0#2 ++ v ++ i).extractLsb' 0 6 = i := by rw [ext_low _ _ _ _ (by decide)]; exact ext_all _
    simp only [decVOp, encVOp, h1, h2, h3]
    rfl
  | opf n => revert n; decide
  | latch n => revert n; decide
  | zero => rfl
  | ones => rfl
  | bc r => revert r; decide

/-- A field of the kind its row names is read back. -/
theorem decField_encField {k : Kind} {f : VField} (h : k.ok f = true) : decField k (encField f) = some f := by
  cases k <;> cases f <;> simp only [Kind.ok, Bool.false_eq_true] at h <;> first
    | rfl
    | (clear h; rename_i r; revert r; decide)
    | (simp only [decField, encField, decVOp_encVOp, Option.map_some])

theorem decLsData_encLsData {k : LsKind} {d : LsData} (h : k.ok d = true) : decLsData k (encLsData d) = some d := by
  cases k <;> cases d <;> simp only [LsKind.ok, Bool.false_eq_true] at h <;> first
    | rfl
    | (clear h; rename_i r; revert r; decide)
    | (rename_i v i
       have h1 : (v ++ i).extractLsb' 8 2 = v := by rw [ext_skip _ _ _ _ (by decide)]; exact ext_all _
       have h2 : (v ++ i).extractLsb' 0 8 = i := by rw [ext_low _ _ _ _ (by decide)]; exact ext_all _
       simp only [decLsData, encLsData, h1, h2])

/-- The predicate is read back from bits 55 to 52. -/
theorem decPred_of {w : BitVec 64} {p : Pred} (h : w.extractLsb' 52 4 = encPred p) : decPred w = p := by
  obtain ⟨pn, pr⟩ := p
  have h1 : bit w 55 = pn := by
    have := congrArg (fun x => x.getLsbD 3) h
    simp only [BitVec.getLsbD_extractLsb', encPred] at this
    rw [bit_skip _ _ _ (by decide)] at this
    simpa [bit_ofBool] using this
  have h2 : fld w 52 3 = pr := by
    have := congrArg (fun x => x.extractLsb' 0 3) h
    simp only [encPred] at this
    rw [ext_low _ _ _ _ (by decide), ext_all] at this
    rw [← this]
    apply BitVec.eq_of_getLsbD_eq
    intro i hi
    simp only [BitVec.getLsbD_extractLsb']
    have : i < 4 := by omega
    simp [this]
  simp only [decPred, h1, h2]

end Sys2Proof
end

