-- ==== Sys2Proof/Laws/Map.lean ====
section
/-! SUPPORT. The laws of sparse maps and memories: read after write, and that every operation keeps the canonical form. -/

namespace Sys2Proof.Machine

variable {α : Type}

/-! ### Reading -/

@[simp] theorem SMap.get_nil (d : α) (k : Nat) : SMap.get d [] k = d := rfl

theorem SMap.get_put (d : α) (m : SMap α) (k j : Nat) (v : α) :
    SMap.get d (SMap.put m k v) j = if j = k then v else SMap.get d m j := by
  induction m with
  | nil => simp [SMap.put, SMap.get]
  | cons e m ih =>
    obtain ⟨a, b⟩ := e
    simp only [SMap.put]
    split
    · simp [SMap.get]
    · split
      · subst k; simp only [SMap.get]; split <;> rfl
      · simp only [SMap.get, ih]
        split
        · subst j; rw [if_neg (by omega)]
        · rfl

@[simp] theorem SMap.get_put_same (d : α) (m : SMap α) (k : Nat) (v : α) : SMap.get d (SMap.put m k v) k = v := by
  simp [SMap.get_put]

theorem SMap.get_put_other (d : α) (m : SMap α) {k j : Nat} (h : j ≠ k) (v : α) :
    SMap.get d (SMap.put m k v) j = SMap.get d m j := by
  simp [SMap.get_put, h]

/-- Reading a map some entries of which were filtered out by their keys. -/
theorem SMap.get_filter_key (d : α) (p : Nat → Bool) (m : SMap α) (j : Nat) :
    SMap.get d (m.filter fun e => p e.1) j = if p j then SMap.get d m j else d := by
  induction m with
  | nil => simp [SMap.get]
  | cons e m ih =>
    obtain ⟨a, b⟩ := e
    by_cases ha : p a
    · simp only [List.filter, ha, SMap.get, ih]
      by_cases hj : j = a
      · subst hj; simp [ha]
      · simp [hj]
    · simp only [List.filter, ha, SMap.get, ih]
      by_cases hj : j = a
      · subst hj; simp [ha]
      · simp [hj]

theorem SMap.get_erase (d : α) (m : SMap α) (k j : Nat) :
    SMap.get d (m.erase k) j = if j = k then d else SMap.get d m j := by
  have := SMap.get_filter_key d (fun a => decide (a ≠ k)) m j
  simp only [SMap.erase]
  rw [this]
  by_cases h : j = k <;> simp [h]

/-- A read after a write. -/
theorem SMap.get_set [DecidableEq α] (d : α) (m : SMap α) (k j : Nat) (v : α) :
    SMap.get d (SMap.set d m k v) j = if j = k then v else SMap.get d m j := by
  unfold SMap.set
  split
  · subst v; exact SMap.get_erase d m k j
  · exact SMap.get_put d m k j v

@[simp] theorem SMap.get_set_same [DecidableEq α] (d : α) (m : SMap α) (k : Nat) (v : α) :
    SMap.get d (SMap.set d m k v) k = v := by simp [SMap.get_set]

theorem SMap.get_set_other [DecidableEq α] (d : α) (m : SMap α) {k j : Nat} (h : j ≠ k) (v : α) :
    SMap.get d (SMap.set d m k v) j = SMap.get d m j := by simp [SMap.get_set, h]

/-- A value that no key of the map has reads as the default. -/
theorem SMap.get_of_forall_ne (d : α) (m : SMap α) (j : Nat) (h : ∀ e ∈ m, e.1 ≠ j) : SMap.get d m j = d := by
  induction m with
  | nil => rfl
  | cons e m ih =>
    obtain ⟨a, b⟩ := e
    have ha : a ≠ j := h (a, b) (by simp)
    simp only [SMap.get]
    rw [if_neg (fun he => ha he.symm)]
    exact ih fun e he => h e (by simp [he])

/-- A read either answers the default or a listed value. -/
theorem SMap.get_mem (d : α) (m : SMap α) (j : Nat) : SMap.get d m j = d ∨ (j, SMap.get d m j) ∈ m := by
  induction m with
  | nil => simp [SMap.get]
  | cons e m ih =>
    obtain ⟨a, b⟩ := e
    simp only [SMap.get]
    split
    · subst a; simp
    · rcases ih with h | h
      · exact .inl h
      · exact .inr (List.mem_cons_of_mem _ h)

/-! ### The canonical form -/

/-- The canonical form as a pair of facts about the list: keys rise, and no value is the default. -/
theorem SMap.wf_iff [DecidableEq α] (d : α) (m : SMap α) :
    SMap.wf d m = true ↔ m.Pairwise (fun a b => a.1 < b.1) ∧ ∀ e ∈ m, e.2 ≠ d := by
  induction m with
  | nil => simp [SMap.wf]
  | cons e m ih =>
    obtain ⟨a, b⟩ := e
    cases m with
    | nil => simp [SMap.wf]
    | cons f m =>
      obtain ⟨a', b'⟩ := f
      simp only [SMap.wf, Bool.and_eq_true, decide_eq_true_eq, ih, List.pairwise_cons]
      constructor
      · rintro ⟨⟨h1, h2⟩, ⟨h3, h4⟩, h5⟩
        refine ⟨⟨?_, h3, h4⟩, ?_⟩
        · intro e he
          rcases List.mem_cons.mp he with rfl | he
          · exact h1
          · exact Nat.lt_trans h1 (h3 e he)
        · intro e he
          rcases List.mem_cons.mp he with rfl | he
          · exact h2
          · exact h5 e he
      · rintro ⟨⟨h1, h3, h4⟩, h5⟩
        exact ⟨⟨h1 (a', b') (by simp), h5 (a, b) (by simp)⟩, ⟨h3, h4⟩, fun e he => h5 e (List.mem_cons_of_mem _ he)⟩

theorem SMap.wf_filter [DecidableEq α] (d : α) (p : Nat × α → Bool) {m : SMap α} (h : SMap.wf d m = true) :
    SMap.wf d (m.filter p) = true := by
  rw [SMap.wf_iff] at *
  exact ⟨h.1.filter p, fun e he => h.2 e ((List.mem_filter.mp he).1)⟩

theorem SMap.wf_erase [DecidableEq α] (d : α) {m : SMap α} (k : Nat) (h : SMap.wf d m = true) :
    SMap.wf d (m.erase k) = true := SMap.wf_filter d _ h

theorem SMap.mem_put (m : SMap α) (k : Nat) (v : α) {e : Nat × α} (h : e ∈ SMap.put m k v) : e = (k, v) ∨ e ∈ m := by
  induction m with
  | nil => simpa [SMap.put] using h
  | cons x m ih =>
    obtain ⟨a, b⟩ := x
    simp only [SMap.put] at h
    split at h
    · rcases List.mem_cons.mp h with h | h
      · exact .inl h
      · exact .inr h
    · split at h
      · rcases List.mem_cons.mp h with h | h
        · exact .inl h
        · exact .inr (List.mem_cons_of_mem _ h)
      · rcases List.mem_cons.mp h with h | h
        · subst h; simp
        · rcases ih h with h | h
          · exact .inl h
          · exact .inr (List.mem_cons_of_mem _ h)

theorem SMap.pairwise_put (m : SMap α) (k : Nat) (v : α) (h : m.Pairwise (fun a b => a.1 < b.1)) :
    (SMap.put m k v).Pairwise (fun a b => a.1 < b.1) := by
  induction m with
  | nil => simp [SMap.put]
  | cons x m ih =>
    obtain ⟨a, b⟩ := x
    rw [List.pairwise_cons] at h
    simp only [SMap.put]
    split
    · rename_i hk
      rw [List.pairwise_cons, List.pairwise_cons]
      refine ⟨?_, h.1, h.2⟩
      intro e he
      rcases List.mem_cons.mp he with rfl | he
      · exact hk
      · exact Nat.lt_trans hk (h.1 e he)
    · split
      · subst a; rw [List.pairwise_cons]; exact ⟨h.1, h.2⟩
      · rw [List.pairwise_cons]
        refine ⟨?_, ih h.2⟩
        intro e he
        rcases SMap.mem_put m k v he with rfl | he
        · show a < k; omega
        · exact h.1 e he

theorem SMap.wf_set [DecidableEq α] (d : α) {m : SMap α} (k : Nat) (v : α) (h : SMap.wf d m = true) :
    SMap.wf d (SMap.set d m k v) = true := by
  unfold SMap.set
  split
  · exact SMap.wf_erase d k h
  · rename_i hv
    rw [SMap.wf_iff] at *
    refine ⟨SMap.pairwise_put m k v h.1, fun e he => ?_⟩
    rcases SMap.mem_put m k v he with rfl | he
    · exact hv
    · exact h.2 e he

/-! ### Memories -/

theorem Mem.byte_setByte (m : Mem) (a b : Nat) (v : Byte) : (m.setByte a v).byte b = if b = a then v else m.byte b :=
  SMap.get_set 0 m a b v

theorem Mem.wf_setByte {m : Mem} (a : Nat) (v : Byte) (h : Memory.wf m = true) : Memory.wf (m.setByte a v) = true :=
  SMap.wf_set 0 a v h

theorem Mem.wf_writeMasked {m : Mem} (a : Nat) (bs : List (Byte × Bool)) (h : Memory.wf m = true) :
    Memory.wf (m.writeMasked a bs) = true := by
  induction bs generalizing m a with
  | nil => exact h
  | cons x bs ih =>
    obtain ⟨b, en⟩ := x
    simp only [Mem.writeMasked]
    apply ih
    split
    · exact Mem.wf_setByte a b h
    · exact h

/-- A masked write changes the enabled bytes and no other. -/
theorem Mem.byte_writeMasked (m : Mem) (a : Nat) (bs : List (Byte × Bool)) (b : Nat) :
    (m.writeMasked a bs).byte b =
      if a ≤ b then (match bs[b - a]? with | some (v, true) => v | _ => m.byte b) else m.byte b := by
  induction bs generalizing m a with
  | nil => simp [Mem.writeMasked]
  | cons x bs ih =>
    obtain ⟨v, en⟩ := x
    simp only [Mem.writeMasked, ih]
    have hm : ∀ c, (if en then m.setByte a v else m).byte c = if c = a ∧ en = true then v else m.byte c := by
      intro c; cases en <;> simp [Mem.byte_setByte]
    by_cases h1 : a + 1 ≤ b
    · have h2 : a ≤ b := by omega
      have h3 : b - a = (b - (a + 1)) + 1 := by omega
      simp only [h1, h2, if_true, h3, List.getElem?_cons_succ, hm]
      have : ¬ b = a := by omega
      simp [this]
    · by_cases h2 : a ≤ b
      · have h3 : b = a := by omega
        subst h3
        simp only [h1, if_false, Nat.le_refl, if_true, Nat.sub_self, List.getElem?_cons_zero, hm]
        cases en <;> simp
      · have : ¬ b = a := by omega
        simp [h1, h2, hm, this]

theorem Mem.mem_cells (a : Nat) (bs : List Byte) {e : Nat × Byte} (h : e ∈ Mem.cells a bs) :
    a ≤ e.1 ∧ e.1 < a + bs.length ∧ e.2 ≠ 0 := by
  induction bs generalizing a with
  | nil => simp [Mem.cells] at h
  | cons b bs ih =>
    simp only [Mem.cells] at h
    simp only [List.length_cons]
    split at h
    · have := ih (a + 1) h
      exact ⟨by omega, by omega, this.2.2⟩
    · rename_i hb
      rcases List.mem_cons.mp h with rfl | h
      · exact ⟨by simp, by simp, hb⟩
      · have := ih (a + 1) h
        refine ⟨by omega, by omega, this.2.2⟩

theorem Mem.pairwise_cells (a : Nat) (bs : List Byte) : (Mem.cells a bs).Pairwise (fun x y => x.1 < y.1) := by
  induction bs generalizing a with
  | nil => simp [Mem.cells]
  | cons b bs ih =>
    simp only [Mem.cells]
    split
    · exact ih (a + 1)
    · rw [List.pairwise_cons]
      refine ⟨fun e he => ?_, ih (a + 1)⟩
      have := (Mem.mem_cells (a + 1) bs he).1
      show a < e.1
      omega

theorem Mem.wf_write {m : Mem} (a : Nat) (bs : List Byte) (h : Memory.wf m = true) : Memory.wf (m.write a bs) = true := by
  unfold Memory.wf Mem.write at *
  rw [SMap.wf_iff] at *
  obtain ⟨h1, h2⟩ := h
  refine ⟨?_, ?_⟩
  · rw [List.pairwise_append, List.pairwise_append]
    refine ⟨⟨h1.filter _, Mem.pairwise_cells a bs, ?_⟩, h1.filter _, ?_⟩
    · intro x hx y hy
      have h3 := (List.mem_filter.mp hx).2
      have h4 := Mem.mem_cells a bs hy
      simp only [decide_eq_true_eq] at h3
      omega
    · intro x hx y hy
      have h3 := (List.mem_filter.mp hy).2
      simp only [decide_eq_true_eq] at h3
      rcases List.mem_append.mp hx with hx | hx
      · have h4 := (List.mem_filter.mp hx).2
        simp only [decide_eq_true_eq] at h4
        omega
      · have h4 := Mem.mem_cells a bs hx
        omega
  · intro e he
    rcases List.mem_append.mp he with he | he
    · rcases List.mem_append.mp he with he | he
      · exact h2 e ((List.mem_filter.mp he).1)
      · exact (Mem.mem_cells a bs he).2.2
    · exact h2 e ((List.mem_filter.mp he).1)

theorem SMap.get_append (d : α) (m n : SMap α) (j : Nat) (h : ∀ e ∈ m, e.1 ≠ j) :
    SMap.get d (m ++ n) j = SMap.get d n j := by
  induction m with
  | nil => rfl
  | cons e m ih =>
    obtain ⟨a, b⟩ := e
    have ha : a ≠ j := h (a, b) (by simp)
    simp only [List.cons_append, SMap.get]
    rw [if_neg (fun he => ha he.symm)]
    exact ih fun e he => h e (by simp [he])

theorem SMap.get_append_left (d : α) (m n : SMap α) (j : Nat) (h : ∀ e ∈ n, e.1 ≠ j) :
    SMap.get d (m ++ n) j = SMap.get d m j := by
  induction m with
  | nil => simpa using SMap.get_of_forall_ne d n j h
  | cons e m ih =>
    obtain ⟨a, b⟩ := e
    simp only [List.cons_append, SMap.get, ih]

theorem Mem.byte_cells (a : Nat) (bs : List Byte) (j : Nat) :
    SMap.get (0 : Byte) (Mem.cells a bs) j = if a ≤ j then bs.getD (j - a) 0 else 0 := by
  induction bs generalizing a with
  | nil => simp [Mem.cells]
  | cons b bs ih =>
    have key : a ≤ j → j ≠ a → (b :: bs).getD (j - a) 0 = bs.getD (j - (a + 1)) 0 := by
      intro h1 h2
      have : j - a = (j - (a + 1)) + 1 := by omega
      rw [this]; simp
    simp only [Mem.cells]
    split
    · rename_i hb
      rw [ih]
      by_cases h2 : j = a
      · subst h2; first | (simp [hb]; done) | (simp [hb]; omega)
      · by_cases h1 : a ≤ j
        · have : a + 1 ≤ j := by omega
          simp only [h1, this, if_true]; rw [key h1 h2]
        · have : ¬ a + 1 ≤ j := by omega
          simp [h1, this]
    · simp only [SMap.get, ih]
      by_cases h2 : j = a
      · subst h2; simp
      · by_cases h1 : a ≤ j
        · have : a + 1 ≤ j := by omega
          simp only [h1, h2, this, if_true, if_false]; rw [key h1 h2]
        · have : ¬ a + 1 ≤ j := by omega
          simp [h1, h2, this]

/-- A write changes the bytes it names and no other. -/
theorem Mem.byte_write (m : Mem) (a : Nat) (bs : List Byte) (j : Nat) :
    (m.write a bs).byte j = if a ≤ j ∧ j < a + bs.length then bs.getD (j - a) 0 else m.byte j := by
  unfold Mem.byte Mem.write
  by_cases h1 : j < a
  · rw [SMap.get_append_left, SMap.get_append_left]
    · have := SMap.get_filter_key (0 : Byte) (fun x => decide (x < a)) m j
      rw [this]; simp [h1]
      try omega
    · intro e he; have := Mem.mem_cells a bs he; omega
    · intro e he; have := (List.mem_filter.mp he).2; simp at this; omega
  · by_cases h2 : j < a + bs.length
    · rw [SMap.get_append_left, SMap.get_append, Mem.byte_cells]
      · simp [show a ≤ j by omega, h2]
      · intro e he; have := (List.mem_filter.mp he).2; simp at this; omega
      · intro e he; have := (List.mem_filter.mp he).2; simp at this; omega
    · rw [SMap.get_append]
      · have := SMap.get_filter_key (0 : Byte) (fun x => decide (a + bs.length ≤ x)) m j
        rw [this]; simp [h2]
        try omega
      · intro e he
        rcases List.mem_append.mp he with he | he
        · have := (List.mem_filter.mp he).2; simp at this; omega
        · have := Mem.mem_cells a bs he; omega

theorem Mem.byte_window (m : Mem) (a n j : Nat) :
    SMap.get (0 : Byte) (m.window a n) j = if a ≤ j ∧ j < a + n then m.byte j else 0 := by
  have := SMap.get_filter_key (0 : Byte) (fun x => decide (a ≤ x) && decide (x < a + n)) m j
  unfold Mem.window Mem.byte
  rw [this]
  simp

/-- A read of `n` bytes gives the bytes of the addresses from `a` upward. -/
theorem Mem.read_eq (m : Mem) (a n : Nat) : m.read a n = (List.range n).map fun i => m.byte (a + i) := by
  unfold Mem.read
  apply List.map_congr_left
  intro i hi
  have : i < n := by simpa using hi
  show SMap.get 0 (m.window a n) (a + i) = _
  rw [Mem.byte_window]
  simp [this]

end Sys2Proof.Machine
end

