-- ==== Sys2Proof/Laws/State.lean ====
section
/-! SUPPORT. One lemma for each field of the state under each update of a tile, a context or a launch, so that no later proof
unfolds a record update; and reading a tile or context after it was set. -/

namespace Sys2Proof.Machine

/-! ### Tiles -/

@[simp] theorem State.tile_setTile (s : State) (t : Nat) (x : Tile) (u : Nat) :
    (s.setTile t x).tile u = if u = t then x else s.tile u := by
  simp only [State.tile, State.setTile, SMap.get_put]

@[simp] theorem Tile.get_set (x : Tile) (k j : BitVec 2) (c : Ctx) :
    (x.set k c).get j = if j = k then c else x.get j := by
  simp only [Tile.get, Tile.set, SMap.get_put, BitVec.toNat_inj]

@[simp] theorem Tile.set_scratch (x : Tile) (k : BitVec 2) (c : Ctx) : (x.set k c).scratch = x.scratch := rfl
@[simp] theorem Tile.set_cnt (x : Tile) (k : BitVec 2) (c : Ctx) : (x.set k c).cnt = x.cnt := rfl
@[simp] theorem Tile.set_arr (x : Tile) (k : BitVec 2) (c : Ctx) : (x.set k c).arr = x.arr := rfl
@[simp] theorem Tile.set_holder (x : Tile) (k : BitVec 2) (c : Ctx) : (x.set k c).holder = x.holder := rfl
@[simp] theorem Tile.set_freeze (x : Tile) (k : BitVec 2) (c : Ctx) : (x.set k c).freeze = x.freeze := rfl
@[simp] theorem Tile.set_decomp (x : Tile) (k : BitVec 2) (c : Ctx) : (x.set k c).decomp = x.decomp := rfl
@[simp] theorem Tile.set_rr (x : Tile) (k : BitVec 2) (c : Ctx) : (x.set k c).rr = x.rr := rfl
@[simp] theorem Tile.set_ecnt (x : Tile) (k : BitVec 2) (c : Ctx) : (x.set k c).ecnt = x.ecnt := rfl
@[simp] theorem Tile.set_eword (x : Tile) (k : BitVec 2) (c : Ctx) : (x.set k c).eword = x.eword := rfl
@[simp] theorem Tile.set_bad (x : Tile) (k : BitVec 2) (c : Ctx) : (x.set k c).bad = x.bad := rfl
@[simp] theorem Tile.set_undo (x : Tile) (k : BitVec 2) (c : Ctx) : (x.set k c).undo = x.undo := rfl
@[simp] theorem Tile.set_added (x : Tile) (k : BitVec 2) (c : Ctx) : (x.set k c).added = x.added := rfl
@[simp] theorem Tile.set_fresh (x : Tile) (k : BitVec 2) (c : Ctx) : (x.set k c).fresh = x.fresh := rfl
@[simp] theorem Tile.set_moved (x : Tile) (k : BitVec 2) (c : Ctx) : (x.set k c).moved = x.moved := rfl

/-- What a counter holds after an addition, and after a SYSW has landed in it. -/
@[simp] theorem Tile.addCounter_get (x : Tile) (by_ : Option LId) (n m : Nat) (v : Word) :
    SMap.get 0 (x.addCounter by_ n v).cnt m = if m = n then SMap.get 0 x.cnt n + v else SMap.get 0 x.cnt m := by
  unfold Tile.addCounter Tile.markCounter; split <;> simp [SMap.get_set]

@[simp] theorem Tile.setCounter_get (x : Tile) (by_ : Option LId) (n m : Nat) (v : Word) :
    SMap.get 0 (x.setCounter by_ n v).cnt m = if m = n then v + SMap.get 0 x.added n else SMap.get 0 x.cnt m := by
  unfold Tile.setCounter Tile.markCounter; split <;> simp [SMap.get_set]
@[simp] theorem Tile.addCounter_scratch (x : Tile) (by_ : Option LId) (n : Nat) (v : Word) : (x.addCounter by_ n v).scratch = x.scratch := by
  unfold Tile.addCounter Tile.markCounter; split <;> rfl
@[simp] theorem Tile.setCounter_scratch (x : Tile) (by_ : Option LId) (n : Nat) (v : Word) : (x.setCounter by_ n v).scratch = x.scratch := by
  unfold Tile.setCounter Tile.markCounter; split <;> rfl
@[simp] theorem Tile.addCounter_arr (x : Tile) (by_ : Option LId) (n : Nat) (v : Word) : (x.addCounter by_ n v).arr = x.arr := by
  unfold Tile.addCounter Tile.markCounter; split <;> rfl
@[simp] theorem Tile.setCounter_arr (x : Tile) (by_ : Option LId) (n : Nat) (v : Word) : (x.setCounter by_ n v).arr = x.arr := by
  unfold Tile.setCounter Tile.markCounter; split <;> rfl
@[simp] theorem Tile.addCounter_ctx (x : Tile) (by_ : Option LId) (n : Nat) (v : Word) : (x.addCounter by_ n v).ctx = x.ctx := by
  unfold Tile.addCounter Tile.markCounter; split <;> rfl
@[simp] theorem Tile.setCounter_ctx (x : Tile) (by_ : Option LId) (n : Nat) (v : Word) : (x.setCounter by_ n v).ctx = x.ctx := by
  unfold Tile.setCounter Tile.markCounter; split <;> rfl
@[simp] theorem Tile.addCounter_holder (x : Tile) (by_ : Option LId) (n : Nat) (v : Word) : (x.addCounter by_ n v).holder = x.holder := by
  unfold Tile.addCounter Tile.markCounter; split <;> rfl
@[simp] theorem Tile.setCounter_holder (x : Tile) (by_ : Option LId) (n : Nat) (v : Word) : (x.setCounter by_ n v).holder = x.holder := by
  unfold Tile.setCounter Tile.markCounter; split <;> rfl
@[simp] theorem Tile.addCounter_freeze (x : Tile) (by_ : Option LId) (n : Nat) (v : Word) : (x.addCounter by_ n v).freeze = x.freeze := by
  unfold Tile.addCounter Tile.markCounter; split <;> rfl
@[simp] theorem Tile.setCounter_freeze (x : Tile) (by_ : Option LId) (n : Nat) (v : Word) : (x.setCounter by_ n v).freeze = x.freeze := by
  unfold Tile.setCounter Tile.markCounter; split <;> rfl
@[simp] theorem Tile.addCounter_decomp (x : Tile) (by_ : Option LId) (n : Nat) (v : Word) : (x.addCounter by_ n v).decomp = x.decomp := by
  unfold Tile.addCounter Tile.markCounter; split <;> rfl
@[simp] theorem Tile.setCounter_decomp (x : Tile) (by_ : Option LId) (n : Nat) (v : Word) : (x.setCounter by_ n v).decomp = x.decomp := by
  unfold Tile.setCounter Tile.markCounter; split <;> rfl
@[simp] theorem Tile.addCounter_rr (x : Tile) (by_ : Option LId) (n : Nat) (v : Word) : (x.addCounter by_ n v).rr = x.rr := by
  unfold Tile.addCounter Tile.markCounter; split <;> rfl
@[simp] theorem Tile.setCounter_rr (x : Tile) (by_ : Option LId) (n : Nat) (v : Word) : (x.setCounter by_ n v).rr = x.rr := by
  unfold Tile.setCounter Tile.markCounter; split <;> rfl
@[simp] theorem Tile.addCounter_eword (x : Tile) (by_ : Option LId) (n : Nat) (v : Word) : (x.addCounter by_ n v).eword = x.eword := by
  unfold Tile.addCounter Tile.markCounter; split <;> rfl
@[simp] theorem Tile.setCounter_eword (x : Tile) (by_ : Option LId) (n : Nat) (v : Word) : (x.setCounter by_ n v).eword = x.eword := by
  unfold Tile.setCounter Tile.markCounter; split <;> rfl
@[simp] theorem Tile.addCounter_bad (x : Tile) (by_ : Option LId) (n : Nat) (v : Word) : (x.addCounter by_ n v).bad = x.bad := by
  unfold Tile.addCounter Tile.markCounter; split <;> rfl
@[simp] theorem Tile.setCounter_bad (x : Tile) (by_ : Option LId) (n : Nat) (v : Word) : (x.setCounter by_ n v).bad = x.bad := by
  unfold Tile.setCounter Tile.markCounter; split <;> rfl
@[simp] theorem Tile.addCounter_undo (x : Tile) (by_ : Option LId) (n : Nat) (v : Word) : (x.addCounter by_ n v).undo = x.undo := by
  unfold Tile.addCounter Tile.markCounter; split <;> rfl
@[simp] theorem Tile.setCounter_undo (x : Tile) (by_ : Option LId) (n : Nat) (v : Word) : (x.setCounter by_ n v).undo = x.undo := by
  unfold Tile.setCounter Tile.markCounter; split <;> rfl
@[simp] theorem Tile.addCounter_fresh (x : Tile) (by_ : Option LId) (n : Nat) (v : Word) : (x.addCounter by_ n v).fresh = x.fresh := by
  unfold Tile.addCounter Tile.markCounter; split <;> rfl
@[simp] theorem Tile.setCounter_fresh (x : Tile) (by_ : Option LId) (n : Nat) (v : Word) : (x.setCounter by_ n v).fresh = x.fresh := by
  unfold Tile.setCounter Tile.markCounter; split <;> rfl
@[simp] theorem Tile.addCounter_moved (x : Tile) (by_ : Option LId) (n : Nat) (v : Word) : (x.addCounter by_ n v).moved = x.moved := by
  unfold Tile.addCounter Tile.markCounter; split <;> rfl
@[simp] theorem Tile.setCounter_moved (x : Tile) (by_ : Option LId) (n : Nat) (v : Word) : (x.setCounter by_ n v).moved = x.moved := by
  unfold Tile.setCounter Tile.markCounter; split <;> rfl

/-! ### Contexts -/

theorem State.ctx_def (s : State) (t : Nat) (k : BitVec 2) : s.ctx t k = (s.tile t).get k := rfl

@[simp] theorem State.tile_setCtx (s : State) (t : Nat) (k : BitVec 2) (c : Ctx) (u : Nat) :
    (s.setCtx t k c).tile u = if u = t then (s.tile t).set k c else s.tile u := by
  simp [State.setCtx]

/-- Reading a context after one was set. -/
@[simp] theorem State.ctx_setCtx (s : State) (t : Nat) (k : BitVec 2) (c : Ctx) (u : Nat) (j : BitVec 2) :
    (s.setCtx t k c).ctx u j = if u = t ∧ j = k then c else s.ctx u j := by
  simp only [State.ctx_def, State.tile_setCtx]
  by_cases h : u = t
  · subst h; simp
  · simp [h]

@[simp] theorem State.ctx_setTile (s : State) (t : Nat) (x : Tile) (u : Nat) (j : BitVec 2) :
    (s.setTile t x).ctx u j = if u = t then x.get j else s.ctx u j := by
  simp only [State.ctx_def, State.tile_setTile]
  split <;> rfl

@[simp] theorem State.ctx_updCtx (s : State) (t : Nat) (k : BitVec 2) (f : Ctx → Ctx) (u : Nat) (j : BitVec 2) :
    (s.updCtx t k f).ctx u j = if u = t ∧ j = k then f (s.ctx t k) else s.ctx u j := State.ctx_setCtx ..

@[simp] theorem State.tile_updCtx (s : State) (t : Nat) (k : BitVec 2) (f : Ctx → Ctx) (u : Nat) :
    (s.updCtx t k f).tile u = if u = t then (s.tile t).set k (f (s.ctx t k)) else s.tile u := State.tile_setCtx ..

/-! ### The other fields of the state -/

@[simp] theorem State.setTile_zone (s : State) (t : Nat) (x : Tile) : (s.setTile t x).zone = s.zone := rfl
@[simp] theorem State.setCtx_zone (s : State) (t : Nat) (k : BitVec 2) (c : Ctx) : (s.setCtx t k c).zone = s.zone := rfl
@[simp] theorem State.updCtx_zone (s : State) (t : Nat) (k : BitVec 2) (f : Ctx → Ctx) : (s.updCtx t k f).zone = s.zone := rfl
@[simp] theorem State.updLaunch_zone (s : State) (id : LId) (f : Launch → Launch) : (s.updLaunch id f).zone = s.zone := rfl
@[simp] theorem State.setTile_hbm (s : State) (t : Nat) (x : Tile) : (s.setTile t x).hbm = s.hbm := rfl
@[simp] theorem State.setCtx_hbm (s : State) (t : Nat) (k : BitVec 2) (c : Ctx) : (s.setCtx t k c).hbm = s.hbm := rfl
@[simp] theorem State.updCtx_hbm (s : State) (t : Nat) (k : BitVec 2) (f : Ctx → Ctx) : (s.updCtx t k f).hbm = s.hbm := rfl
@[simp] theorem State.updLaunch_hbm (s : State) (id : LId) (f : Launch → Launch) : (s.updLaunch id f).hbm = s.hbm := rfl
@[simp] theorem State.setTile_lpddr (s : State) (t : Nat) (x : Tile) : (s.setTile t x).lpddr = s.lpddr := rfl
@[simp] theorem State.setCtx_lpddr (s : State) (t : Nat) (k : BitVec 2) (c : Ctx) : (s.setCtx t k c).lpddr = s.lpddr := rfl
@[simp] theorem State.updCtx_lpddr (s : State) (t : Nat) (k : BitVec 2) (f : Ctx → Ctx) : (s.updCtx t k f).lpddr = s.lpddr := rfl
@[simp] theorem State.updLaunch_lpddr (s : State) (id : LId) (f : Launch → Launch) : (s.updLaunch id f).lpddr = s.lpddr := rfl
@[simp] theorem State.setTile_host (s : State) (t : Nat) (x : Tile) : (s.setTile t x).host = s.host := rfl
@[simp] theorem State.setCtx_host (s : State) (t : Nat) (k : BitVec 2) (c : Ctx) : (s.setCtx t k c).host = s.host := rfl
@[simp] theorem State.updCtx_host (s : State) (t : Nat) (k : BitVec 2) (f : Ctx → Ctx) : (s.updCtx t k f).host = s.host := rfl
@[simp] theorem State.updLaunch_host (s : State) (id : LId) (f : Launch → Launch) : (s.updLaunch id f).host = s.host := rfl
@[simp] theorem State.setTile_peer (s : State) (t : Nat) (x : Tile) : (s.setTile t x).peer = s.peer := rfl
@[simp] theorem State.setCtx_peer (s : State) (t : Nat) (k : BitVec 2) (c : Ctx) : (s.setCtx t k c).peer = s.peer := rfl
@[simp] theorem State.updCtx_peer (s : State) (t : Nat) (k : BitVec 2) (f : Ctx → Ctx) : (s.updCtx t k f).peer = s.peer := rfl
@[simp] theorem State.updLaunch_peer (s : State) (id : LId) (f : Launch → Launch) : (s.updLaunch id f).peer = s.peer := rfl
@[simp] theorem State.setTile_badHbm (s : State) (t : Nat) (x : Tile) : (s.setTile t x).badHbm = s.badHbm := rfl
@[simp] theorem State.setCtx_badHbm (s : State) (t : Nat) (k : BitVec 2) (c : Ctx) : (s.setCtx t k c).badHbm = s.badHbm := rfl
@[simp] theorem State.updCtx_badHbm (s : State) (t : Nat) (k : BitVec 2) (f : Ctx → Ctx) : (s.updCtx t k f).badHbm = s.badHbm := rfl
@[simp] theorem State.updLaunch_badHbm (s : State) (id : LId) (f : Launch → Launch) : (s.updLaunch id f).badHbm = s.badHbm := rfl
@[simp] theorem State.setTile_badLpddr (s : State) (t : Nat) (x : Tile) : (s.setTile t x).badLpddr = s.badLpddr := rfl
@[simp] theorem State.setCtx_badLpddr (s : State) (t : Nat) (k : BitVec 2) (c : Ctx) : (s.setCtx t k c).badLpddr = s.badLpddr := rfl
@[simp] theorem State.updCtx_badLpddr (s : State) (t : Nat) (k : BitVec 2) (f : Ctx → Ctx) : (s.updCtx t k f).badLpddr = s.badLpddr := rfl
@[simp] theorem State.updLaunch_badLpddr (s : State) (id : LId) (f : Launch → Launch) : (s.updLaunch id f).badLpddr = s.badLpddr := rfl
@[simp] theorem State.setTile_arrHbm (s : State) (t : Nat) (x : Tile) : (s.setTile t x).arrHbm = s.arrHbm := rfl
@[simp] theorem State.setCtx_arrHbm (s : State) (t : Nat) (k : BitVec 2) (c : Ctx) : (s.setCtx t k c).arrHbm = s.arrHbm := rfl
@[simp] theorem State.updCtx_arrHbm (s : State) (t : Nat) (k : BitVec 2) (f : Ctx → Ctx) : (s.updCtx t k f).arrHbm = s.arrHbm := rfl
@[simp] theorem State.updLaunch_arrHbm (s : State) (id : LId) (f : Launch → Launch) : (s.updLaunch id f).arrHbm = s.arrHbm := rfl
@[simp] theorem State.setTile_arrLpddr (s : State) (t : Nat) (x : Tile) : (s.setTile t x).arrLpddr = s.arrLpddr := rfl
@[simp] theorem State.setCtx_arrLpddr (s : State) (t : Nat) (k : BitVec 2) (c : Ctx) : (s.setCtx t k c).arrLpddr = s.arrLpddr := rfl
@[simp] theorem State.updCtx_arrLpddr (s : State) (t : Nat) (k : BitVec 2) (f : Ctx → Ctx) : (s.updCtx t k f).arrLpddr = s.arrLpddr := rfl
@[simp] theorem State.updLaunch_arrLpddr (s : State) (id : LId) (f : Launch → Launch) : (s.updLaunch id f).arrLpddr = s.arrLpddr := rfl
@[simp] theorem State.setTile_ctd (s : State) (t : Nat) (x : Tile) : (s.setTile t x).ctd = s.ctd := rfl
@[simp] theorem State.setCtx_ctd (s : State) (t : Nat) (k : BitVec 2) (c : Ctx) : (s.setCtx t k c).ctd = s.ctd := rfl
@[simp] theorem State.updCtx_ctd (s : State) (t : Nat) (k : BitVec 2) (f : Ctx → Ctx) : (s.updCtx t k f).ctd = s.ctd := rfl
@[simp] theorem State.setTile_agenda (s : State) (t : Nat) (x : Tile) : (s.setTile t x).agenda = s.agenda := rfl
@[simp] theorem State.setCtx_agenda (s : State) (t : Nat) (k : BitVec 2) (c : Ctx) : (s.setCtx t k c).agenda = s.agenda := rfl
@[simp] theorem State.updCtx_agenda (s : State) (t : Nat) (k : BitVec 2) (f : Ctx → Ctx) : (s.updCtx t k f).agenda = s.agenda := rfl
@[simp] theorem State.updLaunch_agenda (s : State) (id : LId) (f : Launch → Launch) : (s.updLaunch id f).agenda = s.agenda := rfl
@[simp] theorem State.setTile_cur (s : State) (t : Nat) (x : Tile) : (s.setTile t x).cur = s.cur := rfl
@[simp] theorem State.setCtx_cur (s : State) (t : Nat) (k : BitVec 2) (c : Ctx) : (s.setCtx t k c).cur = s.cur := rfl
@[simp] theorem State.updCtx_cur (s : State) (t : Nat) (k : BitVec 2) (f : Ctx → Ctx) : (s.updCtx t k f).cur = s.cur := rfl
@[simp] theorem State.updLaunch_cur (s : State) (id : LId) (f : Launch → Launch) : (s.updLaunch id f).cur = s.cur := rfl
@[simp] theorem State.setTile_inbox (s : State) (t : Nat) (x : Tile) : (s.setTile t x).inbox = s.inbox := rfl
@[simp] theorem State.setCtx_inbox (s : State) (t : Nat) (k : BitVec 2) (c : Ctx) : (s.setCtx t k c).inbox = s.inbox := rfl
@[simp] theorem State.updCtx_inbox (s : State) (t : Nat) (k : BitVec 2) (f : Ctx → Ctx) : (s.updCtx t k f).inbox = s.inbox := rfl
@[simp] theorem State.updLaunch_inbox (s : State) (id : LId) (f : Launch → Launch) : (s.updLaunch id f).inbox = s.inbox := rfl
@[simp] theorem State.setTile_freeCtr (s : State) (t : Nat) (x : Tile) : (s.setTile t x).freeCtr = s.freeCtr := rfl
@[simp] theorem State.setCtx_freeCtr (s : State) (t : Nat) (k : BitVec 2) (c : Ctx) : (s.setCtx t k c).freeCtr = s.freeCtr := rfl
@[simp] theorem State.updCtx_freeCtr (s : State) (t : Nat) (k : BitVec 2) (f : Ctx → Ctx) : (s.updCtx t k f).freeCtr = s.freeCtr := rfl
@[simp] theorem State.updLaunch_freeCtr (s : State) (id : LId) (f : Launch → Launch) : (s.updLaunch id f).freeCtr = s.freeCtr := rfl
@[simp] theorem State.setTile_choiceCtr (s : State) (t : Nat) (x : Tile) : (s.setTile t x).choiceCtr = s.choiceCtr := rfl
@[simp] theorem State.setCtx_choiceCtr (s : State) (t : Nat) (k : BitVec 2) (c : Ctx) : (s.setCtx t k c).choiceCtr = s.choiceCtr := rfl
@[simp] theorem State.updCtx_choiceCtr (s : State) (t : Nat) (k : BitVec 2) (f : Ctx → Ctx) : (s.updCtx t k f).choiceCtr = s.choiceCtr := rfl
@[simp] theorem State.updLaunch_choiceCtr (s : State) (id : LId) (f : Launch → Launch) : (s.updLaunch id f).choiceCtr = s.choiceCtr := rfl
@[simp] theorem State.updLaunch_tiles (s : State) (id : LId) (f : Launch → Launch) : (s.updLaunch id f).tiles = s.tiles := rfl

/-! ### A choice, and the bytes moved in a cycle -/

@[simp] theorem State.choose_zone (s : State) : s.choose.2.zone = s.zone := rfl
@[simp] theorem State.choose_tiles (s : State) : s.choose.2.tiles = s.tiles := rfl
@[simp] theorem State.choose_hbm (s : State) : s.choose.2.hbm = s.hbm := rfl
@[simp] theorem State.choose_lpddr (s : State) : s.choose.2.lpddr = s.lpddr := rfl
@[simp] theorem State.choose_host (s : State) : s.choose.2.host = s.host := rfl
@[simp] theorem State.choose_peer (s : State) : s.choose.2.peer = s.peer := rfl
@[simp] theorem State.choose_badHbm (s : State) : s.choose.2.badHbm = s.badHbm := rfl
@[simp] theorem State.choose_badLpddr (s : State) : s.choose.2.badLpddr = s.badLpddr := rfl
@[simp] theorem State.choose_arrHbm (s : State) : s.choose.2.arrHbm = s.arrHbm := rfl
@[simp] theorem State.choose_arrLpddr (s : State) : s.choose.2.arrLpddr = s.arrLpddr := rfl
@[simp] theorem State.choose_ctd (s : State) : s.choose.2.ctd = s.ctd := rfl
@[simp] theorem State.choose_agenda (s : State) : s.choose.2.agenda = s.agenda := rfl
@[simp] theorem State.choose_cur (s : State) : s.choose.2.cur = s.cur := rfl
@[simp] theorem State.choose_inbox (s : State) : s.choose.2.inbox = s.inbox := rfl
@[simp] theorem State.choose_freeCtr (s : State) : s.choose.2.freeCtr = s.freeCtr := rfl
@[simp] theorem State.countMoved_zone (s : State) (t n : Nat) : (s.countMoved t n).zone = s.zone := rfl
@[simp] theorem State.countMoved_hbm (s : State) (t n : Nat) : (s.countMoved t n).hbm = s.hbm := rfl
@[simp] theorem State.countMoved_lpddr (s : State) (t n : Nat) : (s.countMoved t n).lpddr = s.lpddr := rfl
@[simp] theorem State.countMoved_host (s : State) (t n : Nat) : (s.countMoved t n).host = s.host := rfl
@[simp] theorem State.countMoved_peer (s : State) (t n : Nat) : (s.countMoved t n).peer = s.peer := rfl
@[simp] theorem State.countMoved_badHbm (s : State) (t n : Nat) : (s.countMoved t n).badHbm = s.badHbm := rfl
@[simp] theorem State.countMoved_badLpddr (s : State) (t n : Nat) : (s.countMoved t n).badLpddr = s.badLpddr := rfl
@[simp] theorem State.countMoved_arrHbm (s : State) (t n : Nat) : (s.countMoved t n).arrHbm = s.arrHbm := rfl
@[simp] theorem State.countMoved_arrLpddr (s : State) (t n : Nat) : (s.countMoved t n).arrLpddr = s.arrLpddr := rfl
@[simp] theorem State.countMoved_ctd (s : State) (t n : Nat) : (s.countMoved t n).ctd = s.ctd := rfl
@[simp] theorem State.countMoved_agenda (s : State) (t n : Nat) : (s.countMoved t n).agenda = s.agenda := rfl
@[simp] theorem State.countMoved_cur (s : State) (t n : Nat) : (s.countMoved t n).cur = s.cur := rfl
@[simp] theorem State.countMoved_inbox (s : State) (t n : Nat) : (s.countMoved t n).inbox = s.inbox := rfl
@[simp] theorem State.countMoved_freeCtr (s : State) (t n : Nat) : (s.countMoved t n).freeCtr = s.freeCtr := rfl
@[simp] theorem State.countMoved_choiceCtr (s : State) (t n : Nat) : (s.countMoved t n).choiceCtr = s.choiceCtr := rfl
@[simp] theorem State.tile_choose (s : State) (t : Nat) : s.choose.2.tile t = s.tile t := rfl
@[simp] theorem State.ctx_choose (s : State) (t : Nat) (k : BitVec 2) : s.choose.2.ctx t k = s.ctx t k := rfl

@[simp] theorem State.tile_countMoved (s : State) (t n u : Nat) :
    (s.countMoved t n).tile u = if u = t then { s.tile t with moved := (s.tile t).moved + n } else s.tile u := State.tile_setTile ..

@[simp] theorem State.ctx_countMoved (s : State) (t n u : Nat) (k : BitVec 2) : (s.countMoved t n).ctx u k = s.ctx u k := by
  simp only [State.ctx_def, State.tile_countMoved]
  by_cases h : u = t
  · subst h; simp [Tile.get]
  · simp [h]

/-! ### Registers -/

@[simp] theorem Regs.setP_s (r : Regs) (n : Nat) (v : Bool) : (r.setP n v).s = r.s := by
  unfold Regs.setP; split <;> rfl
@[simp] theorem Regs.setM_s (r : Regs) (n : Nat) (v : Mask) : (r.setM n v).s = r.s := by
  unfold Regs.setM; split <;> rfl
@[simp] theorem Regs.setS_p (r : Regs) (n : Nat) (v : Word) : (r.setS n v).p = r.p := by
  unfold Regs.setS; split <;> rfl
@[simp] theorem Regs.setM_p (r : Regs) (n : Nat) (v : Mask) : (r.setM n v).p = r.p := by
  unfold Regs.setM; split <;> rfl
@[simp] theorem Regs.setS_m (r : Regs) (n : Nat) (v : Word) : (r.setS n v).m = r.m := by
  unfold Regs.setS; split <;> rfl
@[simp] theorem Regs.setP_m (r : Regs) (n : Nat) (v : Bool) : (r.setP n v).m = r.m := by
  unfold Regs.setP; split <;> rfl
@[simp] theorem Regs.setS_space (r : Regs) (n : Nat) (v : Word) : (r.setS n v).space = r.space := by
  unfold Regs.setS; split <;> rfl
@[simp] theorem Regs.setP_space (r : Regs) (n : Nat) (v : Bool) : (r.setP n v).space = r.space := by
  unfold Regs.setP; split <;> rfl
@[simp] theorem Regs.setM_space (r : Regs) (n : Nat) (v : Mask) : (r.setM n v).space = r.space := by
  unfold Regs.setM; split <;> rfl
@[simp] theorem Regs.setS_opf (r : Regs) (n : Nat) (v : Word) : (r.setS n v).opf = r.opf := by
  unfold Regs.setS; split <;> rfl
@[simp] theorem Regs.setP_opf (r : Regs) (n : Nat) (v : Bool) : (r.setP n v).opf = r.opf := by
  unfold Regs.setP; split <;> rfl
@[simp] theorem Regs.setM_opf (r : Regs) (n : Nat) (v : Mask) : (r.setM n v).opf = r.opf := by
  unfold Regs.setM; split <;> rfl
@[simp] theorem Regs.setS_latch (r : Regs) (n : Nat) (v : Word) : (r.setS n v).latch = r.latch := by
  unfold Regs.setS; split <;> rfl
@[simp] theorem Regs.setP_latch (r : Regs) (n : Nat) (v : Bool) : (r.setP n v).latch = r.latch := by
  unfold Regs.setP; split <;> rfl
@[simp] theorem Regs.setM_latch (r : Regs) (n : Nat) (v : Mask) : (r.setM n v).latch = r.latch := by
  unfold Regs.setM; split <;> rfl
@[simp] theorem Regs.setS_vq (r : Regs) (n : Nat) (v : Word) : (r.setS n v).vq = r.vq := by
  unfold Regs.setS; split <;> rfl
@[simp] theorem Regs.setP_vq (r : Regs) (n : Nat) (v : Bool) : (r.setP n v).vq = r.vq := by
  unfold Regs.setP; split <;> rfl
@[simp] theorem Regs.setM_vq (r : Regs) (n : Nat) (v : Mask) : (r.setM n v).vq = r.vq := by
  unfold Regs.setM; split <;> rfl
@[simp] theorem Regs.setS_key (r : Regs) (n : Nat) (v : Word) : (r.setS n v).key = r.key := by
  unfold Regs.setS; split <;> rfl
@[simp] theorem Regs.setP_key (r : Regs) (n : Nat) (v : Bool) : (r.setP n v).key = r.key := by
  unfold Regs.setP; split <;> rfl
@[simp] theorem Regs.setM_key (r : Regs) (n : Nat) (v : Mask) : (r.setM n v).key = r.key := by
  unfold Regs.setM; split <;> rfl
@[simp] theorem Regs.setS_step (r : Regs) (n : Nat) (v : Word) : (r.setS n v).step = r.step := by
  unfold Regs.setS; split <;> rfl
@[simp] theorem Regs.setP_step (r : Regs) (n : Nat) (v : Bool) : (r.setP n v).step = r.step := by
  unfold Regs.setP; split <;> rfl
@[simp] theorem Regs.setM_step (r : Regs) (n : Nat) (v : Mask) : (r.setM n v).step = r.step := by
  unfold Regs.setM; split <;> rfl
@[simp] theorem Regs.setS_morig (r : Regs) (n : Nat) (v : Word) : (r.setS n v).morig = r.morig := by
  unfold Regs.setS; split <;> rfl
@[simp] theorem Regs.setP_morig (r : Regs) (n : Nat) (v : Bool) : (r.setP n v).morig = r.morig := by
  unfold Regs.setP; split <;> rfl
@[simp] theorem Regs.setM_morig (r : Regs) (n : Nat) (v : Mask) : (r.setM n v).morig = r.morig := by
  unfold Regs.setM; split <;> rfl
@[simp] theorem Regs.setS_flga (r : Regs) (n : Nat) (v : Word) : (r.setS n v).flga = r.flga := by
  unfold Regs.setS; split <;> rfl
@[simp] theorem Regs.setP_flga (r : Regs) (n : Nat) (v : Bool) : (r.setP n v).flga = r.flga := by
  unfold Regs.setP; split <;> rfl
@[simp] theorem Regs.setM_flga (r : Regs) (n : Nat) (v : Mask) : (r.setM n v).flga = r.flga := by
  unfold Regs.setM; split <;> rfl
@[simp] theorem Regs.setS_flgb (r : Regs) (n : Nat) (v : Word) : (r.setS n v).flgb = r.flgb := by
  unfold Regs.setS; split <;> rfl
@[simp] theorem Regs.setP_flgb (r : Regs) (n : Nat) (v : Bool) : (r.setP n v).flgb = r.flgb := by
  unfold Regs.setP; split <;> rfl
@[simp] theorem Regs.setM_flgb (r : Regs) (n : Nat) (v : Mask) : (r.setM n v).flgb = r.flgb := by
  unfold Regs.setM; split <;> rfl
@[simp] theorem Regs.setS_quires (r : Regs) (n : Nat) (v : Word) : (r.setS n v).quires = r.quires := by
  unfold Regs.setS; split <;> rfl
@[simp] theorem Regs.setP_quires (r : Regs) (n : Nat) (v : Bool) : (r.setP n v).quires = r.quires := by
  unfold Regs.setP; split <;> rfl
@[simp] theorem Regs.setM_quires (r : Regs) (n : Nat) (v : Mask) : (r.setM n v).quires = r.quires := by
  unfold Regs.setM; split <;> rfl
@[simp] theorem Regs.setS_qx (r : Regs) (n : Nat) (v : Word) : (r.setS n v).qx = r.qx := by
  unfold Regs.setS; split <;> rfl
@[simp] theorem Regs.setP_qx (r : Regs) (n : Nat) (v : Bool) : (r.setP n v).qx = r.qx := by
  unfold Regs.setP; split <;> rfl
@[simp] theorem Regs.setM_qx (r : Regs) (n : Nat) (v : Mask) : (r.setM n v).qx = r.qx := by
  unfold Regs.setM; split <;> rfl
@[simp] theorem Regs.setS_plane (r : Regs) (n : Nat) (v : Word) : (r.setS n v).plane = r.plane := by
  unfold Regs.setS; split <;> rfl
@[simp] theorem Regs.setP_plane (r : Regs) (n : Nat) (v : Bool) : (r.setP n v).plane = r.plane := by
  unfold Regs.setP; split <;> rfl
@[simp] theorem Regs.setM_plane (r : Regs) (n : Nat) (v : Mask) : (r.setM n v).plane = r.plane := by
  unfold Regs.setM; split <;> rfl
@[simp] theorem Regs.setS_tag0 (r : Regs) (n : Nat) (v : Word) : (r.setS n v).tag0 = r.tag0 := by
  unfold Regs.setS; split <;> rfl
@[simp] theorem Regs.setP_tag0 (r : Regs) (n : Nat) (v : Bool) : (r.setP n v).tag0 = r.tag0 := by
  unfold Regs.setP; split <;> rfl
@[simp] theorem Regs.setM_tag0 (r : Regs) (n : Nat) (v : Mask) : (r.setM n v).tag0 = r.tag0 := by
  unfold Regs.setM; split <;> rfl
@[simp] theorem Regs.setS_tag1 (r : Regs) (n : Nat) (v : Word) : (r.setS n v).tag1 = r.tag1 := by
  unfold Regs.setS; split <;> rfl
@[simp] theorem Regs.setP_tag1 (r : Regs) (n : Nat) (v : Bool) : (r.setP n v).tag1 = r.tag1 := by
  unfold Regs.setP; split <;> rfl
@[simp] theorem Regs.setM_tag1 (r : Regs) (n : Nat) (v : Mask) : (r.setM n v).tag1 = r.tag1 := by
  unfold Regs.setM; split <;> rfl
@[simp] theorem Regs.setS_bscale (r : Regs) (n : Nat) (v : Word) : (r.setS n v).bscale = r.bscale := by
  unfold Regs.setS; split <;> rfl
@[simp] theorem Regs.setP_bscale (r : Regs) (n : Nat) (v : Bool) : (r.setP n v).bscale = r.bscale := by
  unfold Regs.setP; split <;> rfl
@[simp] theorem Regs.setM_bscale (r : Regs) (n : Nat) (v : Mask) : (r.setM n v).bscale = r.bscale := by
  unfold Regs.setM; split <;> rfl
@[simp] theorem Regs.setS_act (r : Regs) (n : Nat) (v : Word) : (r.setS n v).act = r.act := by
  unfold Regs.setS; split <;> rfl
@[simp] theorem Regs.setP_act (r : Regs) (n : Nat) (v : Bool) : (r.setP n v).act = r.act := by
  unfold Regs.setP; split <;> rfl
@[simp] theorem Regs.setM_act (r : Regs) (n : Nat) (v : Mask) : (r.setM n v).act = r.act := by
  unfold Regs.setM; split <;> rfl
@[simp] theorem Regs.setS_fill (r : Regs) (n : Nat) (v : Word) : (r.setS n v).fill = r.fill := by
  unfold Regs.setS; split <;> rfl
@[simp] theorem Regs.setP_fill (r : Regs) (n : Nat) (v : Bool) : (r.setP n v).fill = r.fill := by
  unfold Regs.setP; split <;> rfl
@[simp] theorem Regs.setM_fill (r : Regs) (n : Nat) (v : Mask) : (r.setM n v).fill = r.fill := by
  unfold Regs.setM; split <;> rfl
@[simp] theorem Regs.setS_fp (r : Regs) (n : Nat) (v : Word) : (r.setS n v).fp = r.fp := by
  unfold Regs.setS; split <;> rfl
@[simp] theorem Regs.setP_fp (r : Regs) (n : Nat) (v : Bool) : (r.setP n v).fp = r.fp := by
  unfold Regs.setP; split <;> rfl
@[simp] theorem Regs.setM_fp (r : Regs) (n : Nat) (v : Mask) : (r.setM n v).fp = r.fp := by
  unfold Regs.setM; split <;> rfl
@[simp] theorem Regs.setS_ascale (r : Regs) (n : Nat) (v : Word) : (r.setS n v).ascale = r.ascale := by
  unfold Regs.setS; split <;> rfl
@[simp] theorem Regs.setP_ascale (r : Regs) (n : Nat) (v : Bool) : (r.setP n v).ascale = r.ascale := by
  unfold Regs.setP; split <;> rfl
@[simp] theorem Regs.setM_ascale (r : Regs) (n : Nat) (v : Mask) : (r.setM n v).ascale = r.ascale := by
  unfold Regs.setM; split <;> rfl

/-- Writing a scalar register and reading one: s0 reads zero and takes nothing. -/
theorem Regs.sreg_setS (r : Regs) (n : Nat) (v : Word) (m : BitVec 5) :
    (r.setS n v).sreg m = if m = 0 then 0 else if m.toNat = n then v else r.sreg m := by
  unfold Regs.sreg Regs.setS
  by_cases hm : m = 0#5
  · simp [hm]
  · have hm' : m.toNat ≠ 0 := fun h => hm (BitVec.eq_of_toNat_eq (by simpa using h))
    by_cases hn : n = 0 <;> simp [hm, hn, hm', SMap.get_set]

/-- Writing a mask and reading one: m0 reads all ones and takes nothing. -/
theorem Regs.mask_setM (r : Regs) (n : Nat) (v : Mask) (m : BitVec 3) :
    (r.setM n v).mask m = if m = 0 then BitVec.allOnes 128 else if m.toNat = n then v else r.mask m := by
  unfold Regs.mask Regs.setM
  by_cases hm : m = 0#3
  · simp [hm]
  · have hm' : m.toNat ≠ 0 := fun h => hm (BitVec.eq_of_toNat_eq (by simpa using h))
    by_cases hn : n = 0 <;> simp [hm, hn, hm', SMap.get_set]

/-- Writing a predicate and reading one: p0 reads 1 and takes nothing. -/
theorem Regs.pred_setP (r : Regs) (n : Nat) (v : Bool) (m : BitVec 3) :
    (r.setP n v).pred m = if m = 0 then true else if m.toNat = n then v else r.pred m := by
  unfold Regs.pred Regs.setP
  by_cases hm : m = 0#3
  · simp [hm]
  · have hm' : m.toNat ≠ 0 := fun h => hm (BitVec.eq_of_toNat_eq (by simpa using h))
    have h8 : m.toNat < 8 := m.isLt
    by_cases hn : n = 0
    · simp [hm, hn, hm']
    · by_cases hmn : m.toNat = n
      · subst hmn
        cases v <;> simp [hm, hn, h8]
      · cases v
        · simp [hm, hn, hmn]
          omega
        · simp [hm, hn, hmn]
          omega

/-! ### Contexts: events and trace records touch nothing else -/

@[simp] theorem Ctx.event_inflight (c : Ctx) (now code : Nat) (off : BitVec 16) (slot amt : Nat) :
    (c.event now code off slot amt).inflight = c.inflight := rfl
@[simp] theorem Ctx.traceRec_inflight (c : Ctx) (now kind code : Nat) (off : BitVec 16) (slot : Nat) (tgt : BitVec 16) (ret : Bool) :
    (c.traceRec now kind code off slot tgt ret).inflight = c.inflight := rfl
@[simp] theorem Ctx.event_fa (c : Ctx) (now code : Nat) (off : BitVec 16) (slot amt : Nat) :
    (c.event now code off slot amt).fa = c.fa := rfl
@[simp] theorem Ctx.traceRec_fa (c : Ctx) (now kind code : Nat) (off : BitVec 16) (slot : Nat) (tgt : BitVec 16) (ret : Bool) :
    (c.traceRec now kind code off slot tgt ret).fa = c.fa := rfl
@[simp] theorem Ctx.event_fb (c : Ctx) (now code : Nat) (off : BitVec 16) (slot amt : Nat) :
    (c.event now code off slot amt).fb = c.fb := rfl
@[simp] theorem Ctx.traceRec_fb (c : Ctx) (now kind code : Nat) (off : BitVec 16) (slot : Nat) (tgt : BitVec 16) (ret : Bool) :
    (c.traceRec now kind code off slot tgt ret).fb = c.fb := rfl
@[simp] theorem Ctx.event_dhist (c : Ctx) (now code : Nat) (off : BitVec 16) (slot amt : Nat) :
    (c.event now code off slot amt).dhist = c.dhist := rfl
@[simp] theorem Ctx.traceRec_dhist (c : Ctx) (now kind code : Nat) (off : BitVec 16) (slot : Nat) (tgt : BitVec 16) (ret : Bool) :
    (c.traceRec now kind code off slot tgt ret).dhist = c.dhist := rfl
@[simp] theorem Ctx.event_qtrap (c : Ctx) (now code : Nat) (off : BitVec 16) (slot amt : Nat) :
    (c.event now code off slot amt).qtrap = c.qtrap := rfl
@[simp] theorem Ctx.traceRec_qtrap (c : Ctx) (now kind code : Nat) (off : BitVec 16) (slot : Nat) (tgt : BitVec 16) (ret : Bool) :
    (c.traceRec now kind code off slot tgt ret).qtrap = c.qtrap := rfl
@[simp] theorem Ctx.event_shn (c : Ctx) (now code : Nat) (off : BitVec 16) (slot amt : Nat) :
    (c.event now code off slot amt).shn = c.shn := rfl
@[simp] theorem Ctx.traceRec_shn (c : Ctx) (now kind code : Nat) (off : BitVec 16) (slot : Nat) (tgt : BitVec 16) (ret : Bool) :
    (c.traceRec now kind code off slot tgt ret).shn = c.shn := rfl
@[simp] theorem Ctx.event_tvec (c : Ctx) (now code : Nat) (off : BitVec 16) (slot amt : Nat) :
    (c.event now code off slot amt).tvec = c.tvec := rfl
@[simp] theorem Ctx.traceRec_tvec (c : Ctx) (now kind code : Nat) (off : BitVec 16) (slot : Nat) (tgt : BitVec 16) (ret : Bool) :
    (c.traceRec now kind code off slot tgt ret).tvec = c.tvec := rfl
@[simp] theorem Ctx.event_sscr (c : Ctx) (now code : Nat) (off : BitVec 16) (slot amt : Nat) :
    (c.event now code off slot amt).sscr = c.sscr := rfl
@[simp] theorem Ctx.traceRec_sscr (c : Ctx) (now kind code : Nat) (off : BitVec 16) (slot : Nat) (tgt : BitVec 16) (ret : Bool) :
    (c.traceRec now kind code off slot tgt ret).sscr = c.sscr := rfl
@[simp] theorem Ctx.event_dcr (c : Ctx) (now code : Nat) (off : BitVec 16) (slot amt : Nat) :
    (c.event now code off slot amt).dcr = c.dcr := rfl
@[simp] theorem Ctx.traceRec_dcr (c : Ctx) (now kind code : Nat) (off : BitVec 16) (slot : Nat) (tgt : BitVec 16) (ret : Bool) :
    (c.traceRec now kind code off slot tgt ret).dcr = c.dcr := rfl
@[simp] theorem Ctx.event_vw (c : Ctx) (now code : Nat) (off : BitVec 16) (slot amt : Nat) :
    (c.event now code off slot amt).vw = c.vw := rfl
@[simp] theorem Ctx.traceRec_vw (c : Ctx) (now kind code : Nat) (off : BitVec 16) (slot : Nat) (tgt : BitVec 16) (ret : Bool) :
    (c.traceRec now kind code off slot tgt ret).vw = c.vw := rfl
@[simp] theorem Ctx.event_sup (c : Ctx) (now code : Nat) (off : BitVec 16) (slot amt : Nat) :
    (c.event now code off slot amt).sup = c.sup := rfl
@[simp] theorem Ctx.traceRec_sup (c : Ctx) (now kind code : Nat) (off : BitVec 16) (slot : Nat) (tgt : BitVec 16) (ret : Bool) :
    (c.traceRec now kind code off slot tgt ret).sup = c.sup := rfl
@[simp] theorem Ctx.event_pc (c : Ctx) (now code : Nat) (off : BitVec 16) (slot amt : Nat) :
    (c.event now code off slot amt).pc = c.pc := rfl
@[simp] theorem Ctx.traceRec_pc (c : Ctx) (now kind code : Nat) (off : BitVec 16) (slot : Nat) (tgt : BitVec 16) (ret : Bool) :
    (c.traceRec now kind code off slot tgt ret).pc = c.pc := rfl
@[simp] theorem Ctx.event_pend (c : Ctx) (now code : Nat) (off : BitVec 16) (slot amt : Nat) :
    (c.event now code off slot amt).pend = c.pend := rfl
@[simp] theorem Ctx.traceRec_pend (c : Ctx) (now kind code : Nat) (off : BitVec 16) (slot : Nat) (tgt : BitVec 16) (ret : Bool) :
    (c.traceRec now kind code off slot tgt ret).pend = c.pend := rfl
@[simp] theorem Ctx.event_nulls (c : Ctx) (now code : Nat) (off : BitVec 16) (slot amt : Nat) :
    (c.event now code off slot amt).nulls = c.nulls := rfl
@[simp] theorem Ctx.traceRec_nulls (c : Ctx) (now kind code : Nat) (off : BitVec 16) (slot : Nat) (tgt : BitVec 16) (ret : Bool) :
    (c.traceRec now kind code off slot tgt ret).nulls = c.nulls := rfl
@[simp] theorem Ctx.event_ldep (c : Ctx) (now code : Nat) (off : BitVec 16) (slot amt : Nat) :
    (c.event now code off slot amt).ldep = c.ldep := rfl
@[simp] theorem Ctx.traceRec_ldep (c : Ctx) (now kind code : Nat) (off : BitVec 16) (slot : Nat) (tgt : BitVec 16) (ret : Bool) :
    (c.traceRec now kind code off slot tgt ret).ldep = c.ldep := rfl
@[simp] theorem Ctx.event_ls (c : Ctx) (now code : Nat) (off : BitVec 16) (slot amt : Nat) :
    (c.event now code off slot amt).ls = c.ls := rfl
@[simp] theorem Ctx.traceRec_ls (c : Ctx) (now kind code : Nat) (off : BitVec 16) (slot : Nat) (tgt : BitVec 16) (ret : Bool) :
    (c.traceRec now kind code off slot tgt ret).ls = c.ls := rfl
@[simp] theorem Ctx.event_epc (c : Ctx) (now code : Nat) (off : BitVec 16) (slot amt : Nat) :
    (c.event now code off slot amt).epc = c.epc := rfl
@[simp] theorem Ctx.traceRec_epc (c : Ctx) (now kind code : Nat) (off : BitVec 16) (slot : Nat) (tgt : BitVec 16) (ret : Bool) :
    (c.traceRec now kind code off slot tgt ret).epc = c.epc := rfl
@[simp] theorem Ctx.event_ept (c : Ctx) (now code : Nat) (off : BitVec 16) (slot amt : Nat) :
    (c.event now code off slot amt).ept = c.ept := rfl
@[simp] theorem Ctx.traceRec_ept (c : Ctx) (now kind code : Nat) (off : BitVec 16) (slot : Nat) (tgt : BitVec 16) (ret : Bool) :
    (c.traceRec now kind code off slot tgt ret).ept = c.ept := rfl
@[simp] theorem Ctx.event_ecause (c : Ctx) (now code : Nat) (off : BitVec 16) (slot amt : Nat) :
    (c.event now code off slot amt).ecause = c.ecause := rfl
@[simp] theorem Ctx.traceRec_ecause (c : Ctx) (now kind code : Nat) (off : BitVec 16) (slot : Nat) (tgt : BitVec 16) (ret : Bool) :
    (c.traceRec now kind code off slot tgt ret).ecause = c.ecause := rfl
@[simp] theorem Ctx.event_eslot (c : Ctx) (now code : Nat) (off : BitVec 16) (slot amt : Nat) :
    (c.event now code off slot amt).eslot = c.eslot := rfl
@[simp] theorem Ctx.traceRec_eslot (c : Ctx) (now kind code : Nat) (off : BitVec 16) (slot : Nat) (tgt : BitVec 16) (ret : Bool) :
    (c.traceRec now kind code off slot tgt ret).eslot = c.eslot := rfl
@[simp] theorem Ctx.event_edone (c : Ctx) (now code : Nat) (off : BitVec 16) (slot amt : Nat) :
    (c.event now code off slot amt).edone = c.edone := rfl
@[simp] theorem Ctx.traceRec_edone (c : Ctx) (now kind code : Nat) (off : BitVec 16) (slot : Nat) (tgt : BitVec 16) (ret : Bool) :
    (c.traceRec now kind code off slot tgt ret).edone = c.edone := rfl
@[simp] theorem Ctx.event_einfo (c : Ctx) (now code : Nat) (off : BitVec 16) (slot amt : Nat) :
    (c.event now code off slot amt).einfo = c.einfo := rfl
@[simp] theorem Ctx.traceRec_einfo (c : Ctx) (now kind code : Nat) (off : BitVec 16) (slot : Nat) (tgt : BitVec 16) (ret : Bool) :
    (c.traceRec now kind code off slot tgt ret).einfo = c.einfo := rfl
@[simp] theorem Ctx.event_toRegs (c : Ctx) (now code : Nat) (off : BitVec 16) (slot amt : Nat) :
    (c.event now code off slot amt).toRegs = c.toRegs := rfl
@[simp] theorem Ctx.traceRec_toRegs (c : Ctx) (now kind code : Nat) (off : BitVec 16) (slot : Nat) (tgt : BitVec 16) (ret : Bool) :
    (c.traceRec now kind code off slot tgt ret).toRegs = c.toRegs := rfl
@[simp] theorem Ctx.event_cmap (c : Ctx) (now code : Nat) (off : BitVec 16) (slot amt : Nat) :
    (c.event now code off slot amt).cmap = c.cmap := rfl
@[simp] theorem Ctx.traceRec_cmap (c : Ctx) (now kind code : Nat) (off : BitVec 16) (slot : Nat) (tgt : BitVec 16) (ret : Bool) :
    (c.traceRec now kind code off slot tgt ret).cmap = c.cmap := rfl
@[simp] theorem Ctx.event_launch (c : Ctx) (now code : Nat) (off : BitVec 16) (slot amt : Nat) :
    (c.event now code off slot amt).launch = c.launch := rfl
@[simp] theorem Ctx.traceRec_launch (c : Ctx) (now kind code : Nat) (off : BitVec 16) (slot : Nat) (tgt : BitVec 16) (ret : Bool) :
    (c.traceRec now kind code off slot tgt ret).launch = c.launch := rfl
@[simp] theorem Ctx.event_life (c : Ctx) (now code : Nat) (off : BitVec 16) (slot amt : Nat) :
    (c.event now code off slot amt).life = c.life := rfl
@[simp] theorem Ctx.traceRec_life (c : Ctx) (now kind code : Nat) (off : BitVec 16) (slot : Nat) (tgt : BitVec 16) (ret : Bool) :
    (c.traceRec now kind code off slot tgt ret).life = c.life := rfl
@[simp] theorem Ctx.event_preq (c : Ctx) (now code : Nat) (off : BitVec 16) (slot amt : Nat) :
    (c.event now code off slot amt).preq = c.preq := rfl
@[simp] theorem Ctx.traceRec_preq (c : Ctx) (now kind code : Nat) (off : BitVec 16) (slot : Nat) (tgt : BitVec 16) (ret : Bool) :
    (c.traceRec now kind code off slot tgt ret).preq = c.preq := rfl
@[simp] theorem Ctx.event_xq (c : Ctx) (now code : Nat) (off : BitVec 16) (slot amt : Nat) :
    (c.event now code off slot amt).xq = c.xq := rfl
@[simp] theorem Ctx.traceRec_xq (c : Ctx) (now kind code : Nat) (off : BitVec 16) (slot : Nat) (tgt : BitVec 16) (ret : Bool) :
    (c.traceRec now kind code off slot tgt ret).xq = c.xq := rfl
@[simp] theorem Ctx.event_point (c : Ctx) (now code : Nat) (off : BitVec 16) (slot amt : Nat) :
    (c.event now code off slot amt).point = c.point := rfl
@[simp] theorem Ctx.traceRec_point (c : Ctx) (now kind code : Nat) (off : BitVec 16) (slot : Nat) (tgt : BitVec 16) (ret : Bool) :
    (c.traceRec now kind code off slot tgt ret).point = c.point := rfl
@[simp] theorem Ctx.event_deferred (c : Ctx) (now code : Nat) (off : BitVec 16) (slot amt : Nat) :
    (c.event now code off slot amt).deferred = c.deferred := rfl
@[simp] theorem Ctx.traceRec_deferred (c : Ctx) (now kind code : Nat) (off : BitVec 16) (slot : Nat) (tgt : BitVec 16) (ret : Bool) :
    (c.traceRec now kind code off slot tgt ret).deferred = c.deferred := rfl
@[simp] theorem Ctx.event_psc (c : Ctx) (now code : Nat) (off : BitVec 16) (slot amt : Nat) :
    (c.event now code off slot amt).psc = c.psc := rfl
@[simp] theorem Ctx.traceRec_psc (c : Ctx) (now kind code : Nat) (off : BitVec 16) (slot : Nat) (tgt : BitVec 16) (ret : Bool) :
    (c.traceRec now kind code off slot tgt ret).psc = c.psc := rfl
@[simp] theorem Ctx.event_resume (c : Ctx) (now code : Nat) (off : BitVec 16) (slot amt : Nat) :
    (c.event now code off slot amt).resume = c.resume := rfl
@[simp] theorem Ctx.traceRec_resume (c : Ctx) (now kind code : Nat) (off : BitVec 16) (slot : Nat) (tgt : BitVec 16) (ret : Bool) :
    (c.traceRec now kind code off slot tgt ret).resume = c.resume := rfl
@[simp] theorem Ctx.event_kept (c : Ctx) (now code : Nat) (off : BitVec 16) (slot amt : Nat) :
    (c.event now code off slot amt).kept = c.kept := rfl
@[simp] theorem Ctx.traceRec_kept (c : Ctx) (now kind code : Nat) (off : BitVec 16) (slot : Nat) (tgt : BitVec 16) (ret : Bool) :
    (c.traceRec now kind code off slot tgt ret).kept = c.kept := rfl
@[simp] theorem Ctx.event_keptFifo (c : Ctx) (now code : Nat) (off : BitVec 16) (slot amt : Nat) :
    (c.event now code off slot amt).keptFifo = c.keptFifo := rfl
@[simp] theorem Ctx.traceRec_keptFifo (c : Ctx) (now kind code : Nat) (off : BitVec 16) (slot : Nat) (tgt : BitVec 16) (ret : Bool) :
    (c.traceRec now kind code off slot tgt ret).keptFifo = c.keptFifo := rfl
@[simp] theorem Ctx.event_stepped (c : Ctx) (now code : Nat) (off : BitVec 16) (slot amt : Nat) :
    (c.event now code off slot amt).stepped = c.stepped := rfl
@[simp] theorem Ctx.traceRec_stepped (c : Ctx) (now kind code : Nat) (off : BitVec 16) (slot : Nat) (tgt : BitVec 16) (ret : Bool) :
    (c.traceRec now kind code off slot tgt ret).stepped = c.stepped := rfl
@[simp] theorem Ctx.event_cyc (c : Ctx) (now code : Nat) (off : BitVec 16) (slot amt : Nat) :
    (c.event now code off slot amt).cyc = c.cyc := rfl
@[simp] theorem Ctx.traceRec_cyc (c : Ctx) (now kind code : Nat) (off : BitVec 16) (slot : Nat) (tgt : BitVec 16) (ret : Bool) :
    (c.traceRec now kind code off slot tgt ret).cyc = c.cyc := rfl
@[simp] theorem Ctx.event_bars (c : Ctx) (now code : Nat) (off : BitVec 16) (slot amt : Nat) :
    (c.event now code off slot amt).bars = c.bars := rfl
@[simp] theorem Ctx.traceRec_bars (c : Ctx) (now kind code : Nat) (off : BitVec 16) (slot : Nat) (tgt : BitVec 16) (ret : Bool) :
    (c.traceRec now kind code off slot tgt ret).bars = c.bars := rfl
@[simp] theorem Ctx.event_dsum (c : Ctx) (now code : Nat) (off : BitVec 16) (slot amt : Nat) :
    (c.event now code off slot amt).dsum = c.dsum := rfl
@[simp] theorem Ctx.traceRec_dsum (c : Ctx) (now kind code : Nat) (off : BitVec 16) (slot : Nat) (tgt : BitVec 16) (ret : Bool) :
    (c.traceRec now kind code off slot tgt ret).dsum = c.dsum := rfl
@[simp] theorem Ctx.event_timed (c : Ctx) (now code : Nat) (off : BitVec 16) (slot amt : Nat) :
    (c.event now code off slot amt).timed = c.timed := rfl
@[simp] theorem Ctx.traceRec_timed (c : Ctx) (now kind code : Nat) (off : BitVec 16) (slot : Nat) (tgt : BitVec 16) (ret : Bool) :
    (c.traceRec now kind code off slot tgt ret).timed = c.timed := rfl
@[simp] theorem Ctx.event_checked (c : Ctx) (now code : Nat) (off : BitVec 16) (slot amt : Nat) :
    (c.event now code off slot amt).checked = c.checked := rfl
@[simp] theorem Ctx.traceRec_checked (c : Ctx) (now kind code : Nat) (off : BitVec 16) (slot : Nat) (tgt : BitVec 16) (ret : Bool) :
    (c.traceRec now kind code off slot tgt ret).checked = c.checked := rfl
@[simp] theorem Ctx.event_span (c : Ctx) (now code : Nat) (off : BitVec 16) (slot amt : Nat) :
    (c.event now code off slot amt).span = c.span := rfl
@[simp] theorem Ctx.traceRec_span (c : Ctx) (now kind code : Nat) (off : BitVec 16) (slot : Nat) (tgt : BitVec 16) (ret : Bool) :
    (c.traceRec now kind code off slot tgt ret).span = c.span := rfl
@[simp] theorem Ctx.event_pos (c : Ctx) (now code : Nat) (off : BitVec 16) (slot amt : Nat) :
    (c.event now code off slot amt).pos = c.pos := rfl
@[simp] theorem Ctx.traceRec_pos (c : Ctx) (now kind code : Nat) (off : BitVec 16) (slot : Nat) (tgt : BitVec 16) (ret : Bool) :
    (c.traceRec now kind code off slot tgt ret).pos = c.pos := rfl
@[simp] theorem Ctx.event_flen (c : Ctx) (now code : Nat) (off : BitVec 16) (slot amt : Nat) :
    (c.event now code off slot amt).flen = c.flen := rfl
@[simp] theorem Ctx.traceRec_flen (c : Ctx) (now kind code : Nat) (off : BitVec 16) (slot : Nat) (tgt : BitVec 16) (ret : Bool) :
    (c.traceRec now kind code off slot tgt ret).flen = c.flen := rfl
@[simp] theorem Ctx.event_saved (c : Ctx) (now code : Nat) (off : BitVec 16) (slot amt : Nat) :
    (c.event now code off slot amt).saved = c.saved := rfl
@[simp] theorem Ctx.traceRec_saved (c : Ctx) (now kind code : Nat) (off : BitVec 16) (slot : Nat) (tgt : BitVec 16) (ret : Bool) :
    (c.traceRec now kind code off slot tgt ret).saved = c.saved := rfl
@[simp] theorem Ctx.event_chk (c : Ctx) (now code : Nat) (off : BitVec 16) (slot amt : Nat) :
    (c.event now code off slot amt).chk = c.chk := rfl
@[simp] theorem Ctx.traceRec_chk (c : Ctx) (now kind code : Nat) (off : BitVec 16) (slot : Nat) (tgt : BitVec 16) (ret : Bool) :
    (c.traceRec now kind code off slot tgt ret).chk = c.chk := rfl
@[simp] theorem Ctx.event_fence (c : Ctx) (now code : Nat) (off : BitVec 16) (slot amt : Nat) :
    (c.event now code off slot amt).fence = c.fence := rfl
@[simp] theorem Ctx.traceRec_fence (c : Ctx) (now kind code : Nat) (off : BitVec 16) (slot : Nat) (tgt : BitVec 16) (ret : Bool) :
    (c.traceRec now kind code off slot tgt ret).fence = c.fence := rfl
@[simp] theorem Ctx.event_nextOrd (c : Ctx) (now code : Nat) (off : BitVec 16) (slot amt : Nat) :
    (c.event now code off slot amt).nextOrd = c.nextOrd := rfl
@[simp] theorem Ctx.traceRec_nextOrd (c : Ctx) (now kind code : Nat) (off : BitVec 16) (slot : Nat) (tgt : BitVec 16) (ret : Bool) :
    (c.traceRec now kind code off slot tgt ret).nextOrd = c.nextOrd := rfl
@[simp] theorem Ctx.event_serial (c : Ctx) (now code : Nat) (off : BitVec 16) (slot amt : Nat) :
    (c.event now code off slot amt).serial = c.serial := rfl
@[simp] theorem Ctx.traceRec_serial (c : Ctx) (now kind code : Nat) (off : BitVec 16) (slot : Nat) (tgt : BitVec 16) (ret : Bool) :
    (c.traceRec now kind code off slot tgt ret).serial = c.serial := rfl
@[simp] theorem Ctx.event_itab (c : Ctx) (now code : Nat) (off : BitVec 16) (slot amt : Nat) :
    (c.event now code off slot amt).itab = c.itab := rfl
@[simp] theorem Ctx.traceRec_itab (c : Ctx) (now kind code : Nat) (off : BitVec 16) (slot : Nat) (tgt : BitVec 16) (ret : Bool) :
    (c.traceRec now kind code off slot tgt ret).itab = c.itab := rfl
@[simp] theorem Ctx.event_ttab (c : Ctx) (now code : Nat) (off : BitVec 16) (slot amt : Nat) :
    (c.event now code off slot amt).ttab = c.ttab := rfl
@[simp] theorem Ctx.traceRec_ttab (c : Ctx) (now kind code : Nat) (off : BitVec 16) (slot : Nat) (tgt : BitVec 16) (ret : Bool) :
    (c.traceRec now kind code off slot tgt ret).ttab = c.ttab := rfl
@[simp] theorem Ctx.event_stuck (c : Ctx) (now code : Nat) (off : BitVec 16) (slot amt : Nat) :
    (c.event now code off slot amt).stuck = c.stuck := rfl
@[simp] theorem Ctx.traceRec_stuck (c : Ctx) (now kind code : Nat) (off : BitVec 16) (slot : Nat) (tgt : BitVec 16) (ret : Bool) :
    (c.traceRec now kind code off slot tgt ret).stuck = c.stuck := rfl
@[simp] theorem Ctx.event_past (c : Ctx) (now code : Nat) (off : BitVec 16) (slot amt : Nat) :
    (c.event now code off slot amt).past = c.past := rfl
@[simp] theorem Ctx.traceRec_past (c : Ctx) (now kind code : Nat) (off : BitVec 16) (slot : Nat) (tgt : BitVec 16) (ret : Bool) :
    (c.traceRec now kind code off slot tgt ret).past = c.past := rfl
@[simp] theorem Ctx.event_timetable (c : Ctx) (now code : Nat) (off : BitVec 16) (slot amt : Nat) :
    (c.event now code off slot amt).timetable = c.timetable := rfl
@[simp] theorem Ctx.traceRec_timetable (c : Ctx) (now kind code : Nat) (off : BitVec 16) (slot : Nat) (tgt : BitVec 16) (ret : Bool) :
    (c.traceRec now kind code off slot tgt ret).timetable = c.timetable := rfl
@[simp] theorem Ctx.event_tpos (c : Ctx) (now code : Nat) (off : BitVec 16) (slot amt : Nat) :
    (c.event now code off slot amt).tpos = c.tpos := rfl
@[simp] theorem Ctx.traceRec_tpos (c : Ctx) (now kind code : Nat) (off : BitVec 16) (slot : Nat) (tgt : BitVec 16) (ret : Bool) :
    (c.traceRec now kind code off slot tgt ret).tpos = c.tpos := rfl
@[simp] theorem Ctx.event_slog (c : Ctx) (now code : Nat) (off : BitVec 16) (slot amt : Nat) :
    (c.event now code off slot amt).slog = c.slog := rfl
@[simp] theorem Ctx.traceRec_slog (c : Ctx) (now kind code : Nat) (off : BitVec 16) (slot : Nat) (tgt : BitVec 16) (ret : Bool) :
    (c.traceRec now kind code off slot tgt ret).slog = c.slog := rfl
@[simp] theorem Ctx.event_hold (c : Ctx) (now code : Nat) (off : BitVec 16) (slot amt : Nat) :
    (c.event now code off slot amt).hold = c.hold := rfl
@[simp] theorem Ctx.traceRec_hold (c : Ctx) (now kind code : Nat) (off : BitVec 16) (slot : Nat) (tgt : BitVec 16) (ret : Bool) :
    (c.traceRec now kind code off slot tgt ret).hold = c.hold := rfl
@[simp] theorem Ctx.event_probe (c : Ctx) (now code : Nat) (off : BitVec 16) (slot amt : Nat) :
    (c.event now code off slot amt).probe = c.probe := rfl
@[simp] theorem Ctx.traceRec_probe (c : Ctx) (now kind code : Nat) (off : BitVec 16) (slot : Nat) (tgt : BitVec 16) (ret : Bool) :
    (c.traceRec now kind code off slot tgt ret).probe = c.probe := rfl
@[simp] theorem Ctx.event_readyAt (c : Ctx) (now code : Nat) (off : BitVec 16) (slot amt : Nat) :
    (c.event now code off slot amt).readyAt = c.readyAt := rfl
@[simp] theorem Ctx.traceRec_readyAt (c : Ctx) (now kind code : Nat) (off : BitVec 16) (slot : Nat) (tgt : BitVec 16) (ret : Bool) :
    (c.traceRec now kind code off slot tgt ret).readyAt = c.readyAt := rfl
@[simp] theorem Ctx.event_wbase (c : Ctx) (now code : Nat) (off : BitVec 16) (slot amt : Nat) :
    (c.event now code off slot amt).wbase = c.wbase := rfl
@[simp] theorem Ctx.traceRec_wbase (c : Ctx) (now kind code : Nat) (off : BitVec 16) (slot : Nat) (tgt : BitVec 16) (ret : Bool) :
    (c.traceRec now kind code off slot tgt ret).wbase = c.wbase := rfl
@[simp] theorem Ctx.event_foot (c : Ctx) (now code : Nat) (off : BitVec 16) (slot amt : Nat) :
    (c.event now code off slot amt).foot = c.foot := rfl
@[simp] theorem Ctx.traceRec_foot (c : Ctx) (now kind code : Nat) (off : BitVec 16) (slot : Nat) (tgt : BitVec 16) (ret : Bool) :
    (c.traceRec now kind code off slot tgt ret).foot = c.foot := rfl
@[simp] theorem Ctx.event_locked (c : Ctx) (now code : Nat) (off : BitVec 16) (slot amt : Nat) :
    (c.event now code off slot amt).locked = c.locked := rfl
@[simp] theorem Ctx.traceRec_locked (c : Ctx) (now kind code : Nat) (off : BitVec 16) (slot : Nat) (tgt : BitVec 16) (ret : Bool) :
    (c.traceRec now kind code off slot tgt ret).locked = c.locked := rfl
@[simp] theorem Ctx.event_imgOp (c : Ctx) (now code : Nat) (off : BitVec 16) (slot amt : Nat) :
    (c.event now code off slot amt).imgOp = c.imgOp := rfl
@[simp] theorem Ctx.traceRec_imgOp (c : Ctx) (now kind code : Nat) (off : BitVec 16) (slot : Nat) (tgt : BitVec 16) (ret : Bool) :
    (c.traceRec now kind code off slot tgt ret).imgOp = c.imgOp := rfl
@[simp] theorem Ctx.event_imgAt (c : Ctx) (now code : Nat) (off : BitVec 16) (slot amt : Nat) :
    (c.event now code off slot amt).imgAt = c.imgAt := rfl
@[simp] theorem Ctx.traceRec_imgAt (c : Ctx) (now kind code : Nat) (off : BitVec 16) (slot : Nat) (tgt : BitVec 16) (ret : Bool) :
    (c.traceRec now kind code off slot tgt ret).imgAt = c.imgAt := rfl
@[simp] theorem Ctx.event_imgHold (c : Ctx) (now code : Nat) (off : BitVec 16) (slot amt : Nat) :
    (c.event now code off slot amt).imgHold = c.imgHold := rfl
@[simp] theorem Ctx.traceRec_imgHold (c : Ctx) (now kind code : Nat) (off : BitVec 16) (slot : Nat) (tgt : BitVec 16) (ret : Bool) :
    (c.traceRec now kind code off slot tgt ret).imgHold = c.imgHold := rfl
@[simp] theorem Ctx.event_vwNew (c : Ctx) (now code : Nat) (off : BitVec 16) (slot amt : Nat) :
    (c.event now code off slot amt).vwNew = c.vwNew := rfl
@[simp] theorem Ctx.traceRec_vwNew (c : Ctx) (now kind code : Nat) (off : BitVec 16) (slot : Nat) (tgt : BitVec 16) (ret : Bool) :
    (c.traceRec now kind code off slot tgt ret).vwNew = c.vwNew := rfl

end Sys2Proof.Machine
end

