-- ==== Sys2Proof/Laws/Frame.lean ====
section
/-! SUPPORT. What the close of a bundle leaves alone, said once (`State.closeBundle_calm`), and the slot operation as one
equation (`slotStep_next`). -/

namespace Sys2Proof.Machine

/-! ### The relations -/

theorem Core.Same.refl (c : Core) : c.Same c := ⟨rfl, rfl, fun _ _ => rfl, fun _ => rfl, rfl, rfl, rfl, rfl, rfl, rfl, rfl, rfl⟩

theorem Core.Same.trans {a b c : Core} (h : a.Same b) (g : b.Same c) : a.Same c where
  inflight := g.inflight.trans h.inflight
  regs := g.regs.trans h.regs
  rot n hn := (g.rot n hn).trans (h.rot n hn)
  space hr := (g.space fun n hn => (h.rot n hn).trans (hr n hn)).trans (h.space hr)
  fa := g.fa.trans h.fa
  fb := g.fb.trans h.fb
  dhist := g.dhist.trans h.dhist
  qtrap := g.qtrap.trans h.qtrap
  shn := g.shn.trans h.shn
  tvec := g.tvec.trans h.tvec
  sscr := g.sscr.trans h.sscr
  dcr := g.dcr.trans h.dcr

theorem Ctx.Same.refl (c : Ctx) : c.Same c := ⟨.refl _, rfl⟩

theorem Ctx.Same.trans {a b c : Ctx} (h : a.Same b) (g : b.Same c) : a.Same c := ⟨h.core.trans g.core, g.cmap.trans h.cmap⟩

theorem State.Still.refl (s : State) : s.Still s := ⟨rfl, rfl, rfl, rfl, rfl, rfl, rfl, fun _ => rfl, fun _ => rfl, fun _ => rfl⟩

theorem State.Still.trans {a b c : State} (h : a.Still b) (g : b.Still c) : a.Still c where
  zone := g.zone.trans h.zone
  hbm := g.hbm.trans h.hbm
  lpddr := g.lpddr.trans h.lpddr
  host := g.host.trans h.host
  peer := g.peer.trans h.peer
  arrHbm := g.arrHbm.trans h.arrHbm
  arrLpddr := g.arrLpddr.trans h.arrLpddr
  scratch x := (g.scratch x).trans (h.scratch x)
  cnt x := (g.cnt x).trans (h.cnt x)
  arr x := (g.arr x).trans (h.arr x)

theorem State.Calm.refl (s : State) : s.Calm s := ⟨.refl s, fun _ _ => .refl _⟩

theorem State.Calm.trans {a b c : State} (h : a.Calm b) (g : b.Calm c) : a.Calm c :=
  ⟨h.still.trans g.still, fun x k => (h.same x k).trans (g.same x k)⟩

/-- Only fields that neither relation reads have changed. -/
theorem State.Calm.of_eq {s t : State} (hz : t.zone = s.zone) (ht : t.tiles = s.tiles) (h1 : t.hbm = s.hbm)
    (h2 : t.lpddr = s.lpddr) (h3 : t.host = s.host) (h4 : t.peer = s.peer) (h5 : t.arrHbm = s.arrHbm)
    (h6 : t.arrLpddr = s.arrLpddr) : s.Calm t := by
  have hx : ∀ x, t.tile x = s.tile x := fun x => by simp [State.tile, ht]
  exact ⟨⟨hz, h1, h2, h3, h4, h5, h6, fun x => by rw [hx], fun x => by rw [hx], fun x => by rw [hx]⟩,
    fun x k => by simp only [State.ctx_def, hx]; exact .refl _⟩

theorem State.Still.setCtx (s : State) (t : Nat) (k : BitVec 2) (c : Ctx) : s.Still (s.setCtx t k c) where
  zone := rfl
  hbm := rfl
  lpddr := rfl
  host := rfl
  peer := rfl
  arrHbm := rfl
  arrLpddr := rfl
  scratch x := by simp only [State.tile_setCtx]; split <;> simp_all
  cnt x := by simp only [State.tile_setCtx]; split <;> simp_all
  arr x := by simp only [State.tile_setCtx]; split <;> simp_all

theorem State.Calm.setCtx {s : State} {t : Nat} {k : BitVec 2} {c : Ctx} (h : (s.ctx t k).Same c) : s.Calm (s.setCtx t k c) := by
  refine ⟨.setCtx s t k c, fun x j => ?_⟩
  simp only [State.ctx_setCtx]
  split
  · rename_i hx; obtain ⟨rfl, rfl⟩ := hx; exact h
  · exact .refl _

theorem State.Calm.updCtx {s : State} {t : Nat} {k : BitVec 2} {f : Ctx → Ctx} (h : ∀ c : Ctx, c.Same (f c)) :
    s.Calm (s.updCtx t k f) := .setCtx (h _)

theorem State.Calm.thenUpd {s₀ s : State} {t : Nat} {k : BitVec 2} {f : Ctx → Ctx} (h₀ : s₀.Calm s) (h : ∀ c : Ctx, c.Same (f c)) :
    s₀.Calm (s.updCtx t k f) := h₀.trans (.updCtx h)

theorem State.Calm.updLaunch (s : State) (id : LId) (f : Launch → Launch) : s.Calm (s.updLaunch id f) :=
  .of_eq rfl rfl rfl rfl rfl rfl rfl rfl

theorem State.Calm.foldl {α : Type} {f : State → α → State} (h : ∀ (s : State) (a : α), s.Calm (f s a)) (s : State) (l : List α) :
    s.Calm (l.foldl f s) := by
  induction l generalizing s with
  | nil => exact .refl s
  | cons a l ih => exact (h s a).trans (ih _)

/-- A change of a context in fields that `Same` does not read. -/
theorem Ctx.Same.of_core {c d : Ctx} (h1 : d.toRegs = c.toRegs) (h2 : d.inflight = c.inflight) (h3 : d.vw = c.vw)
    (h4 : d.fa = c.fa) (h5 : d.fb = c.fb) (h6 : d.dhist = c.dhist) (h7 : d.qtrap = c.qtrap) (h8 : d.shn = c.shn)
    (h9 : d.tvec = c.tvec) (h10 : d.sscr = c.sscr) (h11 : d.dcr = c.dcr) (h12 : d.cmap = c.cmap) : c.Same d :=
  ⟨⟨h2, by rw [h1], fun n _ => by simp [Core.view, h3], fun _ => by rw [h1], h4, h5, h6, h7, h8, h9, h10, h11⟩, h12⟩

/-- A choice between two contexts that are both the same as one. -/
theorem Ctx.Same.ite {c a b : Ctx} {p : Prop} [Decidable p] (ha : c.Same a) (hb : c.Same b) : c.Same (if p then a else b) := by
  split
  · exact ha
  · exact hb

/-! ### Rotation (R84, R85) -/

theorem vwRot_vwRotate (w : Word) : vwRot (vwRotate w) = vwRot w := by
  unfold vwRotate
  split
  · have h : ∀ x : Nat, (BitVec.ofNat 64 x <<< 26).getLsbD 16 = false := fun x => by simp
    simp [vwRot]
  · rfl

theorem vwRotate_of_still {w : Word} (h : vwRot w = false) : vwRotate w = w := by simp [vwRotate, h]

/-- The descriptors after a rotation. -/
theorem Core.rotate_view (c : Core) (ctr n : Nat) :
    (c.rotate ctr).view n = if n < 4 ∧ c.vwNew.getLsbD n = false then vwRotate (c.view n) else c.view n := by
  have hv : ∀ m : SMap Word, SMap.get 0 ((List.range 4).foldl (fun m n =>
      if c.vwNew.getLsbD n then m else SMap.set 0 m n (vwRotate (c.view n))) m) n =
      if n < 4 ∧ c.vwNew.getLsbD n = false then vwRotate (c.view n) else SMap.get 0 m n := by
    intro m
    have h4 : List.range 4 = [0, 1, 2, 3] := rfl
    simp only [h4, List.foldl]
    rcases Nat.lt_or_ge n 4 with hn | hn
    · have : n = 0 ∨ n = 1 ∨ n = 2 ∨ n = 3 := by omega
      rcases this with rfl | rfl | rfl | rfl <;>
        (split <;> split <;> split <;> split <;> simp_all [SMap.get_set])
    · have h0 : n ≠ 0 := by omega
      have h1 : n ≠ 1 := by omega
      have h2 : n ≠ 2 := by omega
      have h3 : n ≠ 3 := by omega
      have hx : (n < 4 ∧ c.vwNew.getLsbD n = false) = False := by simp; omega
      simp only [hx, if_false]
      split <;> split <;> split <;> split <;> simp [SMap.get_set, h0, h1, h2, h3]
  exact hv c.vw

theorem Core.rotate_rot (c : Core) (ctr n : Nat) : vwRot ((c.rotate ctr).view n) = vwRot (c.view n) := by
  rw [Core.rotate_view]
  split
  · exact vwRot_vwRotate _
  · rfl

theorem Core.inView_congr {c d : Core} {n : Nat} (h : d.view n = c.view n) (j : Nat) : d.inView n j = c.inView n j := by
  simp [Core.inView, h]

/-- With no rotating view no register is fallow in a rotation. -/
theorem Core.allFallow_of_still {c : Core} (h : ∀ n, n < 4 → vwRot (c.view n) = false) (j : Nat) : c.allFallow j = false := by
  have : ((List.range 4).filter fun n => c.inView n j && vwRot (c.view n)) = [] := by
    rw [List.filter_eq_nil_iff]
    intro n hn
    simp [h n (by simpa using hn)]
  simp [Core.allFallow, this]

/-- A rotation changes the descriptors of rotating views and the contents of registers that become live. -/
theorem Core.rotate_same (c : Core) (ctr : Nat) : c.Same (c.rotate ctr) where
  inflight := rfl
  regs := rfl
  rot n _ := c.rotate_rot ctr n
  space h := by
    have : ((List.range 256).filter fun j => c.allFallow j && !({ c with vw := (c.rotate ctr).vw } : Core).allFallow j) = [] := by
      rw [List.filter_eq_nil_iff]
      intro j _
      simp [Core.allFallow_of_still h j]
    show (((List.range 256).filter fun j => c.allFallow j && !({ c with vw := (c.rotate ctr).vw } : Core).allFallow j).foldl _ _) = _
    rw [this]
    rfl
  fa := rfl
  fb := rfl
  dhist := rfl
  qtrap := rfl
  shn := rfl
  tvec := rfl
  sscr := rfl
  dcr := rfl

/-! ### The sequencer (R178-R184, R192) -/

/-- A change of a core in fields that `Same` does not read. -/
theorem Core.Same.of_regs {c d : Core} (h1 : d.toRegs = c.toRegs) (h2 : d.inflight = c.inflight) (h3 : d.vw = c.vw)
    (h4 : d.fa = c.fa) (h5 : d.fb = c.fb) (h6 : d.dhist = c.dhist) (h7 : d.qtrap = c.qtrap) (h8 : d.shn = c.shn)
    (h9 : d.tvec = c.tvec) (h10 : d.sscr = c.sscr) (h11 : d.dcr = c.dcr) : c.Same d :=
  ⟨h2, by rw [h1], fun n _ => by simp [Core.view, h3], fun _ => by rw [h1], h4, h5, h6, h7, h8, h9, h10, h11⟩

theorem Core.popLevel_same (c : Core) : c.Same c.popLevel := .of_regs rfl rfl rfl rfl rfl rfl rfl rfl rfl rfl rfl

theorem iterEnds_same (a : BitVec 16) (ctr fuel : Nat) (x : Iter) : x.c.Same (iterEnds a ctr fuel x).c := by
  induction fuel generalizing x with
  | zero => exact .refl _
  | succ n ih =>
    simp only [iterEnds]
    split
    · exact .refl _
    · have h1 : ∀ l : Level, x.c.Same { x.c with ls := SMap.set {} x.c.ls (x.c.ldep - 1) l } :=
        fun l => .of_regs rfl rfl rfl rfl rfl rfl rfl rfl rfl rfl rfl
      have h2 : ∀ (b : Bool) (c : Core) (r : Nat), c.Same (if b then c.rotate r else c) := by
        intro b c r; cases b
        · exact .refl _
        · exact c.rotate_same r
      split
      · exact (h1 _).trans (h2 _ _ _)
      · refine Core.Same.trans ?_ (ih _)
        refine Core.Same.trans ?_ (Core.popLevel_same _)
        exact (h1 _).trans (h2 _ _ _)

theorem Core.tretLoad_same (c : Core) : c.Same c.tretLoad := .of_regs rfl rfl rfl rfl rfl rfl rfl rfl rfl rfl rfl

theorem Core.seqStep_same (c : Core) (a : BitVec 16) (xfer : Option Goal) (annul : Bool) (ctr : Nat) :
    c.Same (c.seqStep a xfer annul ctr).c := by
  have h := iterEnds_same a ctr 7 ⟨c, a + 1, 0, false⟩
  simp only [Core.seqStep]
  split
  · split
    · exact h.trans (.of_regs rfl rfl rfl rfl rfl rfl rfl rfl rfl rfl rfl)
    · exact h.trans (.of_regs rfl rfl rfl rfl rfl rfl rfl rfl rfl rfl rfl)
  · exact h.trans (.of_regs rfl rfl rfl rfl rfl rfl rfl rfl rfl rfl rfl)

/-! ### The parts of the close -/

theorem Ctx.event_same (c : Ctx) (now code : Nat) (off : BitVec 16) (slot amt : Nat) : c.Same (c.event now code off slot amt) :=
  .of_core rfl rfl rfl rfl rfl rfl rfl rfl rfl rfl rfl rfl

theorem Ctx.traceRec_same (c : Ctx) (now kind code : Nat) (off : BitVec 16) (slot : Nat) (tgt : BitVec 16) (ret : Bool) :
    c.Same (c.traceRec now kind code off slot tgt ret) := .of_core rfl rfl rfl rfl rfl rfl rfl rfl rfl rfl rfl rfl

theorem Ctx.enter_same (c : Ctx) (x : Trap) (ready : Nat) : c.Same (c.enter x ready) :=
  .of_core rfl rfl rfl rfl rfl rfl rfl rfl rfl rfl rfl rfl

/-- A choice between two states, both reached calmly. -/
theorem State.Calm.ite {s a b : State} {p : Prop} [Decidable p] (ha : s.Calm a) (hb : s.Calm b) : s.Calm (if p then a else b) := by
  split
  · exact ha
  · exact hb

theorem State.failOf_calm (s : State) (c : Ctx) (f : BitVec 16) (t : Nat) : s.Calm (s.failOf c f t) := by
  unfold State.failOf
  split
  · exact .updLaunch ..
  · exact .refl s

theorem State.sendPath_calm (s : State) (u : Cur) (r : Nat) : s.Calm (s.sendPath u r) := by
  unfold State.sendPath
  apply State.Calm.foldl
  intro s i
  split
  · exact .updCtx fun c => .of_core rfl rfl rfl rfl rfl rfl rfl rfl rfl rfl rfl rfl
  · exact .refl s

theorem State.logStream_calm (s : State) (u : Cur) : s.Calm (s.logStream u) := by
  refine .updCtx fun c => ?_
  split
  · split
    · exact .of_core rfl rfl rfl rfl rfl rfl rfl rfl rfl rfl rfl rfl
    · dsimp only
      split
      · exact .of_core rfl rfl rfl rfl rfl rfl rfl rfl rfl rfl rfl rfl
      · exact .refl c
  · exact .refl c

theorem Ctx.rewind_same (c : Ctx) (now r : Nat) : c.Same (c.rewind now r) := by
  unfold Ctx.rewind
  split <;> exact .of_core rfl rfl rfl rfl rfl rfl rfl rfl rfl rfl rfl rfl

theorem State.stopStream_calm (s : State) (t : Nat) (k : BitVec 2) (x : Trap) (num quit : Nat) :
    s.Calm (s.stopStream t k x num quit) := by
  simp only [State.stopStream]
  refine State.Calm.trans (State.Calm.trans ?_ (.updCtx fun c => ?_)) (.updCtx fun c => ?_)
  · refine .ite (.refl s) (.foldl (fun s y => .updCtx fun c => ?_) s _)
    split
    · exact .of_core rfl rfl rfl rfl rfl rfl rfl rfl rfl rfl rfl rfl
    · exact .refl c
  · exact .of_core rfl rfl rfl rfl rfl rfl rfl rfl rfl rfl rfl rfl
  · refine .ite ?_ (.of_core rfl rfl rfl rfl rfl rfl rfl rfl rfl rfl rfl rfl)
    refine Ctx.Same.trans ?_ (Ctx.rewind_same _ _ _)
    exact .of_core rfl rfl rfl rfl rfl rfl rfl rfl rfl rfl rfl rfl

/-- Taking a trap changes no register, no memory and no result in flight. -/
theorem State.takeTrap_calm (s : State) (t : Nat) (k : BitVec 2) (x : Trap) (num : Nat) : s.Calm (s.takeTrap t k x num) := by
  simp only [State.takeTrap]
  split
  · refine State.Calm.trans (.setCtx ?_) (State.failOf_calm ..)
    exact .of_core rfl rfl rfl rfl rfl rfl rfl rfl rfl rfl rfl rfl
  · split
    · exact (State.stopStream_calm ..).trans (.updCtx fun c => c.traceRec_same ..)
    · exact .setCtx ((Ctx.enter_same _ _ _).trans (Ctx.traceRec_same ..))

/-- A change of a tile in fields that no context, scratchpad, counter or bad block reads. -/
theorem State.Calm.setTile {s : State} {t : Nat} {x : Tile} (hk : ∀ k, x.get k = (s.tile t).get k)
    (h1 : x.scratch = (s.tile t).scratch) (h2 : x.cnt = (s.tile t).cnt) (h3 : x.arr = (s.tile t).arr) : s.Calm (s.setTile t x) := by
  refine ⟨⟨rfl, rfl, rfl, rfl, rfl, rfl, rfl, fun y => ?_, fun y => ?_, fun y => ?_⟩, fun y k => ?_⟩
  · simp only [State.tile_setTile]; split
    · rename_i hy; subst hy; exact h1
    · rfl
  · simp only [State.tile_setTile]; split
    · rename_i hy; subst hy; exact h2
    · rfl
  · simp only [State.tile_setTile]; split
    · rename_i hy; subst hy; exact h3
    · rfl
  · simp only [State.ctx_setTile]; split
    · rename_i hy; subst hy
      rw [hk k]
      exact .refl _
    · exact .refl _

/-- What a bundle does as a point changes no register and no result in flight. -/
theorem Ctx.acted_same (c : Ctx) (u : Cur) (pe d : Bool) : c.Same (c.acted u pe d) := by
  unfold Ctx.acted
  exact .ite (.refl c) (.of_core rfl rfl rfl rfl rfl rfl rfl rfl rfl rfl rfl rfl)

theorem State.headerActs_calm (s : State) (u : Cur) : s.Calm (s.headerActs u) := by
  have agenda : ∀ (s : State) (a : List Instr), s.Calm { s with agenda := a } := fun s a => .of_eq rfl rfl rfl rfl rfl rfl rfl rfl
  simp only [State.headerActs]
  split <;> split
  · refine State.Calm.trans ?_ (agenda _ _)
    exact .setTile (fun _ => rfl) rfl rfl rfl
  · exact agenda _ _
  · exact .setTile (fun _ => rfl) rfl rfl rfl
  · exact .refl s

theorem State.actHeader_calm (s : State) (u : Cur) : s.Calm (s.actHeader u) :=
  (State.Calm.updCtx fun c => c.acted_same ..).trans (State.headerActs_calm ..)

theorem State.exitContext_calm (s : State) (u : Cur) : s.Calm (s.exitContext u) := by
  simp only [State.exitContext]
  generalize h0 : s.actHeader u = s0
  have c0 : s.Calm s0 := by subst h0; exact s.actHeader_calm u
  generalize h1 : (if ((s0.ctx u.t u.k).leads && decide ((s0.ctx u.t u.k).span ≥ 2)) = true then s0.sendPath u 0 else s0) = s1
  have c1 : s0.Calm s1 := by subst h1; exact .ite (s0.sendPath_calm u 0) (.refl s0)
  generalize h2 : s1.setCtx u.t u.k _ = s2
  have c2 : s0.Calm s2 := by
    subst h2
    refine ⟨c1.still.trans (.setCtx ..), fun x k => ?_⟩
    simp only [State.ctx_setCtx]
    split
    · rename_i hx
      obtain ⟨rfl, rfl⟩ := hx
      refine Ctx.Same.trans ?_ (Ctx.traceRec_same ..)
      exact .of_core rfl rfl rfl rfl rfl rfl rfl rfl rfl rfl rfl rfl
    · exact c1.same x k
  have fin : ∀ s3 : State, s0.Calm s3 → s0.Calm (if (u.sup && (s0.ctx u.t u.k).ecause.getLsbD 16) = true then
      (s3.updCtx u.t u.k fun c => { c with life := .stopped }).failOf (s0.ctx u.t u.k) ((s0.ctx u.t u.k).ecause.setWidth 16) u.t
      else match (s0.ctx u.t u.k).xq.find? fun x => x.2.qs = 1 with
        | some x => s3.failOf (s0.ctx u.t u.k) (x.2.ecode.setWidth 16) u.t
        | none => s3) := by
    intro s3 c3
    refine .ite ?_ ?_
    · refine State.Calm.trans ?_ (State.failOf_calm ..)
      refine State.Calm.trans c3 (.updCtx fun c => ?_)
      exact .of_core rfl rfl rfl rfl rfl rfl rfl rfl rfl rfl rfl rfl
    · split
      · exact c3.trans (State.failOf_calm ..)
      · exact c3
  refine c0.trans (fin _ ?_)
  split
  · exact .ite (c2.trans (.updLaunch ..)) c2
  · exact c2

theorem Core.rotates_same (n ctr : Nat) (c : Core) : c.Same ((List.range n).foldl (fun c i => c.rotate (ctr + 256 * i)) c) := by
  generalize List.range n = l
  induction l generalizing c with
  | nil => exact .refl c
  | cons i l ih => exact (c.rotate_same _).trans (ih _)

theorem Iter.kept_same (x : Iter) (skipped : Bool) {c : Core} (h : c.Same x.c) : c.Same (x.kept skipped c).c := by
  cases skipped
  · exact h
  · exact { h with regs := rfl, rot := fun _ _ => rfl, space := fun _ => rfl }

theorem State.retireBundle_calm (s : State) (u : Cur) : s.Calm (s.retireBundle u) := by
  simp only [State.retireBundle]
  generalize u.defers _ _ = d
  generalize hx : (if (s.ctx u.t u.k).leads = true then _ else _ : Iter) = x
  have hc : (s.ctx u.t u.k).toCore.Same x.c := by
    subst hx
    split
    · refine Core.Same.trans ?_ (Iter.kept_same _ _ (Core.seqStep_same ..))
      exact .of_regs rfl rfl rfl rfl rfl rfl rfl rfl rfl rfl rfl
    · exact Core.rotates_same ..
  have h1 : (s.ctx u.t u.k).Same { s.ctx u.t u.k with toCore := x.c } := ⟨hc, rfl⟩
  refine .ite (State.Calm.trans ?_ (State.sendPath_calm ..)) ?_
  all_goals
    refine State.Calm.trans ?_ (State.headerActs_calm ..)
    have h0 : s.Calm { s with freeCtr := s.freeCtr + 256 * x.rots } := .of_eq rfl rfl rfl rfl rfl rfl rfl rfl
    refine h0.trans (.setCtx ?_)
    have h2 := h1.trans (Ctx.acted_same _ u x.pe d)
    refine .ite (.ite ?_ ?_) ?_
    iterate 2
      refine Ctx.Same.trans ?_ (Ctx.traceRec_same ..)
      refine .ite (h2.trans ?_) h2
      exact .of_core rfl rfl rfl rfl rfl rfl rfl rfl rfl rfl rfl rfl
    refine .ite (h2.trans ?_) h2
    exact .of_core rfl rfl rfl rfl rfl rfl rfl rfl rfl rfl rfl rfl

theorem State.reuseEvents_calm (s : State) (u : Cur) : s.Calm (s.reuseEvents u) :=
  .foldl (fun _ _ => .updCtx fun c => c.event_same ..) s _

theorem State.trapBundle_calm (s : State) (u : Cur) (cause : BitVec 8) (slot : Nat) (einfo : Word) :
    s.Calm (s.trapBundle u cause slot einfo) :=
  State.Calm.trans (.ite (s.sendPath_calm u 0) (.refl s)) (State.takeTrap_calm ..)

theorem State.finishBundle_calm (s : State) (u : Cur) : s.Calm (s.finishBundle u) := by
  have h : s.Calm (s.updCtx u.t u.k fun c => if u.sup then c else { c with kept := none, keptFifo := none, stepped := u.only.isSome }) :=
    .updCtx fun c => .ite (.refl c) (.of_core rfl rfl rfl rfl rfl rfl rfl rfl rfl rfl rfl rfl)
  exact h.trans (.ite (State.exitContext_calm ..) (State.retireBundle_calm ..))

/-- The close of a bundle changes no register but those that a rotation makes live, no memory, no counter and no result in
flight: results land later (R163). -/
theorem State.keepUsed_calm (s : State) (u : Cur) : s.Calm (s.keepUsed u) :=
  .updCtx fun _ => .of_core rfl rfl rfl rfl rfl rfl rfl rfl rfl rfl rfl rfl

theorem State.closeBundle_calm (s : State) : s.Calm s.closeBundle := by
  unfold State.closeBundle
  split
  · exact .refl s
  · rename_i u hu
    simp only []
    generalize h1 : State.updCtx (State.logStream { s with cur := none } u) u.t u.k _ = s1
    have c1 : s.Calm s1 := by
      subst h1
      refine State.Calm.thenUpd ?_ fun c => ?_
      · refine State.Calm.trans ?_ (State.logStream_calm ..)
        exact .of_eq rfl rfl rfl rfl rfl rfl rfl rfl
      · exact .of_core rfl rfl rfl rfl rfl rfl rfl rfl rfl rfl rfl rfl
    have ev := c1.trans (s1.reuseEvents_calm u)
    split
    · exact (State.Calm.ite ev (ev.trans (State.actHeader_calm ..))).trans (State.trapBundle_calm ..)
    · refine .ite (((c1.trans (s1.keepUsed_calm u)).trans (State.reuseEvents_calm ..)).trans (State.trapBundle_calm ..)) ?_
      split
      · exact .ite ((c1.trans (State.actHeader_calm ..)).trans (State.trapBundle_calm ..)) (ev.trans (State.finishBundle_calm ..))
      · exact c1.trans (State.finishBundle_calm ..)

/-! ### The slot operation (R73, R74) -/

/-- Putting an operation back, and closing the bundle after its last slot. -/
theorem Op.settle_calm (o : Op) : (o.s.setCtx o.u.t o.u.k o.c).Calm o.settle := by
  unfold Op.settle
  have h : (o.s.setCtx o.u.t o.u.k o.c).Calm (({ o.s with cur := some o.u } : State).setCtx o.u.t o.u.k o.c) :=
    .of_eq rfl rfl rfl rfl rfl rfl rfl rfl
  exact .ite (h.trans (State.closeBundle_calm _)) h

/-- A slot operation at its slot answers a next state. -/
theorem slotStep_next {s : State} {u : Cur} {slot : Nat} {i : Instr} {rest : List (Nat × Instr)} (hc : s.cur = some u)
    (ht : u.todo = (slot, i) :: rest) (p : Pred) (eff : Op → Op) :
    slotStep slot i p eff s =
      .next (({ s := s, c := s.ctx u.t u.k, u := { u with todo := rest }, slot } : Op).perform i p eff).settle := by
  simp [slotStep, hc, ht]

/-- With no trap found at issue and its condition true, an operation has its effect. -/
theorem Op.perform_eff {o : Op} {i : Instr} {p : Pred} (eff : Op → Op) (hf : issueFault o.c o.u.sup i = none)
    (hp : o.regs.holds p = true) : o.perform i p eff = eff o := by
  simp [Op.perform, hf, hp]

/-- With no trap found at issue and its condition false, an operation does nothing. -/
theorem Op.perform_off {o : Op} {i : Instr} {p : Pred} (eff : Op → Op) (hf : issueFault o.c o.u.sup i = none)
    (hp : o.regs.holds p = false) : o.perform i p eff = o := by
  simp [Op.perform, hf, hp]

end Sys2Proof.Machine
end

