-- ==== Sys2Proof/Laws/Slot.lean ====
section
/-! SUPPORT. From the effect of a slot operation to the state it leaves (`slotStep_left`, `State.gives_of`), and what the shared
operations do to an operation at work: sending results, reading vector operands, sending vector results. -/

namespace Sys2Proof.Machine

/-- The operation at work in a state. -/
def opOf (s : State) (u : Cur) (slot : Nat) (rest : List (Nat × Instr)) : Op :=
  { s := s, c := s.own u, u := { u with todo := rest }, slot }

@[simp] theorem opOf_s (s : State) (u : Cur) (slot : Nat) (rest : List (Nat × Instr)) : (opOf s u slot rest).s = s := rfl
@[simp] theorem opOf_c (s : State) (u : Cur) (slot : Nat) (rest : List (Nat × Instr)) : (opOf s u slot rest).c = s.own u := rfl
@[simp] theorem opOf_slot (s : State) (u : Cur) (slot : Nat) (rest : List (Nat × Instr)) : (opOf s u slot rest).slot = slot := rfl
@[simp] theorem opOf_regs (s : State) (u : Cur) (slot : Nat) (rest : List (Nat × Instr)) :
    (opOf s u slot rest).regs = s.operands u := rfl

theorem State.Issues.step {s : State} {u : Cur} {slot : Nat} {i : Instr} {p : Pred} {rest : List (Nat × Instr)}
    (h : s.Issues u slot i p rest) (eff : Op → Op) :
    slotStep slot i p eff s = .next (eff (opOf s u slot rest)).settle := by
  rw [slotStep_next h.cur h.todo]
  exact congrArg _ (congrArg _ (Op.perform_eff (o := opOf s u slot rest) eff h.free h.holds))

/-- The operation with another context. -/
def Op.withCtx (o : Op) (c : Ctx) : Op := { o with c }

@[simp] theorem Op.withCtx_c (o : Op) (c : Ctx) : (o.withCtx c).c = c := rfl
@[simp] theorem Op.withCtx_s (o : Op) (c : Ctx) : (o.withCtx c).s = o.s := rfl
@[simp] theorem Op.withCtx_u (o : Op) (c : Ctx) : (o.withCtx c).u = o.u := rfl
@[simp] theorem Op.withCtx_slot (o : Op) (c : Ctx) : (o.withCtx c).slot = o.slot := rfl
@[simp] theorem Op.withCtx_withCtx (o : Op) (c d : Ctx) : (o.withCtx c).withCtx d = o.withCtx d := rfl

theorem Ctx.withEvents_same (c : Ctx) (ev : List (Nat × Nat × BitVec 16 × Nat × Nat)) : c.Same (c.withEvents ev) :=
  .of_core rfl rfl rfl rfl rfl rfl rfl rfl rfl rfl rfl rfl

/-- Putting an operation back. -/
theorem Op.settle_goOn (o : Op) : o.settle = o.s.goOn o.u o.c := by
  unfold Op.settle State.goOn
  cases o.u.todo <;> rfl

/-- The frame of an operation that has changed only the bundle and its context. -/
theorem State.left_goOn (s : State) (u : Cur) (c : Ctx) (ev : List (Nat × Nat × BitVec 16 × Nat × Nat)) :
    s.Left (s.goOn u (c.withEvents ev)) u c := by
  have k : (s.setCtx u.t u.k (c.withEvents ev)).Calm (s.goOn u (c.withEvents ev)) := by
    rw [← Op.settle_goOn { s := s, c := c.withEvents ev, u := u, slot := 0 }]
    exact Op.settle_calm { s := s, c := c.withEvents ev, u := u, slot := 0 }
  refine ⟨⟨ev, rfl⟩, (State.Still.setCtx ..).trans k.still, fun x j h => ?_, ?_⟩
  · have := k.same x j
    rw [State.ctx_setCtx, if_neg h] at this
    exact this
  · have := k.same u.t u.k
    rw [State.ctx_setCtx, if_pos ⟨rfl, rfl⟩] at this
    exact (c.withEvents_same ev).trans this

/-- An effect that leaves the bundle as `u'` and the context as `c` but for events. -/
theorem slotStep_left {s : State} {u u' : Cur} {slot : Nat} {i : Instr} {p : Pred} {rest : List (Nat × Instr)} {eff : Op → Op}
    {c : Ctx} (h : s.Issues u slot i p rest)
    (he : ∃ ev, eff (opOf s u slot rest) = { s := s, c := c.withEvents ev, u := u', slot := slot }) :
    ∃ t, slotStep slot i p eff s = .next t ∧ s.Left t u' c := by
  obtain ⟨ev, he⟩ := he
  refine ⟨_, h.step eff, ?_⟩
  rw [he, Op.settle_goOn]
  exact s.left_goOn u' c ev

/-- An effect that leaves the context as it was, and the bundle as `u'`. -/
theorem slotStep_left_cur {s : State} {u u' : Cur} {slot : Nat} {i : Instr} {p : Pred} {rest : List (Nat × Instr)} {eff : Op → Op}
    (h : s.Issues u slot i p rest)
    (he : eff (opOf s u slot rest) = { opOf s u slot rest with u := u' }) :
    ∃ t, slotStep slot i p eff s = .next t ∧ s.Left t u' (s.own u) :=
  slotStep_left h ⟨(s.own u).events, by rw [he]; rfl⟩

/-- From the operation `o₀`, the results `ws` have been sent, and events recorded. -/
def Op.Sent (o₀ : Op) (ws : List (Nat × Write)) (o : Op) : Prop :=
  ∃ ev, o = o₀.withCtx ((o₀.c.send o₀.u o₀.slot ws).withEvents ev)

/-- An effect that sends results and records events, from an operation with the bundle `v` and the context `c`. -/
theorem State.gives_from {s : State} {u v : Cur} {slot : Nat} {i : Instr} {p : Pred} {eff : Op → Op} {c : Ctx}
    {ws : List (Nat × Write)} (hx : exec i s = slotStep slot i p eff s) (ho : v.off = u.off) (hs : v.second = u.second)
    (he : ∀ rest, Op.Sent { s := s, c := c, u := v.past rest, slot := slot } ws (eff (opOf s u slot rest))) :
    s.GivesFrom u slot i p v c ws := fun rest h => by
  rw [hx]
  obtain ⟨ev, e⟩ := he rest
  refine slotStep_left (u' := v.past rest) (c := c.send u slot ws) h ⟨ev, ?_⟩
  rw [e]
  simp only [Op.withCtx, Ctx.send, ho, hs]

/-- An effect that sends results, and records events. -/
theorem State.gives_of {s : State} {u : Cur} {slot : Nat} {i : Instr} {p : Pred} {eff : Op → Op} {ws : List (Nat × Write)}
    (hx : exec i s = slotStep slot i p eff s) (he : ∀ rest, Op.Sent (opOf s u slot rest) ws (eff (opOf s u slot rest))) :
    s.Gives u slot i p ws := State.gives_from hx rfl rfl he

/-! ### Results on their way -/

@[simp] theorem Ctx.send_nil (c : Ctx) (u : Cur) (slot : Nat) : c.send u slot [] = c := by simp [Ctx.send]

/-- Nothing sent yet. -/
theorem Op.sent_nil (o : Op) : o.Sent [] o := ⟨o.c.events, by rw [Ctx.send_nil]; rfl⟩

/-- Sending one more result. -/
theorem Op.Sent.land {o₀ o : Op} {ws : List (Nat × Write)} (h : o₀.Sent ws o) (n : Nat) (w : Write) :
    o₀.Sent (ws ++ [(n, w)]) (o.land n w) := by
  obtain ⟨ev, rfl⟩ := h
  exact ⟨ev, by simp [Op.land, Ctx.send, Op.withCtx, Ctx.withEvents, Ctx.hashIv]⟩

/-- Recording an event. -/
theorem Op.Sent.event {o₀ o : Op} {ws : List (Nat × Write)} (h : o₀.Sent ws o) (code amt : Nat) :
    o₀.Sent ws (o.event code amt) := by
  obtain ⟨ev, rfl⟩ := h
  exact ⟨_, rfl⟩

theorem Op.Sent.regs {o₀ o : Op} {ws : List (Nat × Write)} (h : o₀.Sent ws o) : o.regs = o₀.regs := by
  obtain ⟨ev, rfl⟩ := h
  rfl

theorem Op.Sent.vw {o₀ o : Op} {ws : List (Nat × Write)} (h : o₀.Sent ws o) : o.c.vw = o₀.c.vw := by
  obtain ⟨ev, rfl⟩ := h
  rfl

/-- One result sent by an operation that does nothing else. -/
theorem State.gives_one {s : State} {u : Cur} {slot : Nat} {i : Instr} {p : Pred} {eff : Op → Op} {n : Nat} {w : Write}
    (hx : exec i s = slotStep slot i p eff s) (he : ∀ rest, eff (opOf s u slot rest) = (opOf s u slot rest).land n w) :
    s.Gives u slot i p [(n, w)] :=
  State.gives_of hx fun rest => by rw [he]; exact (Op.sent_nil _).land n w

/-! ### Vector operands and results -/

/-- The operation reads the operands of the bundle `u`, through the same views. -/
structure Op.Reads (s : State) (u : Cur) (o : Op) : Prop where
  regs : o.regs = s.operands u
  vw : o.c.vw = (s.own u).vw

theorem opOf_reads (s : State) (u : Cur) (slot : Nat) (rest : List (Nat × Instr)) : Op.Reads s u (opOf s u slot rest) := ⟨rfl, rfl⟩

theorem Op.Sent.reads {s : State} {u : Cur} {o₀ o : Op} {ws : List (Nat × Write)} (h : o₀.Sent ws o) (r : o₀.Reads s u) :
    o.Reads s u := ⟨h.regs.trans r.regs, h.vw.trans r.vw⟩

theorem Op.Reads.resolve {s : State} {u : Cur} {o : Op} (r : o.Reads s u) : o.c.toCore.resolve = (s.own u).toCore.resolve := by
  funext n i
  simp only [Core.resolve, Core.view, r.vw]
  rfl

theorem Op.Reads.readV {s : State} {u : Cur} {o : Op} (r : o.Reads s u) (w : Nat) (v : VOp) :
    Machine.readV o.c.toCore o.regs w v = Machine.readV (s.own u).toCore (s.operands u) w v := by
  have hf : o.c.toCore.fallow = (s.own u).toCore.fallow := by
    funext n i
    simp only [Core.fallow, Core.indexOf, Core.view, r.vw]
    rfl
  cases v <;> simp only [Machine.readV, r.regs, r.resolve, hf]

/-- Reading a field gives the operand, and changes nothing but the records of fallow reads. -/
theorem Op.Sent.readF {s : State} {u : Cur} {o₀ o : Op} {ws : List (Nat × Write)} (h : o₀.Sent ws o) (r : o₀.Reads s u)
    (w : Nat) (f : VField) : (o.readF w f).1 = s.vsrc u w f ∧ o₀.Sent ws (o.readF w f).2 := by
  cases f with
  | v x =>
    refine ⟨by simp only [Op.readF, Op.readV, State.vsrc, (h.reads r).readV], ?_⟩
    simp only [Op.readF, Op.readV]
    split
    · exact h
    · exact h.event _ _
  | _ => exact ⟨rfl, h⟩

theorem Op.Sent.dest {s : State} {u : Cur} {o₀ o : Op} {ws : List (Nat × Write)} (h : o₀.Sent ws o) (r : o₀.Reads s u)
    (n : Nat) (d : VField) (v : Vec) (lanes : Mask) : o₀.Sent (ws ++ s.toDest u n d v lanes) (o.dest n d v lanes) := by
  have hr := (h.reads r).resolve
  match d with
  | .v (.main k i) =>
    simp only [Op.dest, State.toDest, hr]
    cases (s.own u).toCore.resolve k.toNat i.toNat with
    | some j => exact h.land _ _
    | none => simpa using h
  | .v (.opf e) => exact h.land _ _
  | .v (.latch _) | .v .zero | .v .ones | .v (.bc _) | .nil | .m _ | .s _ | .q _ => simpa [Op.dest, State.toDest] using h

theorem Op.Sent.flags {o₀ o : Op} {ws : List (Nat × Write)} (h : o₀.Sent ws o) (n : Nat) (x : VUnit) (q : Bool) (f : FlgVec) :
    o₀.Sent (ws ++ if q || f = 0 then [] else [(n, .flags x f)]) (o.flags n x q f) := by
  unfold Op.flags
  by_cases hq : (q || decide (f = 0)) = true
  · rw [if_pos hq, if_pos hq, List.append_nil]; exact h
  · rw [if_neg hq, if_neg hq]; exact h.land _ _

/-- A whole vector result: destination, latch and flags. -/
theorem Op.Sent.emit {s : State} {u : Cur} {o₀ o : Op} {ws : List (Nat × Write)} (h : o₀.Sent ws o) (r : o₀.Reads s u)
    (a : VArgs) (n : Nat) (v : Vec) (lanes : Mask) (fl : FlgVec) :
    o₀.Sent (ws ++ s.vresults u a n v lanes fl) (o.emit a n v lanes fl) := by
  have := ((h.dest r n a.d v lanes).land n (.latch (latchNo a.u) v lanes)).flags n a.u a.q fl
  rw [State.vresults, ← List.append_assoc, ← List.append_assoc]
  exact this

/-- Entering the draw history reads the history alone. -/
theorem Op.history_reads {s : State} {u : Cur} {o : Op} (r : o.Reads s u) (t : BitVec 16) (sv row col : BitVec 32) : (o.history t sv row col).Reads s u := by
  have e : (o.history t sv row col).c.toRegs = o.c.toRegs ∧ (o.history t sv row col).c.kept = o.c.kept ∧
      (o.history t sv row col).c.vw = o.c.vw ∧ (o.history t sv row col).u.sup = o.u.sup := by
    unfold Op.history
    simp only
    split <;> exact ⟨rfl, rfl, rfl, rfl⟩
  refine ⟨?_, e.2.2.1.trans r.vw⟩
  rw [← r.regs]
  unfold Op.regs
  rw [e.1, e.2.1, e.2.2.2]

/-- Entering the draw history after events is entering it before them. -/
theorem Op.Sent.history {o₀ o : Op} (h : o₀.Sent [] o) (t : BitVec 16) (sv row col : BitVec 32) :
    (o₀.history t sv row col).Sent [] (o.history t sv row col) := by
  obtain ⟨ev, rfl⟩ := h
  rw [Ctx.send_nil]
  unfold Op.history
  simp only [Op.withCtx, Ctx.withEvents]
  split
  · exact ⟨ev, by rw [Ctx.send_nil]; rfl⟩
  · exact ⟨ev, by rw [Ctx.send_nil]; rfl⟩

/-- The draw-history entry of the operation at work is that of `State.drawn`. -/
theorem opOf_history (s : State) (u : Cur) (slot : Nat) (rest : List (Nat × Instr)) (row col : BitVec 32) :
    (opOf s u slot rest).history ((s.operands u).morig.extractLsb' 48 16) ((s.operands u).step.setWidth 32) row col =
      let o := s.drawn u slot true row col
      { s := s, c := o.c, u := o.u.past rest, slot := slot } := by
  unfold State.drawn Op.history opOf
  simp only [if_true]
  split <;> rfl

theorem State.drawn_off (s : State) (u : Cur) (slot : Nat) (b : Bool) (row col : BitVec 32) :
    (s.drawn u slot b row col).u.off = u.off ∧ (s.drawn u slot b row col).u.second = u.second := by
  unfold State.drawn Op.history
  cases b
  · exact ⟨rfl, rfl⟩
  · simp only [if_true]
    split <;> exact ⟨rfl, rfl⟩

/-- An effect that reads operands, enters the draw history when `draws` holds, and sends results. -/
theorem State.givesDrawn_of {s : State} {u : Cur} {slot : Nat} {i : Instr} {p : Pred} {eff : Op → Op} {draws : Bool}
    {ws : List (Nat × Write)} (hx : exec i s = slotStep slot i p eff s)
    (he : ∀ rest, ∃ o o₁ : Op, (opOf s u slot rest).Sent [] o ∧
      o₁ = (if draws then o.history ((s.operands u).morig.extractLsb' 48 16) ((s.operands u).step.setWidth 32)
        (s.operands u).rowOf (s.operands u).colOf else o) ∧
      ∀ o₀ : Op, o₀.Reads s u → o₀.Sent [] o₁ → o₀.Sent ws (eff (opOf s u slot rest))) :
    s.GivesDrawn u slot i p draws ws := by
  obtain ⟨ho, hs⟩ := s.drawn_off u slot draws (s.operands u).rowOf (s.operands u).colOf
  refine State.gives_from hx ho hs fun rest => ?_
  obtain ⟨o, o₁, h, rfl, g⟩ := he rest
  cases draws with
  | false => exact g _ (opOf_reads s u slot rest) h
  | true =>
    have e := opOf_history s u slot rest (s.operands u).rowOf (s.operands u).colOf
    refine g _ ?_ ?_
    · rw [← e]
      exact Op.history_reads (opOf_reads s u slot rest) _ _ _ _
    · rw [← e]
      exact h.history _ _ _ _

/-! ### Elements -/

theorem ofElems_elem (w : Nat) (hw : 0 < w) (es : List Nat) (e : Nat) (he : w * e + w ≤ 2048) :
    elem (ofElems w es) w e = es.getD e 0 % 2 ^ w := by
  induction es generalizing e with
  | nil => simp [ofElems, elem]
  | cons x es ih =>
    have hx : ofElems w (x :: es) = (ofElems w es <<< w) ||| BitVec.ofNat 2048 (x % 2 ^ w) := rfl
    have hlt : x % 2 ^ w < 2 ^ w := Nat.mod_lt _ (Nat.two_pow_pos w)
    have hw2 : w ≤ 2048 := by omega
    have key : ∀ i, (BitVec.ofNat 2048 (x % 2 ^ w)).getLsbD i = (decide (i < w) && x.testBit i) := by
      intro i
      simp only [BitVec.getLsbD_ofNat, Nat.testBit_mod_two_pow]
      by_cases hi : i < w
      · have : i < 2048 := by omega
        simp [hi, this]
      · simp [hi]
    apply Nat.eq_of_testBit_eq
    intro i
    rw [hx]
    unfold elem
    rw [BitVec.testBit_toNat, Nat.testBit_mod_two_pow]
    simp only [BitVec.getLsbD_extractLsb', BitVec.getLsbD_or, BitVec.getLsbD_shiftLeft, key]
    by_cases hi : i < w
    · have hb : w * e + i < 2048 := by omega
      cases e with
      | zero => simp [hi]
      | succ e =>
        have he' : w * e + w ≤ 2048 := by rw [Nat.mul_succ] at he; omega
        have := congrArg (fun n => n.testBit i) (ih e he')
        simp only [elem, BitVec.testBit_toNat, BitVec.getLsbD_extractLsb', Nat.testBit_mod_two_pow, hi, decide_true, Bool.true_and] at this
        have e1 : ¬ (w * (e + 1) + i < w) := by rw [Nat.mul_succ]; omega
        have e2 : w * (e + 1) + i - w = w * e + i := by rw [Nat.mul_succ]; omega
        simp [hi, e1, e2, hb, this]
    · simp [hi]

/-- An element-wise result. -/
theorem Op.Sent.emitElems {s : State} {u : Cur} {o₀ o : Op} (h : o₀.Sent [] o) (r : o₀.Reads s u)
    (a : VArgs) (n w : Nat) (lanes : Mask) (f : Nat → Nat × Flags) :
    o₀.Sent
      (s.vresults u a n (ofElems w ((List.range (2048 / w)).map fun e => if enabled lanes w e then (f e).1 else 0)) lanes
        (elementFlags w lanes fun e => (f e).2))
      (o.emitElems a n w lanes f) := by
  have e1 : ((List.range (2048 / w)).map fun e => if enabled lanes w e then f e else (0, 0)).map (·.1) =
      (List.range (2048 / w)).map fun e => if enabled lanes w e then (f e).1 else 0 := by
    simp only [List.map_map]
    apply List.map_congr_left
    intro e _
    simp only [Function.comp]
    split <;> rfl
  have e2 : (List.range (2048 / w)).zip (((List.range (2048 / w)).map fun e => if enabled lanes w e then f e else (0, 0)).map (·.2)) =
      (List.range (2048 / w)).map fun e => (e, if enabled lanes w e then (f e).2 else 0) := by
    have z : ∀ (l : List Nat) (g : Nat → Flags), l.zip (l.map g) = l.map fun e => (e, g e) := by
      intro l g
      induction l with
      | nil => rfl
      | cons x l ih => simp [ih]
    rw [List.map_map, z]
    apply List.map_congr_left
    intro e _
    simp only [Function.comp]
    split <;> rfl
  have := h.emit r a n (ofElems w ((List.range (2048 / w)).map fun e => if enabled lanes w e then (f e).1 else 0)) lanes
    (elementFlags w lanes fun e => (f e).2)
  unfold Op.emitElems
  simp only [e1, e2]
  exact this

/-- The elements of an element-wise result. -/
theorem elements_ofElems (w : Nat) (hw : 0 < w) (lanes : Mask) (f : Nat → Nat) :
    Elements (ofElems w ((List.range (2048 / w)).map fun e => if enabled lanes w e then f e else 0)) w lanes f := by
  intro e he
  have h1 : w * e + w ≤ 2048 := by
    have : w * (e + 1) ≤ w * (2048 / w) := Nat.mul_le_mul_left w he
    have := Nat.mul_div_le 2048 w
    rw [Nat.mul_succ] at *; omega
  rw [ofElems_elem w hw _ e h1]
  have : e < ((List.range (2048 / w)).map fun e => if enabled lanes w e then f e else 0).length := by simpa using he
  rw [List.getD_eq_getElem?_getD, List.getElem?_eq_getElem this, Option.getD_some]
  simp only [List.getElem_map, List.getElem_range]
  split <;> simp

/-- An operation whose effect is an element-wise result. -/
theorem State.givesElements_of {s : State} {u : Cur} {i : Instr} {a : VArgs} {eff : Op → Op} {n w : Nat} {lanes : Mask}
    {draws : Bool} {f : Nat → Nat × Flags} (hw : 0 < w) (hx : exec i s = slotStep (unitSlot a.u) i a.p eff s)
    (he : ∀ rest, ∃ o : Op, (opOf s u (unitSlot a.u) rest).Sent [] o ∧
      eff (opOf s u (unitSlot a.u) rest) = (if draws then o.history ((s.operands u).morig.extractLsb' 48 16)
        ((s.operands u).step.setWidth 32) (s.operands u).rowOf (s.operands u).colOf else o).emitElems a n w lanes f) :
    s.GivesElements u i a n w lanes draws f :=
  ⟨_, elements_ofElems w hw lanes fun e => (f e).1, State.givesDrawn_of hx fun rest => by
    obtain ⟨o, ho, he⟩ := he rest
    exact ⟨o, _, ho, rfl, fun o₀ r h => by rw [he]; exact h.emitElems r a n w lanes f⟩⟩

end Sys2Proof.Machine
end

