-- ==== Sys2Proof/Tests/Slice0.lean ====
section
/-! SUPPORT. Tests: words written out from the tables of the manual, terms that are not well formed, one step of each kind on
a small state, and for each statement of Obligations.lean states that meet its hypotheses. Every expected value is the
manual's, or computed by hand from its rules. -/

namespace Sys2Proof.Tests

open Sys2Proof.Machine Sys2Proof.Claims

set_option Elab.async false

/-! ### Words -/

/-- A slot, its word, and the operation the word stands for. -/
abbrev Coded := Nat × BitVec 64 × Instr

def always : Pred := ⟨false, 0⟩

/-- The word decodes to the well-formed operation, which encodes back. -/
def reads (x : Coded) : Bool :=
  decSlot x.1 x.2.1 = .op x.2.2 && encode x.2.2 = some (x.1, x.2.1) && x.2.2.wf

def refused (x : Nat × BitVec 64) : Bool := decSlot x.1 x.2 = .ill

def misformatted (x : Nat × BitVec 64) : Bool := match decSlot x.1 x.2 with | .fmt _ => true | _ => false

/-! ### Small states -/

/-- A running context of a launch, with a few registers, four views of the whole register space, 32 quire rows, and each
virtual counter mapped to the physical counter of its number. -/
def worker : Ctx :=
  { life := .running, launch := some ⟨0, 0⟩, foot := 0x10000, qrows := 32, p := 6
    s := [(1, 0xF0), (2, 0xFFFFFFFFFFFFFFFF), (4, 7), (5, 0x8000000000000000), (6, 0xFFFFFFFFFFFFFFF9)]
    vw := (List.range 4).map fun n => (n, 0x40000FF00)
    cmap := (List.range 64).map fun n => (n, some n) }

/-- A bundle of one operation, at offset 2. -/
def single (slot : Nat) (i : Instr) (sup : Bool := false) : Cur :=
  { t := 0, k := 0, todo := [(slot, i)], off := 2, sup, occ := 1#8 <<< slot, hdr := ⟨false, false, false, false⟩, fill0 := (2, 0), free0 := (14, 16) }

/-- A module whose only context issues that bundle. -/
def at_ (c : Ctx) (slot : Nat) (i : Instr) (sup : Bool := false) : State :=
  { zone := 100, tiles := [(0, { ctx := [(0, c)] })], cur := some (single slot i sup) }

/-- The operation is given no trap as it issues, and its condition holds. -/
def ok (c : Ctx) (slot : Nat) (i : Instr) (p : Pred) (sup : Bool := false) : Bool :=
  issueFault ((at_ c slot i sup).own (single slot i sup)) sup i = none && ((at_ c slot i sup).operands (single slot i sup)).holds p

/-- Such a state meets the hypotheses of every statement about the operation that has no more of them. -/
theorem issues_of_ok {c : Ctx} {slot : Nat} {i : Instr} {p : Pred} {sup : Bool} (h : ok c slot i p sup = true) :
    (at_ c slot i sup).Issues (single slot i sup) slot i p [] := by
  simp only [ok, Bool.and_eq_true, decide_eq_true_eq] at h
  exact ⟨⟨rfl, rfl⟩, h.1, h.2⟩

def next? (i : Instr) (s : State) : Option State := match exec i s with | .next v => some v | _ => none

/-- In supervisor mode it issues and completes. -/
def issuable (x : Coded) : Bool :=
  ok worker x.1 x.2.2 (condition x.1 x.2.1) true && (next? x.2.2 (at_ worker x.1 x.2.2 true)).isSome

/-- What it sends, with the latencies. -/
def sends (c : Ctx) (slot : Nat) (i : Instr) : Option (List (Nat × Write)) :=
  (next? i (at_ c slot i)).map fun v => (v.ctx 0 0).inflight.map fun l => (l.left, l.w)

/-- It issues, and sends just these results. -/
def Sends (c : Ctx) (slot : Nat) (i : Instr) (ws : List (Nat × Write)) : Bool :=
  ok c slot i always && sends c slot i = some ws

/-- Scalar operations: the example after R171, and words built from Tables 4.4 and 9.2. -/
def scalarWords1 : List Coded := [
    (0, 0x0101864FFFFFFFFB, .add ⟨always, .w32, false, 3, 4, .imm (-5)⟩),
    (0, 0x0203422180000000, .sub ⟨always, .w8, true, 1, 2, .reg 3⟩),
    (0, 0x0301022180000000, .mul ⟨always, .w32, false, 1, 2, .reg 3⟩),
    (0, 0x0400422180000000, .mulh ⟨always, .w64, true, 1, 2, .reg 3⟩),
    (0, 0x0502022180000000, .div ⟨always, .w16, false, 1, 2, .reg 3⟩),
    (0, 0x0600822000000007, .rem ⟨always, .w64, false, 1, 2, .imm 7⟩),
    (0, 0x0700022180000000, .and ⟨always, .w64, false, 1, 2, .reg 3⟩),
    (0, 0x0800022180000000, .or ⟨always, .w64, false, 1, 2, .reg 3⟩),
    (0, 0x0900022180000000, .xor ⟨always, .w64, false, 1, 2, .reg 3⟩),
    (0, 0x0A00822000000041, .shl ⟨always, .w64, false, 1, 2, .imm 65⟩),
    (0, 0x0B00022180000000, .shr ⟨always, .w64, false, 1, 2, .reg 3⟩),
    (0, 0x0C00022180000000, .sra ⟨always, .w64, false, 1, 2, .reg 3⟩),
    (0, 0x0D00022180000000, .min ⟨always, .w64, false, 1, 2, .reg 3⟩),
    (0, 0x0E01422180000000, .max ⟨always, .w32, true, 1, 2, .reg 3⟩),
    (0, 0x0F00022000000000, .clz ⟨always, .w64, false, 1, 2, .reg 0⟩),
    (0, 0x1003022000000000, .popc ⟨always, .w8, false, 1, 2, .reg 0⟩)]

theorem test_words_scalar_1 : scalarWords1.all reads = true := by decide +kernel

theorem witness_words_scalar_1 : scalarWords1.all issuable = true := by decide +kernel

/-- Scalar operations: the example after R171, and words built from Tables 4.4 and 9.2. -/
def scalarWords2 : List Coded := [
    (0, 0x1100C20FFFFFFFFF, .movi ⟨always, .w64, true, 1, 0, .imm 68719476735⟩),
    (0, 0x1200864001234567, .movhi ⟨always, 3, 4, 0x1234567⟩),
    (0, 0x13018225FFFFFFFF, .sel ⟨always, .w32, false, 1, 2, 2, true, .imm 0xFFFFFFFF⟩),
    (0, 0x13000224F8000000, .sel ⟨always, .w64, false, 1, 2, 2, false, .reg 31⟩),
    (0, 0x1801503200000002, .cmp ⟨always, .w32, true, 2, 3, .reg 4, .lt⟩),
    (0, 0x18E0883000000057, .cmp ⟨⟨true, 6⟩, .w64, false, 1, 3, .imm 5, .ntst⟩),
    (0, 0x19000A7000000000, .plog ⟨always, 1, 2, 3, 8⟩)]

theorem test_words_scalar_2 : scalarWords2.all reads = true := by decide +kernel

theorem witness_words_scalar_2 : scalarWords2.all issuable = true := by decide +kernel

/-- Control and system operations, from Table 9.2. -/
def controlWords1 : List Coded := [
    (0, 0x20000000000FFFFE, .br always (-2)),
    (0, 0x2100005000000003, .bri always 5 3),
    (0, 0x2200820000000004, .call always 1 .rel 4),
    (0, 0x2200022000000000, .call always 1 (.reg 2) 0),
    (0, 0x23E0007000000000, .ret ⟨true, 6⟩ 7),
    (0, 0x2400205000300000, .loop ⟨always, true, false, 3, .reg 5⟩),
    (0, 0x2400900FFFF00009, .loop ⟨always, false, true, 0xFFFF, .imm 9⟩),
    (0, 0x2500000000000000, .loopx always),
    (0, 0x26000E0000000005, .lidx always 7 5),
    (0, 0x30000C0000000004, .sysr always 6 0x004),
    (0, 0x3100006000000001, .sysw always 6 0x001),
    (0, 0x3100006000000000, .keyWrite always 6),
    (0, 0x3100006000000085, .cmapWrite always 6 5),
    (0, 0x31000060000000FF, .cntWrite always 6 63),
    (0, 0x380000000000BEEF, .trap always 0xBEEF),
    (0, 0x3900000000000000, .tret always)]

theorem test_words_control_1 : controlWords1.all reads = true := by decide +kernel

theorem witness_words_control_1 : controlWords1.all issuable = true := by decide +kernel

/-- Control and system operations, from Table 9.2. -/
def controlWords2 : List Coded := [
    (0, 0x3A00000000000000, .exit always)]

theorem test_words_control_2 : controlWords2.all reads = true := by decide +kernel

theorem witness_words_control_2 : controlWords2.all issuable = true := by decide +kernel

/-- Vector arithmetic, from Tables 4.4, 4.6 and 13.1; the VFMA after R92. -/
def vectorWords1 : List Coded := [
    (1, 0x010040603D7C0017, .vadd { u := .va, p := ⟨false, 0⟩, fmt := .i32, d := .v (.opf 1), a := .v (.latch 3), b := .v (.bc 31), c := .nil, imm := 0x0, rm := .rne, q := false, m := 5, var := 3 }),
    (2, 0x02013FF20C000000, .vsub { u := .vb, p := ⟨false, 0⟩, fmt := .i16, d := .v (.main 3 63), a := .v .ones, b := .v .zero, c := .nil, imm := 0x0, rm := .rne, q := false, m := 0, var := 0 }),
    (1, 0x0302C010F4000002, .vmul { u := .va, p := ⟨false, 0⟩, fmt := .i8, d := .v .zero, a := .v (.opf 15), b := .v (.opf 0), c := .nil, imm := 0x0, rm := .rne, q := false, m := 0, var := 2 }),
    (1, 0x04004050240C0001, .vmulh { u := .va, p := ⟨false, 0⟩, fmt := .i32, d := .v (.opf 1), a := .v (.opf 2), b := .v (.opf 3), c := .nil, imm := 0x0, rm := .rne, q := false, m := 0, var := 1 }),
    (1, 0x05014050240C0000, .vmin { u := .va, p := ⟨false, 0⟩, fmt := .i16, d := .v (.opf 1), a := .v (.opf 2), b := .v (.opf 3), c := .nil, imm := 0x0, rm := .rne, q := false, m := 0, var := 0 }),
    (1, 0x06024050240C0000, .vmax { u := .va, p := ⟨false, 0⟩, fmt := .i8, d := .v (.opf 1), a := .v (.opf 2), b := .v (.opf 3), c := .nil, imm := 0x0, rm := .rne, q := false, m := 0, var := 0 }),
    (1, 0x0700405020000002, .vabs { u := .va, p := ⟨false, 0⟩, fmt := .i32, d := .v (.opf 1), a := .v (.opf 2), b := .nil, c := .nil, imm := 0x0, rm := .rne, q := false, m := 0, var := 2 }),
    (1, 0x08064050240C0600, .vlog { u := .va, p := ⟨false, 0⟩, fmt := .t4e1, d := .v (.opf 1), a := .v (.opf 2), b := .v (.opf 3), c := .nil, imm := 0x6, rm := .rne, q := false, m := 0, var := 0 }),
    (1, 0x09004050240C0003, .vsh { u := .va, p := ⟨false, 0⟩, fmt := .i32, d := .v (.opf 1), a := .v (.opf 2), b := .v (.opf 3), c := .nil, imm := 0x0, rm := .rne, q := false, m := 0, var := 3 }),
    (1, 0x0A0201D0240C0501, .vcmp { u := .va, p := ⟨false, 0⟩, fmt := .i8, d := .m 7, a := .v (.opf 2), b := .v (.opf 3), c := .nil, imm := 0x5, rm := .rne, q := false, m := 0, var := 1 }),
    (1, 0x0B034050240C0200, .vsel { u := .va, p := ⟨false, 0⟩, fmt := .f32, d := .v (.opf 1), a := .v (.opf 2), b := .v (.opf 3), c := .nil, imm := 0x2, rm := .rne, q := false, m := 0, var := 0 }),
    (1, 0x0C0F406000000000, .vmov { u := .va, p := ⟨false, 0⟩, fmt := .t32e2, d := .v (.opf 1), a := .v (.latch 0), b := .nil, c := .nil, imm := 0x0, rm := .rne, q := false, m := 0, var := 0 }),
    (1, 0x0D0540502001FF00, .vbcast { u := .va, p := ⟨false, 0⟩, fmt := .t4e0, d := .v (.opf 1), a := .v (.opf 2), b := .nil, c := .nil, imm := 0x1ff, rm := .rne, q := false, m := 0, var := 0 }),
    (1, 0x0E00407000000000, .viota { u := .va, p := ⟨false, 0⟩, fmt := .i32, d := .v (.opf 1), a := .v .zero, b := .nil, c := .nil, imm := 0x0, rm := .rne, q := false, m := 0, var := 0 }),
    (1, 0x20034050240C00A0, .vfadd { u := .va, p := ⟨false, 0⟩, fmt := .f32, d := .v (.opf 1), a := .v (.opf 2), b := .v (.opf 3), c := .nil, imm := 0x0, rm := .rz, q := true, m := 0, var := 0 }),
    (1, 0x21044050240C0000, .vfsub { u := .va, p := ⟨false, 0⟩, fmt := .b16, d := .v (.opf 1), a := .v (.opf 2), b := .v (.opf 3), c := .nil, imm := 0x0, rm := .rne, q := false, m := 0, var := 0 })]

theorem test_words_vector_1 : vectorWords1.all reads = true := by decide +kernel

theorem witness_words_vector_1 : vectorWords1.all issuable = true := by decide +kernel

/-- Vector arithmetic, from Tables 4.4, 4.6 and 13.1; the VFMA after R92. -/
def vectorWords2 : List Coded := [
    (1, 0x220A4050240C0040, .vfmul { u := .va, p := ⟨false, 0⟩, fmt := .t8e3, d := .v (.opf 1), a := .v (.opf 2), b := .v (.opf 3), c := .nil, imm := 0x0, rm := .sr, q := false, m := 0, var := 0 }),
    (2, 0x23BB131038083F68, .vfma { u := .vb, p := ⟨true, 3⟩, fmt := .t16e1, d := .v (.main 1 12), a := .v (.opf 3), b := .v (.latch 2), c := .v (.main 0 63), imm := 0, rm := .sr, q := true, m := 2, var := 0 }),
    (1, 0x240C405020000000, .vfneg { u := .va, p := ⟨false, 0⟩, fmt := .t16e2, d := .v (.opf 1), a := .v (.opf 2), b := .nil, c := .nil, imm := 0x0, rm := .rne, q := false, m := 0, var := 0 }),
    (1, 0x2504405020000000, .vfabs { u := .va, p := ⟨false, 0⟩, fmt := .b16, d := .v (.opf 1), a := .v (.opf 2), b := .nil, c := .nil, imm := 0x0, rm := .rne, q := false, m := 0, var := 0 }),
    (1, 0x26034050240C0000, .vfmin { u := .va, p := ⟨false, 0⟩, fmt := .f32, d := .v (.opf 1), a := .v (.opf 2), b := .v (.opf 3), c := .nil, imm := 0x0, rm := .rne, q := false, m := 0, var := 0 }),
    (1, 0x27074050240C0000, .vfmax { u := .va, p := ⟨false, 0⟩, fmt := .t8e0, d := .v (.opf 1), a := .v (.opf 2), b := .v (.opf 3), c := .nil, imm := 0x0, rm := .rne, q := false, m := 0, var := 0 }),
    (1, 0x28034050240C0000, .vfdiv { u := .va, p := ⟨false, 0⟩, fmt := .f32, d := .v (.opf 1), a := .v (.opf 2), b := .v (.opf 3), c := .nil, imm := 0x0, rm := .rne, q := false, m := 0, var := 0 }),
    (1, 0x290D405020000000, .vfsqrt { u := .va, p := ⟨false, 0⟩, fmt := .t16e3, d := .v (.opf 1), a := .v (.opf 2), b := .nil, c := .nil, imm := 0x0, rm := .rne, q := false, m := 0, var := 0 }),
    (1, 0x2A0B405020000500, .vfspec { u := .va, p := ⟨false, 0⟩, fmt := .t16e1, d := .v (.opf 1), a := .v (.opf 2), b := .nil, c := .nil, imm := 0x5, rm := .rne, q := false, m := 0, var := 0 }),
    (1, 0x2B040050240C0700, .vfcmp { u := .va, p := ⟨false, 0⟩, fmt := .b16, d := .m 1, a := .v (.opf 2), b := .v (.opf 3), c := .nil, imm := 0x7, rm := .rne, q := false, m := 0, var := 0 }),
    (1, 0x2C034050240C0000, .vfscalb { u := .va, p := ⟨false, 0⟩, fmt := .f32, d := .v (.opf 1), a := .v (.opf 2), b := .v (.opf 3), c := .nil, imm := 0x0, rm := .rne, q := false, m := 0, var := 0 })]

theorem test_words_vector_2 : vectorWords2.all reads = true := by decide +kernel

theorem witness_words_vector_2 : vectorWords2.all issuable = true := by decide +kernel

/-- Conversions, cross-lane operations, vector quires, FIFOs, draws and masks; the VCVT after R281. -/
def movingWords1 : List Coded := [
    (2, 0x4009214090001B4C, .vcvt { u := .vb, p := always, fmt := .t8e2, d := .v (.main 2 5), a := .v (.main 0 9), b := .nil, c := .nil, imm := 0x1B, rm := .sr, q := false, m := 3, var := 0 }),
    (1, 0x4103405020001281, .vcvti { u := .va, p := ⟨false, 0⟩, fmt := .f32, d := .v (.opf 1), a := .v (.opf 2), b := .nil, c := .nil, imm := 0x12, rm := .rz, q := false, m := 0, var := 1 }),
    (1, 0x42014050240C0000, .vpack { u := .va, p := ⟨false, 0⟩, fmt := .i16, d := .v (.opf 1), a := .v (.opf 2), b := .v (.opf 3), c := .nil, imm := 0x0, rm := .rne, q := false, m := 0, var := 0 }),
    (1, 0x4302405020001001, .vunpk { u := .va, p := ⟨false, 0⟩, fmt := .i8, d := .v (.opf 1), a := .v (.opf 2), b := .nil, c := .nil, imm := 0x10, rm := .rne, q := false, m := 0, var := 1 }),
    (1, 0x50024050240C0001, .vperm { u := .va, p := ⟨false, 0⟩, fmt := .i8, d := .v (.opf 1), a := .v (.opf 2), b := .v (.opf 3), c := .nil, imm := 0x0, rm := .rne, q := false, m := 0, var := 1 }),
    (1, 0x5101405020007F00, .vrot { u := .va, p := ⟨false, 0⟩, fmt := .i16, d := .v (.opf 1), a := .v (.opf 2), b := .nil, c := .nil, imm := 0x7f, rm := .rne, q := false, m := 0, var := 0 }),
    (1, 0x5200405020000102, .vred { u := .va, p := ⟨false, 0⟩, fmt := .i32, d := .v (.opf 1), a := .v (.opf 2), b := .nil, c := .nil, imm := 0x1, rm := .rne, q := false, m := 0, var := 2 }),
    (1, 0x5303405020000000, .vargmax { u := .va, p := ⟨false, 0⟩, fmt := .f32, d := .v (.opf 1), a := .v (.opf 2), b := .nil, c := .nil, imm := 0x0, rm := .rne, q := false, m := 0, var := 0 }),
    (1, 0x5402405020000002, .vscan { u := .va, p := ⟨false, 0⟩, fmt := .i8, d := .v (.opf 1), a := .v (.opf 2), b := .nil, c := .nil, imm := 0x0, rm := .rne, q := false, m := 0, var := 2 }),
    (1, 0x55044050240C0000, .vsortk { u := .va, p := ⟨false, 0⟩, fmt := .b16, d := .v (.opf 1), a := .v (.opf 2), b := .v (.opf 3), c := .nil, imm := 0x0, rm := .rne, q := false, m := 0, var := 0 }),
    (1, 0x5605405020000000, .vcomp { u := .va, p := ⟨false, 0⟩, fmt := .t4e0, d := .v (.opf 1), a := .v (.opf 2), b := .nil, c := .nil, imm := 0x0, rm := .rne, q := false, m := 0, var := 0 }),
    (1, 0x600000C000000000, .vqclr { u := .va, p := ⟨false, 0⟩, fmt := .i32, d := .q 3, a := .nil, b := .nil, c := .nil, imm := 0x0, rm := .rne, q := false, m := 0, var := 0 }),
    (1, 0x610E0050240C001C, .vqdot { u := .va, p := ⟨false, 0⟩, fmt := .t32e1, d := .q 1, a := .v (.opf 2), b := .v (.opf 3), c := .nil, imm := 0x0, rm := .rne, q := false, m := 7, var := 0 }),
    (1, 0x6209005020000000, .vqsum { u := .va, p := ⟨false, 0⟩, fmt := .t8e2, d := .q 1, a := .v (.opf 2), b := .nil, c := .nil, imm := 0x0, rm := .rne, q := false, m := 0, var := 0 }),
    (1, 0x6303404020000041, .vqrnd { u := .va, p := ⟨false, 0⟩, fmt := .f32, d := .v (.opf 1), a := .q 2, b := .nil, c := .nil, imm := 0x0, rm := .sr, q := false, m := 0, var := 1 }),
    (1, 0x6400004020000021, .vqmov { u := .va, p := ⟨false, 0⟩, fmt := .i32, d := .q 1, a := .q 2, b := .nil, c := .nil, imm := 0x0, rm := .rne, q := true, m := 0, var := 1 })]

theorem test_words_moving_1 : movingWords1.all reads = true := by decide +kernel

theorem witness_words_moving_1 : movingWords1.all issuable = true := by decide +kernel

/-- Conversions, cross-lane operations, vector quires, FIFOs, draws and masks; the VCVT after R281. -/
def movingWords2 : List Coded := [
    (1, 0x6500004020010000, .vqscale { u := .va, p := ⟨false, 0⟩, fmt := .i32, d := .q 1, a := .q 2, b := .nil, c := .nil, imm := 0x100, rm := .rne, q := false, m := 0, var := 0 }),
    (1, 0x6600404020000300, .vqraw { u := .va, p := ⟨false, 0⟩, fmt := .i32, d := .v (.opf 1), a := .q 2, b := .nil, c := .nil, imm := 0x3, rm := .rne, q := false, m := 0, var := 0 }),
    (1, 0x6600005020000201, .vqraw { u := .va, p := ⟨false, 0⟩, fmt := .i32, d := .q 1, a := .v (.opf 2), b := .nil, c := .nil, imm := 0x2, rm := .rne, q := false, m := 0, var := 1 }),
    (1, 0x7000001020000005, .vpushf { u := .va, p := ⟨false, 0⟩, fmt := .i32, d := .nil, a := .v (.opf 2), b := .nil, c := .nil, imm := 0x0, rm := .rne, q := false, m := 1, var := 1 }),
    (1, 0x7100404000000000, .vrand { u := .va, p := ⟨false, 0⟩, fmt := .i32, d := .v (.opf 1), a := .nil, b := .nil, c := .nil, imm := 0x0, rm := .rne, q := false, m := 0, var := 0 }),
    (1, 0x7200000000003F08, .vflg { u := .va, p := ⟨false, 0⟩, fmt := .i32, d := .nil, a := .nil, b := .nil, c := .nil, imm := 0x3f, rm := .rne, q := false, m := 2, var := 0 }),
    (1, 0x720000C000000102, .vflg { u := .va, p := ⟨false, 0⟩, fmt := .i32, d := .m 3, a := .nil, b := .nil, c := .nil, imm := 0x1, rm := .rne, q := false, m := 0, var := 2 }),
    (1, 0x73000040200C0E00, .mlog { u := .va, p := ⟨false, 0⟩, fmt := .i32, d := .m 1, a := .m 2, b := .m 3, c := .nil, imm := 0xe, rm := .rne, q := false, m := 0, var := 0 }),
    (1, 0x740007C020000004, .mcnt { u := .va, p := ⟨false, 0⟩, fmt := .i32, d := .s 31, a := .m 2, b := .nil, c := .nil, imm := 0x0, rm := .rne, q := false, m := 1, var := 0 }),
    (1, 0x7500004020000000, .mfirst { u := .va, p := ⟨false, 0⟩, fmt := .i32, d := .s 1, a := .m 2, b := .nil, c := .nil, imm := 0x0, rm := .rne, q := false, m := 0, var := 0 })]

theorem test_words_moving_2 : movingWords2.all reads = true := by decide +kernel

theorem witness_words_moving_2 : movingWords2.all issuable = true := by decide +kernel

/-- The matrix engine, from Table 14.3; the examples after R316 and of 20_fused_chain.md. -/
def matrixWords : List Coded := [
    (3, 0x0105000000000400, .mpush { p := ⟨false, 0⟩, fmt := .t4e0, row := 0, view := 0, idx := 0, sr := 0, imm := (0), z := false, k := true, s := false, c := false, rm := .rne, q := false, m := 0, var := 0 }),
    (3, 0x0200000000000800, .mshift { p := ⟨false, 0⟩, fmt := .i32, row := 0, view := 0, idx := 0, sr := 0, imm := (0), z := true, k := false, s := false, c := false, rm := .rne, q := false, m := 0, var := 0 }),
    (3, 0x0329280000000A2C, .macc { p := ⟨false, 2⟩, fmt := .t8e2, row := 5, view := 0, idx := 0, sr := 0, imm := (0), z := true, k := false, s := true, c := false, rm := .rne, q := true, m := 3, var := 0 }),
    (3, 0x0407000800000000, .mdrain { p := ⟨false, 0⟩, fmt := .t8e0, row := 0, view := 0, idx := 4, sr := 0, imm := (0), z := false, k := false, s := false, c := false, rm := .rne, q := false, m := 0, var := 0 }),
    (3, 0x080B080A00000000, .mqadd { p := ⟨false, 0⟩, fmt := .t16e1, row := 1, view := 0, idx := 5, sr := 0, imm := (0), z := false, k := false, s := false, c := false, rm := .rne, q := false, m := 0, var := 0 }),
    (3, 0x040B080E00000040, .mdrain { p := ⟨false, 0⟩, fmt := .t16e1, row := 1, view := 0, idx := 7, sr := 0, imm := (0), z := false, k := false, s := false, c := false, rm := .sr, q := false, m := 0, var := 0 }),
    (3, 0x0900F8000FF00020, .mqscale { p := ⟨false, 0⟩, fmt := .i32, row := 31, view := 0, idx := 0, sr := 0, imm := (-256), z := false, k := false, s := false, c := false, rm := .rne, q := true, m := 0, var := 0 }),
    (3, 0x0A00100000000004, .mqneg { p := ⟨false, 0⟩, fmt := .i32, row := 2, view := 0, idx := 0, sr := 0, imm := (0), z := false, k := false, s := false, c := false, rm := .rne, q := false, m := 1, var := 0 }),
    (3, 0x0B00180000000000, .mqclr { p := ⟨false, 0⟩, fmt := .i32, row := 3, view := 0, idx := 0, sr := 0, imm := (0), z := false, k := false, s := false, c := false, rm := .rne, q := false, m := 0, var := 0 }),
    (3, 0x0C00200090000000, .mqcopy { p := ⟨false, 0⟩, fmt := .i32, row := 4, view := 0, idx := 0, sr := 9, imm := (0), z := false, k := false, s := false, c := false, rm := .rne, q := false, m := 0, var := 0 }),
    (3, 0x1000000030002001, .mqspill { p := ⟨false, 0⟩, fmt := .i32, row := 0, view := 0, idx := 0, sr := 3, imm := (2), z := false, k := false, s := false, c := false, rm := .rne, q := false, m := 0, var := 1 }),
    (3, 0x110038003FFFF000, .mqfill { p := ⟨false, 0⟩, fmt := .i32, row := 7, view := 0, idx := 0, sr := 3, imm := (-1), z := false, k := false, s := false, c := false, rm := .rne, q := false, m := 0, var := 0 }),
    (3, 0x1800000030001000, .morig { p := ⟨false, 0⟩, fmt := .i32, row := 0, view := 0, idx := 0, sr := 3, imm := (1), z := false, k := false, s := false, c := false, rm := .rne, q := false, m := 0, var := 0 }),
    (3, 0xF300000000000001, .mnop 3 1)]

theorem test_words_matrix : matrixWords.all reads = true := by decide +kernel

theorem witness_words_matrix : matrixWords.all issuable = true := by decide +kernel

/-- Loads and stores, from Table 10.2 and the example after it. -/
def memoryWords : List Coded := [
    (4, 0x010043064BFF8008, .ldv { p := always, w := .w64, data := .wide 1 12, sb := 3, si := 4, sc := 2, imm := (-128), m := 2, u := false }),
    (4, 0x02023FC400000600, .ldvb { p := always, w := .w16, data := .wide 0 255, sb := 2, si := 0, sc := 0, imm := (6), m := 0, u := false }),
    (4, 0x0301014400000C01, .lds { p := always, w := .w32, data := .sreg 5, sb := 2, si := 0, sc := 0, imm := (12), m := 0, u := true }),
    (4, 0x040000CC00000000, .ldof { p := always, w := .w64, data := .opf 3, sb := 6, si := 0, sc := 0, imm := (0), m := 0, u := false }),
    (4, 0x0500004C00004000, .ldq { p := always, w := .w64, data := .vq 1, sb := 6, si := 0, sc := 0, imm := (64), m := 0, u := false }),
    (4, 0x0800000E00000000, .ldsclA { p := always, w := .w64, data := .nil, sb := 7, si := 0, sc := 0, imm := (0), m := 0, u := false }),
    (4, 0x090001CE00000000, .ldsclB { p := always, w := .w64, data := .part 7, sb := 7, si := 0, sc := 0, imm := (0), m := 0, u := false }),
    (5, 0x0100430600000000, .stv { p := always, w := .w64, data := .wide 1 12, sb := 3, si := 0, sc := 0, imm := (0), m := 0, u := false }),
    (5, 0x0200C30600000010, .stvm { p := always, w := .w64, data := .wide 3 12, sb := 3, si := 0, sc := 0, imm := (0), m := 4, u := false }),
    (5, 0x0302024600000200, .sts { p := always, w := .w16, data := .sreg 9, sb := 3, si := 0, sc := 0, imm := (2), m := 0, u := false }),
    (5, 0x040000461DFFFF00, .stq { p := always, w := .w64, data := .vq 1, sb := 3, si := 1, sc := 3, imm := (131071), m := 0, u := false })]

theorem test_words_memory : memoryWords.all reads = true := by decide +kernel

theorem witness_words_memory : memoryWords.all issuable = true := by decide +kernel

/-- The transfer engine, from Tables 12.1 and 12.2; the examples after R235, of 20_fused_chain.md and 21_arrival_pipeline.md. -/
def engineWords1 : List Coded := [
    (6, 0x010000160C000080, .xcopy { p := ⟨false, 0⟩, fmt := .i32, xq := 0, tix := 0x2C, r0 := 3, r1 := 0, r2 := 0, r3 := 0, en := 1, cmd := 0 }),
    (6, 0x0200802001200101, .xfill { p := ⟨false, 0⟩, fmt := .i32, xq := 2, tix := 0x40, r0 := 0, r1 := 9, r2 := 0, r3 := 0, en := 2, cmd := 1 }),
    (6, 0x0300400084021E80, .xgath { p := ⟨false, 0⟩, fmt := .i32, xq := 1, tix := 0x1, r0 := 1, r1 := 0, r2 := 2, r3 := 3, en := 13, cmd := 0 }),
    (6, 0x0400FFFF8000FC00, .xscat { p := ⟨false, 0⟩, fmt := .i32, xq := 3, tix := 0x7FFF, r0 := 0, r1 := 0, r2 := 0, r3 := 31, en := 8, cmd := 0 }),
    (6, 0x0500000110A00180, .xcsr { p := ⟨false, 0⟩, fmt := .i32, xq := 0, tix := 0x2, r0 := 4, r1 := 5, r2 := 0, r3 := 0, en := 3, cmd := 0 }),
    (6, 0x0600000180000003, .xdec { p := ⟨false, 0⟩, fmt := .i32, xq := 0, tix := 0x3, r0 := 0, r1 := 0, r2 := 0, r3 := 0, en := 0, cmd := 3 }),
    (6, 0x080000020443278F, .xatom { p := ⟨false, 0⟩, fmt := .i32, xq := 0, tix := 0x4, r0 := 1, r1 := 2, r2 := 3, r3 := 4, en := 15, cmd := 15 }),
    (6, 0x090B000280000001, .xqadd { p := ⟨false, 0⟩, fmt := .t16e1, xq := 0, tix := 0x5, r0 := 0, r1 := 0, r2 := 0, r3 := 0, en := 0, cmd := 1 }),
    (6, 0x0A03000300000005, .xqrd { p := ⟨false, 0⟩, fmt := .f32, xq := 0, tix := 0x6, r0 := 0, r1 := 0, r2 := 0, r3 := 0, en := 0, cmd := 5 }),
    (6, 0x0B00000380000000, .xqclr { p := ⟨false, 0⟩, fmt := .i32, xq := 0, tix := 0x7, r0 := 0, r1 := 0, r2 := 0, r3 := 0, en := 0, cmd := 0 }),
    (6, 0x1A00000414000081, .xrec { p := ⟨false, 0⟩, fmt := .i32, xq := 0, tix := 0x8, r0 := 5, r1 := 0, r2 := 0, r3 := 0, en := 1, cmd := 1 }),
    (6, 0x1C10001100000000, .xarm { p := ⟨false, 1⟩, fmt := .i32, xq := 0, tix := 0x22, r0 := 0, r1 := 0, r2 := 0, r3 := 0, en := 0, cmd := 0 }),
    (6, 0x1000008000000100, .xsig { p := always, xq := 0, ctr := 0, l := true, h := 0, sa := 0, imm := 1 }),
    (6, 0x1000830E40000200, .xsig { p := always, xq := 2, ctr := 3, l := false, h := 7, sa := 4, imm := 2 }),
    (6, 0x11000002A3000000, .xword { p := always, xq := 0, l := false, h := 1, sa := 10, sb := 6, imm := 0 }),
    (6, 0x1800540000000000, .xjoin always 1 5)]

theorem test_words_engine_1 : engineWords1.all reads = true := by decide +kernel

theorem witness_words_engine_1 : engineWords1.all issuable = true := by decide +kernel

/-- The transfer engine, from Tables 12.1 and 12.2; the examples after R235, of 20_fused_chain.md and 21_arrival_pipeline.md. -/
def engineWords2 : List Coded := [
    (6, 0x1900000000000000, .xlrf always),
    (6, 0x1B0000000000000F, .xadv always 15),
    (6, 0x1D00888000000000, .xstat always 2 4 1),
    (6, 0x1E0028C000000000, .xcancel always 10 6),
    (6, 0xFF00000000000002, .xnop 15 2)]

theorem test_words_engine_2 : engineWords2.all reads = true := by decide +kernel

theorem witness_words_engine_2 : engineWords2.all issuable = true := by decide +kernel

/-- Synchronisation, from Table 17.1; the examples after R349 and of 21_arrival_pipeline.md. -/
def syncWords1 : List Coded := [
    (7, 0x0001030A007D0003, .waitge always 12 5 3 ⟨1000, false, 0⟩),
    (7, 0x0001000030D40001, .waitge always 0 0 1 ⟨100000, false, 0⟩),
    (7, 0x0001030A00000403, .waitge always 12 5 3 ⟨0, false, 2⟩),
    (7, 0x00020198007D2102, .waitw always 3 6 .eq 2 ⟨500, true, 0⟩),
    (7, 0x0002019800000600, .waitw always 3 6 .ne 0 ⟨0, false, 1⟩),
    (7, 0x0003E0C800002000, .sig ⟨true, 6⟩ 3 4 1),
    (7, 0x000800186A000000, .barr always 0 false 100000),
    (7, 0x00090380000000C8, .realign always 7 200),
    (7, 0x000A000000000000, .fence always .t),
    (7, 0x000A020000000000, .fence always .f),
    (7, 0x000A040000000000, .fence always .d),
    (7, 0x000A060000000000, .fence always .p),
    (7, 0x000A080000000000, .fence always .s),
    (7, 0x0010040000000000, .fadv always .fa 16),
    (7, 0x001109200FA00000, .fwait ⟨always, .fb, 4, ⟨2000, true, 0⟩⟩),
    (7, 0x001100400000C000, .fwait ⟨always, .fa, 1, ⟨0, false, 3⟩⟩)]

theorem test_words_sync_1 : syncWords1.all reads = true := by decide +kernel

theorem witness_words_sync_1 : syncWords1.all issuable = true := by decide +kernel

/-- Synchronisation, from Table 17.1; the examples after R349 and of 21_arrival_pipeline.md. -/
def syncWords2 : List Coded := [
    (7, 0x0012020002580000, .ffree ⟨always, .fa, 8, ⟨300, false, 0⟩⟩)]

theorem test_words_sync_2 : syncWords2.all reads = true := by decide +kernel

theorem witness_words_sync_2 : syncWords2.all issuable = true := by decide +kernel

/-- Words that are no instruction, one for each rule that refuses one. -/
theorem test_ill_1 : ([
    (0, 0x1570000000000000), (6, 0x0700000000000000), (0, 0x0000000000000001), (1, 0x0F00000000000000),
    (3, 0xEF00000000000000), (4, 0x0600000000000000), (5, 0x0500000000000000), (7, 0x0004000000000000),
    (0, 0x0F00800000000000), (0, 0x0F00400000000000), (0, 0x1100801000000000), (0, 0x1100000080000000),
    (0, 0x0100000000000001), (0, 0x1200060000000000), (0, 0x1800000000000008), (0, 0x2400800000000005),
    (0, 0x2600000000000006), (0, 0x2001000000000000), (0, 0x3000000000000008), (0, 0x3100000000000004),
    (0, 0x3100000000000005), (1, 0x6001000000000000), (1, 0x20030000000000C0), (1, 0x0100000000000040),
    (1, 0x0100000000000020), (1, 0x6000000000000004), (1, 0x0400000000000002), (1, 0x0100000000000100),
    (1, 0x0700000000040000), (1, 0x0100C80000000000), (1, 0x0100800000000000), (1, 0x0C00003600000000),
    (1, 0x0C00001100000000), (1, 0x550100000C000000), (1, 0x0A00020000000000), (1, 0x7400080000000000),
    (1, 0x6000010000000000), (1, 0x0D00000000004000), (1, 0x2A07000000000600), (1, 0x4007000000002700)] : List (Nat × BitVec 64)).all refused = true := by decide +kernel

/-- Words that are no instruction, one for each rule that refuses one. -/
theorem test_ill_2 : ([
    (1, 0x4103000000000300), (1, 0x5002000000000002), (1, 0x5001000000000001), (1, 0x5200000000000003),
    (1, 0x5403000000000001), (1, 0x7200000000000003), (1, 0x5303000000000100), (3, 0x0901000000000000),
    (3, 0x0900000000100000), (3, 0x1000080000000001), (3, 0x1800000000001001), (3, 0x040B000000000001),
    (3, 0x0407000000000002), (3, 0x0107000000000800), (3, 0x0407000000000400), (3, 0x0107000000000200),
    (3, 0x0307000000000100), (3, 0x0307000000000040), (3, 0x0B00000000000020), (3, 0x1000000000000004),
    (3, 0x0107080000000000), (3, 0x0307000200000000), (3, 0x0307000010000000), (3, 0x0307000000001000),
    (3, 0x0307000000000001), (4, 0x0101000000000000), (4, 0x0100000000000020), (4, 0x0300000000000004),
    (4, 0x0100000000000001), (4, 0x0300080000000000), (5, 0x0100000000000004), (5, 0x0300000000000001),
    (4, 0x0800004000000000), (6, 0x0300000000000100), (6, 0x1C00000000000080), (6, 0x0100000000000001),
    (6, 0x0101000000000000), (6, 0x0A03000000000003), (6, 0x0600000000000001), (6, 0x0100000004000000)] : List (Nat × BitVec 64)).all refused = true := by decide +kernel

/-- Words that are no instruction, one for each rule that refuses one. -/
theorem test_ill_3 : ([
    (6, 0x1000008200000000), (6, 0x1100008200000000), (6, 0x1800000000000000), (6, 0x1E00000000000000),
    (6, 0x1D00018000000000), (6, 0x1D00410000000000), (6, 0x1B00000000000010), (7, 0x0001000000002200),
    (7, 0x0001000000001000), (7, 0x0002000000000300), (7, 0x0008000000000000), (7, 0x000A0A0000000000),
    (7, 0x0010000000000000), (7, 0x0010044000000000), (7, 0x0011004000024000), (7, 0x0012000000000000),
    (7, 0x0009000100000000)] : List (Nat × BitVec 64)).all refused = true := by decide +kernel

/-- Words whose format is outside the set of their row (R98). -/
theorem test_fmt_1 : ([
    (0, 0x0104000000000000), (1, 0x0103000000000000), (1, 0x2000000000000000), (1, 0x2A03000000000000),
    (1, 0x4200000000000000), (1, 0x5500000004000000), (1, 0x6103000000000000), (3, 0x030E000000000000),
    (4, 0x0204000000000000), (6, 0x0900000000000000)] : List (Nat × BitVec 64)).all misformatted = true := by decide +kernel


/-- The bundle after R105: its MNOP, whose ignored bits are set, its NOP slots, and the header's Y bit. -/
theorem test_words_bundle : decSlot 3 0xF3A5000000000001 = .op (.mnop 3 0xA5000000000001) ∧ decSlot 1 0 = .nop ∧
    decSlot 7 0x8000000000000000 = .nop ∧ (bundleOfBytes (List.replicate 63 0 ++ [0x80])).slot 7 = 0x8000000000000000 := by and_intros <;> decide +kernel

/-! ### Terms that are not well formed, one for each check -/

def vec : VArgs := { u := .va, p := always, fmt := .i32, d := .v (.opf 1), a := .v (.opf 2), b := .v (.opf 3), c := .nil, imm := 0, rm := .rne, q := false, m := 0, var := 0 }
def one : VArgs := { vec with b := .nil }
def mx : MxArgs := { p := always, fmt := .i32, row := 0, view := 0, idx := 0, sr := 0, imm := 0, z := false, k := false, s := false, c := false, rm := .rne, q := false, m := 0, var := 0 }
def ls (d : LsData) : LsArgs := { p := always, w := .w64, data := d, sb := 0, si := 0, sc := 0, imm := 0, m := 0, u := false }
def xe : XeArgs := { p := always, fmt := .i32, xq := 0, tix := 0, r0 := 0, r1 := 0, r2 := 0, r3 := 0, en := 0, cmd := 0 }
def forever : WaitForm := ⟨1000, false, 0⟩
def test_ : WaitForm := ⟨0, false, 1⟩

theorem test_wf_vector : [.vadd vec, .vmov one, .vfadd { vec with fmt := .f32, rm := .sr, q := true }].all Instr.wf = true ∧
    [.vadd { vec with fmt := .f32 }, .vadd { vec with d := .v .ones }, .vadd { vec with a := .nil }, .vadd { vec with c := .v .zero },
     .vadd { vec with imm := 1 }, .vadd { vec with rm := .rz }, .vadd { vec with q := true }, .vmulh { vec with var := 2 },
     .vmov vec, .vsortk { vec with fmt := .i16, b := .v .zero }, .vcmp vec, .mcnt { one with d := .m 1, a := .m 1 }, .vqclr { one with d := .q 0, a := .nil, m := 1 },
     .vqclr { one with d := .q 0, a := .nil, fmt := .i16 }, .vbcast { one with imm := 64 }, .vfspec { one with fmt := .t8e0, imm := 6 },
     .vcvt { one with fmt := .i8, imm := 0x40 }, .vcvt { one with fmt := .i8, imm := 3 }, .vcvt { one with fmt := .f32, imm := 4, var := 1 },
     .vcvti { one with fmt := .f32, imm := 3 }, .vcvti { one with fmt := .f32, imm := 0x21 }, .vpack vec, .vperm { vec with var := 1 },
     .vred { one with var := 3 }, .vred { one with var := 1, rm := .sr }, .vred { one with fmt := .f32, imm := 1 }, .vargmax { one with fmt := .f32, imm := 1 },
     .vscan { one with fmt := .f32, var := 2 }, .vflg { one with d := .nil, a := .nil, var := 3 }].all (! Instr.wf ·) = true := by and_intros <;> decide +kernel

theorem test_wf_matrix : [.mshift mx, .macc { mx with fmt := .t8e0 }].all Instr.wf = true ∧
    [.macc mx, .macc { mx with fmt := .t32e1 }, .mshift { mx with fmt := .t4e0 }, .mshift { mx with row := 1 }, .mshift { mx with view := 1 }, .mshift { mx with idx := 1 },
     .mshift { mx with sr := 1 }, .mshift { mx with imm := 1 }, .mshift { mx with k := true }, .mshift { mx with s := true }, .mshift { mx with c := true },
     .mqneg { mx with z := true }, .mshift { mx with rm := .sr }, .mshift { mx with q := true }, .mshift { mx with m := 1 }, .mshift { mx with var := 1 },
     .mdrain { mx with fmt := .t8e0, var := 2 }, .mqscale { mx with imm := 256 }, .mqspill { mx with row := 1, var := 1 }, .mqfill { mx with var := 2 },
     .morig { mx with imm := 1, var := 1 }].all (! Instr.wf ·) = true := by and_intros <;> decide +kernel

theorem test_wf_memory : [.ldv (ls (.wide 0 0)), .lds { ls (.sreg 1) with w := .w8, u := true }, .ldsclA (ls .nil)].all Instr.wf = true ∧
    [.ldv (ls .nil), .ldv { ls (.wide 0 0) with w := .w8 }, .ldv { ls (.wide 0 0) with u := true }, .lds { ls (.sreg 1) with m := 1 }, .ldsclA (ls (.part 0)),
     .stv { ls (.wide 0 0) with m := 1 }, .sts { ls (.sreg 1) with u := true }, .stq (ls (.sreg 1))].all (! Instr.wf ·) = true := by and_intros <;> decide +kernel

theorem test_wf_engine : [.xcopy xe, .xqrd { xe with fmt := .f32, cmd := 6 }].all Instr.wf = true ∧
    [.xcopy { xe with fmt := .i16 }, .xqadd xe, .xcopy { xe with cmd := 1 }, .xgath { xe with en := 2 }, .xcopy { xe with r0 := 1 }, .xcopy { xe with r1 := 1 },
     .xcopy { xe with r2 := 1 }, .xcopy { xe with r3 := 1 }, .xdec { xe with cmd := 1 }, .xqrd { xe with fmt := .f32, cmd := 3 },
     .xsig ⟨always, 0, 0, true, 1, 0, 0⟩, .xword ⟨always, 0, true, 1, 0, 0, 0⟩, .xjoin always 0 0, .xcancel always 0 0, .xstat always 0 0 3, .xstat always 1 0 2].all
      (! Instr.wf ·) = true := by and_intros <;> decide +kernel

theorem test_wf_control_sync : [.add ⟨always, .w8, true, 0, 0, .imm 0⟩, .loop ⟨always, false, false, 1, .imm 0⟩, .waitge always 0 0 0 forever, .waitge always 0 0 0 test_].all Instr.wf = true ∧
    [.clz ⟨always, .w64, true, 0, 0, .reg 0⟩, .popc ⟨always, .w64, false, 0, 0, .reg 1⟩, .clz ⟨always, .w64, false, 0, 0, .imm 0⟩, .movi ⟨always, .w64, false, 0, 1, .imm 0⟩,
     .movi ⟨always, .w64, false, 0, 0, .reg 1⟩, .loop ⟨always, false, false, 0, .imm 0⟩, .lidx always 0 6, .sysr always 0 0x050, .sysw always 0 4, .sysw always 0 5,
     .sysw always 0 0, .sysw always 0 0x0C0, .waitge always 0 0 0 ⟨1, false, 1⟩, .waitw always 0 0 .ge 0 ⟨0, true, 0⟩, .barr always 0 false 0, .fadv always .fa 0,
     .fadv always .fa 17, .fwait ⟨always, .fa, 0, forever⟩, .ffree ⟨always, .fb, 1, ⟨0, true, 0⟩⟩].all (! Instr.wf ·) = true := by and_intros <;> decide +kernel

theorem test_wf_events : [.bundleFetch 2047 0, .dieReset 7, .stretch 256, .clockStep 480].all Instr.wf = true ∧
    [.bundleFetch 2048 0, .remoteAddArrival 0 0 2048 0 0 0, .dieReset 8, .loadAck 8 0 0, .clockStep 500, .stretch 100, .peerWrite 4 .hbm 0 [] .write].all
      (! Instr.wf ·) = true := by and_intros <;> decide +kernel

/-! ### Scalar, control and system operations

In `worker`, s1 is 0xF0, s2 is −1, s4 is 7, s5 is −2^63, s6 is −7, and p1 and p2 are set. -/

def alu (w : IW) (u : Bool) (sa : BitVec 5) (b : SrcB) : AluArgs := ⟨always, w, u, 3, sa, b⟩

/-- R40, R56, R169: the result in s3 after a latency. -/
theorem test_scalar_arithmetic : [
    (Instr.add (alu .w8 false 1 (.imm 0x20)), 1, 0x10#64), (.add (alu .w32 false 0 (.imm 0x80000000)), 1, 0xFFFFFFFF80000000),
    (.sub (alu .w32 true 0 (.imm 1)), 1, 0xFFFFFFFF), (.mul (alu .w16 false 1 (.reg 1)), 3, 0xFFFFFFFFFFFFE100),
    (.mulh (alu .w64 false 2 (.reg 2)), 3, 0), (.mulh (alu .w64 true 2 (.reg 2)), 3, 0xFFFFFFFFFFFFFFFE),
    (.div (alu .w64 false 6 (.imm 2)), 16, 0xFFFFFFFFFFFFFFFD), (.div (alu .w64 false 5 (.reg 2)), 16, 0x8000000000000000),
    (.div (alu .w32 true 4 (.imm 0)), 16, 0xFFFFFFFF), (.rem (alu .w64 false 6 (.imm 2)), 16, 0xFFFFFFFFFFFFFFFF), (.rem (alu .w32 true 4 (.imm 0)), 16, 7),
    (.and (alu .w64 false 1 (.imm 0x3C)), 1, 0x30), (.or (alu .w64 false 1 (.imm 0xF)), 1, 0xFF), (.xor (alu .w64 false 1 (.reg 2)), 1, 0xFFFFFFFFFFFFFF0F),
    (.shl (alu .w64 false 4 (.imm 64)), 1, 0), (.shl (alu .w64 false 4 (.imm 0x101)), 1, 14), (.shr (alu .w8 true 1 (.imm 4)), 1, 0xF),
    (.sra (alu .w64 false 5 (.imm 200)), 1, 0xFFFFFFFFFFFFFFFF), (.sra (alu .w8 true 1 (.imm 4)), 1, 0xF)].all
      (fun x => Sends worker 0 x.1 [(x.2.1, .sreg 3 x.2.2)]) = true := by decide +kernel

/-- R169, R173 to R176, with the constant of the example after R176. -/
theorem test_scalar_selection : [
    (Instr.min (alu .w64 false 2 (.reg 4)), 0xFFFFFFFFFFFFFFFF#64), (.min (alu .w64 true 2 (.reg 4)), 7), (.max (alu .w64 false 2 (.reg 4)), 7),
    (.max (alu .w64 true 2 (.reg 4)), 0xFFFFFFFFFFFFFFFF), (.clz (alu .w8 false 4 (.reg 0)), 5), (.clz (alu .w64 false 0 (.reg 0)), 64),
    (.popc (alu .w16 false 2 (.reg 0)), 16), (.movi (alu .w64 true 0 (.imm 0x89ABCDEF0)), 0x89ABCDEF0), (.movi (alu .w8 false 1 (.reg 0)), 0xFFFFFFFFFFFFFFF0),
    (.movhi ⟨always, 3, 2, 0x1234567⟩, 0x1234567FFFFFFFFF), (.sel ⟨always, .w32, false, 3, 4, 2, false, .imm 0x80000000⟩, 7),
    (.sel ⟨always, .w64, false, 3, 4, 2, true, .imm 0x80000000⟩, 0xFFFFFFFF80000000)].all (fun x => Sends worker 0 x.1 [(1, .sreg 3 x.2)]) = true := by decide +kernel

theorem test_predicates : [
    (Instr.cmp ⟨always, .w64, false, 5, 2, .reg 4, .lt⟩, true), (.cmp ⟨always, .w64, true, 5, 2, .reg 4, .lt⟩, false), (.cmp ⟨always, .w8, false, 5, 1, .imm 0xF0, .eq⟩, true),
    (.cmp ⟨always, .w64, false, 5, 1, .imm 0xF, .tst⟩, false), (.cmp ⟨always, .w64, false, 5, 1, .imm 0xF, .ntst⟩, true), (.cmp ⟨always, .w64, false, 5, 4, .imm 7, .ge⟩, true),
    (.cmp ⟨always, .w64, false, 5, 4, .imm 7, .gt⟩, false), (.plog ⟨always, 5, 1, 0, 0x8⟩, true), (.plog ⟨always, 5, 1, 3, 0x4⟩, true), (.plog ⟨always, 5, 3, 1, 0x4⟩, false)].all
      (fun x => Sends worker 0 x.1 [(1, .preg 5 x.2)]) = true := by decide +kernel

/-- R73: with a false condition nothing is sent, and the bundle ends. -/
theorem test_false_condition : sends worker 0 (.add { alu .w64 false 4 (.reg 4) with p := ⟨true, 0⟩ }) = some [] ∧
    ((next? (.trap ⟨true, 1⟩ 5) (at_ worker 0 (.trap ⟨true, 1⟩ 5))).map fun v => (v.cur.isNone, (v.ctx 0 0).sup)) = some (true, false) := by and_intros <;> decide +kernel

/-- A value of the context after the operation that ends its bundle, and of what the bundle was then. -/
def leaves {α : Type} (c : Ctx) (slot : Nat) (i : Instr) (f : Ctx → α) (sup : Bool := false) : Option α :=
  (next? i (at_ c slot i sup)).map fun v => f (v.ctx 0 0)

/-- R177, R178: a BR at offset 2 in bundles, back by two; a CALL links to the third bundle after it; and RET to an offset that
is no bundle's raises BND with the offset. -/
theorem test_transfers : leaves worker 0 (.br always (-2)) (fun c => (c.pc, c.pend)) = some (3, [⟨2, .off 0⟩]) ∧
    leaves { worker with s := [(4, 0x400)] } 0 (.bri always 4 (-1)) (fun c => c.pend) = some [⟨2, .off 15⟩] ∧
    leaves worker 0 (.call always 3 .rel 5) (fun c => (c.pend, c.inflight.map (·.w))) = some ([⟨2, .off 7⟩], [.sreg 3 0x140]) ∧
    leaves { worker with s := [(4, 0x400)] } 0 (.call always 3 (.reg 4) 0) (fun c => (c.pend, c.inflight.map (·.w))) = some ([⟨2, .off 16⟩], [.sreg 3 0x140]) ∧
    leaves { worker with s := [(4, 0x3FFFC0)] } 0 (.ret always 4) (fun c => c.pend) = some [⟨2, .off 0xFFFF⟩] ∧
    leaves { worker with s := [(4, 0x400001)] } 0 (.ret always 4) (fun c => (c.pend, c.sup, c.ecause.setWidth 8, c.einfo)) = some ([], true, cBND, 0x400001) ∧
    leaves worker 0 (.br always (-3)) (fun c => (c.sup, c.ecause.setWidth 8, c.einfo)) = some (true, cBND, 0xFFFFFFC0) := by and_intros <;> decide +kernel

/-- The member of a furrow takes no transfer, and writes the link of a CALL. -/
def member : Ctx := { worker with pos := 1, span := 2, head := 5 }

theorem test_transfers_member : leaves member 0 (.br always 4) (fun c => (c.pend, c.inflight)) = some ([], []) ∧
    leaves member 0 (.ret always 4) (fun c => (c.pend, c.sup)) = some ([], false) ∧ leaves member 0 (.bri always 4 0) (fun c => (c.pend, c.sup)) = some ([], false) ∧
    leaves member 0 (.call always 3 .rel 5) (fun c => (c.pend, c.inflight.map (·.w))) = some ([], [.sreg 3 0x140]) ∧
    leaves member 0 (.loop ⟨always, false, false, 1, .imm 1⟩) (fun c => c.ldep) = some 0 ∧ leaves member 0 (.loopx always) (fun c => (c.ldep, c.sup)) = some (0, false) := by and_intros <;> decide +kernel

/-- R178: transfers come due, the second of two after the first. -/
theorem test_sequencer : [([], 3, []), ([⟨2, .off 9⟩], 3, [⟨1, .off 9⟩]), ([⟨1, .off 9⟩], 9, []), ([⟨1, .off 9⟩, ⟨2, .off 10⟩], 9, [⟨1, .off 10⟩])].all
    (fun (x : List Pending × BitVec 16 × List Pending) =>
      leaves { worker with pend := x.1 } 3 (.mnop 0 0) (fun c => (c.pc, c.pend)) = some (x.2.1, x.2.2)) = true := by decide +kernel

/-- Depth `n` of levels with a body of two bundles from offset 1, of which bundle 2 is the last. -/
def looping (n : Nat) (l : Level) : Ctx := { worker with ldep := n, ls := (List.range n).map fun j => (j, if j + 1 = n then l else { count := 9, len := 9, start := 40 }) }

/-- R178, R181 to R186: a level is pushed with its fields; a count of 0 annuls; depth 6 and depth 0 raise LSTK; the last bundle
of a body goes back, or ends its level; LOOPX leaves; LIDX reads the innermost level first. -/
theorem test_loops :
    leaves worker 0 (.loop ⟨always, true, false, 4, .reg 4⟩) (fun c => (c.pc, c.ldep, c.toCore.level 0)) = some (3, 1, { count := 7, len := 4, start := 3, rt := true }) ∧
    leaves worker 0 (.loop ⟨always, true, false, 4, .imm 0⟩) (fun c => (c.ldep, c.pend, c.nulls)) = some (0, [⟨2, .off 7⟩], 2) ∧
    leaves (looping 6 {}) 0 (.loop ⟨always, false, false, 1, .imm 1⟩) (fun c => (c.sup, c.ecause.setWidth 8)) = some (true, cLSTK) ∧
    leaves worker 0 (.loopx always) (fun c => (c.sup, c.ecause.setWidth 8)) = some (true, cLSTK) ∧
    leaves (looping 2 { count := 3, idx := 1, len := 2, start := 1 }) 3 (.mnop 0 0) (fun c => (c.pc, c.ldep, (c.toCore.level 1).idx)) = some (1, 2, 2) ∧
    leaves (looping 2 { count := 3, idx := 2, len := 2, start := 1 }) 3 (.mnop 0 0) (fun c => (c.pc, c.ldep, c.toCore.level 1)) = some (3, 1, {}) ∧
    leaves (looping 2 { count := 3, idx := 1, len := 9, start := 1 }) 0 (.loopx always) (fun c => (c.ldep, c.pend)) = some (1, [⟨2, .off 10⟩]) ∧
    Sends (looping 2 { count := 3, idx := 2, len := 9, start := 1 }) 0 (.lidx always 3 0) [(1, .sreg 3 2)] = true ∧
    Sends (looping 2 { idx := 2 }) 0 (.lidx always 3 2) [(1, .sreg 3 0)] = true := by and_intros <;> decide +kernel

/-- R190, R191, R363, R365: the entry of a TRAP, its registers, and the transfers that were pending. -/
def trapped : Ctx := { worker with pend := [⟨1, .off 0x10⟩, ⟨2, .off 0x18⟩], tvec := 0x8000, ecause := 0x10000 }

theorem test_trap : leaves trapped 0 (.trap always 0x1234) (fun c => (c.sup, c.pc, c.pend, c.readyAt)) = some (true, 0x200, [], 103) ∧
    (next? (.trap always 0x1234) { at_ trapped 0 (.trap always 0x1234) with cur := some { single 0 (.trap always 0x1234) with pend0 := trapped.pend } }).map
      (fun v => let c := v.ctx 0 0; [c.epc, c.ept, c.ecause, c.eslot, c.edone, c.einfo]) = some [0x80, 0x0003000000180010, 0x10010, 0, 0x101, 0x1234] := by and_intros <;> decide +kernel

/-- R366: the same in supervisor mode is final. -/
theorem test_final_trap : leaves { worker with sup := true, epc := 0x40 } 0 (.trap always 7) (fun c => (c.life, c.ecause.getLsbD 14)) true = some (.stopped, true) ∧
    leaves { worker with sup := true, epc := 0x40 } 0 (.trap always 7) (fun c => [c.ecause &&& 0xFF, c.epc, c.einfo]) true = some [0x10, 0x40, 0] := by and_intros <;> decide +kernel

/-- R192, R193: the return after its two delay bundles, its refusal in user mode, and EXIT. -/
theorem test_return_exit :
    leaves { worker with sup := true, pend := [⟨1, .off 9⟩] } 0 (.tret always) (fun c => c.pend) true = some [⟨2, .tret⟩] ∧
    leaves { worker with sup := true, pend := [⟨1, .tret⟩], epc := 0x280, ept := 0x0003000000180010, edone := 0x4141 } 3 (.mnop 0 0)
      (fun c => (c.sup, c.pc, c.pend, c.resume.map (·.done))) true = some (false, 10, [⟨1, .off 0x10⟩, ⟨2, .off 0x18⟩], some 0x41) ∧
    leaves worker 0 (.tret always) (fun c => (c.sup, c.ecause.setWidth 8, c.eslot)) = some (true, cPRIV, 0) ∧
    leaves worker 0 (.exit always) (fun c => c.life) = some .retiring ∧
    leaves { worker with sup := true, ecause := 0x10000 } 0 (.exit always) (fun c => c.life) true = some .stopped := by and_intros <;> decide +kernel

/-- R188, Table 9.6: registers of both modes, of one mode, and of none. -/
theorem test_system_registers :
    Sends { worker with key := 5 } 0 (.sysr always 3 0x000) [(2, .sreg 3 5)] = true ∧ Sends worker 0 (.sysr always 3 0x004) [(2, .sreg 3 100)] = true ∧
    Sends worker 0 (.sysr always 3 0x085) [(2, .sreg 3 5)] = true ∧ Sends worker 0 (.sysr always 3 0x010) [(2, .sreg 3 0x40000FF00)] = true ∧
    Sends worker 0 (.sysw always 4 0x001) [(2, .sys 1 7)] = true ∧ Sends worker 0 (.keyWrite always 4) [(2, .sys 0 7)] = true ∧
    leaves worker 0 (.sysr always 3 0x020) (fun c => c.ecause.setWidth 8) = some cPRIV ∧ leaves worker 0 (.sysw always 4 0x010) (fun c => c.ecause.setWidth 8) = some cPRIV ∧
    leaves worker 0 (.cntWrite always 4 3) (fun c => c.ecause.setWidth 8) = some cPRIV ∧
    leaves worker 0 (.cntWrite always 4 3) (fun c => c.inflight.map fun l => (l.left, l.w)) true = some [(2, .cntSet 3 7)] ∧
    leaves { worker with cmap := [] } 0 (.sysr always 3 0x080) (fun c => c.ecause.setWidth 8) = some cILL := by and_intros <;> decide +kernel

def with4 (v : Word) : Ctx := { worker with s := [(4, v)] }

/-- The cause that a supervisor-mode operation traps with, and what it sends. -/
def cause (c : Ctx) (i : Instr) : Option (BitVec 8 × List Write) := leaves c 0 i (fun d => (d.ecause.setWidth 8, d.inflight.map (·.w))) true

/-- R82, R188, R351, R376: values that a register rejects, and the operations of PREQ. -/
theorem test_system_writes :
    cause (with4 0x40000FF01) (.sysw always 4 0x010) = some (cILL, []) ∧ cause (with4 0x40000FE01) (.sysw always 4 0x010) = some (0, [.sys 0x010 0x40000FE01]) ∧
    cause (with4 0x40001FF00) (.sysw always 4 0x013) = some (cILL, []) ∧ cause (with4 0x40003FF00) (.sysw always 4 0x013) = some (0, [.sys 0x013 0x40003FF00]) ∧
    cause (with4 0x6000000000000000) (.sysw always 4 0x027) = some (cILL, []) ∧
    cause (with4 5) (.cmapWrite always 4 6) = some (cILL, []) ∧ cause (with4 6) (.cmapWrite always 4 6) = some (0, [.cmap 6 6]) ∧
    leaves (with4 0x2000000000000000) 0 (.sysw always 4 0x027) (fun c => (c.preq, c.readyAt, c.inflight.map fun l => (l.left, l.w))) true =
      some (0, 102, [(2, .sys 0x027 0x2000000000000000)]) := by and_intros <;> decide +kernel

/-! ### Vector operations -/

/-- Every element of width `w` as `x`. -/
def every (w x : Nat) : Vec := BitVec.ofNat 2048 (x * ((2 ^ 2048 - 1) / (2 ^ w - 1)))

/-- Element `e` of width `w` as `f e`, for the first `n` elements. -/
def listed (w : Nat) (xs : List Nat) : Vec := BitVec.ofNat 2048 (xs.foldr (fun x v => v * 2 ^ w + x) 0)

def lanes : Mask := BitVec.allOnes 128

def flags (f : Nat) : FlgVec := BitVec.ofNat 1024 (f * ((2 ^ 1024 - 1) / 255))

/-- A context with o2 and o3 and a mask m1. -/
def holding (a b : Vec) (m1 : Mask := 1) : Ctx := { worker with opf := [(2, a), (3, b)], m := [(1, m1)] }

/-- What a vector operation on o2 and o3 sends to o1 and %va, with the flags of each lane. -/
def yields (latency : Nat) (v : Vec) (on : Mask) (fl : FlgVec) : List (Nat × Write) :=
  [(latency, .opf 1 v on), (latency, .latch 0 v on)] ++ if fl = 0 then [] else [(latency, .flags .va fl)]

/-- An operation on elements of which all are alike: its result, and the flags of each lane. -/
def Alike (latency : Nat) (x : Instr × Nat × (Nat × Nat) × (Nat × Nat)) : Bool :=
  Sends (holding (every x.2.1 x.2.2.1.1) (every x.2.1 x.2.2.1.2)) 1 x.1 (yields latency (every x.2.1 x.2.2.2.1) lanes (flags x.2.2.2.2))

def b8 : VArgs := { vec with fmt := .i8 }

/-- R265, R267: sums and products at the ends of their range, and shifts by the width and more. -/
theorem test_vector_integers : [
    (Instr.vadd b8, 8, (0x7F, 1), (0x80, 0)), (.vadd { b8 with var := 2 }, 8, (0x7F, 1), (0x7F, 0)), (.vadd { b8 with var := 3 }, 8, (0xFF, 1), (0xFF, 0)),
    (.vsub { vec with fmt := .i16, var := 3 }, 16, (0, 1), (0, 0)), (.vsub vec, 32, (0, 1), (0xFFFFFFFF, 0)),
    (.vmul { vec with fmt := .i16, var := 2 }, 16, (0x100, 0x100), (0x7FFF, 0)), (.vmul vec, 32, (0xFFFFFFFF, 3), (0xFFFFFFFD, 0)),
    (.vmulh b8, 8, (0xFF, 2), (0xFF, 0)), (.vmulh { b8 with var := 1 }, 8, (0xFF, 2), (1, 0)), (.vmin b8, 8, (0x80, 1), (0x80, 0)),
    (.vmin { b8 with var := 1 }, 8, (0x80, 1), (1, 0)), (.vmax b8, 8, (0x80, 1), (1, 0)), (.vmax { b8 with var := 1 }, 8, (0x80, 1), (0x80, 0)),
    (.vabs { b8 with b := .nil }, 8, (0x80, 0), (0x80, 0)), (.vabs { b8 with b := .nil, var := 2 }, 8, (0x80, 0), (0x7F, 0)),
    (.vsh b8, 8, (0x81, 1), (2, 0)), (.vsh { b8 with var := 1 }, 8, (0x81, 9), (0, 0)), (.vsh { b8 with var := 2 }, 8, (0x81, 200), (0xFF, 0)),
    (.vsh { b8 with var := 3 }, 8, (0x81, 9), (3, 0))].all (Alike 2) = true := by decide +kernel

/-- R262, R266, R268, R269: truth tables, lanes that a mask governs, compares of several elements in a lane, and movement. -/
theorem test_vector_bits_and_moves : [
    (Instr.vlog { b8 with imm := 6 }, 8, (0xF0, 0xCC), (0x3C, 0)), (.vlog { b8 with imm := 4 }, 8, (0xF0, 0xCC), (0x30, 0)), (.vsel { b8 with imm := 0 }, 8, (3, 5), (3, 0)),
    (.vmov { b8 with b := .nil }, 8, (3, 5), (3, 0))].all (Alike 2) = true ∧
    Sends (holding (every 32 3) 0) 1 (.vmov { one with m := 1 }) (yields 2 (every 32 3) 3 0) = true ∧
    Sends (holding (every 32 3) 0 2) 1 (.vmov { one with m := 1 }) (yields 2 (every 32 3) 0 0) = true ∧
    Sends (holding (every 16 3) (every 16 5)) 1 (.vsel { vec with fmt := .b16, imm := 1 }) (yields 2 (every 16 5 - 2) lanes 0) = true ∧
    Sends (holding (listed 16 [7, 8, 9]) 0) 1 (.vbcast { one with fmt := .i16, imm := 2 }) (yields 2 (every 16 9) lanes 0) = true ∧
    Sends (holding (every 8 5) 0) 1 (.viota { one with fmt := .i8 }) (yields 2 (listed 8 ((List.range 256).map fun e => (e + 5) % 256)) lanes 0) = true ∧
    Sends (holding (every 16 0x100) 0) 1 (.vcmp { b8 with d := .m 2 }) [(2, .mreg 2 0)] = true ∧
    Sends (holding (every 16 0x100) 0) 1 (.vcmp { vec with fmt := .i16, d := .m 2, imm := 1, m := 1 }) [(2, .mreg 2 1)] = true ∧
    Sends (holding (every 32 0x80000000) (every 32 1)) 1 (.vcmp { vec with d := .m 2, imm := 2 }) [(2, .mreg 2 lanes)] = true := by and_intros <;> decide +kernel

/-- The formats of the tests: F32 as 1, 2, 3 and so on, T8E0 with 0x48 as 1.25, and T16E1 with 0x4000 as 1. -/
def f32 : VArgs := { vec with fmt := .f32 }
def t16 : VArgs := { vec with fmt := .t16e1 }

/-- R263, R270 to R272, Table 13.3: exact and rounded results, the special cases, and their flags. -/
theorem test_vector_floats : [
    (Instr.vfadd f32, 32, (0x3F800000, 0x40000000), (0x40400000, 0)), (.vfsub f32, 32, (0x3F800000, 0x40000000), (0xBF800000, 0)),
    (.vfmul f32, 32, (0x40000000, 0x40400000), (0x40C00000, 0)), (.vfmul f32, 32, (0x7F800000, 0), (0x7FC00000, 8)),
    (.vfadd f32, 32, (0x7F800001, 0), (0x7FC00000, 8)), (.vfadd t16, 16, (0x4000, 0x4000), (0x5000, 0)), (.vfsub t16, 16, (0x4000, 0x4000), (0, 0)),
    (.vfadd t16, 16, (0x8000, 0x4000), (0x8000, 0x10)), (.vfscalb f32, 32, (0x3F800000, 3), (0x41000000, 0)), (.vfscalb t16, 16, (0x4000, 0xFFFF), (0x3000, 0))].all (Alike 4) = true ∧
    [(Instr.vfdiv f32, 32, (0x3F800000, 0x40400000), (0x3EAAAAAB, 1)), (.vfdiv { f32 with rm := .rz }, 32, (0x3F800000, 0x40400000), (0x3EAAAAAA, 1)),
     (.vfdiv { f32 with rm := .rz, q := true }, 32, (0x3F800000, 0x40400000), (0x3EAAAAAA, 0)), (.vfdiv f32, 32, (0xBF800000, 0), (0xFF800000, 8)),
     (.vfdiv t16, 16, (0x4000, 0), (0x8000, 8)), (.vfdiv t16, 16, (0, 0x4000), (0, 0)), (.vfsqrt { f32 with b := .nil }, 32, (0x40800000, 0), (0x40000000, 0)),
     (.vfsqrt { f32 with b := .nil }, 32, (0xBF800000, 0), (0x7FC00000, 8)), (.vfsqrt { t16 with b := .nil }, 16, (0xC000, 0), (0x8000, 8))].all (Alike 12) = true := by and_intros <;> decide +kernel

/-- R270: VFMA of 2, 3 and a third operand of 1 from all-ones bits cleared by a broadcast of s7. -/
theorem test_vfma : [(0, 0x40E00000), (1, 0x40A00000), (2, 0xC0A00000), (3, 0xC0E00000)].all (fun (x : BitVec 2 × Nat) =>
    Sends { holding (every 32 0x40000000) (every 32 0x40400000) with s := [(7, 0x3F800000)] } 1 (.vfma { f32 with c := .v (.bc 7), var := x.1 })
      (yields 4 (every 32 x.2) lanes 0)) = true := by decide +kernel

/-- R273 to R276. -/
theorem test_vector_signs : [
    (Instr.vfneg { one with fmt := .t8e0 }, 8, (0x48, 0), (0xB8, 0)), (.vfneg { one with fmt := .t8e0 }, 8, (0x80, 0), (0x80, 0x10)), (.vfabs { one with fmt := .t8e0 }, 8, (0xB8, 0), (0x48, 0)),
    (.vfabs { one with fmt := .f32 }, 32, (0xBF800000, 0), (0x3F800000, 0)), (.vfneg { one with fmt := .f32 }, 32, (0xFFC00001, 0), (0x7FC00000, 0)),
    (.vfneg { one with fmt := .f32 }, 32, (0x7F800001, 0), (0x7FC00000, 8))].all (Alike 2) = true ∧
    [(Instr.vfmin f32, 32, (0, 0x80000000), (0x80000000, 0)), (.vfmax f32, 32, (0, 0x80000000), (0, 0)), (.vfmax { vec with fmt := .t8e0 }, 8, (0x48, 0xB8), (0x48, 0)),
     (.vfmin { vec with fmt := .t8e0 }, 8, (0x80, 1), (0x80, 0x10)), (.vfmin f32, 32, (0x7FC00000, 0), (0x7FC00000, 0))].all (Alike 4) = true ∧
    [(1, lanes, 0x10), (6, lanes, 0x10), (0, 0, 0x10), (7, 0, 0x10)].all (fun (x : BitVec 10 × Mask × Nat) =>
      Sends (holding (every 8 0x80) (every 8 0x80)) 1 (.vfcmp { vec with fmt := .t8e0, d := .m 2, imm := x.1 }) [(4, .mreg 2 x.2.1), (4, .flags .va (flags x.2.2))]) = true ∧
    Sends (holding (every 32 0x80000000) 0) 1 (.vfcmp { f32 with d := .m 2 }) [(4, .mreg 2 lanes)] = true := by and_intros <;> decide +kernel

/-- R275, Table 13.3: values that are exact, and cases without one; in lane 0 alone. -/
theorem test_vfspec : [(0, 0x4000, 0x5000, 0), (1, 0x5000, 0x4000, 0), (1, 0, 0x8000, 8), (2, 0x5000, 0x3000, 0), (2, 0, 0x8000, 8), (3, 0xC000, 0x8000, 8),
    (4, 0, 0, 0), (5, 0, 0x3000, 0), (4, 0x8000, 0x8000, 0x10)].all (fun (x : BitVec 10 × Nat × Nat × Nat) =>
      Sends (holding (every 16 x.2.1) 0) 1 (.vfspec { one with fmt := .t16e1, imm := x.1, m := 1 }) (yields 8 (BitVec.ofNat _ x.2.2.1) 1 (BitVec.ofNat _ x.2.2.2))) = true := by
  decide +kernel

/-- R278 to R281, with the element of the example after R281: 0x4C60 in T16E1 gives 0x46 in T8E2, into the upper half. -/
theorem test_conversions :
    Sends (holding (every 16 0x4C60) 0) 1 (.vcvt { one with fmt := .t8e2, imm := 0x1B }) (yields 3 (every 8 0x46 <<< 1024) (lanes <<< 64) (flags 1 <<< 512)) = true ∧
    Sends (holding (every 32 0xFFFFFFFF) 0) 1 (.vcvt { one with fmt := .i8, imm := 0x10, var := 2 }) (yields 3 ((every 8 0xFF >>> 1536) <<< 512) ((lanes >>> 96) <<< 32) 0) = true ∧
    Sends (holding (every 32 300) 0) 1 (.vcvt { one with fmt := .i8, imm := 0, var := 3 }) (yields 3 (every 8 0xFF >>> 1536) (lanes >>> 96) 0) = true ∧
    Sends (holding (every 16 3) 0) 1 (.vcvt { one with fmt := .f32, imm := 0x11 }) (yields 3 (every 32 0x40400000) lanes 0) = true ∧
    Sends (holding (every 32 0x40200000) 0) 1 (.vcvti { one with fmt := .f32, imm := 0x11 }) (yields 3 (every 16 2 <<< 1024) (lanes <<< 64) (flags 1 <<< 512)) = true ∧
    Sends (holding (every 32 0xC0200000) 0) 1 (.vcvti { one with fmt := .f32, var := 1 }) (yields 3 0 lanes (flags 8)) = true ∧
    Sends (holding (every 32 0x12345678) (every 32 0x9ABC)) 1 (.vpack { vec with fmt := .i16 }) (yields 3 ((every 16 0x5678 >>> 1024) ||| (every 16 0x9ABC <<< 1024)) lanes 0) = true ∧
    Sends (holding (every 8 0x80) 0) 1 (.vunpk { one with fmt := .i8, imm := 0x10 }) (yields 3 (every 16 0xFF80) lanes 0) = true := by and_intros <;> decide +kernel

def ramp : Vec := listed 16 (List.range 128)

/-- R282, R283, R285, R288. -/
theorem test_lane_moves :
    Sends (holding ramp (listed 16 [5, 127, 128])) 1 (.vperm { vec with fmt := .i16 }) (yields 4 (listed 16 [5, 127, 0]) lanes 0) = true ∧
    Sends (holding (listed 8 (List.range 256)) (every 16 255)) 1 (.vperm { b8 with var := 1 }) (yields 4 (every 8 255 <<< 1024) (lanes <<< 64) 0) = true ∧
    Sends (holding ramp 0) 1 (.vrot { one with fmt := .i16, imm := 3 }) (yields 4 (listed 16 ((List.range 128).map fun e => (e + 3) % 128)) lanes 0) = true ∧
    Sends (holding ramp 0 0x28) 1 (.vcomp { one with fmt := .i16, m := 1 }) (yields 4 (listed 16 [3, 5]) lanes 0) = true ∧
    Sends (holding (listed 16 [1, 9, 0xFFFF, 9]) 0) 1 (.vargmax { one with fmt := .i16 }) (yields 4 (every 16 1) lanes 0) = true ∧
    Sends (holding (listed 16 [1, 9, 0xFFFF, 9]) 0) 1 (.vargmax { one with fmt := .i16, imm := 1 }) (yields 4 (every 16 2) lanes 0) = true := by and_intros <;> decide +kernel

/-- R284, R286: sums, least and greatest, and prefix sums. -/
theorem test_reductions :
    Sends (holding (every 8 1) 0) 1 (.vred { one with fmt := .i8 }) (yields 4 0 lanes 0) = true ∧
    Sends (holding (every 8 1) 0) 1 (.vred { one with fmt := .i8, m := 1 }) (yields 4 (every 8 2) 1 0) = true ∧
    Sends (holding (every 8 1) 0 0) 1 (.vred { one with fmt := .i8, m := 1 }) [] = true ∧
    Sends (holding (listed 16 [5, 0xFFFF]) 0) 1 (.vred { one with fmt := .i16, var := 1 }) (yields 4 (every 16 0xFFFF) lanes 0) = true ∧
    Sends (holding (listed 16 [5, 0xFFFF]) 0) 1 (.vred { one with fmt := .i16, var := 2 }) (yields 4 (every 16 5) lanes 0) = true ∧
    Sends (holding (listed 32 [0x3F800000, 0x40000000]) 0) 1 (.vred { one with fmt := .f32 }) (yields 4 (every 32 0x40400000) lanes 0) = true ∧
    Sends (holding (listed 16 [0x8000]) 0) 1 (.vred { one with fmt := .t16e1 }) (yields 4 (every 16 0x8000) lanes (flags 0x10)) = true ∧
    Sends (holding (every 16 1) 0) 1 (.vscan { one with fmt := .i16 }) (yields 6 (listed 16 ((List.range 128).map (· + 1))) lanes 0) = true ∧
    Sends (holding (listed 16 [0x4000, 0x4000, 0x8000, 0x4000]) 0 0xF) 1 (.vscan { one with fmt := .t16e1, m := 1 }) (yields 6 (listed 16 [0x4000, 0x5000, 0x8000, 0x8000]) 0xF 0x10100000) = true := by
  and_intros <;> decide +kernel

/-- The example after R287. -/
theorem test_vsortk : Sends (holding (listed 16 [0x4000, 0x5000, 0x4000, 0x8000, 0xC000]) 0 0x1F) 1 (.vsortk { t16 with m := 1 })
    [(10, .opf 3 (listed 16 ([1, 0, 2, 4, 3] ++ (List.range 123).map (· + 5))) lanes), (10, .opf 1 (listed 16 [0x5000, 0x4000, 0x4000, 0xC000, 0x8000]) lanes),
     (10, .latch 0 (listed 16 [0x5000, 0x4000, 0x4000, 0xC000, 0x8000]) lanes)] = true := by decide +kernel

/-- 2.5 in a quire. -/
def half5 : Quire := BitVec.ofNat 512 (5 * 2 ^ 239)

def t8 : VArgs := { vec with fmt := .t8e0, d := .q 1, m := 1 }

/-- A context with 1.25 and 0.25 in every element, four lanes enabled, and some vector quires. -/
def q (xs : List (Nat × Quire)) : Ctx := { holding (every 8 0x48) (every 8 0x10) 0xF with vq := xs }

/-- R290 to R293, with the values of the example after R293: eight products of 1.25 and 0.25 make 2.5, which rounds to 0x64. -/
theorem test_vector_quires :
    Sends (q []) 1 (.vqclr { one with d := .q 1, a := .nil }) [(4, .vq 1 0)] = true ∧ Sends (q []) 1 (.vqdot t8) [(4, .vq 1 half5)] = true ∧
    Sends (q [(1, half5)]) 1 (.vqdot t8) [(4, .vq 1 (half5 + half5))] = true ∧
    Sends (q []) 1 (.vqsum { t8 with b := .nil }) [(4, .vq 1 (BitVec.ofNat 512 (10 * 2 ^ 240)))] = true ∧
    Sends (q [(2, half5)]) 1 (.vqrnd { one with fmt := .t8e0, a := .q 2, var := 1 }) (yields 6 (every 8 0x64) lanes 0 ++ [(6, .vq 2 0)]) = true ∧
    Sends (q [(2, nar512)]) 1 (.vqrnd { one with fmt := .t8e0, a := .q 2 }) (yields 6 (every 8 0x80) lanes (flags 0x10)) = true ∧
    Sends (q [(2, half5)]) 1 (.vqmov { one with d := .q 1, a := .q 2 }) [(4, .vq 1 half5)] = true ∧
    Sends (q [(1, half5), (2, half5)]) 1 (.vqmov { one with d := .q 1, a := .q 2, var := 1 }) [(4, .vq 1 (half5 + half5))] = true ∧
    Sends (q [(1, BitVec.ofNat 512 (2 ^ 511 - 1)), (2, 1)]) 1 (.vqmov { one with d := .q 1, a := .q 2, var := 1 })
      [(4, .vq 1 nar512), (4, .flags .va 0x20), (4, .overflow ((2 <<< 22) ||| (1 <<< 16) ||| (1 <<< 8)))] = true ∧
    Sends (q [(2, 3)]) 1 (.vqscale { one with d := .q 1, a := .q 2, imm := 0x1FF }) [(4, .vq 1 1), (4, .flags .va 1)] = true ∧
    Sends (q [(2, nar512)]) 1 (.vqscale { one with d := .q 1, a := .q 2, imm := 255 }) [(4, .vq 1 nar512), (4, .flags .va 0x10)] = true ∧
    Sends (q []) 1 (.vqraw { one with d := .q 1, imm := 3, var := 1 }) [(4, .vq 1 ((every 8 0x48).setWidth 512))] = true ∧
    Sends (q [(2, 5)]) 1 (.vqraw { one with a := .q 2, imm := 3 }) (yields 4 (5 <<< 1536) (lanes <<< 96) 0) = true := by and_intros <;> decide +kernel

/-- R294: an entry is taken at once and filled later, with zeros outside the mask; a full FIFO raises FOVF. -/
theorem test_vpushf : leaves (holding (every 16 9) 0) 1 (.vpushf { one with d := .nil, m := 1, var := 1 }) (fun c => (c.fb.tkn, c.fb.wr, c.inflight.map (·.w))) =
      some (1, 1, [.fifoFill .fb 0 9]) ∧
    leaves { worker with fa := { avl := 0xFFFF } } 1 (.vpushf { one with d := .nil }) (fun c => (c.sup, c.ecause.setWidth 8, c.eslot)) = some (true, cFOVF, 1) := by and_intros <;> decide +kernel

def marked : Ctx := { worker with step := 1, flga := 0x2100, m := [(1, 0b1100), (2, 0b1010)] }

/-- R295 to R297, R331: the second draw of Table 15.4, flags read, tested and cleared, and the mask operations. -/
theorem test_draws_flags_masks :
    Sends marked 1 (.vrand { one with a := .nil, m := 3 }) (yields 4 0 0 0) = true ∧
    Sends { marked with m := [(3, 1)] } 1 (.vrand { one with a := .nil, m := 3 }) (yields 4 0xE3114B20 3 0) = true ∧
    Sends marked 1 (.vflg { one with d := .nil, a := .nil, imm := 0x21 }) [(2, .flagClear .va (flags 0x21))] = true ∧
    Sends marked 1 (.vflg { one with a := .nil, var := 1 }) (yields 2 (listed 16 [0, 0x21]) lanes 0) = true ∧
    Sends marked 1 (.vflg { one with d := .m 4, a := .nil, imm := 0x20, var := 2 }) [(2, .mreg 4 2)] = true ∧
    Sends marked 1 (.mlog { one with d := .m 4, a := .m 1, b := .m 2, imm := 6 }) [(2, .mreg 4 6)] = true ∧
    Sends marked 1 (.mcnt { one with d := .s 3, a := .m 1, m := 2 }) [(2, .sreg 3 1)] = true ∧ Sends marked 1 (.mfirst { one with d := .s 3, a := .m 1 }) [(2, .sreg 3 2)] = true ∧
    Sends marked 1 (.mfirst { one with d := .s 3, a := .m 5 }) [(2, .sreg 3 128)] = true := by and_intros <;> decide +kernel

/-! ### Matrix operations, loads and stores -/

/-- The small module with a tile that holds more than the context. -/
def inTile (t : Tile) (c : Ctx) (slot : Nat) (i : Instr) (sup : Bool := false) : State :=
  { at_ c slot i sup with tiles := [(0, { t with ctx := [(0, c)] })] }

def landings (c : Ctx) : List (Nat × Write) := c.inflight.map fun l => (l.left, l.w)

/-- What an operation sends on such a tile. -/
def sendsIn (t : Tile) (c : Ctx) (slot : Nat) (i : Instr) : Option (List (Nat × Write)) := (next? i (inTile t c slot i)).map fun v => landings (v.ctx 0 0)

/-- The cause and EINFO of the trap that it raises. -/
def traps (t : Tile) (c : Ctx) (slot : Nat) (i : Instr) : Option (BitVec 8 × Word) :=
  (next? i (inTile t c slot i)).bind fun v => if (v.ctx 0 0).sup then some ((v.ctx 0 0).ecause.setWidth 8, (v.ctx 0 0).einfo) else none

/-- Entries, a plane whose first slot is all 1 in T8E0, quires and a register, with column 0 enabled by m1. -/
def engine : Ctx :=
  { worker with
    m := [(1, 1)], space := [(5, every 8 0x48)], plane := [(0, every 8 0x40)], tag0 := 7, qx := 2, quires := [(0, half5), (1, half5), (384, 3)]
    fa := { ent := [(0, every 8 0x40)], avl := 1, wr := 1 }, fb := { ent := [(0, every 8 9)], avl := 1, wr := 1 } }

def t8mx : MxArgs := { mx with fmt := .t8e0, m := 1 }

/-- R307, R308, R318. -/
theorem test_planes :
    Sends engine 3 (.mpush { mx with fmt := .t8e0 }) [(1, .planeSlot true 0 (every 8 9) 7), (1, .fifoFree .fb 0)] = true ∧
    leaves engine 3 (.mpush { mx with fmt := .t8e0 }) (fun c => (c.fp, c.fb.rd)) = some (1, 1) ∧
    Sends engine 3 (.mpush { mx with fmt := .t8e0, k := true }) [(1, .planeSlot true 0 (every 8 9) 7)] = true ∧
    traps {} worker 3 (.mpush { mx with fmt := .t8e0 }) = some (cFUND, 1) ∧
    Sends engine 3 (.mshift { mx with z := true }) [(1, .fillRole), (2, .computeRole), (2, .planeClear false)] = true ∧
    Sends { engine with morig := 0x9000000000000 } 3 (.morig { mx with sr := 4, imm := 1 }) [(1, .morig 0x1000000000007)] = true ∧
    Sends { engine with morig := 0x9000000000000 } 3 (.morig { mx with sr := 4, var := 1 }) [(1, .morig 0x9000000000007)] = true ∧
    Sends engine 3 (.mnop 0 0) [] = true := by and_intros <;> decide +kernel

/-- R309 to R311: two products of 1 and 1 in column 0; a plane of another width; an empty FIFO. -/
theorem test_macc :
    Sends engine 3 (.macc { t8mx with row := 2, k := true }) [(4, .row 2 [(0, BitVec.ofNat 512 (2 ^ 241))] (.orWith false))] = true ∧
    Sends { engine with quires := [(256, 1)] } 3 (.macc { t8mx with row := 2, z := true }) [(4, .row 2 [(0, BitVec.ofNat 512 (2 ^ 241))] (.orWith false)), (1, .fifoFree .fa 0)] = true ∧
    Sends { engine with ascale := 1 } 3 (.macc { t8mx with row := 2, s := true, k := true }) [(4, .row 2 [(0, BitVec.ofNat 512 (2 ^ 242))] (.orWith false))] = true ∧
    traps {} engine 3 (.macc { t8mx with fmt := .t4e1 }) = some (cMWID, 0x67) ∧ traps {} worker 3 (.macc t8mx) = some (cMWID, 0x70) ∧
    traps {} { engine with fa := {} } 3 (.macc t8mx) = some (cFUND, 0) := by and_intros <;> decide +kernel

/-- R303, R312: one column of a row; the sum with 1.25, a floor that drops a bit, the sign, a clear and a copy. -/
theorem test_rows :
    Sends engine 3 (.mqadd { t8mx with idx := 5, m := 0 }) [(4, .row 0 ((List.range 128).map fun j => (j, BitVec.ofNat 512 ((if j < 2 then 15 else 5) * 2 ^ 238))) (.orWith false))] = true ∧
    Sends engine 3 (.mqscale { mx with row := 3, imm := -1, m := 1 }) [(4, .row 3 [(0, 1)] (.orWith true))] = true ∧
    Sends engine 3 (.mqneg { mx with row := 3, m := 1 }) [(4, .row 3 [(0, -3)] (.orWith false))] = true ∧
    Sends engine 3 (.mqclr { mx with row := 3 }) [(4, .row 3 ((List.range 128).map fun j => (j, 0)) (.set false))] = true ∧
    Sends engine 3 (.mqcopy { mx with row := 3, sr := 1, m := 1 }) [(4, .row 3 [(0, 0)] (.orWith true))] = true ∧
    Sends { engine with quires := [(384, nar512)] } 3 (.mqneg { mx with row := 3, m := 1 }) [(4, .row 3 [(0, nar512)] (.orWith false)), (4, .flags .va 0x10)] = true := by
  and_intros <;> decide +kernel

/-- R313, R314: 2.5 in T8E0, a row marked inexact, and the clear. -/
theorem test_mdrain :
    Sends engine 3 (.mdrain { t8mx with idx := 9 }) [(6, .reg 0 9 0x6464 1), (6, .latch 2 0x6464 1)] = true ∧
    Sends { engine with qx := 1 } 3 (.mdrain { t8mx with idx := 9, c := true })
      [(6, .reg 0 9 0x6464 1), (6, .latch 2 0x6464 1), (6, .flags .va 1), (4, .row 0 [(0, 0), (1, 0)] .keep)] = true := by and_intros <;> decide +kernel

/-- R315, R316, in a row's 64-byte quires; the base in s4 is made a multiple of 64. -/
theorem test_spills :
    sendsIn {} { engine with s := [(4, 0x1000)] } 3 (.mqspill { mx with sr := 4, imm := 2, var := 1 }) =
      some [(12, .store 0x1080 ((2, true) :: List.replicate 63 (0, true)))] ∧
    sendsIn { scratch := [(0x1000, 0xFF), (0x1004, 1)] } { engine with qrows := 4, s := [(4, 0x1000)] } 3 (.mqfill { mx with sr := 4, var := 1 }) = some [(12, .qxAll 0xF)] ∧
    ((sendsIn { scratch := [(0x1000, 5)] } { engine with s := [(4, 0x1000)] } 3 (.mqfill { mx with row := 3, sr := 4 })).map fun l => l.map fun x => match x with
      | (12, .row 3 ((0, a) :: (1, b) :: r) (.set false)) => decide (a = 5 ∧ b = 0 ∧ r.length = 126) | _ => false) = some [true] ∧
    ((sendsIn {} { engine with s := [(4, 0x1000)] } 3 (.mqspill { mx with row := 3, sr := 4 })).map fun l => l.map fun x => match x with
      | (12, .store 0x1000 bs) => decide (bs.length = 8192 ∧ bs[0]? = some (3, true) ∧ bs[1]? = some (0, true)) | _ => false) = some [true] ∧
    traps {} worker 3 (.mqspill { mx with sr := 4, var := 1 }) = some (cALGN, 7) ∧
    traps {} worker 3 (.mqfill { mx with imm := -1, var := 1 }) = some (cBND, 0xFFFFFFC0) := by and_intros <;> decide +kernel

/-- Bytes 0x80, 5 and 6 of the scratchpad. -/
def bytes3 : Tile := { scratch := [(0x40, 0x80), (0x41, 5), (0x42, 6)] }

/-- R197 to R201: signs, replication, and the bytes of a vector, a quire and the scales. -/
theorem test_loads :
    sendsIn bytes3 worker 4 (.lds { ls (.sreg 3) with w := .w8, imm := 0x40 }) = some [(3, .sreg 3 0xFFFFFFFFFFFFFF80)] ∧
    sendsIn bytes3 worker 4 (.lds { ls (.sreg 3) with w := .w16, imm := 0x40, u := true }) = some [(3, .sreg 3 0x0580)] ∧
    sendsIn bytes3 worker 4 (.ldvb { ls (.wide 1 7) with w := .w16, imm := 0x42 }) = some [(3, .reg 1 7 (every 16 6) lanes)] ∧
    sendsIn bytes3 worker 4 (.ldv { ls (.wide 1 7) with imm := 0x40 }) = some [(3, .reg 1 7 0x060580 lanes), (3, .latch 3 0x060580 lanes)] ∧
    sendsIn bytes3 worker 4 (.ldof { ls (.opf 7) with imm := 0x40 }) = some [(3, .opf 7 0x060580 lanes)] ∧
    sendsIn bytes3 worker 4 (.ldq { ls (.vq 2) with imm := 0x40 }) = some [(4, .vq 2 0x060580)] ∧
    sendsIn bytes3 worker 4 (.ldsclA { ls .nil with imm := 0x40 }) = some [(3, .ascale 0x060580)] ∧
    sendsIn bytes3 worker 4 (.ldsclB { ls (.part 7) with imm := 0x40 }) = some [(3, .bscale true 7 0x060580)] := by and_intros <;> decide +kernel

/-- R195 to R197: the last bytes of the range, one beyond it, a negative offset, alignment first, and an uncorrectable error. -/
theorem test_access_traps :
    (sendsIn {} worker 4 (.lds { ls (.sreg 3) with w := .w32, imm := 0xFFFC })).isSome ∧ traps {} worker 4 (.lds { ls (.sreg 3) with w := .w32, imm := 0xFFFC }) = none ∧
    traps {} worker 4 (.lds { ls (.sreg 3) with w := .w32, imm := 0x10000 }) = some (cBND, 0x10000) ∧
    traps {} worker 4 (.lds { ls (.sreg 3) with w := .w32, imm := -4 }) = some (cBND, 0xFFFFFFFC) ∧
    traps {} worker 4 (.lds { ls (.sreg 3) with w := .w32, imm := 0x10001 }) = some (cALGN, 0x10001) ∧
    traps { bad := [1] } worker 4 (.lds { ls (.sreg 3) with w := .w32, imm := 0x40 }) = some (cXMEM, 0x40) ∧
    traps { bad := [1] } worker 5 (.sts { ls (.sreg 3) with w := .w32, imm := 0x7C }) = some (cXMEM, 0x7C) ∧
    traps { bad := [1] } worker 5 (.stq { ls (.vq 0) with imm := 0x40 }) = none ∧
    traps {} worker 5 (.stv { ls (.wide 0 0) with sb := 4 }) = some (cALGN, 7) ∧ traps {} worker 5 (.stv { ls (.wide 0 0) with imm := 0xFF40 }) = some (cBND, 0xFF40) := by
  and_intros <;> decide +kernel

/-- R202: the bytes of a store, with the enable of each. -/
theorem test_stores :
    sendsIn {} worker 5 (.sts { ls (.sreg 4) with w := .w16, imm := 0x40 }) = some [(2, .store 0x40 [(7, true), (0, true)])] ∧
    sendsIn {} { worker with vq := [(1, 5)] } 5 (.stq { ls (.vq 1) with imm := 0x40 }) = some [(2, .store 0x40 ((5, true) :: List.replicate 63 (0, true)))] ∧
    sendsIn {} engine 5 (.stv { ls (.wide 0 5) with imm := 0x40 }) = some [(2, .store 0x40 (List.replicate 256 (0x48, true)))] ∧
    sendsIn {} engine 5 (.stvm { ls (.wide 0 5) with imm := 0x40, m := 1 }) = some [(2, .store 0x40 (List.replicate 2 (0x48, true) ++ List.replicate 254 (0x48, false)))] := by
  and_intros <;> decide +kernel

/-- R85: a register below the live depth of a rotating view, and a fallow one, which reads zero. -/
theorem test_fallow :
    let c : Ctx := { engine with vw := [(0, 0x400070F04)] }
    sendsIn {} c 5 (.stv (ls (.wide 0 1))) = some [(2, .store 0 (List.replicate 256 (0x48, true)))] ∧
    sendsIn {} { c with space := [(7, every 8 9)] } 5 (.stv (ls (.wide 0 3))) = some [(2, .store 0 (List.replicate 256 (0, true)))] := by
  intro c; and_intros <;> decide +kernel

/-! ### Synchronisation -/

/-- Counter c5 at 10. -/
def counting : Tile := { cnt := [(5, 10)] }

/-- R349, R354: test forms at the limit of their condition. -/
theorem test_sync_tests :
    sendsIn counting worker 7 (.waitge always 5 4 3 test_) = some [(1, .preg 1 true)] ∧ sendsIn counting worker 7 (.waitge always 5 4 4 test_) = some [(1, .preg 1 false)] ∧
    sendsIn bytes3 worker 7 (.waitw always 0 4 .ge 8 test_) = some [(1, .preg 1 true)] ∧ sendsIn bytes3 worker 7 (.waitw always 0 4 .eq 8 test_) = some [(1, .preg 1 false)] ∧
    sendsIn bytes3 worker 7 (.waitw always 0 4 .ne 8 test_) = some [(1, .preg 1 true)] ∧ sendsIn bytes3 { worker with s := [(4, 0x060580)] } 7 (.waitw always 0 4 .eq 8 test_) = some [(1, .preg 1 true)] ∧
    sendsIn {} worker 7 (.fwait ⟨always, .fa, 3, test_⟩) = some [(1, .preg 1 false)] ∧ sendsIn {} worker 7 (.ffree ⟨always, .fa, 14, test_⟩) = some [(1, .preg 1 true)] ∧
    traps {} worker 7 (.waitw always 4 0 .ge 0 test_) = some (cALGN, 7) ∧ traps {} { worker with s := [(4, 0x10000)] } 7 (.waitw always 4 0 .ge 0 test_) = some (cBND, 0x10000) := by
  and_intros <;> decide +kernel

/-- R353, R356, R359 to R361: forms that have waited, a signal, a discard of an entry, a target that had passed, and a fence. -/
theorem test_sync_effects :
    Sends worker 7 (.waitge always 5 0 0 forever) [] = true ∧ Sends worker 7 (.waitw always 0 0 .eq 0 forever) [] = true ∧ Sends worker 7 (.fwait ⟨always, .fb, 1, forever⟩) [] = true ∧
    Sends worker 7 (.ffree ⟨always, .fb, 1, forever⟩) [] = true ∧ Sends worker 7 (.barr always 1 false 9) [] = true ∧
    ((next? (.waitge always 5 0 0 forever) { at_ worker 7 (.waitge always 5 0 0 forever) with cur := some { single 7 (.waitge always 5 0 0 forever) with expired := some 0x99 } }).map
      fun v => ((v.ctx 0 0).ecause.setWidth 8, (v.ctx 0 0).einfo)) = some (cWTO, 0x99) ∧
    Sends worker 7 (.sig always 5 4 3) [(1, .cntAdd 5 10)] = true ∧
    (leaves { worker with chk := some {} } 7 (.sig always 5 4 3) fun c => (c.inflight, c.chk.map (·.gate))) = some ([], some [.sig 5 10]) ∧
    Sends { worker with fa := { avl := 6, rd := 1, wr := 3 } } 7 (.fadv always .fa 2) [(1, .fifoFree .fa 1), (1, .fifoFree .fa 2)] = true ∧
    traps {} { worker with fa := { avl := 6, rd := 1, wr := 3 } } 7 (.fadv always .fa 3) = some (cFUND, 0) ∧
    Sends worker 7 (.realign always 4 3) [] = true ∧ (leaves worker 7 (.fence always .d) (·.fence)) = some [] := by and_intros <;> decide +kernel

/-! ### Results land -/

def landing (w : Write) (left : Nat := 0) : Landing := { left, serial := 0, slot := 0, off := 0, hash := none, w }

/-- A module in which one result of its context is due, and another is not. -/
def due (c : Ctx) (w : Write) (t : Tile := {}) : State :=
  { zone := 100, tiles := [(0, { t with ctx := [(0, { c with inflight := [landing w, landing (.sreg 9 9) 3] })] })] }

/-- Such a state meets the hypotheses of the statements about results that land. -/
theorem witness_Lands (w : Write) : Lands (due worker w) 0 0 (landing w) :=
  ⟨rfl, by simp [due, State.ctx, State.tile, Tile.get, SMap.get, worker], rfl⟩

def landed {α : Type} (c : Ctx) (w : Write) (f : State → Ctx → α) (t : Tile := {}) : Option α :=
  (next? (.resultLand 0 0) (due c w t)).map fun v => f v (v.ctx 0 0)

/-- R75, R76, R85, R163: registers, with the constant ones, lanes, and a fallow register. -/
theorem test_registers_land :
    landed worker (.sreg 3 5) (fun _ c => (c.toRegs.sreg 3, c.toRegs.sreg 4, c.inflight)) = some (5, 7, [landing (.sreg 9 9) 3]) ∧
    landed worker (.sreg 0 5) (fun _ c => (c.toRegs.sreg 0, c.s)) = some (0, worker.s) ∧
    landed worker (.preg 3 true) (fun _ c => (c.toRegs.pred 3, c.toRegs.pred 4, c.toRegs.pred 0)) = some (true, false, true) ∧ landed worker (.preg 0 false) (fun _ c => c.toRegs.pred 0) = some true ∧
    landed worker (.mreg 7 9) (fun _ c => (c.toRegs.mask 7, c.toRegs.mask 6)) = some (9, 0) ∧ landed worker (.mreg 0 9) (fun _ c => c.toRegs.mask 0) = some lanes ∧
    landed engine (.reg 0 5 (every 8 1) 2) (fun _ c => SMap.get 0 c.space 5) = some (every 8 0x48 ^^^ 0x49490000) ∧
    landed { engine with vw := [(0, 0x400030F04)] } (.reg 0 5 (every 8 1) 2) (fun _ c => SMap.get 0 c.space 5) = some (every 8 0x48) ∧
    landed worker (.opf 15 (every 16 1) 5) (fun _ c => SMap.get 0 c.opf 15) = some 0x100000001 ∧ landed worker (.latch 2 (every 16 1) 5) (fun _ c => SMap.get 0 c.latch 2) = some 0x100000001 ∧
    landed worker (.vq 3 7) (fun _ c => (SMap.get 0 c.vq 3, SMap.get 0 c.vq 2)) = some (7, 0) ∧
    landed { worker with flga := 1 } (.flags .va 6) (fun _ c => (c.flga, c.flgb)) = some (7, 0) ∧ landed worker (.flags .vb 6) (fun _ c => (c.flga, c.flgb)) = some (0, 6) ∧
    landed { worker with flga := 7 } (.flagClear .va 6) (fun _ c => c.flga) = some 1 ∧ landed { worker with flgb := 7 } (.flagClear .vb 1) (fun _ c => c.flgb) = some 6 := by
  and_intros <;> decide +kernel

/-- R201, R303, R307, R308, R316, R318. -/
theorem test_matrix_results_land :
    landed engine (.row 3 [(0, 9), (127, 1)] (.orWith false)) (fun _ c => (SMap.get 0 c.quires 384, SMap.get 0 c.quires 511, SMap.get 0 c.quires 0, c.qx)) = some (9, 1, half5, 2) ∧
    landed engine (.row 31 [] (.orWith true)) (fun _ c => c.qx) = some 0x80000002 ∧ landed engine (.row 1 [] (.set false)) (fun _ c => c.qx) = some 0 ∧
    landed engine (.row 1 [] .keep) (fun _ c => c.qx) = some 2 ∧ landed engine (.qxAll 5) (fun _ c => c.qx) = some 5 ∧
    landed engine (.planeSlot true 127 1 9) (fun _ c => (SMap.get 0 c.plane 255, c.tag0, c.tag1)) = some (1, 7, 9) ∧
    landed engine (.planeSlot false 0 1 9) (fun _ c => (SMap.get 0 c.plane 0, c.tag0, c.tag1)) = some (1, 9, 0) ∧
    landed { engine with fp := 5 } .fillRole (fun _ c => (c.fill, c.act, c.fp)) = some (false, false, 0) ∧ landed engine .computeRole (fun _ c => (c.fill, c.act)) = some (true, true) ∧
    landed { engine with bscale := [(7, 1), (8, 1)] } (.planeClear false) (fun _ c => (c.plane, c.bscale, c.tag0)) = some ([], [(8, 1)], 0) ∧
    landed engine (.ascale 5) (fun _ c => c.ascale) = some 5 ∧ landed engine (.bscale true 7 5) (fun _ c => c.bscale) = some [(15, 5)] ∧ landed engine (.morig 5) (fun _ c => c.morig) = some 5 := by
  and_intros <;> decide +kernel

/-- R203, R384: enabled bytes of a store, and the store of a checked pair. -/
theorem test_stores_land :
    landed worker (.store 0x40 [(1, true), (2, false), (3, true)]) (fun v _ => [0x3F, 0x40, 0x41, 0x42, 0x43].map (v.tile 0).scratch.byte) bytes3 = some [0, 1, 5, 3, 0] ∧
    landed worker (.store 0x40 [(0, true)]) (fun v _ => (v.tile 0).scratch) bytes3 = some [(0x41, 5), (0x42, 6)] ∧
    landed { worker with chk := some {} } (.store 0x40 [(1, true)]) (fun v c => ((v.tile 0).scratch, c.chk.map (·.gate))) = some ([], some [.store 0x40 [(1, true)]]) := by
  and_intros <;> decide +kernel

/-- R6, R188, R189, R327, R350, R351, R367. -/
theorem test_other_results_land :
    landed worker (.sys 0x010 0xFFFFFFFF000000FF) (fun _ c => SMap.get 0 c.vw 0) = some 0x7000000FF ∧
    landed { worker with dhist := [(0, 0x8000000000000001), (1, 5)] } (.sys 0 9) (fun _ c => (c.key, (SMap.get 0 c.dhist 0).getLsbD 63)) = some (9, false) ∧
    landed worker (.cntSet 5 3) (fun v _ => (v.tile 0).cnt) counting = some [(5, 3)] ∧ landed worker (.cntAdd 5 0xFFFFFFFFFFFFFFFF) (fun v _ => (v.tile 0).cnt) counting = some [(5, 9)] ∧
    landed worker (.cmap 5 200) (fun _ c => (c.counter 5, c.counter 6)) = some (some 200, some 6) ∧
    landed { worker with fa := { tkn := 6, wr := 3, rd := 1 } } (.fifoFill .fa 1 9) (fun _ c => (c.fa.tkn, c.fa.avl, SMap.get 0 c.fa.ent 1)) = some (4, 2, 9) ∧
    landed { worker with fb := { avl := 6, wr := 3, rd := 2 } } (.fifoFree .fb 1) (fun _ c => (c.fb.avl, c.fb.rd)) = some (4, 2) ∧
    landed { worker with qtrap := 1 } (.overflow 9) (fun _ c => c.qovf) = some (some 9) ∧ landed { worker with qtrap := 2 } (.overflow 9) (fun _ c => c.qovf) = some none ∧
    landed { worker with qtrap := 1, qovf := some 8 } (.overflow 9) (fun _ c => c.qovf) = some (some 8) := by
  and_intros <;> decide +kernel

/-! ### Transfer commands -/

/-- The bytes of a memory from an address on. -/
def bytesFrom (a : Nat) (bs : List Nat) : Mem :=
  ((List.range bs.length).zip bs).filterMap fun x => if x.2 = 0 then none else some (a + x.1, BitVec.ofNat 8 x.2)

def le_ (n x : Nat) : List Nat := (List.range n).map fun i => x / 256 ^ i % 256

/-- Table 11.3: a tensor of one dimension, four bytes from 0x240 of the window to 0x200, or with DIR the other way; `cact` and
`cval` say what completion does to counter 5. -/
def tensor (dir cact cval : Nat) : List Nat :=
  [0x80, 0x80, 1, dir, cact, 5 * cact, 0x80 * cact, 0] ++ le_ 16 0 ++ le_ 8 cval ++ le_ 8 0 ++ le_ 8 0x200 ++ le_ 8 0x240 ++ le_ 8 0 ++
    le_ 4 4 ++ le_ 4 0 ++ le_ 4 4 ++ le_ 4 1

/-- A tile with the template at 0x100, four bytes at 0x200 and four at 0x240. -/
def shed (bs : List Nat) : Tile := { cnt := [(5, 10)], scratch := bytesFrom 0x100 bs ++ bytesFrom 0x200 [1, 2, 3, 4] ++ bytesFrom 0x240 [5, 6, 7, 8] }

/-- A queued command with nothing in it. -/
def blank : XEntry := { word := 0, vals := [], idx := 0, recs := [], off := 0, at_ := 0, key := 0, step := 0 }

def copy : Instr := .xcopy { xe with tix := 2 }

def caller : Ctx := { worker with counters := 64 }

/-- The module after an operation has been queued there. -/
def queued (t : Tile) (i : Instr) (c : Ctx := caller) : Option State := next? i (inTile t c 6 i)

/-- Some event after others. -/
def then? (s : Option State) (i : Instr) : Option State := s.bind (next? i)

def queue0 (s : Option State) : Option XQueue := s.map fun v => (v.ctx 0 0).queue 0

/-- R205, R209, R211: a copy is queued with its captured template; a full queue, a template outside the range, a malformed one,
and a region without a record trap. -/
theorem test_queueing :
    (queue0 (queued (shed (tensor 0 0 0)) copy)).map (fun x => (x.issued, x.done, x.ents.length, x.ents.map (·.idx), x.run.isSome)) = some (1, 0, 1, [0], false) ∧
    ((queued (shed (tensor 0 0 0)) copy).map fun v => ((v.ctx 0 0).sup, (v.tile 0).scratch == (shed (tensor 0 0 0)).scratch)) = some (false, true) ∧
    traps {} { caller with xq := [(0, { ents := List.replicate 64 blank })] } 6 copy = some (cXQF, 0) ∧
    traps {} caller 6 (.xcopy { xe with tix := 0x7FFF }) = some (cBND, 0x7FFF) ∧ traps {} caller 6 copy = some (cXTPL, 2) ∧
    traps (shed (0x03 :: (tensor 0 0 0).tail)) caller 6 copy = some (cRGN, 3) ∧
    traps (shed (tensor 0 3 0)) caller 6 copy = some (cXTPL, 2) ∧
    ((queued (shed (tensor 0 0 0)) copy { caller with chk := some {} }).map fun v => ((v.ctx 0 0).xq.map (·.2.ents.length), (v.ctx 0 0).chk.map (·.gate.length))) = some ([], some 1) := by
  and_intros <;> decide +kernel

/-- The module after the copy has started, and after its beats have landed as well. -/
def begun (bs : List Nat) : Option State := then? (queued (shed bs) copy) (.xeCommandStart 0 0 0)

def beatless (s : Option State) : Option State :=
  s.map fun v => v.updCtx 0 0 fun c => c.setQueue 0 { c.queue 0 with run := (c.queue 0).run.map fun r => { r with beats := [] } }

/-- The destination of a copy's only beat and its bytes' sources, as many as there are. -/
def beat (s : Option State) : Option (List (Place × List (Option Source))) :=
  s.bind fun v => ((v.ctx 0 0).queue 0).run.map fun r => r.beats.map fun b => match b with
    | .move p xs => (p, xs.filter (·.isSome))
    | _ => (.scratch 0 0, [])

/-- R206, R207, R213, R217: the copy starts with one beat, in either direction; it completes once the beat has landed, with or
without an add to its counter. -/
theorem test_copy :
    beat (begun (tensor 0 0 0)) = some [(.scratch 0 0x200, [0x240, 0x241, 0x242, 0x243].map fun a => some (.byte (.scratch 0 a)))] ∧
    beat (begun (tensor 8 0 0)) = some [(.scratch 0 0x240, [0x200, 0x201, 0x202, 0x203].map fun a => some (.byte (.scratch 0 a)))] ∧
    (then? (begun (tensor 0 0 0)) (.xeBeatLand 0 0 0 0)).isSome ∧ (then? (begun (tensor 0 0 0)) (.xeCommandComplete 0 0 0)).isNone ∧
    (queue0 (then? (beatless (begun (tensor 0 0 0))) (.xeCommandComplete 0 0 0))).map (fun x => (x.done, x.run.isSome)) = some (1, false) ∧
    (then? (beatless (begun (tensor 0 1 3))) (.xeCommandComplete 0 0 0)).map (fun v => (v.tile 0).cnt) = some [(5, 13)] := by
  and_intros <;> decide +kernel

/-- R249 to R251: a signal to a counter of the context, a word, and a join of the other queues. -/
theorem test_register_commands :
    (then? (then? (queued counting (.xsig ⟨always, 0, 5, true, 0, 4, 2⟩)) (.xeCommandStart 0 0 0)) (.xeCommandComplete 0 0 0)).map (fun v => (v.tile 0).cnt) = some [(5, 19)] ∧
    (then? (then? (queued {} (.xword ⟨always, 0, true, 0, 4, 0, 0x20⟩)) (.xeCommandStart 0 0 0)) (.xeCommandComplete 0 0 0)).map (fun v => (v.tile 0).scratch) = some [(0x100, 7)] ∧
    (queue0 (then? (queued {} (.xjoin always 0 14)) (.xeCommandStart 0 0 0))).map (fun x => (x.issued, x.done)) = some (1, 1) ∧
    (queue0 (queued {} (.xjoin always 0 14) { caller with xq := [(1, { issued := 3 })] })).map (fun x => x.ents.map (·.vals)) = some [[0, 3, 0, 0]] := by
  and_intros <;> decide +kernel

/-- A timetable of two copies, to xq0 and to xq3. -/
def scheduled : Ctx := { caller with timetable := [0x0100000100000000, 0x0100C00100000000] }

/-- R252 to R254, R216, R257: the queue's words, a cancel, the cache, and the copy timetable, with its end. -/
theorem test_queue_control :
    let c : Ctx := { caller with xq := [(1, { issued := 3, done := 2, d0 := 5, d1 := 6, ents := [blank] })], tpos := 4 }
    Sends c 6 (.xstat always 1 3 0) [(2, .sreg 3 0x0003000200010000)] = true ∧ Sends c 6 (.xstat always 1 3 1) [(2, .sreg 3 0x0000000600000005)] = true ∧
    Sends c 6 (.xstat always 0 3 2) [(2, .sreg 3 4)] = true ∧ Sends c 6 (.xcancel always 2 3) [(2, .sreg 3 1)] = true ∧
    leaves c 6 (.xcancel always 2 3) (fun c => ((c.queue 1).ents, (c.queue 1).issued)) = some ([], 3) ∧ leaves { caller with tcache := [⟨1, 0, false⟩] } 6 (.xlrf always) (·.tcache) = some [] ∧
    (queued (shed (tensor 0 0 0)) (.xadv always 0) scheduled).map (fun v => ((v.ctx 0 0).tpos, (v.ctx 0 0).depth 0, (v.ctx 0 0).depth 3)) = some (1, 1, 0) ∧
    (queued (shed (tensor 0 0 0)) (.xadv always 15) scheduled).map (fun v => ((v.ctx 0 0).tpos, (v.ctx 0 0).depth 0, (v.ctx 0 0).depth 3)) = some (2, 1, 1) ∧
    leaves { caller with timetable := [0x0100000100000000] } 6 (.xadv always 0) (fun c => (c.tpos, c.sup, c.ecause.setWidth 8)) = some (0, true, cXTPL) := by
  intro c; and_intros <;> decide +kernel

/-! ### Bundles at issue -/

/-- A module whose only context stands at the first bundle of its window, in cycle 100. -/
def standing (c : Ctx) (t : Tile := {}) (l : List Launch := []) : State :=
  { zone := 100, tiles := [(0, { t with ctx := [(0, c)] })], ctd := { launches := l } }

/-- A tile with a bundle at offset 0, of the slots given in order. -/
def bundled (xs : List (Nat × BitVec 64)) : Tile := { scratch := xs.flatMap fun x => bytesFrom (8 * x.1) (le_ 8 x.2.toNat) }

/-- ADD.I32 s3, s4, #-5; and WAITGE c12, s5, #3, #1000. -/
def adds : Nat × BitVec 64 := (0, 0x0101864FFFFFFFFB)
def waits : Nat × BitVec 64 := (7, 0x0001030A007D0003)

/-- A value of the state that an event leaves. -/
def after {α : Type} (s : State) (i : Instr) (f : State → α) : Option α := (next? i s).map f

/-- The context issues a bundle without a wait, and nothing comes before it. -/
def free (s : State) : Bool :=
  (s.next 0 0).any fun n => s.cur.isNone && !s.holdsStill 0 && n.fault.isNone && ((s.ctx 0 0).engineDue n).isNone && (s.entryEvent 0 0 n false).isNone &&
    ((s.offer 0 0).held 0 0 n).isNone && !(s.offer 0 0).expired 0 0 n

/-- R67, R146: the fetch lets the operations of the bundle issue, and one step performs them; a bundle of NOPs passes by. -/
theorem witness_StepRunsDecoded : free (standing worker (bundled [adds])) = true ∧ free (standing worker) = true ∧
    after (standing worker (bundled [adds, waits])) (.bundleFetch 0 0) (fun v => v.cur.map (·.todo.length)) = none ∧
    after (standing worker (bundled [adds])) (.bundleFetch 0 0) (fun v => v.cur.map fun u => (u.todo, u.off, u.occ)) =
      some (some ([(0, .add ⟨always, .w32, false, 3, 4, .imm (-5)⟩)], 0, 1)) ∧
    after (standing worker) (.bundleFetch 0 0) (fun v => (v.cur.isNone, (v.ctx 0 0).pc)) = some (true, 1) ∧
    (match step { standing worker (bundled [adds]) with agenda := [.bundleFetch 0 0] } with
      | .next v => v.cur.isNone && v.agenda.isEmpty && (v.ctx 0 0).inflight.map (·.w) = [.sreg 3 2] | _ => false) = true ∧
    (match step { standing worker with agenda := [.slip 0 0 0 1] } with | .next v => v.agenda.isEmpty && v.zone = 100 | _ => false) = true ∧
    (match step { standing worker with agenda := [.hostRead (.mem .hbm) (2 ^ 40) 1] } with | .fault f => f = .noSuchAddress .hbm (2 ^ 40) | _ => false) = true := by
  and_intros <;> decide +kernel

/-- The bundle of both, held since a cycle, on a tile that counts 12 as given. -/
def held (c0 : Nat) (n : Word) (c : Ctx := worker) : State :=
  standing { c with hold := some { c0, target := 0x8000000000000003, value := 5 } } { bundled [adds, waits] with cnt := [(12, n)] }

/-- R150 to R155, R353. -/
theorem witness_IssueEvents :
    ((held 0 5).next 0 0).any (fun n => !(held 0 5).expired 0 0 n && ((held 0 5).held 0 0 n).isSome) = true ∧
    (let s := { held 0 5 with zone := 1000 }
     (s.next 0 0).any fun n => s.cur.isNone && !s.holdsStill 0 && n.fault.isNone && (s.entryEvent 0 0 n false).isNone && (s.held 0 0 n).isNone &&
       s.expired 0 0 n && ((s.ctx 0 0).waitOp n).isSome && (s.ctx 0 0).unmet n = 0) = true ∧
    after { held 0 5 with zone := 1000 } (.wto 0 0) (fun v => v.cur.map fun u => (u.todo.map (·.1), u.expired.isSome)) = some (some ([0, 7], true)) ∧
    after { held 0 5 with zone := 999 } (.wto 0 0) (fun v => v.zone) = none ∧
    after (held 90 0x8000000000000003) (.waitConditionMet 0 0) (fun v => (v.ctx 0 0).hold.map fun h => (h.value, h.met, h.okAt)) = some (some (0x8000000000000003, true, 100)) ∧
    after (held 90 0x8000000000000002) (.waitConditionMet 0 0) (fun _ => ()) = none ∧
    (let s := standing { worker with span := 2 } (bundled [adds, waits])
     (s.next 0 0).any fun n => s.probes 0 0 n && n.fault.isNone) = true ∧
    after (standing { worker with span := 2 } (bundled [adds, waits])) (.waitProbe 0 0) (fun v => (v.ctx 0 0).probe.map (·.c0)) = some (some 100) ∧
    (let s := standing worker (bundled [adds])
     !s.stretched && free s && (s.ctx 0 0).stall = 0 && (s.ctx 0 0).probe.isNone && allK.all fun j => j = 0 || (s.next 0 j).isNone) = true ∧
    after (standing worker (bundled [adds])) (.mergeStageChoice 0) (fun v => v.agenda) = some [.bundleFetch 0 0] ∧
    after (standing { worker with timed := true, stall := 3, stallSlot := 7 }) (.slip 0 0 7 3) (fun v => (v.ctx 0 0).stall) = some 0 := by
  and_intros <;> decide +kernel

/-- A bundle of the furrow path that has arrived. -/
def item (sup : Bool) : PathItem :=
  { left := 0, bytes := 0, off := 3, idx := [], rot := 0, nop := false, sup, replay := false, rmiss := false, num := 4 }

/-- R148, R368: a bundle reaches a member, which leaves supervisor mode with it; a mute one drops it. -/
theorem test_delivery :
    after (standing { member with path := [item false], sup := true }) (.furrowBundleDelivery 0 0) (fun v => ((v.ctx 0 0).path.length, (v.ctx 0 0).got.map (·.num), (v.ctx 0 0).sup)) = some (0, some 4, false) ∧
    after (standing { member with path := [item false], mute := true }) (.furrowBundleDelivery 0 0) (fun v => ((v.ctx 0 0).path.length, (v.ctx 0 0).got.isSome)) = some (0, false) ∧
    after (standing { member with path := [item true], mute := true }) (.furrowBundleDelivery 0 0) (fun v => ((v.ctx 0 0).mute, (v.ctx 0 0).got.isSome)) = some (false, true) := by
  and_intros <;> decide +kernel

/-! ### Traps in place of a bundle -/

/-- A launch whose debug block is that of a queue. -/
def debugged (q : Queue) : Launch := { id := ⟨0, 0⟩, phase := .running, dbg := q }

/-- Cause, EINFO, done slots and PC of the trap that an event takes. -/
def entered (s : State) (i : Instr) : Option (BitVec 8 × Word × Word × BitVec 16) :=
  (next? i s).bind fun v => let c := v.ctx 0 0
    if c.sup then some (c.ecause.setWidth 8, c.einfo, c.edone, c.pc) else none

/-- A context whose handler is at 0x8000. -/
def guarded : Ctx := { worker with tvec := 0x8000 }

/-- A checked headland that has lost its pair. -/
def unpaired : Ctx := { guarded with span := 2, checked := true, chk := some { pair := true } }

/-- R146, R232, R367, R373, R374, R384, R385, R401, R402. -/
theorem witness_TrapsInPlaceOfABundle :
    entered (standing { guarded with pc := 0x400 }) (.bundleFetch 0 0) = some (cBND, 0, 0, 0x200) ∧
    entered (standing guarded { bad := [0] }) (.bundleFetch 0 0) = some (cXMEM, 0, 0, 0x200) ∧
    entered (standing { guarded with point := true, xq := [(2, { qs := 1, ecode := cRGN, bad := some (7, 3) })] }) (.bundleFetch 0 0) = some (cRGN, 0x300020007, 0, 0x200) ∧
    after (standing { guarded with point := true, xq := [(2, { qs := 1, ecode := cRGN, bad := some (7, 3) })] }) (.bundleFetch 0 0)
      (fun v => ((v.ctx 0 0).ecause.getLsbD 15, (v.ctx 0 0).eslot, ((v.ctx 0 0).queue 2).qs)) = some (true, 6, 2) ∧
    entered (standing { guarded with qovf := some 0x105 }) (.qovf 0 0) = some (cQOVF, 0x105, 0, 0x200) ∧
    entered (standing { guarded with stepped := true }) (.brk 0 0) = some (cBRK, 0, 0, 0x200) ∧
    entered (standing guarded (bundled [adds, (7, 0x1001030A007D0003)]) [debugged { bp1 := 0xC000000000000000 }]) (.brk 0 0) = some (cBRK, 0x107, 0x8100, 0x200) ∧
    entered (standing { guarded with preq := 0x8000000000000000, point := true }) (.preempt 0 0) = some (cPREEMPT, 0, 0, 0x200) ∧
    entered (standing { guarded with preq := 0x8000000000000000 }) (.preempt 0 0) = none ∧
    entered (standing { guarded with psc := 256 }) (.space 0 0) = some (cSPACE, 256, 0, 0x200) ∧ entered (standing { guarded with psc := 255 }) (.space 0 0) = none ∧
    after (standing { guarded with chk := some { n := 1024 } }) (.space 0 0) (fun v => ((v.ctx 0 0).einfo, v.agenda)) = some (0x1400, [.checkedIntervalClose 0 0]) ∧
    after (standing unpaired) (.pair 0 0) (fun v => ((v.ctx 0 0).ecause.setWidth 8, (v.ctx 0 0).einfo)) = some (cPAIR, 1) := by
  and_intros <;> decide +kernel

/-- A furrow stop with a first trap at position 1. -/
def stop : FStop := { resume := 4, until_ := 90, pos := 1, cause := cBND }

/-- R368: FURR at the headland, and at a member behind it. -/
theorem witness_FurrowStop :
    after (standing { guarded with span := 2, fstop := some stop }) (.furr 0 0) (fun v => ((v.ctx 0 0).sup, (v.ctx 0 0).ecause.setWidth 8, (v.ctx 0 0).einfo, (v.ctx 0 0).pc)) =
      some (true, cFURR, 1 + 256 * cBND.setWidth 64, 0x200) ∧
    after { zone := 100, tiles := [(0, { ctx := [(0, { guarded with sup := true, span := 2, fstop := some { stop with last := some (4, 95) } })] }),
      (1, { ctx := [(0, { guarded with span := 2, pos := 1 })] })] } (.furr 1 0) (fun v => ((v.ctx 1 0).sup, (v.ctx 1 0).ecause.setWidth 8, (v.ctx 1 0).einfo)) =
      some (true, cFURR, 1 + 256 * cBND.setWidth 64) := by
  and_intros <;> decide +kernel

/-! ### Events of the control die -/

/-- A module in cycle 100 without contexts. -/
def control (c : Ctd) : State := { zone := 100, ctd := c }

/-- R21 to R23, R35, R36, R166 to R168, R386, R387. -/
theorem witness_PowerAndResetEvents :
    after (control {}) .stretchCondition (fun v => (v.ctd.stretch.cond, v.ctd.stretch.since)) = some (true, 100) ∧
    after (control { stretch := { cond := true, sched := [(100, 256)] } }) (.stretch 256) (fun v => (v.ctd.stretch.begun, v.ctd.stretch.sched)) = some (100, [(100, 256), (1124, 256)]) ∧
    after (control { stretch := { sched := [(0, 100), (90, 256)] } }) .stretchEnd (fun v => v.ctd.stretch.sched) = some [(90, 256)] ∧
    after (control { stretch := { cond := true } }) .stretchConditionClear (fun v => v.ctd.stretch.cond) = some false ∧
    (control {}).mayStep 480 = true ∧ after (control {}) (.clockStep 480) (fun v => (v.ctd.clockUntil, v.ctd.clockMHz)) = some (some 4196, 600) ∧
    after (control {}) (.clockStep 600) (fun _ => ()) = none ∧
    after (control { clockUntil := some 100, clockTo := 360 }) .clockStepEnd (fun v => (v.ctd.clockUntil, v.ctd.clockMHz)) = some (none, 360) ∧
    after (control {}) (.hardTrip .junction) (fun v => (v.ctd.tripped, v.agenda)) = some (true, [.moduleReset .hardTrip]) ∧
    after (control {}) (.moduleReset .hardTrip) (fun _ => ()) = none ∧
    after { standing worker with hbm := [(0, 1)], host := [(0, 1)] } (.moduleReset .powerOn) (fun v => (v.tiles, v.hbm, v.host, v.zone)) = some ([], [], [(0, 1)], 0) ∧
    State.reset.pendingReady .pf = true ∧ after State.reset (.functionReady .pf) (fun v => v.ctd.ready.pf) = some true ∧
    after (control {}) (.functionReady (.tile 2048)) (fun _ => ()) = none ∧
    after { control { lpdAt := some 2000, upAt := some 3000 } with zone := 1203001 } (.readyTimeout (.tile 0)) (fun v => v.ctd.retired) = some [.tile 0] ∧
    after { control { lpdAt := some 2000, upAt := some 3000 } with zone := 1203000 } (.readyTimeout (.tile 0)) (fun _ => ()) = none ∧
    after { control { lpdAt := some 2000, upAt := some 3000 } with zone := 1203000 } (.functionReady (.tile 0)) (fun v => v.ctd.ready.bit (.tile 0)) = some true ∧
    after (control {}) (.functionReady (.tile 0)) (fun _ => ()) = none ∧
    after (control { ecc := List.replicate 15 (.quire 3, 1) }) (.eccCorrectable (.quire 3)) (fun v => v.ctd.retired) = some [.tile 3] ∧
    after (control { ecc := List.replicate 15 (.regs 3, 1) }) (.eccCorrectable (.quire 3)) (fun v => v.ctd.retired) = some [] ∧
    after (control {}) (.dieReset 2) (fun v => (v.dieState 2, v.ctd.detours)) = some (.draining 12100, [2]) ∧
    after (control { dies := [(2, .draining 101)] }) (.drainEnd 2) (fun v => v.dieState 2) = some .resetting ∧
    after (control { dies := [(2, .draining 101)] }) (.drainDeadline 2) (fun _ => ()) = none ∧
    after (control { dies := [(2, .draining 100)] }) (.drainDeadline 2) (fun v => v.dieState 2) = some .resetting := by
  and_intros <;> decide +kernel

/-- CMD and CODE of the mailbox after a command. -/
def answers (c : Ctd) (i : Instr) : Option (BitVec 8 × BitVec 8) := (after (control c) i fun v => v.ctd.mbox.staged.map fun x => (v.ctd.mbox.cmd, x.1)).join

/-- R27, R30 to R33, Table 2.6. An accepted image or transition needs a signature that Config's opaque check accepts, and has no
state here. -/
theorem witness_MailboxCommands :
    let up : Ctd := { ready := { pf := true } }
    let rec_ : Ctd := { recovery := true }
    answers {} (.lcchal 0) = none ∧ answers rec_ (.attest 48 []) = some (1, 4) ∧ answers rec_ (.lcchal 0) = some (2, 4) ∧ answers rec_ (.lctrans 168 []) = some (3, 4) ∧
    answers rec_ (.diereset 1 [0]) = some (5, 4) ∧ answers up (.attest 47 []) = some (1, 2) ∧ answers up (.attest 48 []) = some (1, 4) ∧
    answers { up with lifeCycle := 1 } (.attest 48 []) = some (1, 0) ∧ answers up (.lcchal 1) = some (2, 2) ∧ answers up (.lcchal 0) = some (2, 0) ∧
    answers up (.lctrans 1 []) = some (3, 2) ∧ answers up (.diereset 0 []) = some (5, 2) ∧ answers up (.diereset 1 [8]) = some (5, 2) ∧
    after (control up) (.diereset 1 [7]) (fun v => (v.ctd.mbox.staged, v.dieState 7)) = some (some (0, []), .draining 12100) ∧ answers up (.fwload 15 []) = some (4, 2) ∧
    answers up (.fwload 16 [1]) = some (4, 5) ∧ answers up (.mailboxBadcmd 6 0) = some (6, 1) ∧ answers up (.mailboxBadcmd 5 0) = none := by
  intro up rec_; and_intros <;> decide +kernel

/-- A key digest that is not the image's: the image is turned away, whatever the digests are. -/
theorem witness_BadSignature (b : Byte) (img : List Byte) : accepts (b :: Config.sha384 (Config.imageKey img)) 0 img = false := by
  have h : Config.sha384 (Config.imageKey img) ≠ b :: Config.sha384 (Config.imageKey img) := (List.cons_ne_self _ _).symm
  simp [accepts, h]

/-- R37, R64, R334, R346 to R348. -/
theorem witness_HostAndPeerAccess :
    let s : State := { zone := 100, hbm := [(5, 7), (300, 1)], badHbm := [4], ctd := { ready := { pf := true, hbm := 0xFFFF, dv := 0xF } } }
    s.spaceReady .hbm 5 = true ∧ ({ s with badHbm := [] } : State).badBlocks (.mem .hbm 5) = [] ∧ s.badIn (.mem .hbm 0) (List.replicate 128 (0, false)) = none ∧
    (s.badIn (.mem .hbm 256) (List.replicate 1 (0, false))).isSome = true ∧
    after s (.hostWrite .hbm 4 [1, 0]) (fun v => v.hbm) = some [(4, 1), (300, 1)] ∧ after s (.hostRead (.mem .hbm) 4 3) (fun v => v.ctd.reads) = some [some [0, 7, 0]] ∧
    after s (.hostRead (.mem .hbm) 256 1) (fun v => v.ctd.reads) = some [none] ∧ after s (.peerWrite 3 .hbm 6 [9] .write) (fun v => v.hbm) = some [(5, 7), (6, 9), (300, 1)] ∧
    (after s (.peerWrite 0 .hbm 0 (List.replicate 64 0) .quire) fun v => v.hbm).isSome = true ∧
    (match exec (.hostWrite .hbm (2 ^ 40) [1]) s with | .fault f => f = .noSuchAddress .hbm (2 ^ 40) | _ => false) = true := by
  intro s; and_intros <;> decide +kernel

/-! ### Queues and launches -/

/-- A queue of 16 records of tenant 0, with two pending. -/
def ring : Queue := { cfg := 0x8000000000400000, tail := 2 }

/-- A module whose queue 3 holds a record. -/
def posted (bs : List Nat) (l : List Launch := []) : State :=
  { zone := 100, lpddr := bytesFrom 0 bs, ctd := { ready := { pf := true, lpd := 0xFF }, queues := [(3, ring)], launches := l } }

/-- A launch of queue 3. -/
def seeded : Launch := { id := ⟨3, 9⟩, phase := .running }

/-- The statuses that records have ended with, and the phases of the launches. -/
def books (s : State) (i : Instr) : Option (List (LId × BitVec 16) × List LPhase) := after s i fun v => (v.ctd.doneRecs, v.ctd.launches.map (·.phase))

/-- A migrate record: from frame 1 of HBM4 to frame 2, with the entry at 0x1000. -/
def moving : List Nat := le_ 16 3 ++ le_ 8 0x200000 ++ le_ 8 0x400000 ++ le_ 8 0x1000

/-- R25, R107 to R112, R122, R128, R382. -/
theorem witness_QueueEvents :
    let w : QueueWords := ⟨0x10000, 0x400000, 0x400, 0, 0, 0, 0, 0, 0, 0, 0, 0⟩
    let up : State := posted []
    after up (.queueEnable 5 w) (fun v => ((v.lq 5).en, (v.lq 5).base, (v.lq 5).err)) = some (true, 0x10000, false) ∧
    after up (.queueEnable 5 { w with cfg := 0 }) (fun v => ((v.lq 5).en, (v.lq 5).err)) = some (false, true) ∧
    after up (.queueEnable 3 w) (fun v => ((v.lq 3).base, (v.lq 3).tail)) = some (0, 2) ∧
    after up (.queueDisable 3) (fun v => ((v.lq 3).en, (v.lq 3).tail)) = some (false, 2) ∧
    after up (.tailWrite 3 16) (fun v => ((v.lq 3).tail, (v.lq 3).ovf)) = some (16, false) ∧ after up (.tailWrite 3 17) (fun v => ((v.lq 3).tail, (v.lq 3).ovf)) = some (2, true) ∧
    after up (.tailWrite 5 1) (fun v => decide (v = up)) = some true ∧
    books up (.launchRecord 3) = some ([(⟨3, 0⟩, stBADKIND)], []) ∧ books (posted (le_ 2 1)) (.launchRecord 3) = some ([(⟨3, 0⟩, stBADREC)], []) ∧
    books (posted (le_ 2 1 ++ [0, 0, 0, 0, 1])) (.launchRecord 3) = some ([], [.deps]) ∧ books up (.killRecord 3) = none ∧
    books (posted (le_ 0x28 2 ++ le_ 8 0x300000009) [seeded]) (.killRecord 3) = some ([], [.ending]) ∧
    books (posted (le_ 0x28 2 ++ le_ 8 0x300000009) [{ seeded with phase := .parked }]) (.killRecord 3) = some ([(⟨3, 9⟩, stKILLED), (⟨3, 0⟩, stOK)], []) ∧
    books (posted (le_ 0x28 2 ++ le_ 8 0x300000009)) (.killRecord 3) = some ([(⟨3, 0⟩, stNOTARGET)], []) ∧
    after (posted (le_ 0x28 2 ++ le_ 8 0x300000001)) (.killRecord 3) (fun v => v.ctd.pendingKills) = some [(⟨3, 1⟩, ⟨3, 0⟩, 0)] ∧
    books (posted (le_ 2 2 ++ [1])) (.killRecord 3) = some ([(⟨3, 0⟩, stBADREC)], []) ∧
    books (posted (le_ 0x28 2 ++ le_ 8 0x500000009)) (.killRecord 3) = some ([(⟨3, 0⟩, stNOTARGET)], []) := by
  intro w up; and_intros <;> decide +kernel

/-- R122: a migration sets MIG, copies the frame and repoints its entry; a locked frame and an entry of another frame are turned
away. -/
theorem witness_Migrations :
    let s : State := { posted moving with hbm := bytesFrom 0x1000 (le_ 8 0x200003) ++ [(0x200005, 9)] }
    books (posted moving) (.migrateRecord 3) = some ([(⟨3, 0⟩, stPTFAULT)], []) ∧
    books { s with ctd := { s.ctd with locks := [((0, 1), 1)] } } (.migrateRecord 3) = some ([(⟨3, 0⟩, stLOCKED)], []) ∧
    after s (.migrateRecord 3) (fun v => (v.pte 0 0x1000, v.ctd.migrations.length)) = some (0x4000000000200003, 1) ∧
    (then? (next? (.migrateRecord 3) s) (.migrateComplete 3 0)).map (fun v => (v.pte 0 0x1000, v.hbm.byte 0x400005, v.ctd.doneRecs)) = some (0x400003, 9, [(⟨3, 0⟩, stOK)]) := by
  intro s; and_intros <;> decide +kernel

/-- A module with one launch, and its only context where it has one. -/
def launched (l : Launch) (c : Option Ctx := none) : State :=
  { zone := 100, tiles := match c with | some c => [(0, { ctx := [(0, { c with launch := some ⟨3, 9⟩ })] })] | none => []
    ctd := { ready := { pf := true, lpd := 0xFF, tile := [(0, 1)], die := 1, bnd := 0xFFF }, queues := [(3, ring)], launches := [l] } }

/-- A launch of one tile, placed on tile 0, whose entry is at bundle 2. -/
def sown : Launch := { seeded with hdr := { entry := 0x80 }, furrows := [⟨0, 0, [{ base := 0x10000 }]⟩], dies := [0] }

/-- R112 to R114, R119, R121, R123, R125, R133, R136 to R144, R382, R388, R389. -/
theorem witness_LaunchLife :
    let failed := some ([((⟨3, 9⟩ : LId), stPTFAULT)], ([] : List LPhase))
    after (launched seeded) .wkick (fun v => decide (v = launched seeded)) = some true ∧
    books (launched { seeded with phase := .deps, bytes := (le_ 0x28 0x100000000 ++ le_ 8 0x300000009).map (BitVec.ofNat 8) }) (.launchWalk 3 9) = some ([(⟨3, 9⟩, stDEPBAD)], []) ∧
    books (launched { seeded with phase := .deps }) (.launchWalk 3 9) = failed ∧
    books (launched { seeded with phase := .walk, holdAt := some 0, reread := 100 }) (.walkReread 3 9) = failed ∧
    books (launched { seeded with phase := .walk, holdAt := some 0, reread := 101 }) (.walkReread 3 9) = none ∧
    books (launched { seeded with phase := .walk, holdAt := some 50, holdSum := 5999950 }) (.pttime 3 9) = some ([(⟨3, 9⟩, stPTTIME)], []) ∧
    after (launched { sown with phase := .admitting, bytes := (le_ 7 0x1000000000000).map (BitVec.ofNat 8), furrows := [] }) (.launchAdmission 3 9)
      (fun v => v.ctd.launches.map fun l => (l.phase, l.furrows, l.toPlace)) = some [(.loading, [⟨0, 0, [{ phys := [0] }]⟩], [0])] ∧
    books (launched { sown with phase := .admitting, furrows := [] }) (.launchAdmission 3 9) = some ([(⟨3, 9⟩, stNOPLACE)], []) ∧
    after (launched { sown with phase := .loading, toPlace := [0], toAck := [0] }) (.launchPacketPlace 0 3 9)
      (fun v => ((v.ctx 0 0).life, (v.ctx 0 0).pc, (v.ctx 0 0).wbase, v.ctd.launches.map (·.toPlace))) = some (.placed, 2, 0x10000, [[]]) ∧
    after (launched { sown with phase := .loading, toAck := [0] }) (.loadAck 0 3 9) (fun v => v.ctd.launches.map fun l => (l.phase, l.t0.isSome)) = some [(.running, true)] ∧
    after (launched { sown with phase := .loading, toAck := [0], side := some 4 }) (.loadAck 0 3 9) (fun v => v.ctd.launches.map fun l => (l.phase, l.t0.isSome)) = some [(.parked, false)] ∧
    after (launched { sown with t0 := some 100 } (some { worker with life := .placed })) (.contextStart 3 9) (fun v => ((v.ctx 0 0).life, (v.ctx 0 0).t0)) = some (.running, 100) ∧
    after (launched { sown with t0 := some 101 } (some { worker with life := .placed })) (.contextStart 3 9) (fun _ => ()) = none ∧
    after { launched sown with ctd := { (launched sown).ctd with sideMsgs := [(0, 4)] } } (.sidingRelease 0 4) (fun v => (v.ctd.latches, v.ctd.sideMsgs)) = some ([(0, 4)], []) ∧
    after (launched sown (some { worker with life := .retiring })) (.contextRetire 0 0) (fun v => ((v.ctx 0 0).life, v.ctd.launches.map (·.retired))) = some (.retired, [[(0, 0)]]) ∧
    after (launched { sown with retired := [(0, 0)] } (some { worker with life := .retired })) (.retirementReport 0 3 9) (fun v => ((v.ctx 0 0).life, v.ctd.launches.map (·.reported))) = some (.free, [[0]]) ∧
    books (launched { sown with started := true, reported := [0] }) (.launchRetire 3 9) = some ([(⟨3, 9⟩, stOK)], []) ∧
    after (launched { sown with phase := .ending } (some { worker with xq := [(0, { ents := [blank] })] })) (.killArrival 0 3 9)
      (fun v => ((v.ctx 0 0).life, ((v.ctx 0 0).queue 0).ents.length)) = some (.stopped, 0) ∧
    books (launched { sown with phase := .ending, status := stKILLED, toQuiesce := [0] }) (.quiesceAck 0 3 9) = some ([(⟨3, 9⟩, stKILLED)], []) ∧
    after (launched { sown with phase := .ending, toQuiesce := [0, 1] }) (.quiesceAck 0 3 9) (fun v => v.ctd.launches.map (·.toQuiesce)) = some [[1]] ∧
    after (launched { sown with phase := .ending, toQuiesce := [0], deadline := 100 }) (.quiesceTimeout 0 3 9) (fun v => (v.dieState 0, v.ctd.launches.map fun l => (l.status, l.fcause))) =
      some (.draining 12100, [(stFAULT, 0x30)]) := by
  intro failed; and_intros <;> decide +kernel

/-- R191, R366: a trap of supervisor mode ends the launch with FAULT. -/
theorem witness_FinalTrap :
    let s : State := { launched sown (some { worker with sup := true }) with cur := some (single 0 (.trap always 7) true) }
    s.operands (single 0 (.trap always 7) true) = (s.ctx 0 0).toRegs ∧ (s.own (single 0 (.trap always 7) true)).launch = some ⟨3, 9⟩ ∧
    after s (.trap always 7) (fun v => ((v.ctx 0 0).life, v.ctd.launches.map fun l => (l.phase, l.status, l.fcause))) = some (.stopped, [(.ending, 1, 0x4010)]) := by
  intro s; and_intros <;> decide +kernel

/-! ### Events of the engines and of images -/

/-- An XDEC at work. -/
def inflating : Started := { e := { blank with word := 0x0600000100000000 } }

/-- A tile whose decompressor serves it. -/
def grinding (d : Decomp) (t : Tile := {}) : State :=
  standing { caller with xq := [(0, { issued := 1, run := some inflating })] } { t with decomp := some d }

/-- A launch of two furrows of which one stands at barrier 2. -/
def gathered : Launch := { sown with furrows := [⟨0, 0, [{}]⟩, ⟨1, 1, [{}]⟩], exited := [1], barArr := [(2, 0)], barAt := [(2, 90)] }

/-- R207, R217, R218, R222, R228, R229, R249, R357; the start, the beats and the completion of a copy are in test_copy. -/
theorem witness_EngineEvents :
    decSlot 6 inflating.e.word = .op (.xdec { xe with tix := 2 }) ∧
    after { launched sown (some caller) with ctd := { (launched sown).ctd with adds := [⟨⟨3, 9⟩, 0, 0, 5, 4, none, none, 0⟩] } } (.remoteAddArrival 3 9 0 0 5 4)
      (fun v => ((v.tile 0).cnt, v.ctd.adds.length)) = some ([(5, 4)], 0) ∧
    after (launched gathered) (.barrierRelease 3 9 2) (fun v => v.ctd.launches.map fun l => (l.barWay.length, l.barArr, l.barCount)) = some [(1, [], [(2, 1)])] ∧
    after (launched { gathered with hdr := { timed := true } }) (.barrierRelease 3 9 2) (fun v => v.ctd.launches.map fun l => l.barWay.map fun x => (x.1, decide (90 < x.2.1), x.2.2)) =
      some [[(2, true, 0)]] ∧
    after (launched { gathered with exited := [] }) (.barrierRelease 3 9 2) (fun _ => ()) = none ∧
    after (standing caller { arr := [(3, { st := 1, due := true, count := 64, side := true, slot := 4, ownt := 1 })] }) (.arrivalRelease (.tile 0) 3)
      (fun v => ((v.arrival (.tile 0) 3).st, (v.arrival (.tile 0) 3).due, v.ctd.sideMsgs)) = some (2, false, [(1, 4)]) ∧
    after (standing caller { arr := [(3, { st := 1, count := 64 })] }) (.arrivalRelease (.tile 0) 3) (fun _ => ()) = none ∧
    after (grinding { k := 0, xq := 0 }) (.decompBlockDone 0) (fun v => (((v.ctx 0 0).queue 0).ecode, ((v.ctx 0 0).queue 0).run.isSome, (v.tile 0).decomp.isSome)) = some (cXCRC, false, false) ∧
    after (grinding { k := 0, xq := 0, left := 1 }) (.decompBlockDone 0) (fun _ => ()) = none ∧
    (after (grinding { k := 0, xq := 0, busy := false, staged := [1, 2] }) (.decompRelease 0) (fun v => (v.tile 0).scratch)) = some [(0, 1), (1, 2)] := by
  and_intros <;> decide +kernel

/-- A handler that has asked for an image operation. -/
def asking (op : BitVec 2) : Ctx := { worker with sup := true, preq := op.setWidth 64 <<< 61 }

/-- The same with the operation begun. -/
def saving (op : BitVec 2) : Ctx := { asking op with imgOp := true, imgAt := 100 }

/-- The two tiles of a checked pair, with the digest exchange over. -/
def pair_ (x : Nat) : State :=
  { launched sown with tiles := [(0, { ctx := [(0, { worker with launch := some ⟨3, 9⟩, span := 2, checked := true, chk := some { until_ := some 100, n := 3, shadow := some { pc := 9 } } })] }),
      (1, { ctx := [(0, { worker with launch := some ⟨3, 9⟩, span := 2, pos := 1, checked := true, chk := some { crc := BitVec.ofNat 64 x, shadow := some { pc := 9 } } })] })] }

/-- R376 to R378, R384, R385, R398. -/
theorem witness_ImageAndCheckedEvents :
    after (standing { worker with preq := 0x18000000000000 }) (.preemptRequest 0 0 5 0xFFFF) (fun v => ((v.ctx 0 0).preq, (v.ctx 0 0).reqAt)) = some (0x800005FFFF000000, 102) ∧
    (after (standing (asking 1)) (.preqSave 0 0) fun v => ((v.ctx 0 0).imgOp, (v.ctx 0 0).preq)) = some (true, 0x2800000000000000) ∧
    (after (standing (asking 2)) (.preqRestore 0 0) fun v => ((v.ctx 0 0).imgOp, (v.ctx 0 0).preq)) = some (true, 0x4800000000000000) ∧
    after (standing (asking 2)) (.preqSave 0 0) (fun _ => ()) = none ∧
    after (standing (saving 1)) (.imageOperationEnd 0 0) (fun v => ((v.ctx 0 0).imgOp, (v.ctx 0 0).preq)) = some (false, 0x1800000000000000) ∧
    after (launched sown (some (saving 1))) (.imageOperationEnd 0 0) (fun v => ((v.ctx 0 0).saved, (v.ctx 0 0).preq, v.ctd.savedAt, (SMap.get none v.ctd.images 0).map (·.id))) =
      some (true, 0x1000000000000000, [⟨⟨3, 9⟩, 0, 0⟩], some ⟨3, 9⟩) ∧
    after (launched sown (some (saving 2))) (.imageOperationEnd 0 0) (fun v => ((v.ctx 0 0).imgOp, (v.ctx 0 0).preq)) = some (false, 0x1800000000000000) ∧
    after (launched sown (some { saving 1 with imgAt := 101 })) (.imageOperationEnd 0 0) (fun _ => ()) = none ∧
    after (standing { worker with span := 2, checked := true, chk := some {} }) (.checkedIntervalClose 0 0) (fun v => (v.ctx 0 0).chk.bind (·.until_)) = some (some 108) ∧
    after (pair_ 0) (.digestExchange 0 0) (fun v => (v.ctx 0 0).chk.map fun y => (y.n, y.until_, y.markAt, y.miss)) = some (some (0, none, 100, [])) ∧
    after (pair_ 1) (.digestExchange 0 0) (fun v => ((v.ctx 0 0).pc, (v.ctx 1 0).pc, (v.ctx 0 0).chk.map fun y => (y.miss.length, y.pair))) = some (9, 9, some (1, false)) ∧
    after (launched sown (some { worker with shn := 0x8000000000000009, cyc := 10, hashes := [⟨0, 5⟩, ⟨1, 0⟩] })) (.hashRecord 0 0 0) (fun v => ((v.ctx 0 0).hashes, v.lpddr)) =
      some ([⟨1, 0⟩], [(0, 5)]) ∧
    after (launched sown (some { worker with shn := 0x8000000000000009, cyc := 10, hashes := [⟨0, 5⟩, ⟨1, 0⟩] })) (.hashRecord 0 0 1) (fun _ => ()) = none := by
  and_intros <;> decide +kernel

/-! ### Hypotheses

`witness_words_…` shows `Issues` for one word of every operation (`issues_of_ok`), and `witness_Lands` for every result; the
theorems below show the further hypotheses that statements about slot operations take. The clauses of the loads, stores, waits,
FIFOs and transfer commands are met in the tests of their names, by operands on either side of each bound. -/

/-- `worker` stands in a bundle that closes with nothing but its sequencer step to do. -/
theorem witness_Plain (slot : Nat) (i : Instr) (sup : Bool) : Plain (at_ worker slot i sup) (single slot i sup) :=
  ⟨⟨rfl, rfl, rfl, rfl, rfl, rfl, rfl, rfl, rfl, rfl⟩, rfl, rfl, rfl⟩

theorem witness_TrapEntry : (at_ worker 0 (.trap always 5)).Issues (single 0 (.trap always 5)) 0 (.trap always 5) always [] ∧
    Plain (at_ worker 0 (.trap always 5)) (single 0 (.trap always 5)) ∧ ((at_ worker 0 (.trap always 5)).own (single 0 (.trap always 5))).sup = false :=
  ⟨issues_of_ok (by decide +kernel), witness_Plain .., rfl⟩

/-- A headland and a member; a legal target and an illegal one; and no trap raised yet. -/
theorem witness_Transfers :
    (at_ worker 0 (.br always 3)).Issues (single 0 (.br always 3)) 0 (.br always 3) always [] ∧ ((at_ worker 0 (.br always 3)).own (single 0 (.br always 3))).pos = 0 ∧
    (at_ member 0 (.br always 3)).Issues (single 0 (.br always 3)) 0 (.br always 3) always [] ∧ ((at_ member 0 (.br always 3)).own (single 0 (.br always 3))).pos ≠ 0 ∧
    (single 0 (.br always 3)).raised = [] ∧ Legal (here (single 0 (.br always 3)) + 64 * 3) ∧ ¬ Legal (here (single 0 (.br always 3)) + 64 * (-3)) :=
  ⟨issues_of_ok (by decide +kernel), rfl, issues_of_ok (by decide +kernel), by decide +kernel, rfl, by simp [Legal, here, single], by simp [Legal, here, single]⟩

/-- An MNOP that ends its bundle, with each of the pending transfers that the statement names. -/
theorem witness_SequencerStep (ps : List Pending) :
    let s := at_ { worker with pend := ps } 3 (.mnop 0 0)
    s.Stands (single 3 (.mnop 0 0)) 3 (.mnop 0 0) [] ∧ Plain s (single 3 (.mnop 0 0)) ∧ (s.own (single 3 (.mnop 0 0))).pend = ps :=
  ⟨⟨rfl, rfl⟩, ⟨⟨rfl, rfl, rfl, rfl, rfl, rfl, rfl, rfl, rfl, rfl⟩, rfl, rfl, rfl⟩, rfl⟩

/-- Each depth, a count of 0 and of 7, and a body past the end of the range. -/
theorem witness_Loops (n : Nat) :
    let i : Instr := .loopx always
    let s := at_ (looping n { start := 0xFFFF, len := 2 }) 0 i
    s.Issues (single 0 i) 0 i always [] ∧ (s.own (single 0 i)).ldep = n ∧ (s.own (single 0 i)).pos = 0 ∧
    ok worker 0 (.loop ⟨always, false, false, 0xFFFF, .imm 0⟩) always = true ∧ ok (looping 6 {}) 0 (.loop ⟨always, true, false, 4, .reg 4⟩) always = true ∧
    2 ^ 22 ≤ 64 * (0xFFFF + 2) :=
  ⟨issues_of_ok rfl, rfl, rfl, by decide +kernel, by decide +kernel, by decide⟩

/-- A return comes due, and a TRET in user mode. -/
theorem witness_TrapReturn :
    let s := at_ { worker with pend := [⟨1, .tret⟩] } 3 (.mnop 0 0)
    s.Stands (single 3 (.mnop 0 0)) 3 (.mnop 0 0) [] ∧ Plain s (single 3 (.mnop 0 0)) ∧ (s.own (single 3 (.mnop 0 0))).pend = [⟨1, .tret⟩] ∧
    (at_ worker 0 (.tret always)).Stands (single 0 (.tret always)) 0 (.tret always) [] ∧ (single 0 (.tret always)).sup = false ∧
    (at_ worker 0 (.tret always) true).Issues (single 0 (.tret always) true) 0 (.tret always) always [] :=
  ⟨⟨rfl, rfl⟩, ⟨⟨rfl, rfl, rfl, rfl, rfl, rfl, rfl, rfl, rfl, rfl⟩, rfl, rfl, rfl⟩, rfl, ⟨rfl, rfl⟩, rfl, issues_of_ok (by decide +kernel)⟩

theorem witness_ExitRetires : (at_ worker 0 (.exit always)).Issues (single 0 (.exit always)) 0 (.exit always) always [] ∧
    Plain (at_ worker 0 (.exit always)) (single 0 (.exit always)) ∧ ((at_ worker 0 (.exit always)).own (single 0 (.exit always))).xq.all (fun x => x.2.qs ≠ 1) = true :=
  ⟨issues_of_ok (by decide +kernel), witness_Plain .., rfl⟩

/-- A context in which a register has just been written, and one that keeps no operands. -/
theorem witness_SystemRegisterReadAfterWrite (num : Nat) (w : Word) (i : Instr) :
    (at_ (worker.sysWrite num w) 0 i true).own (single 0 i true) = worker.sysWrite num w ∧ worker.kept = none := ⟨rfl, rfl⟩

/-- For SYSW: descriptors that are valid and that are not, OP of each value, and a counter that another entry maps and one that
none does. -/
theorem witness_SystemRegisterWrites :
    ok { worker with s := [(5, 0x400000001)] } 0 (.sysw always 5 0x010) always true = true ∧ ok { worker with s := [(5, 0x4FFFF)] } 0 (.sysw always 5 0x010) always true = true ∧
    ok { worker with s := [(5, 0x6000000000000000)] } 0 (.sysw always 5 0x027) always true = true ∧ ok { worker with s := [(5, 0x2000000000000000)] } 0 (.sysw always 5 0x027) always true = true ∧
    ok worker 0 (.cmapWrite always 4 3) always true = true ∧ worker.counter 7 = some 7 ∧ worker.counter 64 = none ∧ (worker.s.get 0 4 : Word) = 7 := by
  and_intros <;> decide +kernel

/-- An operation that is given a trap, one whose condition is false, and one that is neither. -/
theorem witness_ConditionsAndIssueTraps :
    (match encode (.sysr always 6 0x020) with | some (0, w) => (condition 0 w == always) | _ => false) = true ∧
    issueFault ((at_ worker 0 (.sysr always 6 0x020)).own (single 0 (.sysr always 6 0x020))) false (.sysr always 6 0x020) = some cPRIV ∧
    (worker.toRegs.holds ⟨true, 0⟩ = false ∧ worker.toRegs.holds ⟨true, 3⟩ = true ∧ worker.toRegs.holds ⟨false, 3⟩ = false) ∧
    (at_ worker 0 (.sysr always 6 0x020)).Stands (single 0 (.sysr always 6 0x020)) 0 (.sysr always 6 0x020) [] :=
  ⟨by decide +kernel, by decide +kernel, by decide +kernel, ⟨rfl, rfl⟩⟩

/-- A step of a module whose memories hold something. -/
theorem witness_MemoriesStayCanonical :
    let s : State := { standing worker (bundled [adds]) with hbm := [(5, 7)], host := [(0, 1), (9, 2)] }
    MemoriesWf s ∧ (match step s with | .next _ => true | _ => false) = true :=
  ⟨⟨by decide +kernel, by decide +kernel, by decide +kernel, by simp [standing], by
    intro e h; simp only [standing, List.mem_singleton] at h; subst h; decide +kernel⟩, by decide +kernel⟩

/-! ### Loops, owed bundles and reissue -/

/-- A loop in a loop that both end at bundle 2. -/
def nested (n : BitVec 32) : Ctx :=
  { worker with ldep := 2, ls := [(0, { count := n, len := 3, start := 0 }), (1, { count := 1, len := 2, start := 1 })] }

/-- A rotating loop with the bit PE, at its last bundle. -/
def turning : Ctx :=
  { worker with psc := 5, vw := [(0, 0x400070F04), (1, 0x40000FF00)], ldep := 1, ls := [(0, { count := 3, len := 2, start := 1, rt := true, pe := true })] }

/-- The inner loop is done and the outer goes back, or both are done; the views turn but for one written in the bundle. -/
theorem test_iterationEnd :
    leaves (nested 3) 3 (.mnop 0 0) (fun c => (c.pc, c.ldep, c.ls)) = some (0, 1, [(0, { count := 3, idx := 1, len := 3, start := 0 })]) ∧
    leaves (nested 1) 3 (.mnop 0 0) (fun c => (c.pc, c.ldep, c.ls)) = some (3, 0, []) ∧
    leaves turning 3 (.mnop 0 0) (fun c => (c.pc, c.vw)) = some (1, [(0, 0x404070F04), (1, 0x40000FF00)]) ∧
    leaves { turning with vwNew := 1 } 3 (.mnop 0 0) (fun c => (c.pc, c.vw)) = some (1, turning.vw) := by
  and_intros <;> decide +kernel

/-- The context after its bundle, begun as `u`, closes. -/
def closed (c : Ctx) (u : Cur) : Option Ctx := (next? (.mnop 0 0) { at_ c 3 (.mnop 0 0) with cur := some u }).map fun v => v.ctx 0 0

/-- A pre-emption point acts, or waits for the delay bundles; a bundle issued before turns no views again; an image's transfer is taken
up, its first bundle annulled. -/
theorem test_reissuedClose :
    leaves turning 3 (.mnop 0 0) (fun c => (c.point, c.psc, c.deferred)) = some (true, 0, false) ∧
    (closed turning { single 3 (.mnop 0 0) with pend0 := [⟨1, .off 9⟩] }).map (fun c => (c.point, c.deferred)) = some (false, true) ∧
    (closed turning { single 3 (.mnop 0 0) with skipped := true }).map (fun c => (c.pc, c.vw)) = some (1, turning.vw) ∧
    (closed worker { single 3 (.mnop 0 0) with xfer := some (.off 9) }).map (fun c => (c.pc, c.pend, c.nulls)) = some (3, [⟨2, .off 9⟩], 0) ∧
    (closed worker { single 3 (.mnop 0 0) with xfer := some (.off 9), annul := true }).map (fun c => (c.pc, c.pend, c.nulls)) =
      some (3, [⟨2, .off 9⟩], 2) := by
  and_intros <;> decide +kernel

theorem witness_Closes :
    let u := single 3 (.mnop 0 0)
    (∀ n, Closes (at_ (nested n) 3 (.mnop 0 0)) u ∧ (at_ (nested n) 3 (.mnop 0 0)).Stands u 3 (.mnop 0 0) [] ∧
      Ends ((nested n).toCore.level 1) u.off ∧ ¬ Again ((nested n).toCore.level 1) ∧ Ends ((nested n).toCore.level 0) u.off) ∧
    Again ((nested 3).toCore.level 0) ∧ ¬ Again ((nested 1).toCore.level 0) ∧
    Closes (at_ turning 3 (.mnop 0 0)) u ∧ Ends (turning.toCore.level 0) u.off ∧ Again (turning.toCore.level 0) :=
  ⟨fun _ => ⟨⟨rfl, rfl, rfl, rfl, rfl, rfl, rfl, rfl, rfl, rfl⟩, ⟨rfl, rfl⟩, rfl, Nat.lt_irrefl 1, rfl⟩,
    (by decide : 1 < 3), Nat.lt_irrefl 1,
    ⟨rfl, rfl, rfl, rfl, rfl, rfl, rfl, rfl, rfl, rfl⟩, rfl, (by decide : 1 < 3)⟩

/-- A context that owes two bundles. -/
def owing (xs : List Pending) : State := standing { worker with nulls := 2, pend := xs }

/-- A bundle owed goes by with nothing issued, and the pending transfers come nearer. -/
theorem test_owedBundle : free (owing [⟨1, .off 9⟩]) = true ∧
    after (owing [⟨1, .off 9⟩]) (.bundleFetch 0 0) (fun v => ((v.ctx 0 0).nulls, (v.ctx 0 0).pc, (v.ctx 0 0).pend, (v.ctx 0 0).cyc, v.cur.isNone)) =
      some (1, 9, [], 1, true) := by
  and_intros <;> decide +kernel

def returned (skip : Nat) : State :=
  standing { worker with resume := some { done := 0x80, skip, xfer := some 7, annul := true, replay := [] } } (bundled [adds, waits])

/-- A return reads SR as a write in flight leaves it; the bundle returned to issues without its DONE slots, after the NOP
bundles owed before it. -/
theorem test_tretReissue :
    ({ worker with inflight := [landing (.sys 0x020 9) 1, landing (.sys 0x020 0x4F) 1, landing (.sys 0x023 1) 1, landing (.sys 0x020 7) 2] } : Ctx).toCore.nextSys 0x020 5 = 0x48 ∧
    free (returned 0) = true ∧ free (returned 2) = true ∧
    after (returned 0) (.bundleFetch 0 0) (fun v => v.cur.map fun u => (u.todo.map (·.1), u.pre, u.xfer, u.annul)) = some (some ([0], 0x80, some (.off 7), true)) ∧
    after (returned 2) (.bundleFetch 0 0) (fun v => (v.cur.isNone, (v.ctx 0 0).resume.map (·.skip), (v.ctx 0 0).pc)) = some (true, some 1, 1) := by
  and_intros <;> decide +kernel

def leaving (c : Ctx) (sup : Bool) : State := { launched sown (some c) with cur := some (single 0 (.exit always) sup) }

/-- EXIT with FIN set ends the launch FAULT with the cause that ECAUSE holds; a queue at fault leaves its code; else the
furrow exits. -/
theorem test_exitLaunch :
    after (leaving { worker with sup := true, ecause := 0x10012 } true) (.exit always)
      (fun v => ((v.ctx 0 0).life, v.ctd.launches.map fun l => (l.phase, l.status, l.fcause, l.ftile))) = some (.stopped, [(.ending, 1, 0x0012, 0)]) ∧
    after (leaving { worker with xq := [(2, { qs := 1, ecode := cRGN })] } false) (.exit always)
      (fun v => ((v.ctx 0 0).life, v.ctd.launches.map fun l => (l.phase, l.status, l.fcause, l.ftile))) = some (.retiring, [(.ending, 1, 6, 0)]) ∧
    after (leaving worker false) (.exit always) (fun v => ((v.ctx 0 0).life, v.ctd.launches.map fun l => (l.phase, l.exited))) =
      some (.retiring, [(.running, [0])]) := by
  and_intros <;> decide +kernel

/-! ### Vectors and stores -/

/-- The power of two above a T16E1 element, and the flag that one element is not 0; the order of B16 elements. -/
theorem test_specAndSortKeys :
    Sends (holding (every 16 0x3000) 0) 1 (.vfspec { one with fmt := .t16e1, imm := 0, m := 1 }) (yields 8 0x46A1 1 (BitVec.ofNat _ 1)) = true ∧
    ([0x7FC0, 0xFF80, 0x0000, 0x8000, 0x3F80, 0xFF81].map (sortKey .b16 false) = [-65536, -32640, 0, 0, 16256, -65536]) := by
  and_intros <;> decide +kernel

/-- A masked store traps where it writes a part of the bad block: all of the block or none of it is no fault. -/
theorem test_maskedStoreFault :
    let masked (m : Mask) := traps { bad := [1] } { engine with m := [(1, m)] } 5 (.stvm { ls (.wide 0 5) with imm := 0x40, m := 1 })
    [0xFFFFFFFF, 0xFFFFFFFF00000000, 1, 0x7FFFFFFF, 0].map masked = [none, none, some (cXMEM, 0x40), some (cXMEM, 0x40), none] := by
  decide +kernel

/-! ### Results that land together -/

def together (c : Ctx) (ls : List Landing) : Option Ctx :=
  after { zone := 100, tiles := [(0, { ctx := [(0, { c with inflight := ls })] })] } (.resultLand 0 0) fun v => v.ctx 0 0

def from_ (n slot : Nat) (w : Write) : Landing := { landing w with serial := n, slot }

/-- Two of one bundle leave the later slot's value and an entry; two of different bundles leave no entry; masked writes
overlap byte by byte. -/
theorem test_collisions :
    (together worker [from_ 1 1 (.sreg 3 5), from_ 1 2 (.sreg 3 6)]).map (fun c => (SMap.get 0 c.s 3 : Word)) = some 6 ∧
    (together worker [from_ 1 1 (.sreg 3 5), from_ 1 2 (.sreg 3 6)]).map (·.events) = some [(2, 5, 0, 1, 100)] ∧
    (together worker [from_ 1 1 (.sreg 3 5), from_ 2 0 (.sreg 3 6)]).map (fun c => ((SMap.get 0 c.s 3 : Word), c.events.length)) = some (6, 0) ∧
    (together worker [from_ 1 1 (.reg 0 5 (every 16 1) 3), from_ 1 2 (.reg 0 5 (every 16 2) 6)]).map
      (fun c => ((SMap.get 0 c.space 5 : Vec), c.events.length)) = some (0x200020001, 1) := by
  and_intros <;> decide +kernel

/-- PREQ asks for an image operation; CNT keeps what was added in the cycle; a view made wider uncovers registers. -/
theorem test_sysLandings :
    landed worker (.sys 0x027 0x2000000000000000) (fun v _ => v.agenda) = some [.preqSave 0 0] ∧
    landed worker (.sys 0x027 0x4000000000000000) (fun v _ => v.agenda) = some [.preqRestore 0 0] ∧
    landed worker (.sys 0x027 0) (fun v _ => v.agenda) = some [] ∧
    landed worker (.cntSet 5 3) (fun v _ => (v.tile 0).cnt) { counting with added := [(5, 4)] } = some [(5, 7)] ∧
    landed { engine with vw := [(0, 0x400030F04)] } (.sys 0x010 0x40000FF00) (fun v _ => v.freeCtr) = some 256 := by
  and_intros <;> decide +kernel

/-! ### Waits, queues and barriers -/

/-- A template, a stream of the timetable and a word waited for that lie in a bad block, and those that do not. -/
theorem test_badBlocksRead :
    traps { shed (tensor 0 0 0) with bad := [4] } caller 6 copy = some (cXMEM, 0x100) ∧
    after (inTile { shed (tensor 0 0 0) with bad := [4] } caller 6 copy) copy (fun v => v.ctd.retired) = some [.tile 0] ∧
    traps { bytes3 with bad := [1] } worker 7 (.waitw always 0 4 .ge 8 test_) = some (cXMEM, 0x40) ∧
    traps { bytes3 with bad := [2] } worker 7 (.waitw always 0 4 .ge 8 test_) = none := by
  and_intros <;> decide +kernel

/-- XADV releases up to the entry that traps; XSTAT gives the words before an entry of this cycle. -/
theorem test_queueControl :
    (queued (shed (tensor 0 0 0)) (.xadv always 15) { scheduled with timetable := [0x0100000100000000, 0x0100C00080000000] }).map
      (fun v => ((v.ctx 0 0).tpos, (v.ctx 0 0).depth 0, (v.ctx 0 0).depth 3, (v.ctx 0 0).ecause.extractLsb' 0 8, (v.ctx 0 0).einfo)) = some (1, 1, 0, cXTPL, 1) ∧
    sends { worker with xq := [(1, { prev := (100, 77) })] } 6 (.xstat always 1 3 0) = some [(2, .sreg 3 77)] := by
  and_intros <;> decide +kernel

/-- A context with commands of three reaches, one of which has faulted. -/
def lined : Ctx :=
  { caller with
    nextOrd := 9
    xq := [(0, { ents := [{ blank with ord := 3, reach := 1 }, { blank with ord := 5, reach := 2 }] }),
      (1, { qs := 1, bad := some (7, 3), badOrd := 7, badReach := 0, ecode := cRGN })] }

theorem test_fenceScopes :
    leaves lined 7 (.fence always .t) (·.fence) = some [7] ∧ leaves lined 7 (.fence always .f) (·.fence) = some [3, 7] ∧
    leaves lined 7 (.fence always .d) (·.fence) = some [3, 5, 7] ∧ leaves lined 7 (.fence always .p) (·.fence) = some [3, 5, 7] := by
  and_intros <;> decide +kernel

/-! ### Steps and the clock -/

def stepping {α : Type} (s : State) (f : State → α) : Option α := match step s with | .next v => some (f v) | _ => none

/-- One step runs the whole bundle; a turn of the clock counts results down, but in a stretch; the tiers of reset come one
after the other. -/
theorem test_clock :
    let waits := standing { worker with inflight := [landing (.sreg 3 5) 1, landing (.sreg 4 5) 2] }
    let seen (s : State) := stepping s fun v => (v.zone, (v.ctx 0 0).inflight.map (·.left))
    stepping { standing worker (bundled [adds, (3, 0xF3A5000000000001)]) with agenda := [.bundleFetch 0 0] }
      (fun v => (v.cur.isNone, (v.ctx 0 0).inflight.map (·.w), (v.ctx 0 0).pc)) = some (true, [.sreg 3 2], 1) ∧
    seen waits = some (101, [0, 1]) ∧ seen { waits with ctd := { stretch := { sched := [(101, 256)], begun := 101 } } } = some (101, [1, 2]) ∧
    stepping waits (·.agenda.head?) = some (some (.resultLand 0 0)) ∧
    stepping { zone := 100, ctd := { ready := { pf := true, mgmt := 0xF } } } (·.ctd.lpdAt) = some (some 101) ∧
    stepping { zone := 100, ctd := { ready := { pf := true, mgmt := 0x7 } } } (·.ctd.lpdAt) = some none ∧
    stepping { zone := 100, ctd := { lpdAt := some 7, retired := [.lpddr 2], ready := { pf := true, mgmt := 0xF, lpd := 0xFB } } } (·.ctd.upAt) = some (some 101) := by
  and_intros <;> decide +kernel

/-- A headland and a member of one furrow. -/
def furrowed (c d : Ctx) : State := { zone := 100, tiles := [(0, { ctx := [(0, c)] }), (1, { ctx := [(1, d)] })] }

theorem test_furrowTraps :
    after (furrowed { guarded with span := 2, preq := 0x8000000000000000, point := true } { member with head := 0, preq := 0x8000000000000007 }) (.preempt 0 0)
      (fun v => ((v.ctx 0 0).preq, (v.ctx 1 1).preq)) = some (0, 7) ∧
    after (furrowed { guarded with span := 2, psc := 256 } { member with head := 0, psc := 9 }) (.space 0 0)
      (fun v => ((v.ctx 0 0).psc, (v.ctx 1 1).psc, (v.ctx 0 0).ecause.extractLsb' 0 8)) = some (0, 0, cSPACE) ∧
    after (standing unpaired) (.pair 0 0) (fun v => (v.ctx 0 0).chk.map (·.pair)) = some (some false) := by
  and_intros <;> decide +kernel

/-! ### Images of contexts -/

/-- A launch that holds locks on frames for two contexts. -/
def keeping (c : Ctx) : State :=
  let s := launched { sown with lockSets := [((0, 0), [(1, 7), (1, 8)]), ((1, 0), [(1, 7)])] } (some c)
  { s with ctd := { s.ctd with locks := [((1, 7), 2), ((1, 8), 1)] } }

/-- The frame locks that are left, and the contexts that the launch holds some for. -/
def locksAfter (c : Ctx) : Option (List (List Nat) × List (List (Nat × Nat))) :=
  after (keeping c) (.imageOperationEnd 0 0) fun v => (v.ctd.locks.map fun x => [x.1.1, x.1.2, x.2], v.ctd.launches.map fun l => l.lockSets.map (·.1))

/-- A save releases the context's locks, once; a restore from a slot that holds no image fails. -/
theorem test_imageLocks :
    locksAfter (saving 1) = some ([[1, 7, 1]], [[(1, 0)]]) ∧
    locksAfter { saving 1 with saved := true } = some ([[1, 7, 2], [1, 8, 1]], [[(0, 0), (1, 0)]]) ∧
    after (standing { saving 2 with preq := 0x4000000005000000 }) (.imageOperationEnd 0 0) (fun v => (v.ctx 0 0).preq) = some 0x1800000005000000 := by
  and_intros <;> decide +kernel

/-- An image of Tables 18.7 to 18.9 with the given CRC and the given bytes after its header. -/
def plate (v : Nat) : List Byte := [0x58, 0x43, 0x49, 0x47, 1, 0, 0, 0, 0, 0x54, 1, 0] ++ leBytes 4 v ++ List.replicate 48 0

def picture (v : Nat) (bs : List Byte) : Image := { id := ⟨3, 9⟩, fx := 0, fy := 0, was := worker, bytes := plate v ++ bs, tail := [] }

theorem length_plate (v : Nat) : (plate v).length = 64 := rfl

theorem le_picture (v : Nat) (bs : List Byte) (off n : Nat) (h : off + n ≤ 64) : le (picture v bs).bytes off n = le (plate v) off n := by
  have hl := length_plate v
  simp only [le, picture]
  rw [List.drop_append_of_le_length (by omega), List.take_append_of_le_length (by rw [List.length_drop]; omega)]

theorem le_plate (v : Nat) (h : v < 2 ^ 32) :
    le (plate v) 0 4 = 0x47494358 ∧ le (plate v) 4 2 = 1 ∧ le (plate v) 8 4 = 0x15400 ∧ le (plate v) 12 4 = v := by
  refine ⟨?_, ?_, ?_, ?_⟩
  · show ofLe [0x58, 0x43, 0x49, 0x47] = _
    decide
  · show ofLe [1, 0] = _
    decide
  · show ofLe [0, 0x54, 1, 0] = _
    decide
  show ofLe [BitVec.ofNat 8 v, BitVec.ofNat 8 (v / 256), BitVec.ofNat 8 (v / 256 / 256), BitVec.ofNat 8 (v / 256 / 256 / 256)] = v
  simp only [ofLe, BitVec.toNat_ofNat]
  omega

/-- Its header is right, and its CRC tells whether it is valid. -/
theorem picture_valid (v : Nat) (bs : List Byte) (h : v < 2 ^ 32) (hb : bs.length = 0x153C0) :
    imageValid (picture v bs).bytes = decide (v = (crc32c bs).toNat) := by
  have h5 : (picture v bs).bytes.length = 0x15400 := by
    show (plate v ++ bs).length = 0x15400
    rw [List.length_append, length_plate, hb]
  have h6 : (picture v bs).bytes.drop 64 = bs := List.drop_left' (length_plate v)
  obtain ⟨h1, h2, h3, h4⟩ := le_plate v h
  simp [imageValid, h5, h6, le_picture, h1, h2, h3, h4]

/-- A region list of one entry. -/
def region_ (cls span off target : Nat) : List Byte :=
  (le_ 64 0 ++ [0x30, cls, 1, 1] ++ le_ 4 span ++ le_ 4 1 ++ le_ 4 0 ++ le_ 8 off ++ le_ 8 target ++ le_ 32 0).map (BitVec.ofNat 8)

def pictured (img : List Byte) : Launch := { sown with image := img, hdr := { entry := 0x80, sect := [(4, 0, 128, 0)] } }

/-- A handler that restores that image, for a launch whose image holds a region list and whose page table has one entry. -/
def restoring (x : Image) (img : List Byte) (pte : Nat) : State :=
  let s := launched (pictured img) (some (saving 2))
  { s with hbm := bytesFrom 0 (le_ 8 pte), ctd := { s.ctd with images := [(0, some x)] } }

theorem restoring_is (x : Image) (img : List Byte) (p : Nat) (h : x.id = ⟨3, 9⟩) (hv : imageValid x.bytes = true) :
    (∀ l, (restoring x img p).walkAgain (pictured img) = .done l → (restoring x img p).restore 0 0 = .done ((restoring x img p).load 0 0 x (pictured img) l)) ∧
    (∀ l, (restoring x img p).walkAgain (pictured img) = .hold l → (restoring x img p).restore 0 0 = .hold) ∧
    ∀ l st bad, (restoring x img p).walkAgain (pictured img) = .fail l st bad → (restoring x img p).restore 0 0 = .fail bad := by
  have h0 : ((restoring x img p).ctx 0 0).rslot = 0 := by
    show ({ saving 2 with launch := some ⟨3, 9⟩ } : Ctx).rslot = 0
    decide +kernel
  have h1 : SMap.get none (restoring x img p).ctd.images 0 = some x := rfl
  have h2 : (restoring x img p).ctd.ready.lpd = 0xFF := rfl
  have h3 : findLaunch (restoring x img p).ctd.launches x.id = some (pictured img) := by rw [h]; rfl
  refine ⟨fun l hl => ?_, fun l hl => ?_, fun l st bad hl => ?_⟩ <;>
  · unfold State.restore
    simp only [h0, h1, h2, h3, hv]
    simp [hl]

/-- An image whose bytes after the header are zeros. -/
def sound : Image := picture (crc32c (List.replicate 0x153C0 0)).toNat (List.replicate 0x153C0 0)

theorem sound_valid : imageValid sound.bytes = true := by
  unfold sound
  rw [picture_valid _ _ (BitVec.isLt _) List.length_replicate]
  exact decide_eq_true rfl

/-- How that walk ends: with every entry, held, or with a status. -/
def walkOf (img : List Byte) (p : Nat) : Nat := match (restoring sound img p).walkAgain (pictured img) with
  | .done _ => 0
  | .more _ => 1
  | .hold _ => 2
  | .fail _ _ _ => 3

theorem test_walkOf : walkOf [] 0 = 0 ∧ walkOf (region_ 1 64 0 0) 0x8000000000000001 = 2 ∧ walkOf (region_ 1 64 0 0) 0 = 3 := by
  and_intros <;> decide +kernel

/-- A restore ends, is held, and fails. -/
theorem witness_restore :
    (∃ s', (restoring sound [] 0).restore 0 0 = .done s') ∧ (restoring sound (region_ 1 64 0 0) 0x8000000000000001).restore 0 0 = .hold ∧
    (∃ bad, (restoring sound (region_ 1 64 0 0) 0).restore 0 0 = .fail bad) := by
  obtain ⟨h0, h1, h2⟩ := test_walkOf
  refine ⟨?_, ?_, ?_⟩
  · unfold walkOf at h0; split at h0
    case h_1 l hl => exact ⟨_, (restoring_is sound _ _ rfl sound_valid).1 l hl⟩
    all_goals cases h0
  · unfold walkOf at h1; split at h1
    case h_3 l hl => exact (restoring_is sound _ _ rfl sound_valid).2.1 l hl
    all_goals cases h1
  · unfold walkOf at h2; split at h2
    case h_4 l st bad hl => exact ⟨_, (restoring_is sound _ _ rfl sound_valid).2.2 l st bad hl⟩
    all_goals cases h2

/-! ### The control unit, the host and the queues -/

def running : Ctd := { ready := { pf := true }, mbox := { busy := true, cmd := 5, rqlen := 1, staged := some (0, [7]) } }

/-- While the mailbox is busy a command is ignored, but for what it writes to the request area. -/
theorem test_mailbox :
    after (control running) (.lcchal 0) (·.ctd.mbox) = some running.mbox ∧ after (control running) (.mailboxBadcmd 6 0) (fun v => decide (v = control running)) = some true ∧
    after (control running) (.attest 48 [9]) (fun v => decide ({ v.ctd.mbox with req := [] } = { running.mbox with req := [] })) = some true := by
  and_intros <;> decide +kernel

/-- A module whose map, mailbox, journal and queue 3 hold something. -/
def ported (lpd : BitVec 8 := 0xFF) : State :=
  { zone := 100
    ctd := { ready := { pf := true, lpd, gen := 5, tile := [(3, 9)] }, jseq := 8, journal := [(1, [7])], queues := [(3, ring)], mbox := { cmd := 1, rqlen := 48, code := 2, done := true, rsp := [1, 2, 3] } } }

def replies (s : State) (w : HostWin) (a n : Nat) : Option (List (Option (List Byte))) := after s (.hostRead w a n) (·.ctd.reads)

/-- The register map: the readiness map, the generation, the journal, the mailbox, a tail, a completion index. -/
theorem test_hostReads :
    [(0x2018, 8), (0x2100, 8), (0x2110, 8), (0x3000, 8), (0x40E8, 8), (0x6000, 8), (0x6008, 8), (0x6800, 4), (0x6BFF, 1), (0x2200, 2)].map
        (fun x => replies ported .bar0 x.1 x.2) =
      [[9, 0, 0, 0, 0, 0, 0, 0], [0, 0, 0xFF, 0, 0x10, 0, 0, 0], [5, 0, 0, 0, 0, 0, 0, 0], [8, 0, 0, 0, 0, 0, 0, 0], [2, 0, 0, 0, 0, 0, 0, 0],
        [1, 0, 0x30, 0, 0, 0, 0, 0], [1, 2, 0, 0, 0, 0, 0, 0], [1, 2, 3, 0], [0], [0, 0]].map (fun bs => some [some bs]) := by
  decide +kernel

/-- A tail reads 0 while LPDDR6 is not ready; recovery answers the map and not the journal; past the mailbox is nothing. -/
theorem test_hostReadsGated :
    replies ported .bar2 0x3000 4 = some [some [2, 0, 0, 0]] ∧ replies (ported 0xFE) .bar2 0x3000 4 = some [some [0, 0, 0, 0]] ∧
    replies ported .bar4 64 2 = some [some [7, 0]] ∧ replies ported .bar0 0x6C00 8 = none ∧
    (replies { ctd := { recovery := true, ready := { gen := 5 } } } .bar0 0x2110 8).isSome = true ∧
    replies { ctd := { recovery := true, ready := { gen := 5 } } } .bar0 0x3000 8 = none := by
  and_intros <;> decide +kernel

/-- Another device adds an infinity, and 1, to the cell at 128. -/
theorem test_peerAdds :
    let s : State := { zone := 100, hbm := [(5, 7), (300, 1)], ctd := { ready := { pf := true, hbm := 0xFFFF, dv := 0xF } } }
    after s (.peerWrite 0 .hbm 128 [0x80, 0x7F] (.elem .b16)) (·.hbm) = some [(5, 7), (192, 1), (196, 1), (300, 1)] ∧
    after s (.peerWrite 0 .hbm 128 [0x80, 0x3F] (.elem .b16)) (·.hbm) = some [(5, 7), (158, 1), (196, 1), (300, 1)] := by
  and_intros <;> decide +kernel

/-- The record a queue takes next: not one taken already, nor a fence's follower; the debug bases lose their reserved bits. -/
theorem test_queueRecords :
    ((posted (le_ 2 2)).nextRecord 3).map (·.1) = some 0 ∧
    ((posted (le_ 2 2) [{ seeded with id := ⟨3, 0⟩ }]).nextRecord 3).map (·.1) = none ∧
    ((posted (le_ 256 1 ++ le_ 2 2) [{ seeded with phase := .deps }]).nextRecord 3).map (·.1) = some 1 ∧
    after (posted []) (.queueEnable 5 ⟨0x10000, 0x400000, 0x400, 0, 0xFFFFFFFFFFFFFFFF, 0x1FFF, 0x1FFF, 0x1FFF, 0x1FFF, 0, 0, 0⟩)
      (fun v => let z := v.lq 5; [z.dbgctl, z.slbase, z.trbase, z.hrbase, z.prbase]) = some [0xF80, 0x1000, 0x1000, 0x1000, 0x1000] := by
  and_intros <;> decide +kernel

/-! ### The walk of a launch's region list -/

/-- A launch in its walk, whose page table's one entry is `pte`. -/
def walking (img : List Byte) (pte : Nat) (read : Bool := true) (t : Option Ctx := none) : State :=
  { launched { seeded with phase := .walk, holdAt := some 40, reread := 100, imgDone := read, image := img, hdr := { sect := [(4, 0, 128, 0)] } } t with hbm := bytesFrom 0 (le_ 8 pte) }

/-- The statuses reported, and the launches left: their phase, since when the walk is held, and when it reads again. -/
def walked (s : State) : Option (List (LId × BitVec 16) × List (LPhase × Option Nat × Nat)) :=
  after s (.walkReread 3 9) fun v => (v.ctd.doneRecs, v.ctd.launches.map fun l => (l.phase, l.holdAt, l.reread))

/-- Rows that reach past the end of a page table's span. -/
def wide_ : List Byte :=
  (le_ 64 0 ++ [0x30, 1, 1, 1] ++ le_ 4 64 ++ le_ 4 0xFFFFFF ++ le_ 4 0x2000 ++ le_ 8 0 ++ le_ 8 0 ++ le_ 32 0).map (BitVec.ofNat 8)

/-- An entry of no page (PTFAULT), one with NRES or MIG set (held), an empty list (admitted), an offset past the page, a
class 7 with no link, a target that does not exist, rows past the span, an image that faults, an image held. -/
theorem test_walks :
    walked (walking (region_ 1 64 0 0) 0) = some ([(⟨3, 9⟩, 0x0104)], []) ∧
    walked (walking (region_ 1 64 0 0) 0x8000000000000001) = some ([], [(.walk, some 40, 30100)]) ∧
    walked (walking (region_ 1 64 0 0) 0x4000000000000001) = some ([], [(.walk, some 40, 30100)]) ∧
    walked (walking [] 0) = some ([], [(.admitting, none, 100)]) ∧
    walked (walking (region_ 1 64 0x1000 0) 1) = some ([(⟨3, 9⟩, 0x0104)], []) ∧
    walked (walking (region_ 7 64 0 0) 1) = some ([(⟨3, 9⟩, 0x0104)], []) ∧
    walked (walking (region_ 4 64 0 0x200000000000000) 1) = some ([(⟨3, 9⟩, 0x010E)], []) ∧
    walked (walking wide_ 1) = some ([(⟨3, 9⟩, 0x010D)], []) ∧
    walked (walking (List.replicate 256 0) 0 false) = some ([(⟨3, 9⟩, 0x0102)], []) ∧
    walked (walking [] 0x8000000000000001 false) = some ([], [(.walk, some 40, 30100)]) := by
  and_intros <;> decide +kernel

/-- WKICK makes the walks of a launch and of a context due; a launch's end retires its faulty tiles; a context's end keeps
its record codes. -/
theorem test_kickAndRetire :
    after (walking (region_ 1 64 0 0) 0x8000000000000001 true (some { saving 2 with imgAt := 900, imgHold := some 5 })) .wkick
      (fun v => (v.ctd.launches.map fun l => (l.phase, l.holdAt, l.reread), (v.ctx 0 0).imgAt)) = some ([(.walk, some 40, 30100)], 100) ∧
    after (launched { sown with started := true, reported := [0], faulty := [5] }) (.launchRetire 3 9) (·.ctd.retired) = some [.tile 5] ∧
    after (launched { sown with lockSets := [((0, 0), [])] } (some { worker with life := .retiring, dsum := 4 })) (.contextRetire 0 0)
      (fun v => v.ctd.launches.map fun l => (l.dcrsum, l.lastRetire)) = some [(4, 100)] := by
  and_intros <;> decide +kernel

/-! ### What the engines write -/

/-- An XATOM's template: the target at 0x200, its operands, the result at 0x240. -/
def atom (a b : Nat) : List Nat := le_ 8 0x80 ++ le_ 8 0x200 ++ le_ 8 a ++ le_ 8 b ++ le_ 8 0x240

/-- A caller of a launch issues the command, which then starts. -/
def launchedAt (t : Tile) (i : Instr) : Option State :=
  then? (next? i { inTile t { caller with launch := some ⟨3, 9⟩ } 6 i with ctd := (launched sown).ctd }) (.xeCommandStart 0 0 0)

def bytesAt (a n : Nat) (s : Option State) : Option (List Byte) := s.map fun v => (v.tile 0).scratch.read a n

/-- An add, a compare and swap that is met, and one that is not. -/
theorem test_atoms :
    let add := launchedAt (shed (atom 10 0)) (.xatom { xe with tix := 2, cmd := 0 })
    let swap (b : Nat) := launchedAt (shed (atom 10 b)) (.xatom { xe with tix := 2, cmd := 7 })
    bytesAt 0x200 1 add = some [0x0B] ∧ bytesAt 0x240 4 add = some [1, 2, 3, 4] ∧
    bytesAt 0x200 1 (swap 0x04030201) = some [0x0A] ∧ bytesAt 0x200 1 (swap 0x04030202) = some [1] := by
  and_intros <;> decide +kernel

/-- An XARM's template: counter 3 of the tile, 64 bytes at 0x200, 128 in all, and one release. -/
def arming : List Nat := [0x80, 3, 1, 0, 0, 0, 0, 0] ++ le_ 8 0x200 ++ le_ 8 0x40 ++ le_ 8 0x80 ++ le_ 32 0 ++ le_ 6 7 ++ [5, 0x80]

def armed (a : Arrival) : Option State := launchedAt { shed arming with arr := [(3, a)] } (.xarm { xe with tix := 2 })

/-- A free counter is armed, one of its own launch done before is armed anew, another's is refused; the release adds to
the counter when all has come. -/
theorem test_arming :
    (armed {}).map (fun v => let a := v.arrival (.tile 0) 3; (a.st, a.gen, a.base, a.len, a.total, a.rel.length)) = some (1, 1, 512, 64, 128, 1) ∧
    (armed { st := 2, own := ⟨3, 9⟩, gen := 4 }).map (fun v => (v.arrival (.tile 0) 3).gen) = some 5 ∧
    (armed { st := 1, own := ⟨4, 9⟩, gen := 4 }).map (fun v => ((v.arrival (.tile 0) 3).gen, ((v.ctx 0 0).queue 0).ecode, ((v.ctx 0 0).queue 0).qs)) =
      some (4, cXARMD, 1) ∧
    (then? ((armed {}).map fun v => v.setArrival (.tile 0) 3 { v.arrival (.tile 0) 3 with due := true }) (.arrivalRelease (.tile 0) 3)).map
      (fun v => ((v.tile 0).cnt, (v.arrival (.tile 0) 3).st)) = some ([(5, 17)], 2) := by
  and_intros <;> decide +kernel

/-- A context whose queue 0 runs the command with these beats left. -/
def worked (bs : List Beat) (i : Instr) (t : Tile := {}) (c : Ctx := caller) : State :=
  standing { c with xq := [(0, { issued := 1, run := some { e := { blank with word := ((encode i).getD (0, 0)).2, recs := [BitVec.ofNat 1024 (ofLe ((tensor 0 0 0).map (BitVec.ofNat 8)))] }, beats := bs } })] } t

def lands_ (bs : List Beat) (i : Instr) (t : Tile := {}) (c : Ctx := caller) : Option State := next? (.xeBeatLand 0 0 0 0) (worked bs i t c)

/-- A beat writes the bytes it has, clears its cell, or adds a zero to it; not past the cycle's 512 bytes. -/
theorem test_beats :
    (lands_ [.move (.scratch 0 0x40) ([none, some (.pad 5), some (.pad 9)] ++ List.replicate 61 none)] copy { scratch := [(3, 5), (0x40, 1), (0x41, 1)] }).map
      (fun v => (v.tile 0).scratch) = some [(3, 5), (64, 1), (65, 5), (66, 9)] ∧
    (lands_ [.clear (.scratch 0 0x80)] (.xqclr { xe with tix := 2 }) { scratch := [(3, 5), (0x80, 1), (0xFF, 1), (0x100, 7)] }).map
      (fun v => (v.tile 0).scratch) = some [(3, 5), (256, 7)] ∧
    (lands_ [.addend (.mem .hbm 0x80) [] none] (.xqadd { xe with tix := 2, fmt := .b16 })).map (·.hbm) = some [(196, 1)] ∧
    (lands_ [.move (.scratch 0 0x40) (List.replicate 64 (some (.pad 5)))] copy { moved := 449 }).isNone = true ∧
    (lands_ [.move (.scratch 0 0x40) (List.replicate 64 (some (.pad 5)))] copy { moved := 448 }).isSome = true := by
  and_intros <;> decide +kernel

/-- A FIFO entry is taken, and is filled a cycle later, or at once in a timed context; a retiring context takes none. -/
theorem test_entries :
    let fills (c : Ctx) := (lands_ [.entry .fa (List.replicate 256 (.pad 7))] (.xfill { xe with tix := 2 }) {} c).map
      fun v => ((v.ctx 0 0).fa.wr, (v.ctx 0 0).fa.tkn, (v.ctx 0 0).fa.avl, (v.ctx 0 0).inflight.length)
    fills caller = some (1, 1, 0, 1) ∧ fills { caller with timed := true } = some (1, 0, 1, 0) ∧ fills { caller with life := .retiring } = some (0, 0, 0, 0) := by
  and_intros <;> decide +kernel

def releasing (moved n : Nat) : Tile := { moved, decomp := some { k := 0, xq := 0, busy := false, staged := List.replicate n 7 } }

/-- The decompressor releases one FIFO entry, or the bytes of one block of the window, or as many as the cycle has left. -/
theorem test_releases :
    (next? (.decompRelease 0) (worked [] (.xdec { xe with tix := 2, cmd := 2 }) (releasing 0 300) { caller with timed := true })).map
      (fun v => ((v.ctx 0 0).fa.wr, (v.ctx 0 0).fa.avl, (v.tile 0).decomp.map (·.staged.length), (v.tile 0).moved)) = some (1, 1, some 44, 256) ∧
    (let out (m : Nat) := (next? (.decompRelease 0) (worked [] (.xdec { xe with tix := 2 }) (releasing m 600))).map
      fun v => [(v.tile 0).scratch.length, ((v.tile 0).decomp.map (·.staged.length)).getD 0, (v.tile 0).moved]
     out 0 = some [64, 536, 64] ∧ out 511 = some [1, 599, 512] ∧ out 512 = none) := by
  and_intros <;> decide +kernel

/-- An add to a context that has retired is dropped, and one to a saved context waits. -/
theorem test_lateAdds :
    let adding (x : State) : State := { x with ctd := { x.ctd with adds := [⟨⟨3, 9⟩, 0, 0, 5, 4, none, none, 0⟩] } }
    after (adding (launched sown (some { caller with life := .retired }))) (.remoteAddArrival 3 9 0 0 5 4) (fun v => ((v.tile 0).cnt, v.ctd.adds.length, v.ctd.heldAdds.length)) =
      some ([], 0, 0) ∧
    after (adding { launched sown with ctd := { (launched sown).ctd with savedAt := [⟨⟨3, 9⟩, 0, 0⟩] } }) (.remoteAddArrival 3 9 0 0 5 4)
      (fun v => (v.ctd.adds.length, v.ctd.heldAdds.length)) = some (0, 1) := by
  and_intros <;> decide +kernel

/-- The entries, the record and the frame that a block of a control read with an uncorrectable error spoils. -/
theorem test_badBlocksOfControl :
    let moves : State := { posted moving with hbm := bytesFrom 0x1000 (le_ 8 0x200003) }
    let ends (s : Option State) := s.map fun v => (v.ctd.doneRecs.map (·.2), v.ctd.retired)
    ends (next? (.walkReread 3 9) { walking (region_ 1 64 0 0) 0x8000000000000001 with badHbm := [0] }) = some ([stPTFAULT], [.hbm 0]) ∧
    ends (next? (.launchRecord 3) { posted (le_ 2 1 ++ [0, 0, 0, 0, 1]) with badLpddr := [0] }) = some ([stBADREC], [.lpddr 0]) ∧
    ends (next? (.migrateRecord 3) { moves with badHbm := [0x40] }) = some ([stPTFAULT], [.hbm 0]) ∧
    ends (then? (next? (.migrateRecord 3) { moves with badHbm := [0x8000] }) (.migrateComplete 3 0)) = some ([stFAULT], [.hbm 0]) := by
  and_intros <;> decide +kernel

/-- A context whose queue 0 runs a command that stands as given. -/
def engaged (r : Started) (i : Instr) (t : Tile := {}) (c : Ctx := caller) : State :=
  standing { c with xq := [(0, { issued := 1, run := some { r with e := { r.e with word := ((encode i).getD (0, 0)).2 } } })] } t

/-- A timed entry that comes before its cycle waits for it; then it is filled, and not before. -/
theorem test_earlyEntries :
    let fill : Instr := .xfill { xe with tix := 2 }
    let seen (r : Started) := (next? (.xeBeatLand 0 0 0 0) (engaged r fill {} { caller with timed := true })).map fun v =>
      ((v.ctx 0 0).fa.wr, ((v.ctx 0 0).queue 0).run.map fun r => (r.staged, r.napp))
    let e (at_ : Nat) : XEntry := { blank with due := some 200, fifoDue := at_ }
    seen { e := e 101, beats := [.entry .fa (List.replicate 256 (.pad 0))] } = some (0, some ([0], 0)) ∧
    seen { e := e 100, beats := [.entry .fa (List.replicate 256 (.pad 0))] } = some (1, some ([], 1)) ∧
    seen { e := e 101, staged := [5] } = none ∧ seen { e := e 100, staged := [5] } = some (1, some ([], 1)) := by
  and_intros <;> decide +kernel

/-- The word that brings an arrival counter to its total holds its command back until the release. -/
theorem test_owedReleases :
    let word : Instr := .xword ⟨always, 0, true, 0, 4, 0, 0x20⟩
    let r : Started := { e := { blank with vals := [7, 0x100] } }
    let count (total : Nat) : Tile := { arr := [(3, { st := 1, len := 0x400, total })] }
    let seen (s : Option State) := s.map fun v => ((v.ctx 0 0).queue 0).run.map fun r => (r.wrote, r.owed)
    seen (next? (.xeCommandComplete 0 0 0) (engaged r word (count 9))) = some none ∧
    seen (next? (.xeCommandComplete 0 0 0) (engaged r word (count 8))) = some (some (true, [(.tile 0, 3)])) ∧
    seen (then? (next? (.xeCommandComplete 0 0 0) (engaged r word (count 8))) (.xeCommandComplete 0 0 0)) = none ∧
    seen (then? (then? (next? (.xeCommandComplete 0 0 0) (engaged r word (count 8))) (.arrivalRelease (.tile 0) 3)) (.xeCommandComplete 0 0 0)) =
      some none := by
  and_intros <;> decide +kernel

/-- A counter given to a launch still to be loaded there cannot be taken; one of the same name that came later is another launch. -/
theorem test_promised :
    let s := at_ { worker with s := [(4, 77)] } 0 (.cmapWrite always 4 3) true
    let given (n : Nat) : State := { s with ctd := { launches := [{ sown with toPlace := [0], furrows := [⟨0, 0, [{ phys := [n] }]⟩] }] } }
    [77, 78].map (fun n => (next? (.cmapWrite always 4 3) (given n)).map fun v => ((v.ctx 0 0).ecause.setWidth 8, (v.ctx 0 0).inflight.map (·.w))) =
      [some (cILL, []), some (0, [.cmap 3 77])] ∧
    [4, 5].map (fun g => ((launched { sown with accSeq := 4 }).bearer ⟨3, 9⟩ g).isSome) = [true, false] := by
  and_intros <;> decide +kernel

/-- A rollback takes a stop away with the rest, and what an operation added to a counter. -/
theorem test_rollback :
    let k : Check := { shadow := some { pc := 9 }, sets := [(5, 3)], passed := [2] }
    let s := launched sown (some { worker with pc := 12, fstop := some stop, mute := true, chk := some k })
    let v := (s.setTile 0 { s.tile 0 with cnt := [(5, 10)] }).rollback 0 0
    (v.ctx 0 0).pc = 9 ∧ (v.ctx 0 0).fstop = none ∧ (v.ctx 0 0).mute = false ∧ (v.tile 0).cnt = [(5, 7)] ∧
    v.ctd.launches.map (·.barRel) = [[(2, 0)]] := by
  intro k s v; and_intros <;> decide +kernel

/-- A write to the register that discards writes reaches no hash; the log keeps the counters of two controllers apart. -/
theorem test_logs :
    (Write.sreg 0 5).silent = true ∧ (Write.sreg 1 5).silent = false ∧
    [(5, 0, 3), (5, 1, 3), (6, 0, 3)].map (fun x => (SyncRec.fits { zc := 0, value := 0, kind := 4, obj := 5, tile := 3, k := 0, ctl := 0 } 4 x.1 x.2.2 0 x.2.1)) =
      [true, false, false] := by
  and_intros <;> decide +kernel

end Sys2Proof.Tests
end

section
/-! SUPPORT. The system registers read after a write (O13): one equation of `Op.sysRead` and one of `Ctx.sysWrite` for each
group of registers (Tables 9.6, 9.7), and what the packed words of a loop-stack entry and of a flag array give back. -/

namespace Sys2Proof.Machine

/-! ### Packed words -/

/-- The even word of a loop-stack entry keeps the bits of its four fields (Table 8.1). -/
theorem Level.lo_setLo (l : Level) (v : Word) : (l.setLo v).lo = v &&& 0xFFFFFFFF0003 := by
  have defined : ∀ i < 64, (0xFFFFFFFF0003 : Word).getLsbD i = decide (i < 2 ∨ 16 ≤ i ∧ i < 48) := by decide
  apply BitVec.eq_of_getLsbD_eq
  intro i hi
  rw [BitVec.getLsbD_and, defined i hi]
  simp only [Level.lo, Level.setLo, BitVec.getLsbD_or, BitVec.getLsbD_shiftLeft, BitVec.getLsbD_setWidth,
    BitVec.getLsbD_ushiftRight, BitVec.getLsbD_ofBool]
  obtain flag | start | len | undefined :
      i < 2 ∨ (16 ≤ i ∧ i < 32) ∨ (32 ≤ i ∧ i < 48) ∨ ((2 ≤ i ∧ i < 16) ∨ 48 ≤ i) := by omega
  · grind
  · grind
  · grind
  · grind

/-- The odd word of a loop-stack entry gives back every bit (Table 8.1). -/
theorem Level.hi_setHi (l : Level) (w : Word) : (l.setHi w).hi = w := by
  apply BitVec.eq_of_getLsbD_eq
  intro i hi
  by_cases h : i < 32
  · simp [Level.hi, Level.setHi, hi, h]
  · have : i - 32 < 32 := by omega
    simp [Level.hi, Level.setHi, hi, h, this, show 32 + (i - 32) = i by omega]

/-- A word of a flag array reads back as it was replaced. -/
theorem extractLsb'_flgWord (f : FlgVec) {j : Nat} (hj : j < 16) (v : Word) :
    (flgWord f j v).extractLsb' (64 * j) 64 = v := by
  apply BitVec.eq_of_getLsbD_eq
  intro i hi
  have inside : 64 * j + i < 1024 := by omega
  have fits : i < 1024 := by omega
  have above : ¬ 64 * j + i < 64 * j := by omega
  have replaced : ((BitVec.allOnes 64).setWidth 1024).getLsbD i = true := by
    simp only [BitVec.getLsbD_setWidth, BitVec.getLsbD_allOnes, hi, fits, decide_true, Bool.true_and]
  have written : (v.setWidth 1024).getLsbD i = v.getLsbD i := by
    simp only [BitVec.getLsbD_setWidth, fits, decide_true, Bool.true_and]
  simp only [flgWord, BitVec.getLsbD_extractLsb', BitVec.getLsbD_or, BitVec.getLsbD_and, BitVec.getLsbD_not,
    BitVec.getLsbD_shiftLeft, Nat.add_sub_cancel_left, hi, inside, above, replaced, written, decide_true, decide_false,
    Bool.not_false, Bool.not_true, Bool.true_and, Bool.and_false, Bool.false_or]

/-! ### The history after a write of KEY (R327) -/

/-- The draw history without the VAL of entry `i`. -/
def clearVal (m : SMap Word) (i : Nat) : SMap Word :=
  SMap.set 0 m (2 * i) (SMap.get 0 m (2 * i) &&& ~~~(1#64 <<< 63))

theorem Ctx.sysWrite_key_dhist (c : Ctx) (w : Word) :
    (c.sysWrite 0x000 w).dhist = (List.range 16).foldl clearVal c.dhist := rfl

/-- Clearing the VAL of an entry leaves those of the others. -/
theorem val_clearVal (m : SMap Word) (i n : Nat) :
    (SMap.get 0 (clearVal m i) (2 * n)).getLsbD 63 = (decide (n ≠ i) && (SMap.get 0 m (2 * n)).getLsbD 63) := by
  by_cases h : n = i
  · simp [clearVal, h]
  · have other : 2 * n ≠ 2 * i := by omega
    simp only [clearVal, SMap.get_set_other 0 m other, ne_eq, h, not_false_eq_true, decide_true, Bool.true_and]

/-- After clearing the entries of a list, exactly the other entries keep their VAL. -/
theorem val_foldl_clearVal (l : List Nat) (m : SMap Word) (n : Nat) :
    (SMap.get 0 (l.foldl clearVal m) (2 * n)).getLsbD 63 = (decide (n ∉ l) && (SMap.get 0 m (2 * n)).getLsbD 63) := by
  induction l generalizing m with
  | nil => simp
  | cons i l ih =>
    rw [List.foldl_cons, ih, val_clearVal, ← Bool.and_assoc]
    simp [Bool.and_comm]

/-! ### What a read gives (Table 9.6) -/

section Reads
variable (o : Op) {i : Nat}

theorem Op.sysRead_view (h : i < 4) : o.sysRead (0x010 + i) = o.c.toCore.view i := by
  simp (disch := omega) only [Op.sysRead, Bool.and_eq_true, decide_eq_true_eq, if_neg, if_pos, Nat.add_sub_cancel_left]

theorem Op.sysRead_sscr (h : i < 4) : o.sysRead (0x028 + i) = SMap.get 0 o.c.sscr i := by
  simp (disch := omega) only [Op.sysRead, Bool.and_eq_true, decide_eq_true_eq, if_neg, if_pos, Nat.add_sub_cancel_left]

theorem Op.sysRead_dcr (h : i < 32) : o.sysRead (0x030 + i) = SMap.get 0 o.c.dcr i := by
  simp (disch := omega) only [Op.sysRead, Bool.and_eq_true, decide_eq_true_eq, if_neg, if_pos, Nat.add_sub_cancel_left]

theorem Op.sysRead_level (h : i < 12) :
    o.sysRead (0x060 + i) = let l := o.c.toCore.level (i / 2); if (0x060 + i) % 2 = 0 then l.lo else l.hi := by
  simp (disch := omega) only [Op.sysRead, Bool.and_eq_true, decide_eq_true_eq, if_neg, if_pos, Nat.add_sub_cancel_left]

theorem Op.sysRead_flga (h : i < 16) : o.sysRead (0x100 + i) = o.regs.flga.extractLsb' (64 * i) 64 := by
  simp (disch := omega) only [Op.sysRead, Bool.and_eq_true, decide_eq_true_eq, if_neg, if_pos, Nat.add_sub_cancel_left]

theorem Op.sysRead_flgb (h : i < 16) : o.sysRead (0x110 + i) = o.regs.flgb.extractLsb' (64 * i) 64 := by
  simp (disch := omega) only [Op.sysRead, Bool.and_eq_true, decide_eq_true_eq, if_neg, if_pos, Nat.add_sub_cancel_left]

theorem Op.sysRead_dhist (h : i < 32) : o.sysRead (0x120 + i) = SMap.get 0 o.c.dhist i := by
  simp (disch := omega) only [Op.sysRead, Bool.and_eq_true, decide_eq_true_eq, if_neg, if_pos, Nat.add_sub_cancel_left]

end Reads

/-! ### What a write leaves (Table 9.7) -/

section Writes
variable (c : Ctx) (w : Word) {i : Nat}

theorem Ctx.sysWrite_kept (n : Nat) : (c.sysWrite n w).kept = c.kept := by
  simp only [Ctx.sysWrite, apply_ite fun d : Ctx => d.kept, ite_self]

theorem Ctx.sysWrite_view (h : i < 4) : (c.sysWrite (0x010 + i) w).toCore.view i = w &&& sysMask (0x010 + i) := by
  simp (disch := omega) only [Ctx.sysWrite, Core.view, Bool.and_eq_true, decide_eq_true_eq, if_neg, if_pos,
    Nat.add_sub_cancel_left, SMap.get_set_same]

theorem Ctx.sysWrite_sscr (h : i < 4) : SMap.get 0 (c.sysWrite (0x028 + i) w).sscr i = w &&& sysMask (0x028 + i) := by
  simp (disch := omega) only [Ctx.sysWrite, Bool.and_eq_true, decide_eq_true_eq, if_neg, if_pos,
    Nat.add_sub_cancel_left, SMap.get_set_same]

theorem Ctx.sysWrite_dcr (h : i < 32) : SMap.get 0 (c.sysWrite (0x030 + i) w).dcr i = w &&& sysMask (0x030 + i) := by
  simp (disch := omega) only [Ctx.sysWrite, Bool.and_eq_true, decide_eq_true_eq, if_neg, if_pos,
    Nat.add_sub_cancel_left, SMap.get_set_same]

theorem Ctx.sysWrite_level (h : i < 12) :
    (c.sysWrite (0x060 + i) w).toCore.level (i / 2) =
      let l := c.toCore.level (i / 2)
      let v := w &&& sysMask (0x060 + i)
      if (0x060 + i) % 2 = 0 then l.setLo v else l.setHi v := by
  simp (disch := omega) only [Ctx.sysWrite, Core.level, Bool.and_eq_true, decide_eq_true_eq, if_neg, if_pos,
    Nat.add_sub_cancel_left, SMap.get_set_same]

theorem Ctx.sysWrite_flga (h : i < 16) : (c.sysWrite (0x100 + i) w).flga = flgWord c.flga i (w &&& sysMask (0x100 + i)) := by
  simp (disch := omega) only [Ctx.sysWrite, Bool.and_eq_true, decide_eq_true_eq, if_neg, if_pos, Nat.add_sub_cancel_left]

theorem Ctx.sysWrite_flgb (h : i < 16) : (c.sysWrite (0x110 + i) w).flgb = flgWord c.flgb i (w &&& sysMask (0x110 + i)) := by
  simp (disch := omega) only [Ctx.sysWrite, Bool.and_eq_true, decide_eq_true_eq, if_neg, if_pos, Nat.add_sub_cancel_left]

theorem Ctx.sysWrite_dhist (h : i < 32) :
    SMap.get 0 (c.sysWrite (0x120 + i) w).dhist i = w &&& sysMask (0x120 + i) := by
  simp (disch := omega) only [Ctx.sysWrite, Bool.and_eq_true, decide_eq_true_eq, if_neg, if_pos,
    Nat.add_sub_cancel_left, SMap.get_set_same]

end Writes

theorem sysMask_level {i : Nat} (h : i < 12) :
    sysMask (0x060 + i) = if (0x060 + i) % 2 = 0 then 0xFFFFFFFF0003 else BitVec.allOnes 64 := by
  simp (disch := omega) only [sysMask, Bool.and_eq_true, decide_eq_true_eq, if_neg, if_pos]

/-! ### A read after a write (R6, R188) -/

/-- A context that keeps no operands gives its present registers. -/
theorem Op.regs_of_kept_none {o : Op} (h : o.c.kept = none) : o.regs = o.c.toRegs := by
  simp [Op.regs, h]

section ReadAfterWrite
variable {o : Op} {c : Ctx} {w : Word} {n i : Nat}

/-- The registers that are whole fields of a context. -/
theorem Op.sysRead_sysWrite_field (hc : o.c = c.sysWrite n w) (hr : o.regs = o.c.toRegs)
    (hn : n ∈ [0x000, 0x001, 0x002, 0x003, 0x006, 0x007, 0x020, 0x021, 0x022, 0x023, 0x024, 0x025, 0x026]) :
    o.sysRead n = w &&& sysMask n := by
  simp only [List.mem_cons, List.not_mem_nil, or_false] at hn
  rcases hn with rfl | rfl | rfl | rfl | rfl | rfl | rfl | rfl | rfl | rfl | rfl | rfl | rfl <;>
    simp [Op.sysRead, hr, hc, Ctx.sysWrite]

/-- The two words of a loop-stack entry. -/
theorem Op.sysRead_sysWrite_level (hc : o.c = c.sysWrite (0x060 + i) w) (h : i < 12) :
    o.sysRead (0x060 + i) = w &&& sysMask (0x060 + i) := by
  rw [o.sysRead_level h, hc, c.sysWrite_level w h, sysMask_level h]
  by_cases even : (0x060 + i) % 2 = 0
  · simp only [even, if_true, Level.lo_setLo, BitVec.and_assoc, BitVec.and_self]
  · simp only [even, if_false, Level.hi_setHi]

/-- The words of the two flag arrays. -/
theorem Op.sysRead_sysWrite_flags (hc : o.c = c.sysWrite (0x100 + i) w) (hr : o.regs = o.c.toRegs) (h : i < 32) :
    o.sysRead (0x100 + i) = w &&& sysMask (0x100 + i) := by
  by_cases first : i < 16
  · rw [o.sysRead_flga first, hr, hc, c.sysWrite_flga w first, extractLsb'_flgWord _ first]
  · obtain ⟨j, rfl⟩ : ∃ j, i = 0x010 + j := ⟨i - 0x010, by omega⟩
    have hj : j < 16 := by omega
    rw [← Nat.add_assoc] at hc ⊢
    rw [o.sysRead_flgb hj, hr, hc, c.sysWrite_flgb w hj, extractLsb'_flgWord _ hj]

/-- The registers that SYSW writes whole in their defined bits: not ZONE and FIELD, which ignore writes, not PREQ, of which it
writes OP alone, and not the counters and their map. -/
def readBack : List Nat :=
  [0x000, 0x001, 0x002, 0x003, 0x006, 0x007, 0x020, 0x021, 0x022, 0x023, 0x024, 0x025, 0x026] ++
    (List.range 4).map (0x010 + ·) ++ (List.range 4).map (0x028 + ·) ++ (List.range 32).map (0x030 + ·) ++
    (List.range 12).map (0x060 + ·) ++ (List.range 32).map (0x100 + ·) ++ (List.range 32).map (0x120 + ·)

/-- A read after a write gives the defined bits written. -/
theorem Op.sysRead_sysWrite (hc : o.c = c.sysWrite n w) (hk : c.kept = none) (hn : n ∈ readBack) :
    o.sysRead n = w &&& sysMask n := by
  have hr : o.regs = o.c.toRegs := Op.regs_of_kept_none (by rw [hc, c.sysWrite_kept, hk])
  simp only [readBack, List.mem_append, List.mem_map, List.mem_range] at hn
  obtain (((((hn | ⟨i, hi, rfl⟩) | ⟨i, hi, rfl⟩) | ⟨i, hi, rfl⟩) | ⟨i, hi, rfl⟩) | ⟨i, hi, rfl⟩) | ⟨i, hi, rfl⟩ := hn
  · exact Op.sysRead_sysWrite_field hc hr hn
  · rw [o.sysRead_view hi, hc, c.sysWrite_view w hi]
  · rw [o.sysRead_sscr hi, hc, c.sysWrite_sscr w hi]
  · rw [o.sysRead_dcr hi, hc, c.sysWrite_dcr w hi]
  · exact Op.sysRead_sysWrite_level hc hi
  · exact Op.sysRead_sysWrite_flags hc hr hi
  · rw [o.sysRead_dhist hi, hc, c.sysWrite_dhist w hi]

end ReadAfterWrite

/-- Settles O13: SYSR sends what `Op.sysRead_sysWrite` says was written, and the landing of KEY clears the VAL of all sixteen
entries (`val_foldl_clearVal`). -/
theorem systemRegisterReadAfterWrite : Obligations.SystemRegisterReadAfterWrite := by
  unfold Obligations.SystemRegisterReadAfterWrite
  constructor
  · intro s u p sd num c w hown hkept hnum
    refine State.gives_one (eff := fun o => o.land 2 (.sreg sd.toNat (o.sysRead num.toNat))) rfl fun rest => ?_
    rw [Op.sysRead_sysWrite (o := opOf s u 0 rest) hown hkept hnum]
  · intro c w n hn
    rw [c.sysWrite_key_dhist, val_foldl_clearVal]
    simp [hn]

end Sys2Proof.Machine
end
